-- ==== Sys2Proof/Word.lean ====
section
/-! DEFINITION. The word types of the block and nothing else (rule R12: all counters, tags and
addresses are unsigned bit strings, bit 0 least significant). -/

namespace Sys2Proof

/-- One byte on the wire, in a buffer or in a key. -/
abbrev Byte := BitVec 8

/-- A 32-bit quantity: a descriptor word, a CTAG, the SSR, `TC`, `DMC` (rules R9, R90). -/
abbrev Word := BitVec 32

/-- A byte string, byte 0 first (rule R12: transmitted first, lowest buffer offset). -/
abbrev Bytes := List Byte

end Sys2Proof
end

