-- ==== Sys2Proof/Config.lean ====
section
/-! DEFINITION. What an implementation fixes (rules R9, R10, R39), the types of the block's ports
(rules R61, R160, R356), and the values the spec leaves to the environment: OPAQUE constants, so that
no proof can see what they are. -/

namespace Sys2Proof.Config

/-! ## Sizes the source fixes (rule R9) -/

/-- `PAGE_SIZE`: one cipher block granularity (rules R9, R63). -/
def pageSize : Nat := 32
/-- `SIG_BITS / 8` (rule R9). -/
def sigBytes : Nat := 8
/-- `NONCE_BITS / 8` (rule R9). -/
def nonceBytes : Nat := 8
/-- `TC_MIN` (rule R9). -/
def tcMin : Nat := 0x10
/-- `TC_LIM`, exclusive (rule R9). -/
def tcLim : Nat := 0xFFFFFFFF
/-- `DMC_LIM`, exclusive (rule R9). -/
def dmcLim : Nat := 0x3FFFFFFF
/-- `WIPE_BYTE` (rules R9, R30; conflict C2). -/
def wipeByte : Byte := 0xFF
/-- `KID_INVALID`, the sentinel of the `kid` register (rule R98). -/
def kidInvalid : Byte := 0xFF

/-! ## Parameters the source leaves open (rule R10) -/

/-- `WIRE_OPCODE[name]` (rule R110): the opcode byte of the CTAG of each wire command. -/
structure WireOpcodes where
  getMc : Byte := 0x40
  sessionOpen : Byte := 0x44
  initPa : Byte := 0x45
  calcSig : Byte := 0x46
  srd : Byte := 0x50
  sard : Byte := 0x51
  sawr : Byte := 0x52
  setKey : Byte := 0x60
  setSuid : Byte := 0x61
  setGmc : Byte := 0x62
  setGmt : Byte := 0x63
  setAwdt : Byte := 0x64
  setScr : Byte := 0x65
  setRstResp : Byte := 0x66
  setAclr : Byte := 0x67
  erase4k : Byte := 0x70
  erase32k : Byte := 0x71
  erase64k : Byte := 0x72
  eraseSection : Byte := 0x73
  eraseChip : Byte := 0x74
deriving DecidableEq, Repr

/-- `SSR_LAYOUT` (rule R100): the bit position of each SSR field; `kidLo` is the lowest bit of the
8-bit `KID` field. -/
structure SsrLayout where
  busy : Nat := 0
  respReady : Nat := 1
  sesReady : Nat := 2
  err : Nat := 3
  sesErr : Nat := 4
  intgErr : Nat := 5
  authErr : Nat := 6
  privErr : Nat := 7
  ignoreErr : Nat := 8
  sysErr : Nat := 9
  flashErr : Nat := 10
  mcErr : Nat := 11
  kidLo : Nat := 16
deriving DecidableEq, Repr

/-- The number of each status (rule R340, I20). -/
structure StatusCodes where
  ok : Byte := 0
  parameterErr : Byte := 1
  notConnected : Byte := 2
  connectivityErr : Byte := 3
  securityErr : Byte := 4
  systemInIncorrectState : Byte := 5
  deviceBusy : Byte := 6
  deviceErr : Byte := 7
  deviceMcErr : Byte := 8
  deviceFlashErr : Byte := 9
  deviceSystemErr : Byte := 10
  commandIgnored : Byte := 11
  devicePrivilegeErr : Byte := 12
  deviceAuthenticationErr : Byte := 13
  deviceIntegrityErr : Byte := 14
  deviceSessionErr : Byte := 15
deriving DecidableEq, Repr

/-- `MC_USE_ORDER` (rules R10, R316): what `use_mc` returns. -/
inductive McUseOrder where
  | incrementThenFetch
  | fetchThenIncrement
deriving DecidableEq, Repr

/-- `MULTI_ZERO` (rules R10, R257; conflict C5): what `SARD_Multi` zeroes on a signature mismatch. -/
inductive MultiZero where
  | remaining
  | all
deriving DecidableEq, Repr

/-- The section a `CALC_SIG` command carries for a data type that does not use one: the one given, as rules R99 and R180
write it, or 0, as a cell in the table of rule R111 says. DESIGN CHOICE, unsafe: the model follows R180 and keeps the
other reading as a parameter (log 26). -/
inductive UnusedSection where
  | sentAsGiven
  | sentAsZero
deriving DecidableEq, Repr

/-- Every parameter of rule R10 and the status numbers of rule R340, with the defaults the spec takes, and one parameter
of the model's own. Fixed for the life of the
block (rule R39): no step changes it. DESIGN CHOICE, safe: they are a field of State (log 1). -/
structure Params where
  keyBytes : Nat := 16
  numSections : Nat := 8
  widBytes : Nat := 8
  addrRandBits : Nat := 5
  /-- `AddrSwizzle` (rule R96; I19), a parameter constrained only to be a bijection on 24-bit values: the reversal
  of the three bytes (the default of decision D12) followed by the exchanges of two values listed here, in order.
  Every list gives a bijection and every bijection has a list (`addrSwizzle_bijective`, `exists_addrSwizzle`). -/
  addrSwizzle : List (BitVec 24 × BitVec 24) := []
  op0Code : Byte := 0xA0
  op1Code : Byte := 0xA1
  op2Code : Byte := 0xA2
  op0Dummy : Byte := 0
  op1Dummy : Byte := 0
  op2Dummy : Byte := 0
  stdWren : Byte := 0x06
  stdRsten : Byte := 0x66
  stdRst : Byte := 0x99
  wire : WireOpcodes := {}
  ssr : SsrLayout := {}
  /-- `DOUBLE_WAIT` (rules R283, R289): wire opcodes whose busy-wait is done twice. -/
  doubleWait : List Byte := [wire.sawr, wire.calcSig]
  /-- `POLL_FOR_READY` (rules R285, R289). -/
  pollForReady : List Byte := [wire.calcSig]
  /-- `MODE_FLIP` (rules R282, R289). -/
  modeFlip : List Byte := []
  capQpiExitReenter : Bool := false
  /-- `CAP_HASH_OPT_ASYNC`: changes timing only (rule R190), so no step reads it. DEDUCED, safe (log 20). -/
  capHashOptAsync : Bool := false
  /-- `CAP_MULTI_TRANSACTION_SPI`: no described effect (rule R10, decision D46), so no step reads it. -/
  capMultiTransactionSpi : Bool := false
  mcUseOrder : McUseOrder := .incrementThenFetch
  multiZero : MultiZero := .remaining
  resetInvalidatesSession : Bool := true
  errorClearsInSync : Bool := false
  /-- The status numbers (rule R340, I20): a parameter that rule R10 does not list. -/
  status : StatusCodes := {}
  /-- The model's own parameter; its default is what rules R99 and R180 say (log 26). -/
  unusedSection : UnusedSection := .sentAsGiven
deriving DecidableEq, Repr

/-! ## The ports -/

/-- One transport exchange as the block requests it (rules R61, R77). `masked` records whether the
request "interrupts masked" (rule R352) was up when it was made. -/
structure Exchange where
  busMode : Byte
  dtr : Bool
  opcode : Byte
  addr : Option Word
  addrSize : Byte
  write : Bytes
  dummy : Byte
  readLen : Nat
  masked : Bool
deriving DecidableEq, Repr

/-- What the environment answers to one exchange (rules R61, R62): the bytes read, a link failure, or
the block's own reset input being asserted while the exchange is under way (rule R381). -/
inductive Answer where
  | bytes (b : Bytes)
  | linkError
  | reset
deriving DecidableEq, Repr, Inhabited

/-- The calls of the crypto port (rule R160). -/
inductive CryptoCall where
  | nonce
  | randomBits
  | deriveSession
  | refreshSsk
  | buildCipherKey
  | cipher
  | calcAuthSignature
  | addressKey
deriving DecidableEq, Repr

/-- One observable event on the block's service ports, in the order they happen (rules R21, R71,
R258): an exchange with its answer, the two bus sub-mode requests of rule R282, a crypto call. -/
inductive Event where
  | exchange (x : Exchange) (a : Answer)
  | busModeExit
  | busModeReenter
  | crypto (c : CryptoCall)
deriving DecidableEq, Repr

/-- The direction argument of `Crypto.BuildCipherKey` (rule R160). -/
inductive Direction where
  | encrypt
  | decrypt
deriving DecidableEq, Repr

/-! ## Values the environment chooses (free values: no body, nothing can evaluate them) -/

/-- The device's answer to an exchange that no scripted answer covers, as an arbitrary function of
everything the block has done on its ports so far (rule R62: "the device is an oracle"; I14). DESIGN CHOICE, safe:
the scripted answers, then this constant, stand for the device (log 3). -/
opaque deviceAnswer : List Event → Answer

/-- How many polls past the scripted answers a poll loop is followed before the run is declared stuck
(rule R288: "a fuel parameter that runs out, never ... a status"; I16). DESIGN CHOICE, unsafe (log 5). -/
opaque pollBound : Nat

/-- The result of the n-th draw of the random source, as a nonce (rules R35, R160; I13). DESIGN CHOICE, safe
(log 6). -/
opaque nonceDraw : Nat → Bytes

/-- The result of the n-th draw of the random source, as random bits (rules R35, R160; I13). -/
opaque randomDraw : Nat → Word

/-- `Crypto.DeriveSessionKeyAndSignature(key, ctag, tc, dmc, nonce, wid?)` (rule R160; I18). The crypto functions
have no body: DESIGN CHOICE, safe (log 7). -/
opaque deriveSession : Bytes → Word → Word → Word → Bytes → Option Bytes → Bytes × Bytes

/-- `Crypto.RefreshSSK(key, tc)` (rule R160; I18). -/
opaque refreshSsk : Bytes → Word → Bytes

/-- `Crypto.BuildCipherKey(ssk, kid, dir)` (rule R160; I18). -/
opaque buildCipherKey : Bytes → Byte → Direction → Bytes

/-- A map of pages for each cipher key, from which the involution `Crypto.Cipher` is made (rules R160,
R161; I18). -/
opaque cipherMap : Bytes → Bytes → Bytes

/-- `Crypto.CalcAuthSignature(ssk, kid, ctag, data32)` (rule R160; I18). -/
opaque calcAuthSignature : Bytes → Byte → Word → Bytes → Bytes

/-- `Crypto.AddressKey(ck)` (rule R160; I18). -/
opaque addressKey : Bytes → BitVec 24

/-- What the read buffer holds where rule R20, R75 or R348 says "unspecified"; the argument is a counter
in State, so that each occasion is a value of its own. DESIGN CHOICE, safe (log 8). -/
opaque freeRbuf : Nat → Bytes
/-- As `freeRbuf`, for `sigOut`. -/
opaque freeSigOut : Nat → Bytes
/-- As `freeRbuf`, for `ctagOut`. -/
opaque freeCtagOut : Nat → Word
/-- As `freeRbuf`, for `ssrOut`. -/
opaque freeSsrOut : Nat → Word
/-- What the host reads in `status` while an operation is in progress (rule R75; I10). -/
opaque freeStatus : Nat → Byte

end Sys2Proof.Config
end

