-- ==== Sys2Proof/Syntax.lean ====
section
/-! DEFINITION. The instructions: one constructor per row of spec/opcode_table.json. The table has three
spaces: the host operations of the command port (format `CMD`, rules R90, R112), the wire commands the
sequencer sends in an OP1 frame (formats `CTAG_P` and `CTAG_A`, rules R92, R93, R110, R111) and the bus
opcodes it passes to the transport (format `BUS`, rules R103, R109). -/

namespace Sys2Proof

/-- The three encodings of the table (R90, R92, R103). -/
inductive Space where
  | host
  | wire
  | bus
deriving DecidableEq, Repr

/-- One constructor per row of the opcode table. A host operation carries exactly the descriptor fields and
flags it reads (rule R112); a wire command carries its whole CTAG but for the opcode byte. -/
inductive Instr where
  /-- `TM_CONNECT`, rule R271. -/
  | tmConnect
  /-- `TM_DISCONNECT`, rule R272. -/
  | tmDisconnect
  /-- `TM_SECURE`, rule R298. -/
  | tmSecure (wantSsr : Bool) (ctag : Word) (size : BitVec 16) (readLen : Word)
  /-- `TM_STANDARD`, rule R293. -/
  | tmStandard (writeEnable : Bool) (waitBusy : Bool) (hasAddr : Bool) (addr : Word) (size : BitVec 16) (addrSize : Byte) (dummy : Byte) (opcode : Byte) (readLen : BitVec 16)
  /-- `GET_LAST_SSR`, rule R294. -/
  | getLastSsr
  /-- `SYNCH_MC`, rule R315. -/
  | synchMc
  /-- `GET_MC_UNSIGNED`, rule R318. -/
  | getMcUnsigned
  /-- `CHECK_LAST_SSR_ERRORS`, rule R310. -/
  | checkLastSsrErrors (mask : Word)
  /-- `SESSION_OPEN`, rule R143. -/
  | sessionOpen (kid : Byte) (hasKey : Bool) (includeWid : Bool) (ignoreScr : Bool)
  /-- `SESSION_CLOSE__REVOKE_PA_1`, rule R146. -/
  | sessionCloseRevoke (kid : Byte)
  /-- `SESSION_CLOSE__REVOKE_PA_0`, rule R147. -/
  | sessionClose (kid : Byte)
  /-- `SIGN_DATA`, rule R162. -/
  | signData (refresh : Bool) (ctag : Word) (size : BitVec 16)
  /-- `PREPARE_SIGNED_SETTER`, rule R163. -/
  | prepareSignedSetter (encData : Bool) (encAddr : Bool) (ctag : Word) (size : BitVec 16)
  /-- `EXECUTE_SIGNED_SETTER`, rule R164. -/
  | executeSignedSetter (encData : Bool) (encAddr : Bool) (ctag : Word) (size : BitVec 16) (mask : Word)
  /-- `SET_KEY`, rule R165. -/
  | setKey (kid : Byte) (size : BitVec 16)
  /-- `SET_SUID`, rule R166. -/
  | setSuid (size : BitVec 16)
  /-- `SET_GMC`, rule R167. -/
  | setGmc (size : BitVec 16)
  /-- `SET_GMT`, rule R168. -/
  | setGmt (size : BitVec 16)
  /-- `SET_AWDT`, rule R169. -/
  | setAwdt (size : BitVec 16)
  /-- `SET_SCR`, rule R170. -/
  | setScr (chainInitPa : Bool) (chainReset : Bool) (size : BitVec 16) (sect : Byte)
  /-- `SET_RST_RESP`, rule R171. -/
  | setRstResp (size : BitVec 16)
  /-- `SET_ACLR`, rule R172. -/
  | setAclr (size : BitVec 16)
  /-- `GET_WID`, rule R181. -/
  | getWid (size : BitVec 16)
  /-- `GET_SUID`, rule R182. -/
  | getSuid (size : BitVec 16)
  /-- `GET_SSR_SIGNED`, rule R183. -/
  | getSsrSigned (size : BitVec 16)
  /-- `GET_GMC`, rule R184. -/
  | getGmc (size : BitVec 16)
  /-- `GET_GMT`, rule R185. -/
  | getGmt (size : BitVec 16)
  /-- `GET_AWDT`, rule R186. -/
  | getAwdt (size : BitVec 16)
  /-- `GET_SCR`, rule R187. -/
  | getScr (size : BitVec 16) (sect : Byte)
  /-- `GET_HW_VER`, rule R188. -/
  | getHwVer (size : BitVec 16)
  /-- `GET_MC_SIGNED`, rule R189. -/
  | getMcSigned (size : BitVec 16)
  /-- `CALC_SIG`, rule R180. -/
  | calcSig (size : BitVec 16) (sect : Byte) (dtype : Byte)
  /-- `SRD`, rule R222. -/
  | srd (addr : Word)
  /-- `SARD`, rule R223. -/
  | sard (addr : Word)
  /-- `SRD_MULTI`, rule R255. -/
  | srdMulti (addr : Word) (size : Word)
  /-- `SARD_MULTI`, rule R256. -/
  | sardMulti (addr : Word) (size : Word)
  /-- `SAWR`, rule R224. -/
  | sawr (addr : Word) (size : BitVec 16)
  /-- `SERASE_4K`, rule R225. -/
  | serase4k (addr : Word)
  /-- `SERASE_32K`, rule R226. -/
  | serase32k (addr : Word)
  /-- `SERASE_64K`, rule R227. -/
  | serase64k (addr : Word)
  /-- `SERASE_SECTION`, rule R228. -/
  | seraseSection (sect : Byte)
  /-- `SERASE_CHIP`, rule R229. -/
  | seraseChip
  /-- wire command `OPC_GET_MC`, rule R318. -/
  | opcGetMc (param : Byte) (mode : BitVec 16)
  /-- wire command `OPC_SESSION_OPEN`, rule R142. -/
  | opcSessionOpen (param : Byte) (mode : BitVec 16)
  /-- wire command `OPC_INIT_PA`, rule R148. -/
  | opcInitPa (param : Byte) (mode : BitVec 16)
  /-- wire command `OPC_CALC_SIG` with a `param` that is no data-type code (the nine rows below are those), rule R180. -/
  | opcCalcSig (param : Byte) (mode : BitVec 16)
  /-- wire command `OPC_SRD`, rule R222. -/
  | opcSrd (addr24 : BitVec 24)
  /-- wire command `OPC_SARD`, rule R223. -/
  | opcSard (addr24 : BitVec 24)
  /-- wire command `OPC_SAWR`, rule R224. -/
  | opcSawr (addr24 : BitVec 24)
  /-- wire command `OPC_SET_KEY`, rule R165. -/
  | opcSetKey (param : Byte) (mode : BitVec 16)
  /-- wire command `OPC_SET_SUID`, rule R166. -/
  | opcSetSuid (param : Byte) (mode : BitVec 16)
  /-- wire command `OPC_SET_GMC`, rule R167. -/
  | opcSetGmc (param : Byte) (mode : BitVec 16)
  /-- wire command `OPC_SET_GMT`, rule R168. -/
  | opcSetGmt (param : Byte) (mode : BitVec 16)
  /-- wire command `OPC_SET_AWDT`, rule R169. -/
  | opcSetAwdt (param : Byte) (mode : BitVec 16)
  /-- wire command `OPC_SET_SCR`, rule R170. -/
  | opcSetScr (param : Byte) (mode : BitVec 16)
  /-- wire command `OPC_SET_RST_RESP`, rule R171. -/
  | opcSetRstResp (param : Byte) (mode : BitVec 16)
  /-- wire command `OPC_SET_ACLR`, rule R172. -/
  | opcSetAclr (param : Byte) (mode : BitVec 16)
  /-- wire command `OPC_ERASE_4K`, rule R225. -/
  | opcErase4k (addr24 : BitVec 24)
  /-- wire command `OPC_ERASE_32K`, rule R226. -/
  | opcErase32k (addr24 : BitVec 24)
  /-- wire command `OPC_ERASE_64K`, rule R227. -/
  | opcErase64k (addr24 : BitVec 24)
  /-- wire command `OPC_ERASE_SECTION`, rule R228. -/
  | opcEraseSection (param : Byte) (mode : BitVec 16)
  /-- wire command `OPC_ERASE_CHIP`, rule R229. -/
  | opcEraseChip (param : Byte) (mode : BitVec 16)
  /-- wire command `OPC_CALC_SIG` with data type `DT_WID`, rules R111, R181. -/
  | opcCalcSigDtWid (mode : BitVec 16)
  /-- wire command `OPC_CALC_SIG` with data type `DT_SUID`, rules R111, R182. -/
  | opcCalcSigDtSuid (mode : BitVec 16)
  /-- wire command `OPC_CALC_SIG` with data type `DT_SSR`, rules R111, R183. -/
  | opcCalcSigDtSsr (mode : BitVec 16)
  /-- wire command `OPC_CALC_SIG` with data type `DT_GMC`, rules R111, R184. -/
  | opcCalcSigDtGmc (mode : BitVec 16)
  /-- wire command `OPC_CALC_SIG` with data type `DT_GMT`, rules R111, R185. -/
  | opcCalcSigDtGmt (mode : BitVec 16)
  /-- wire command `OPC_CALC_SIG` with data type `DT_AWDT`, rules R111, R186. -/
  | opcCalcSigDtAwdt (mode : BitVec 16)
  /-- wire command `OPC_CALC_SIG` with data type `DT_SCR`, rules R111, R187. -/
  | opcCalcSigDtScr (mode : BitVec 16)
  /-- wire command `OPC_CALC_SIG` with data type `DT_HW_VER`, rules R111, R188. -/
  | opcCalcSigDtHwVer (mode : BitVec 16)
  /-- wire command `OPC_CALC_SIG` with data type `DT_MC`, rules R111, R189. -/
  | opcCalcSigDtMc (mode : BitVec 16)
  /-- bus opcode `OP0`, rule R290. -/
  | op0
  /-- bus opcode `OP1`, rule R291. -/
  | op1
  /-- bus opcode `OP2`, rule R292. -/
  | op2
  /-- bus opcode `STD_WREN`, rule R293. -/
  | stdWren
  /-- bus opcode `STD_RSTEN`, rule R297. -/
  | stdRsten
  /-- bus opcode `STD_RST`, rule R297. -/
  | stdRst
deriving DecidableEq, Repr

/-- Which of the three encodings an instruction belongs to. -/
def Instr.space : Instr → Space
  | .tmConnect => .host
  | .tmDisconnect => .host
  | .tmSecure _ _ _ _ => .host
  | .tmStandard _ _ _ _ _ _ _ _ _ => .host
  | .getLastSsr => .host
  | .synchMc => .host
  | .getMcUnsigned => .host
  | .checkLastSsrErrors _ => .host
  | .sessionOpen _ _ _ _ => .host
  | .sessionCloseRevoke _ => .host
  | .sessionClose _ => .host
  | .signData _ _ _ => .host
  | .prepareSignedSetter _ _ _ _ => .host
  | .executeSignedSetter _ _ _ _ _ => .host
  | .setKey _ _ => .host
  | .setSuid _ => .host
  | .setGmc _ => .host
  | .setGmt _ => .host
  | .setAwdt _ => .host
  | .setScr _ _ _ _ => .host
  | .setRstResp _ => .host
  | .setAclr _ => .host
  | .getWid _ => .host
  | .getSuid _ => .host
  | .getSsrSigned _ => .host
  | .getGmc _ => .host
  | .getGmt _ => .host
  | .getAwdt _ => .host
  | .getScr _ _ => .host
  | .getHwVer _ => .host
  | .getMcSigned _ => .host
  | .calcSig _ _ _ => .host
  | .srd _ => .host
  | .sard _ => .host
  | .srdMulti _ _ => .host
  | .sardMulti _ _ => .host
  | .sawr _ _ => .host
  | .serase4k _ => .host
  | .serase32k _ => .host
  | .serase64k _ => .host
  | .seraseSection _ => .host
  | .seraseChip => .host
  | .opcGetMc _ _ => .wire
  | .opcSessionOpen _ _ => .wire
  | .opcInitPa _ _ => .wire
  | .opcCalcSig _ _ => .wire
  | .opcSrd _ => .wire
  | .opcSard _ => .wire
  | .opcSawr _ => .wire
  | .opcSetKey _ _ => .wire
  | .opcSetSuid _ _ => .wire
  | .opcSetGmc _ _ => .wire
  | .opcSetGmt _ _ => .wire
  | .opcSetAwdt _ _ => .wire
  | .opcSetScr _ _ => .wire
  | .opcSetRstResp _ _ => .wire
  | .opcSetAclr _ _ => .wire
  | .opcErase4k _ => .wire
  | .opcErase32k _ => .wire
  | .opcErase64k _ => .wire
  | .opcEraseSection _ _ => .wire
  | .opcEraseChip _ _ => .wire
  | .opcCalcSigDtWid _ => .wire
  | .opcCalcSigDtSuid _ => .wire
  | .opcCalcSigDtSsr _ => .wire
  | .opcCalcSigDtGmc _ => .wire
  | .opcCalcSigDtGmt _ => .wire
  | .opcCalcSigDtAwdt _ => .wire
  | .opcCalcSigDtScr _ => .wire
  | .opcCalcSigDtHwVer _ => .wire
  | .opcCalcSigDtMc _ => .wire
  | .op0 => .bus
  | .op1 => .bus
  | .op2 => .bus
  | .stdWren => .bus
  | .stdRsten => .bus
  | .stdRst => .bus

end Sys2Proof
end

