-- ==== Sys2Proof/Machine/State.lean ====
section
/-! DEFINITION. The state of the block (rules R20 to R38), as plain data, and its reset (rules R41, R380). -/

namespace Sys2Proof.Machine

/-- The status of an operation, with its code (rule R340). -/
inductive Status where
  | ok
  | parameterErr
  | notConnected
  | connectivityErr
  | securityErr
  | systemInIncorrectState
  | deviceBusy
  | deviceErr
  | deviceMcErr
  | deviceFlashErr
  | deviceSystemErr
  | commandIgnored
  | devicePrivilegeErr
  | deviceAuthenticationErr
  | deviceIntegrityErr
  | deviceSessionErr
deriving DecidableEq, Repr, Inhabited

/-- The values of the phase register `seq` (rule R21). -/
inductive Phase where
  | idle
  | check
  | sync
  | derive
  | send
  | wait
  | poll
  | read
  | chain
  | classify
  | verify
  | cleanup
  | done
deriving DecidableEq, Repr

/-- Faults. No instruction is meant to reach one. -/
inductive Fault where
  /-- DEDUCED, log 12. An operation that the spec says holds a response at this point (rule R180: "if the classification is
  `OK`, `r` is present") holds none. Raised by the signed getter, the page reads and the unsigned
  counter read; under the layout constraints of rule R100 it is never raised. Safe: the model stops. -/
  | responseMissing
deriving DecidableEq, Repr

/-- Refusals. -/
inductive Refusal where
  /-- Raised by `exec` for an instruction without a meaning in this model; no arm does so. Safe. -/
  | notModelled (mnemonic : String)
deriving DecidableEq, Repr

/-- Why a procedure does not return: it raises a status (rules R13, R350), polls without end (rules R285,
R288), is abandoned by the block's reset input (rule R381), or meets a fault of the model. -/
inductive Stop where
  | raise (st : Status)
  | stuck
  | reset
  | fault (f : Fault)
deriving DecidableEq, Repr

/-- The command descriptor `cmd`, four words (rules R20, R90). -/
structure Cmd where
  w0 : Word := 0
  w1 : Word := 0
  w2 : Word := 0
  w3 : Word := 0
deriving DecidableEq, Repr

/-- The operand registers of the command port: `cmd`, `wbuf`, `kbuf` (rule R20). A buffer byte beyond those
listed holds 0. DEDUCED, unsafe (log 18). -/
structure Inputs where
  cmd : Cmd := {}
  wbuf : Bytes := []
  kbuf : Bytes := []
deriving DecidableEq, Repr

/-- The result registers of the command port (rule R20). -/
structure Results where
  rbuf : Bytes := []
  sigOut : Bytes := [0, 0, 0, 0, 0, 0, 0, 0]
  ctagOut : Word := 0
  ssrOut : Word := 0
deriving DecidableEq, Repr

/-- The monotonic-counter registers (rules R22, R23, R24). -/
structure Mc where
  tc : Word := 0
  dmc : Word := 0
  inSync : Bool := false
deriving DecidableEq, Repr

/-- One crypto context (rule R27). -/
structure Ctx where
  key : Bytes
  ssk : Bytes
  tc : Word := 0
  cipherKey : Bytes
  ctagW : Word := 0
  sctag : Word := 0
  sdata : Bytes
deriving DecidableEq, Repr

/-- The registers the host writes directly: `CFG_PA` (bit `s` is `paEnabled[s]`), `CFG_WID`, `CFG_BUS`
(rules R32, R34, R38, R91). -/
structure ConfigRegs where
  paEnabled : BitVec 16 := 0
  wid : Bytes
  busMode : Byte := 0
  dtr : Bool := false
deriving DecidableEq, Repr

/-- What the host can do on the command port and the configuration registers (rules R75, R91), to the
key manager (rule R383), and the reset input (rule R380). `request` issues what `cmd` holds, read in the
encoding it names: the host space is the command port's own. -/
inductive HostEvent where
  | writeCmd (c : Cmd)
  | writeWbuf (b : Bytes)
  | writeKbuf (b : Bytes)
  | writeCfgBus (v : Word)
  | writeCfgPa (v : Word)
  | writeCfgWid (b : Bytes)
  | storeKey (sect : Nat) (fullAccess : Bool) (key : Bytes)
  | request (sp : Space)
  | reset
deriving DecidableEq, Repr

/-- A key the key manager holds (rule R141). -/
structure KeyEntry where
  sect : Nat
  fullAccess : Bool
  key : Bytes
deriving DecidableEq, Repr

/-- The environment, as the block meets it: what the host will do, what the device will answer (then
`Config.deviceAnswer`), what the key manager holds, the events on the service ports (newest first), how
many draws the random source has made, and how many times a register took an unspecified value. -/
structure Env where
  host : List HostEvent := []
  answers : List Config.Answer := []
  keys : List KeyEntry := []
  trace : List Config.Event := []
  prng : Nat := 0
  frees : Nat := 0
deriving DecidableEq, Repr

/-- The whole state: the parameters (rule R10), the registers of rules R20 to R38, the environment. -/
structure State where
  cfg : Config.Params := {}
  inp : Inputs := {}
  latch : Inputs := {}
  out : Results := {}
  status : Status := .ok
  seq : Phase := .idle
  mc : Mc := {}
  kid : Byte := Config.kidInvalid
  sessionKey : Bytes
  ctx0 : Ctx
  ctx1 : Ctx
  ctxIdx : Bool := false
  ssr : Word := 0
  busIsLocked : Bool := false
  conf : ConfigRegs
  inFlight : Bool := false
  atomic : Nat := 0
  env : Env := {}
deriving DecidableEq, Repr

/-- A key register with every byte `WIPE_BYTE` (rules R18, R26). -/
def wiped (cfg : Config.Params) : Bytes := List.replicate cfg.keyBytes Config.wipeByte

/-- A crypto context at reset: `key` wiped, the rest unspecified and taken as zero (rule R27). -/
def Ctx.reset (cfg : Config.Params) : Ctx :=
  { key := wiped cfg
    ssk := List.replicate cfg.keyBytes 0
    cipherKey := List.replicate cfg.keyBytes 0
    sdata := List.replicate Config.pageSize 0 }

/-- Every register at its reset value (rules R41, R380), for given parameters and environment. A register the rules
call unspecified is zero or empty: DESIGN CHOICE, unsafe (log 11). -/
def State.resetWith (cfg : Config.Params) (env : Env) : State :=
  { cfg := cfg
    sessionKey := wiped cfg
    ctx0 := Ctx.reset cfg
    ctx1 := Ctx.reset cfg
    conf := { wid := List.replicate cfg.widBytes 0 }
    env := env }

/-- The block right after reset, with the default parameters and nothing in the environment. -/
def State.reset : State := State.resetWith {} {}

/-- The reset input asserted in state `s` (rules R380, R381): the registers reset, the environment stays. DESIGN
CHOICE, unsafe: when it can be asserted (log 23). -/
def State.blockReset (s : State) : State := State.resetWith s.cfg s.env

end Sys2Proof.Machine
end

