-- ==== Sys2Proof/Machine/Flags.lean ====
section
/-! DEFINITION. The secure status register: its bits, the masks over them, the classifier, and the counter
range check (rules R100, R101, R312, R314). -/

namespace Sys2Proof.Machine

open Config (SsrLayout)

/-! ## Bits and masks (rules R100, R101) -/

/-- The error bits of the layout, `ERR` first (rule R100, bits 3 to 11 by default). -/
def errorPositions (L : SsrLayout) : List Nat :=
  [L.err, L.sesErr, L.intgErr, L.authErr, L.privErr, L.ignoreErr, L.sysErr, L.flashErr, L.mcErr]

/-- The word whose bits at the listed positions are 1. -/
def bitsOf (ps : List Nat) : Word := ps.foldr (fun p w => BitVec.twoPow 32 p ||| w) 0

/-- `SSR_ERROR_BITS` (rule R101). -/
def ssrErrorBits (L : SsrLayout) : Word := bitsOf (errorPositions L)
/-- `MASK_ALL_ERRORS` (rule R101): all error bits and `BUSY`. -/
def maskAllErrors (L : SsrLayout) : Word := BitVec.twoPow 32 L.busy ||| ssrErrorBits L
/-- `MASK_IGNORE_INTG` (rule R101). -/
def maskIgnoreIntg (L : SsrLayout) : Word := maskAllErrors L &&& ~~~(BitVec.twoPow 32 L.intgErr)
/-- `MASK_IGNORE_IGNORE` (rule R101). -/
def maskIgnoreIgnore (L : SsrLayout) : Word := maskAllErrors L &&& ~~~(BitVec.twoPow 32 L.ignoreErr)
/-- `MASK_NONE` (rule R101). -/
def maskNone : Word := 0

/-- "Any error bit" of a status word. -/
def hasError (L : SsrLayout) (v : Word) : Bool := v &&& ssrErrorBits L != 0
/-- `BUSY`. -/
def isBusy (L : SsrLayout) (v : Word) : Bool := v.getLsbD L.busy
/-- `RESP_READY`. -/
def respReady (L : SsrLayout) (v : Word) : Bool := v.getLsbD L.respReady
/-- `SES_READY`. -/
def sesReady (L : SsrLayout) (v : Word) : Bool := v.getLsbD L.sesReady
/-- `SsrKid(v)` (rule R101). -/
def ssrKid (L : SsrLayout) (v : Word) : Byte := v.extractLsb' L.kidLo 8
/-- The snapshot with the synthetic hardware error in it (rule R286). -/
def withSyntheticError (L : SsrLayout) (v : Word) : Word := v ||| BitVec.twoPow 32 L.err
/-- A status word of a dead or unpowered link (rules R288, R290). -/
def deadLink (v : Word) : Bool := v == 0xFFFFFFFF || v == 0

/-! ## Classification (rule R312) -/

/-- The status of the highest-priority bit set in `m`, in the order of rule R312. -/
def firstError (L : SsrLayout) (m : Word) : Status :=
  if m.getLsbD L.sesErr then .deviceSessionErr
  else if m.getLsbD L.intgErr then .deviceIntegrityErr
  else if m.getLsbD L.authErr then .deviceAuthenticationErr
  else if m.getLsbD L.privErr then .devicePrivilegeErr
  else if m.getLsbD L.ignoreErr then .commandIgnored
  else if m.getLsbD L.sysErr then .deviceSystemErr
  else if m.getLsbD L.flashErr then .deviceFlashErr
  else if m.getLsbD L.mcErr then .deviceMcErr
  else if m.getLsbD L.err then .deviceErr
  else if m.getLsbD L.busy then .deviceBusy
  else .ok

/-- `Classify(raw, mask)` (rule R312): `BUSY` does not count while a response is ready. -/
def classify (L : SsrLayout) (raw mask : Word) : Status :=
  let m := raw &&& mask
  firstError L (if respReady L raw then m &&& ~~~(BitVec.twoPow 32 L.busy) else m)

/-! ## The counter (rule R314) -/

/-- `McValid(tc, dmc)`. -/
def mcValid (tc dmc : Word) : Bool :=
  decide (Config.tcMin ≤ tc.toNat ∧ tc.toNat < Config.tcLim ∧ dmc.toNat < Config.dmcLim)

/-! ## Status numbers (rule R340) -/

/-- The number of a status: a parameter, by default the code in the table of rule R340. -/
def statusCode (c : Config.StatusCodes) : Status → Byte
  | .ok => c.ok
  | .parameterErr => c.parameterErr
  | .notConnected => c.notConnected
  | .connectivityErr => c.connectivityErr
  | .securityErr => c.securityErr
  | .systemInIncorrectState => c.systemInIncorrectState
  | .deviceBusy => c.deviceBusy
  | .deviceErr => c.deviceErr
  | .deviceMcErr => c.deviceMcErr
  | .deviceFlashErr => c.deviceFlashErr
  | .deviceSystemErr => c.deviceSystemErr
  | .commandIgnored => c.commandIgnored
  | .devicePrivilegeErr => c.devicePrivilegeErr
  | .deviceAuthenticationErr => c.deviceAuthenticationErr
  | .deviceIntegrityErr => c.deviceIntegrityErr
  | .deviceSessionErr => c.deviceSessionErr

end Sys2Proof.Machine
end

