-- ==== Sys2Proof/Machine/Bits.lean ====
section
/-! DEFINITION. Byte order, bit fields and tags: rules R12, R64 (little-endian), R92 to R96 (CTAG and
address), R98 (KID). -/

namespace Sys2Proof

/-- `le32` of rules R12 and R64. -/
def le32 (v : Word) : Bytes :=
  [v.extractLsb' 0 8, v.extractLsb' 8 8, v.extractLsb' 16 8, v.extractLsb' 24 8]

/-- `rd32` of rule R12: the value of the first four bytes (missing bytes count as 0). -/
def rd32 (b : Bytes) : Word :=
  b.getD 3 0 ++ b.getD 2 0 ++ b.getD 1 0 ++ b.getD 0 0

/-- `b` cut or zero-padded to exactly `n` bytes. Every string of `n` bytes is `fit n` of some string, so a
port's answer taken through `fit` may be any string of the length its contract gives. -/
def fit (n : Nat) (b : Bytes) : Bytes := (b ++ List.replicate n 0).take n

/-- The value whose low `n` bits are 1. -/
def lowMask (n : Nat) : Word := BitVec.ofNat 32 (2 ^ n - 1)

/-! ## CTAG -/

/-- `MakeCTAG(opc, param, mode)` (rule R92). -/
def mkCtag (opc param : Byte) (mode : BitVec 16) : Word := mode ++ param ++ opc

/-- `MakeCTAGAddr(opc, a)` on a 24-bit address (rule R93). -/
def mkCtagAddr (opc : Byte) (a : BitVec 24) : Word := a ++ opc

/-- `CtagOpc(c)` (rule R93). -/
def ctagOpc (c : Word) : Byte := c.extractLsb' 0 8
/-- The `param` byte of a `CTAG_P` (rule R92). -/
def ctagParam (c : Word) : Byte := c.extractLsb' 8 8
/-- The `mode` field of a `CTAG_P` (rule R92). -/
def ctagMode (c : Word) : BitVec 16 := c.extractLsb' 16 16
/-- `CtagAddr(c)` (rule R93). -/
def ctagAddr (c : Word) : BitVec 24 := c.extractLsb' 8 24

/-- The `mode` field whose bits 0 and 1 are the two flags (rule R99: CTAG bits 16 and 17). -/
def modeFlags (bit16 bit17 : Bool) : BitVec 16 :=
  (if bit16 then 1#16 else 0#16) ||| (if bit17 then 2#16 else 0#16)

/-! ## Addresses -/

/-- `RandomiseAddr(a)` with `r` the draw (rule R94): the low `n` bits are replaced. -/
def randomiseAddr (n : Nat) (a r : Word) : Word := (a &&& ~~~(lowMask n)) ||| (r &&& lowMask n)

/-- The reversal of the three address bytes, the default `AddrSwizzle` (rule R96). -/
def reverseBytes (a : BitVec 24) : BitVec 24 :=
  a.extractLsb' 0 8 ++ a.extractLsb' 8 8 ++ a.extractLsb' 16 8

/-- The exchange of the values `p` and `q`. -/
def exchangeValues (p q a : BitVec 24) : BitVec 24 := if a = p then q else if a = q then p else a

/-- `AddrSwizzle` (rule R96): the byte reversal, then the exchanges of the parameter one after the other. -/
def addrSwizzle (swaps : List (BitVec 24 × BitVec 24)) (a : BitVec 24) : BitVec 24 :=
  swaps.foldl (fun b pq => exchangeValues pq.1 pq.2 b) (reverseBytes a)

/-- The data types that use the section index (rule R111): `DT_SCR` alone. -/
def usesSection (dtype : Byte) : Bool := dtype == 7

/-- The CALC_SIG data-type codes of rule R111: 1 to 9. -/
def isDataType (code : Byte) : Bool := decide (1 ≤ code.toNat ∧ code.toNat ≤ 9)

/-! ## KID (rule R98) -/

/-- `KidType(k)`. -/
def kidType (k : Byte) : BitVec 4 := k.extractLsb' 4 4
/-- `KidSection(k)`. -/
def kidSection (k : Byte) : BitVec 4 := k.extractLsb' 0 4
/-- `KidIsSection(k)`: type 0 or 1. -/
def kidIsSection (k : Byte) : Bool := kidType k == 0 || kidType k == 1
/-- `KidIsFull(k)`: type 1. -/
def kidIsFull (k : Byte) : Bool := kidType k == 1

/-- `KidValid(k)` with `numSections` sections. -/
def kidValid (numSections : Nat) (k : Byte) : Bool :=
  if kidIsSection k then decide ((kidSection k).toNat < numSections)
  else (kidType k == 2 || kidType k == 3) && kidSection k == 0

end Sys2Proof
end

