-- ==== Sys2Proof/Machine/Operands.lean ====
section
/-! DEFINITION. Where operands come from and when they are accepted (rules R20, R66, R75, R90, R91, R98, R114, R141,
R220, R251), and the results of the crypto port as functions of explicit arguments (rules R160, R161). -/

namespace Sys2Proof.Machine

/-! ## Operands -/

/-- `wbuf[0:size]` as latched at issue (rule R75). -/
def dataOperand (s : State) (size : BitVec 16) : Bytes := fit size.toNat s.latch.wbuf

/-- `kbuf`, `KEY_BYTES` bytes, as latched at issue (rules R20, R75). -/
def keyOperand (s : State) : Bytes := fit s.cfg.keyBytes s.latch.kbuf

/-- `AddrOk(a)` (rule R220): below 2^24 and a multiple of the page size. -/
def addrOk (a : Word) : Bool := decide (a.toNat < 2 ^ 24 ∧ a.toNat % Config.pageSize = 0)

/-- The boundary checks of a multi-block read but the connection (rule R251), without wrap-around. -/
def multiOk (a size : Word) : Bool :=
  addrOk a && decide (size.toNat ≠ 0 ∧ size.toNat % Config.pageSize = 0 ∧ a.toNat + size.toNat ≤ 2 ^ 24)

/-- The address of `TM_STANDARD`, where it has one, has bits 31 to 24 zero (rules R90, R114); without `HAS_ADDR` the
field is not read, so not checked. DEDUCED, unsafe: R345 does not list this check (log 25). -/
def standardAddrOk (hasAddr : Bool) (a : Word) : Bool := !hasAddr || decide (a.toNat < 2 ^ 24)

/-- A section index in range (rules R60, R114). -/
def sectionOk (s : State) (sect : Byte) : Bool := decide (sect.toNat < s.cfg.numSections)

/-- `KidValid` for the block's number of sections (rule R98). -/
def kidOk (s : State) (k : Byte) : Bool := kidValid s.cfg.numSections k

/-- `KeyMgr.GetKey(section, fullAccess)` (rule R141): `none` is "not found". -/
def getKey (s : State) (sect : Nat) (full : Bool) : Option Bytes :=
  (s.env.keys.find? fun e => e.sect == sect && e.fullAccess == full).map
    fun e => fit s.cfg.keyBytes e.key

/-- The CTAG of `CALC_SIG(dtype, section, size)` (rules R99, R180): the data type is the parameter byte, and bits 23 to
16 are the section index given, for every data type. DESIGN CHOICE, unsafe: with the other value of `unusedSection`
they are 0 for the data types that do not use it (R111, log 26). -/
def calcSigCtag (cfg : Config.Params) (dtype sect : Byte) : Word :=
  let sent := if usesSection dtype || cfg.unusedSection == .sentAsGiven then sect else 0
  mkCtag cfg.wire.calcSig dtype (sent.setWidth 16)

/-- Data of at most one page (rules R66, R162). -/
def dataFits (size : BitVec 16) : Bool := decide (size.toNat ≤ Config.pageSize)

/-- Data to be encrypted is exactly one page (rules R66, R163, R164). -/
def encryptable (encData : Bool) (size : BitVec 16) : Bool :=
  !encData || decide (size.toNat = Config.pageSize)

/-! ## Results of the crypto port (rule R160), each of the width its contract gives -/

/-- `Crypto.DeriveSessionKeyAndSignature`. -/
def sessionOf (cfg : Config.Params) (key : Bytes) (ctag tc dmc : Word) (nonce : Bytes)
    (wid : Option Bytes) : Bytes × Bytes :=
  let r := Config.deriveSession key ctag tc dmc nonce wid
  (fit cfg.keyBytes r.1, fit Config.sigBytes r.2)

/-- `Crypto.RefreshSSK`. -/
def sskOf (cfg : Config.Params) (key : Bytes) (tc : Word) : Bytes :=
  fit cfg.keyBytes (Config.refreshSsk key tc)

/-- `Crypto.BuildCipherKey`. -/
def cipherKeyOf (cfg : Config.Params) (ssk : Bytes) (kid : Byte) (dir : Config.Direction) : Bytes :=
  fit cfg.keyBytes (Config.buildCipherKey ssk kid dir)

/-- `Crypto.CalcAuthSignature`. -/
def signatureOf (ssk : Bytes) (kid : Byte) (ctag : Word) (data32 : Bytes) : Bytes :=
  fit Config.sigBytes (Config.calcAuthSignature ssk kid ctag data32)

/-- `Crypto.Cipher(b, ck, 1)` on one page. The environment's map of pages is used where it is its own inverse,
and the page is left alone elsewhere: so this is an involution (rule R161), and every involution of
32-byte pages is obtained from some map. DESIGN CHOICE, safe (log 7). -/
def cipherPage (ck b : Bytes) : Bytes :=
  let image := fit Config.pageSize (Config.cipherMap ck b)
  if fit Config.pageSize (Config.cipherMap ck image) = b then image else b

/-- `Crypto.Nonce()` at draw `n`. -/
def nonceOf (n : Nat) : Bytes := fit Config.nonceBytes (Config.nonceDraw n)

/-- `EncryptAddr(a, ck)` (rules R95, R96). -/
def encryptAddr (cfg : Config.Params) (a : BitVec 24) (ck : Bytes) : BitVec 24 :=
  addrSwizzle cfg.addrSwizzle (a ^^^ Config.addressKey ck)

/-- Signed data zero-padded to one page (rules R12, R108, R162). -/
def padPage (d : Bytes) : Bytes := fit Config.pageSize d

/-! ## Results no rule fixes (rules R20, R75, R348; I9, I10) -/

/-- The n-th set of unspecified result registers. -/
def freeResults (n : Nat) : Results :=
  { rbuf := Config.freeRbuf n
    sigOut := fit Config.sigBytes (Config.freeSigOut n)
    ctagOut := Config.freeCtagOut n
    ssrOut := Config.freeSsrOut n }

end Sys2Proof.Machine
end

