-- ==== Sys2Proof/Machine/Ops.lean ====
section
/-! DEFINITION. The shared operations: procedures that may be abandoned, `raise` and the completion of an
operation (rules R13, R350), the interrupt-masked section (R352), the transport and its sub-operations
(R61, R290 to R292), the busy-wait (R288), the crypto port, the contexts, the device reset (R297) and
`Secure` (R280 to R300). -/

namespace Sys2Proof.Machine

open Config (Event Answer CryptoCall Exchange Direction)

/-- A procedure of the block: it returns a value and a state, or it is abandoned in a state (rule R14). -/
abbrev M := EStateM Stop State

/-! ## Failure and completion -/

/-- `raise S`, and a procedure's return with a status other than `OK` (rules R13, R14, R350). -/
def raise {α : Type} (st : Status) : M α := throw (.raise st)

/-- Go on if `c` holds, else raise `st`. -/
def require (c : Bool) (st : Status) : M Unit := if c then pure () else raise st

/-- Do `x` if `c` holds, else nothing. -/
def onlyIf (c : Bool) (x : M Unit) : M Unit := if c then x else pure ()

/-- Go on if the status is `OK`, else raise it. -/
def okOrRaise (st : Status) : M Unit := if st = .ok then pure () else raise st

/-- Run a procedure and keep the status it returns; a stuck poll, a block reset and a fault still end the
caller. -/
def attempt {α : Type} (x : M α) : M (Except Status α) := fun s =>
  match x.run s with
  | .ok a t => .ok (.ok a) t
  | .error (.raise st) t => .ok (.error st) t
  | .error e t => .error e t

/-- Go on with the value of a procedure, or raise its status. -/
def orRaise {α : Type} : Except Status α → M α
  | .ok a => pure a
  | .error st => raise st

/-- `seq <- p` (rules R13, R21). -/
def phase (p : Phase) : M Unit := modify fun s => { s with seq := p }

/-- Completion (rules R14, R350): `status` is written and `seq` goes through `DONE` to `IDLE`. -/
def complete (st : Status) (s : State) : State := { s with status := st, seq := .idle }

/-- A whole operation, from the state in which its descriptor has been latched. It completes with one
status, or stays in its waiting phase for ever (rule R288, I16), or is cut off by the reset input
(rule R381). DESIGN CHOICE, unsafe: an endless poll is a next state (log 5). DEDUCED: how an operation ends
(log 13). -/
def runOp (x : M Unit) (s : State) : Host.Outcome State Fault Refusal :=
  match x.run s with
  | .ok _ t => .next (complete .ok t)
  | .error (.raise st) t => .next (complete st t)
  | .error .stuck t => .next t
  | .error .reset t => .next t.blockReset
  | .error (.fault f) _ => .fault f

/-- The result registers take unspecified values: while an operation runs (rule R75), and after it unless it
names them (rule R20) or it failed (rule R348). DEDUCED, unsafe: past the boundary checks only (log 8). -/
def unspecifyResults : M Unit :=
  modify fun s => { s with out := freeResults s.env.frees, env := { s.env with frees := s.env.frees + 1 } }

/-- Write `rbuf`. -/
def setRbuf (b : Bytes) : M Unit := modify fun s => { s with out := { s.out with rbuf := b } }
/-- Write `sigOut`. -/
def setSigOut (b : Bytes) : M Unit := modify fun s => { s with out := { s.out with sigOut := b } }
/-- Write `ctagOut`. -/
def setCtagOut (c : Word) : M Unit := modify fun s => { s with out := { s.out with ctagOut := c } }
/-- Write `ssrOut`. -/
def setSsrOut (v : Word) : M Unit := modify fun s => { s with out := { s.out with ssrOut := v } }

/-! ## Small register writes -/

/-- Write `ssr`. -/
def setSsr (v : Word) : M Unit := modify fun s => { s with ssr := v }
/-- Write `inFlight` (rule R36). -/
def setInFlight (b : Bool) : M Unit := modify fun s => { s with inFlight := b }
/-- Write `mc.inSync` (rule R24). -/
def setInSync (b : Bool) : M Unit := modify fun s => { s with mc := { s.mc with inSync := b } }
/-- Write `kid` (rule R25). -/
def setKid (k : Byte) : M Unit := modify fun s => { s with kid := k }
/-- Write `ctxIdx` (rule R28). -/
def setCtxIdx (i : Bool) : M Unit := modify fun s => { s with ctxIdx := i }

/-- The three key registers take one value: the session key on a successful open (rule R143). -/
def State.withKeys (s : State) (k : Bytes) : State :=
  { s with sessionKey := k, ctx0 := { s.ctx0 with key := k }, ctx1 := { s.ctx1 with key := k } }

/-- Wipe `ctx[0].key`, `ctx[1].key` and `sessionKey` (rules R18, R30). -/
def State.wipeKeys (s : State) : State := s.withKeys (wiped s.cfg)

/-- `kid <- KID_INVALID` and the wipe (rules R143, R147, R297). -/
def closeSession : M Unit := modify fun s => { s.wipeKeys with kid := Config.kidInvalid }

/-! ## The crypto contexts (rules R27, R28) -/

/-- `ctx[i]`. -/
def State.ctx (s : State) (i : Bool) : Ctx := if i then s.ctx1 else s.ctx0

/-- `ctx[i]` replaced. -/
def State.withCtx (s : State) (i : Bool) (c : Ctx) : State :=
  if i then { s with ctx1 := c } else { s with ctx0 := c }

/-- Change `ctx[i]`. -/
def modifyCtx (i : Bool) (f : Ctx → Ctx) : M Unit := modify fun s => s.withCtx i (f (s.ctx i))

/-! ## Events and the masked section -/

/-- Record an event on the service ports. -/
def logEvent (e : Event) : M Unit :=
  modify fun s => { s with env := { s.env with trace := e :: s.env.trace } }

/-- `IntMask()` (rule R352). -/
def intMask : M Unit := modify fun s => { s with atomic := s.atomic + 1 }
/-- `IntRestore()` (rule R352). -/
def intRestore : M Unit := modify fun s => { s with atomic := s.atomic - 1 }

/-- The request "interrupts masked" to the platform: up while `atomic` is not zero (rules R37, R352). -/
def State.interruptsMasked (s : State) : Bool := s.atomic != 0

/-- Run a procedure inside a masked section; the section is left on every return, failures included
(rules R37, R281), but not by a poll that never ends (I16). -/
def masked {α : Type} (x : M α) : M α := do
  intMask
  let r ← attempt x
  intRestore
  orRaise r

/-! ## The crypto port -/

/-- One call of the crypto port: recorded, with a result computed from the state. -/
def cryptoCall {α : Type} (c : CryptoCall) (f : State → α) : M α := do
  logEvent (.crypto c)
  let s ← get
  pure (f s)

/-- The random source makes one draw (rules R15, R35). -/
def draw {α : Type} (c : CryptoCall) (f : Nat → α) : M α := do
  logEvent (.crypto c)
  let s ← get
  set { s with env := { s.env with prng := s.env.prng + 1 } }
  pure (f s.env.prng)

/-- `Crypto.Nonce()`: a free draw of 8 bytes. -/
def drawNonce : M Bytes := draw .nonce nonceOf

/-- `RandomiseAddr(a)` (rule R94): one free draw of `ADDR_RAND_BITS` bits replaces the low bits. -/
def drawAddr (a : Word) : M Word := do
  let r ← draw .randomBits Config.randomDraw
  let s ← get
  pure (randomiseAddr s.cfg.addrRandBits a r)

/-- `Crypto.RefreshSSK(key, tc)`. -/
def refreshSsk (key : Bytes) (tc : Word) : M Bytes := cryptoCall .refreshSsk fun s => sskOf s.cfg key tc

/-- `Crypto.BuildCipherKey(ssk, kid, dir)` with the `kid` register. -/
def buildCipherKey (ssk : Bytes) (dir : Direction) : M Bytes :=
  cryptoCall .buildCipherKey fun s => cipherKeyOf s.cfg ssk s.kid dir

/-- `Crypto.Cipher(b, ck, 1)`. -/
def cipher (ck b : Bytes) : M Bytes := cryptoCall .cipher fun _ => cipherPage ck b

/-- `Crypto.CalcAuthSignature(ssk, kid, ctag, data32)` with the `kid` register. -/
def calcAuthSignature (ssk : Bytes) (ctag : Word) (data32 : Bytes) : M Bytes :=
  cryptoCall .calcAuthSignature fun s => signatureOf ssk s.kid ctag data32

/-- `EncryptAddr(a, ck)` (rule R95): one call of `Crypto.AddressKey`. -/
def encryptAddress (a : BitVec 24) (ck : Bytes) : M (BitVec 24) :=
  cryptoCall .addressKey fun s => encryptAddr s.cfg a ck

/-! ## The transport (rules R61, R62, R77) -/

/-- What the transport and the device answer next: the next scripted answer, else whatever the device
makes of the events so far. -/
def State.nextAnswer (s : State) : Answer :=
  match s.env.answers with
  | a :: _ => a
  | [] => Config.deviceAnswer s.env.trace

/-- The answer as the exchange's contract has it: exactly the bytes asked for (rule R61). DESIGN CHOICE, safe: an
answer of another length is cut or padded (log 4). -/
def fitAnswer (n : Nat) : Answer → Answer
  | .bytes b => .bytes (fit n b)
  | .linkError => .linkError
  | .reset => .reset

/-- The exchange the block requests in state `s` (rule R61: `busMode` and `dtr` from the registers). -/
def State.exchangeRequest (s : State) (opcode : Byte) (addr : Option Word) (addrSize : Byte)
    (write : Bytes) (dummy : Byte) (readLen : Nat) : Exchange :=
  { busMode := s.conf.busMode
    dtr := s.conf.dtr
    opcode := opcode
    addr := addr
    addrSize := addrSize
    write := write
    dummy := dummy
    readLen := readLen
    masked := s.interruptsMasked }

/-- The state once an exchange has been answered: the answer is used up and the exchange is on record. -/
def State.exchanged (s : State) (x : Exchange) : State :=
  { s with env := { s.env with
      answers := s.env.answers.tail
      trace := .exchange x (fitAnswer x.readLen s.nextAnswer) :: s.env.trace } }

/-- `Exchange(op, addr, addrSize, w, dummy, n)`: the bytes read, or `CONNECTIVITY_ERR` for a `LinkError`
(rules R61, R342). -/
def exchange (opcode : Byte) (addr : Option Word) (addrSize : Byte) (write : Bytes) (dummy : Byte)
    (readLen : Nat) : M Bytes := fun s =>
  let t := s.exchanged (s.exchangeRequest opcode addr addrSize write dummy readLen)
  match s.nextAnswer with
  | .bytes b => .ok (fit readLen b) t
  | .linkError => .error (.raise .connectivityErr) t
  | .reset => .error .reset t

/-- What goes over the wire in one exchange, in order (rule R77): code, address bytes if any, write bytes,
dummy cycles, read bytes. -/
inductive WireItem where
  | code (c : Byte)
  | address (a : Option Word) (size : Byte)
  | write (b : Bytes)
  | dummyCycles (n : Byte)
  | read (n : Nat)
deriving DecidableEq, Repr

/-- The wire order of an exchange (rule R77). -/
def wireOrder (x : Exchange) : List WireItem :=
  [.code x.opcode] ++ (if x.addrSize = 0 then [] else [.address x.addr x.addrSize])
    ++ [.write x.write, .dummyCycles x.dummy, .read x.readLen]

/-! ## Bus sub-operations -/

/-- `OP0()`, status poll (rules R104, R290): `ssr` is written before the dead-link test. -/
def op0 : M Unit := do
  let s ← get
  let r ← exchange s.cfg.op0Code none 0 [] s.cfg.op0Dummy 4
  setSsr (rd32 r)
  require (!deadLink (rd32 r)) .connectivityErr

/-- `OP1(ctag, w)`, command write (rules R105, R291). -/
def op1 (ctag : Word) (w : Bytes) : M Unit := do
  let s ← get
  let _ ← exchange s.cfg.op1Code none 0 (le32 ctag ++ w) s.cfg.op1Dummy 0

/-- `OP2(n)`, response read (rules R106, R292). -/
def op2 (n : Nat) : M Bytes := do
  let s ← get
  exchange s.cfg.op2Code none 0 [] s.cfg.op2Dummy n

/-- An exchange of a bare standard command (rule R109). -/
def bareExchange (code : Byte) : M Unit := do
  let _ ← exchange code none 0 [] 0 0

/-- Poll the status until `stop` holds of it. The loop of the spec has no bound; the fuel covers every
scripted answer and `Config.pollBound` polls more, and its end is the stuck state (rules R285, R288). -/
def pollUntil (stop : Config.SsrLayout → Word → Bool) : Nat → M Unit
  | 0 => throw .stuck
  | fuel + 1 => do
    op0
    let s ← get
    if stop s.cfg.ssr s.ssr then pure () else pollUntil stop fuel

/-- How many polls a poll loop is followed for. -/
def State.pollFuel (s : State) : Nat := Config.pollBound + (s.env.answers.length + 1)

/-- The status word that ends a busy-wait (rule R288): a response is ready, or the device is not busy. -/
def waitOver (L : Config.SsrLayout) (v : Word) : Bool := respReady L v || !isBusy L v

/-- `BusyWait()` (rule R288). -/
def busyWait : M Unit := do
  phase .wait
  let s ← get
  pollUntil waitOver s.pollFuel

/-- The status word that ends the poll for readiness (rule R285): an error bit, or a response ready. -/
def readyOrError (L : Config.SsrLayout) (v : Word) : Bool := hasError L v || respReady L v

/-- The poll for readiness of rule R285, which tests the snapshot before each poll. -/
def pollReady : M Unit := do
  phase .poll
  let s ← get
  if readyOrError s.cfg.ssr s.ssr then pure () else pollUntil readyOrError s.pollFuel

/-! ## The device reset (rule R297) -/

/-- First exchange of the device reset. -/
def resetEnable : M Unit := do
  phase .chain
  let s ← get
  bareExchange s.cfg.stdRsten

/-- Second exchange of the device reset, and what the block then forgets. -/
def resetDevice : M Unit := do
  phase .chain
  let s ← get
  bareExchange s.cfg.stdRst
  setInSync false
  onlyIf s.cfg.resetInvalidatesSession closeSession
  setInFlight false

/-- `DeviceReset()`. -/
def deviceReset : M Unit := do
  resetEnable
  resetDevice

/-! ## `Secure` (rules R280 to R300) -/

/-- The bus sub-mode is flipped around OP1 for this CTAG (rules R10, R282). -/
def flips (cfg : Config.Params) (ctag : Word) : Bool :=
  cfg.capQpiExitReenter && cfg.modeFlip.contains (ctagOpc ctag)

/-- Step 1, command write, with the bus sub-mode flip around it (rule R282). The re-enter is made even when
OP1 failed. -/
def secureSend (ctag : Word) (w : Bytes) : M Unit := do
  phase .send
  let s ← get
  onlyIf (flips s.cfg ctag) (logEvent .busModeExit)
  let r ← attempt (op1 ctag w)
  onlyIf (flips s.cfg ctag) (logEvent .busModeReenter)
  orRaise r
  setInFlight true

/-- Step 2, wait (rule R283): once, or twice for the opcodes in `DOUBLE_WAIT`. -/
def secureWait (opc : Byte) : M Unit := do
  busyWait
  let s ← get
  onlyIf (s.cfg.doubleWait.contains opc) busyWait
  setInFlight false

/-- Step 3 when no response is ready: poll, or set the synthetic error (rules R285, R286). -/
def notReady (opc : Byte) : M Unit := do
  let s ← get
  if s.cfg.pollForReady.contains opc then pollReady
  else setSsr (withSyntheticError s.cfg.ssr s.ssr)

/-- Step 3, read when ready (rules R284, R285, R286). -/
def secureRead (opc : Byte) (n : Nat) : M (Option Bytes) := do
  if n = 0 then pure none
  else
    let s ← get
    onlyIf (!respReady s.cfg.ssr s.ssr) (notReady opc)
    let s ← get
    if respReady s.cfg.ssr s.ssr then
      phase .read
      let r ← op2 n
      pure (some r)
    else pure none

/-- The chained init-plain-access of step 4 (rule R296): sent without a tick, so the counter copy is no longer
trusted. -/
def chainInitPa (sect : Byte) : M Unit := do
  phase .chain
  let s ← get
  op1 (mkCtag s.cfg.wire.initPa sect 0) []
  setInFlight true
  busyWait
  setInFlight false
  setInSync false

/-- Step 4, chained sub-commands of a section-config set that succeeded (rules R295 to R297). -/
def secureChain (ctag : Word) (wantSsr : Bool) : M Unit := do
  let s ← get
  onlyIf (ctag != 0 && ctagOpc ctag == s.cfg.wire.setScr && wantSsr && !hasError s.cfg.ssr s.ssr) (do
    onlyIf (ctag.getLsbD 16) (chainInitPa (ctagParam ctag))
    onlyIf (ctag.getLsbD 17) deviceReset)

/-- The four steps of `Secure`, in the order of rule R300. -/
def secureSteps (ctag : Word) (w : Bytes) (n : Nat) (wantSsr : Bool) : M (Option Bytes) := do
  onlyIf (ctag != 0) (secureSend ctag w)
  onlyIf wantSsr (secureWait (ctagOpc ctag))
  let r ← secureRead (ctagOpc ctag) n
  secureChain ctag wantSsr
  pure r

/-- `Secure(ctag, w, n, wantSsr)` (rules R280, R281, R287): its status with the bytes read if any, and `sv`.
The `sv` is also left in `ssrOut`, as rule R112 asks of every operation that calls `Secure`. DEDUCED, unsafe
(log 9). -/
def secure (ctag : Word) (w : Bytes) (n : Nat) (wantSsr : Bool) :
    M (Except Status (Option Bytes) × Word) := do
  let s ← get
  let r ← if s.busIsLocked then attempt (masked (secureSteps ctag w n wantSsr))
          else pure (.error .notConnected)
  match r with
  | .error .connectivityErr => setInSync false
  | _ => pure ()
  let t ← get
  setSsrOut t.ssr
  pure (r, t.ssr)

/-- `Secure` called by an operation that stops at its failure: the bytes read if any, and `sv`. -/
def secureOrRaise (ctag : Word) (w : Bytes) (n : Nat) (wantSsr : Bool) : M (Option Bytes × Word) := do
  let (r, sv) ← secure ctag w n wantSsr
  let b ← orRaise r
  pure (b, sv)

/-- The bytes of a response that rule R180 says is present. -/
def present : Option Bytes → M Bytes
  | some b => pure b
  | none => throw (.fault .responseMissing)

end Sys2Proof.Machine
end

