-- ==== Sys2Proof/Machine/Counter.lean ====
section
/-! DEFINITION. The monotonic-counter synchroniser and the status classifier (rules R310 to R318), and the
host operations `SYNCH_MC`, `GET_MC_UNSIGNED` and `CHECK_LAST_SSR_ERRORS`. -/

namespace Sys2Proof.Machine

/-- `get_MC_unsigned()` (rule R318): TC and DMC as the device reports them. -/
def getMc : M (Word × Word) := do
  let s ← get
  let (b, sv) ← secureOrRaise (mkCtag s.cfg.wire.getMc 0 0) [] 8 true
  if hasError s.cfg.ssr sv then raise (classify s.cfg.ssr sv (maskAllErrors s.cfg.ssr))
  else
    let r ← present b
    pure (rd32 r, rd32 (r.drop 4))

/-- The counter copy overwritten by a valid fetch, or distrusted (rule R311). -/
def State.afterFetch (s : State) : Except Status (Word × Word) → State
  | .ok (tc, dmc) =>
    if mcValid tc dmc then { s with mc := { s.mc with tc := tc, dmc := dmc } }
    else { s with mc := { s.mc with inSync := false } }
  | .error _ => { s with mc := { s.mc with inSync := false } }

/-- `ForcedFetch()` (rule R311). `ssrOut` keeps the status word that is being classified (rule R348).
DEDUCED, unsafe (log 9). -/
def forcedFetch : M Unit := do
  let s ← get
  let r ← attempt getMc
  setSsrOut s.out.ssrOut
  modify fun t => t.afterFetch r
  onlyIf s.cfg.errorClearsInSync (setInSync false)

/-- `checkSsrErrors(raw, mask)` (rule R310): any error bit, masked or not, forces the counter fetch. -/
def checkSsrErrors (raw mask : Word) : M Status := do
  phase .classify
  let s ← get
  onlyIf (hasError s.cfg.ssr raw) forcedFetch
  phase .classify
  pure (classify s.cfg.ssr raw mask)

/-- `checkSsrErrors` by an operation that stops unless the classification is `OK`. -/
def checkOrRaise (raw mask : Word) : M Unit := do
  let st ← checkSsrErrors raw mask
  okOrRaise st

/-- `checkSsrErrors` with the mask under which every category is fatal (rule R313). -/
def checkAllOrRaise (raw : Word) : M Unit := do
  let s ← get
  checkOrRaise raw (maskAllErrors s.cfg.ssr)

/-- `synch_MC()` (rule R315). -/
def synchMc : M Unit := do
  let s ← get
  if s.mc.inSync then pure ()
  else
    phase .sync
    let (tc, dmc) ← getMc
    require (mcValid tc dmc) .deviceMcErr
    modify fun t => { t with mc := { tc := tc, dmc := dmc, inSync := true } }

/-- `use_mc()` (rule R316): synchronise, then consume one tick. The order in which the pair is returned is
the parameter `MC_USE_ORDER`. DEDUCED, unsafe: what its other value means (log 19). -/
def useMc : M (Word × Word) := do
  synchMc
  let s ← get
  require (decide (s.mc.tc.toNat + 1 < Config.tcLim)) .deviceMcErr
  set { s with mc := { s.mc with tc := s.mc.tc + 1 } }
  match s.cfg.mcUseOrder with
  | .incrementThenFetch => pure (s.mc.tc + 1, s.mc.dmc)
  | .fetchThenIncrement => pure (s.mc.tc, s.mc.dmc)

/-- `SYNCH_MC`, rule R315. -/
def execSynchMc (s : State) : Host.Outcome State Fault Refusal :=
  runOp (do unspecifyResults; synchMc) s

/-- `GET_MC_UNSIGNED`, rule R318: no range validation, `mc` unchanged. -/
def execGetMcUnsigned (s : State) : Host.Outcome State Fault Refusal :=
  runOp (do
    unspecifyResults
    let (tc, dmc) ← getMc
    setRbuf (le32 tc ++ le32 dmc)) s

/-- `CHECK_LAST_SSR_ERRORS(mask)`, rule R310: `ssrOut` is the value of `ssr` that was classified. -/
def execCheckLastSsrErrors (mask : Word) (s : State) : Host.Outcome State Fault Refusal :=
  runOp (do
    unspecifyResults
    setSsrOut s.ssr
    checkOrRaise s.ssr mask) s

end Sys2Proof.Machine
end

