-- ==== Sys2Proof/Machine/Setters.lean ====
section
/-! DEFINITION. Signing, preparation and the signed setters (rules R162 to R173). -/

namespace Sys2Proof.Machine

/-- `sign_data(ctag, data, refresh)` in the current context (rule R162), for data of at most one page. -/
def signData (ctag : Word) (data : Bytes) (refresh : Bool) : M Bytes := do
  phase .derive
  let s ← get
  onlyIf refresh (do
    let k ← refreshSsk (s.ctx s.ctxIdx).key s.mc.tc
    modifyCtx s.ctxIdx fun c => { c with ssk := k, tc := s.mc.tc })
  modifyCtx s.ctxIdx fun c => { c with sctag := ctag, sdata := padPage data }
  let t ← get
  calcAuthSignature (t.ctx s.ctxIdx).ssk ctag (padPage data)

/-- `prepare_signed_setter(ctag, data, encData, encAddr)` (rules R163, R386): the plaintext is signed first;
then the address goes encrypted into the CTAG and the data is encrypted, as requested. Returns the CTAG
to send, the signature and the data to send. -/
def prepareSetter (ctag : Word) (data : Bytes) (encData encAddr : Bool) : M (Word × Bytes × Bytes) := do
  let sig ← signData ctag data true
  let s ← get
  if encData || encAddr then
    let ck ← buildCipherKey (s.ctx s.ctxIdx).ssk .encrypt
    modifyCtx s.ctxIdx fun c => { c with cipherKey := ck }
    let ctag' ← if encAddr then do
        let a ← encryptAddress (ctagAddr ctag) ck
        pure (mkCtagAddr (ctagOpc ctag) a)
      else pure ctag
    let data' ← if encData then cipher ck data else pure data
    pure (ctag', sig, data')
  else pure (ctag, sig, data)

/-- `execute_signed_setter(ctag, data, encData, encAddr, mask)` past its boundary checks (rule R164). -/
def runSetter (ctag : Word) (data : Bytes) (encData encAddr : Bool) (mask : Word) : M Unit := do
  let _ ← useMc
  let (ctag', sig, data') ← prepareSetter ctag data encData encAddr
  let (_, sv) ← secureOrRaise ctag' (data' ++ sig) 0 true
  checkOrRaise sv mask

/-- The common form of the named setters (rule R173): `ok` is the setter's own boundary check. -/
def namedSetter (opc param : Byte) (mode : BitVec 16) (size : BitVec 16) (mask : Word) (ok : Bool)
    (s : State) : Host.Outcome State Fault Refusal :=
  runOp (do
    require s.busIsLocked .notConnected
    require (ok && dataFits size) .parameterErr
    unspecifyResults
    runSetter (mkCtag opc param mode) (dataOperand s size) false false mask) s

/-- `SIGN_DATA`, rule R162: no connection, no exchange, no tick. -/
def execSignData (refresh : Bool) (ctag : Word) (size : BitVec 16) (s : State) :
    Host.Outcome State Fault Refusal :=
  runOp (do
    require (dataFits size) .parameterErr
    unspecifyResults
    let sig ← signData ctag (dataOperand s size) refresh
    setSigOut sig) s

/-- `PREPARE_SIGNED_SETTER`, rule R163. Its size checks are made at the boundary (rules R66, R347): DEDUCED, unsafe
(log 10). -/
def execPrepareSignedSetter (encData encAddr : Bool) (ctag : Word) (size : BitVec 16) (s : State) :
    Host.Outcome State Fault Refusal :=
  runOp (do
    require (dataFits size && encryptable encData size) .parameterErr
    unspecifyResults
    let (ctag', sig, data') ← prepareSetter ctag (dataOperand s size) encData encAddr
    setCtagOut ctag'
    setSigOut sig
    setRbuf data') s

/-- `EXECUTE_SIGNED_SETTER`, rule R164. -/
def execExecuteSignedSetter (encData encAddr : Bool) (ctag : Word) (size : BitVec 16) (mask : Word)
    (s : State) : Host.Outcome State Fault Refusal :=
  runOp (do
    require s.busIsLocked .notConnected
    require (dataFits size && encryptable encData size) .parameterErr
    unspecifyResults
    runSetter ctag (dataOperand s size) encData encAddr mask) s

/-- `SET_KEY`, rule R165: "ignored" errors are tolerated. -/
def execSetKey (kid : Byte) (size : BitVec 16) (s : State) : Host.Outcome State Fault Refusal :=
  namedSetter s.cfg.wire.setKey kid 0 size (maskIgnoreIgnore s.cfg.ssr) (kidOk s kid) s

/-- `SET_SUID`, rule R166. -/
def execSetSuid (size : BitVec 16) (s : State) : Host.Outcome State Fault Refusal :=
  namedSetter s.cfg.wire.setSuid 0 0 size (maskAllErrors s.cfg.ssr) true s

/-- `SET_GMC`, rule R167. -/
def execSetGmc (size : BitVec 16) (s : State) : Host.Outcome State Fault Refusal :=
  namedSetter s.cfg.wire.setGmc 0 0 size (maskAllErrors s.cfg.ssr) true s

/-- `SET_GMT`, rule R168. -/
def execSetGmt (size : BitVec 16) (s : State) : Host.Outcome State Fault Refusal :=
  namedSetter s.cfg.wire.setGmt 0 0 size (maskAllErrors s.cfg.ssr) true s

/-- `SET_AWDT`, rule R169. -/
def execSetAwdt (size : BitVec 16) (s : State) : Host.Outcome State Fault Refusal :=
  namedSetter s.cfg.wire.setAwdt 0 0 size (maskAllErrors s.cfg.ssr) true s

/-- `SET_SCR`, rule R170: the chain flags travel in the CTAG and act in step 4 of `Secure`. -/
def execSetScr (chainInitPa chainReset : Bool) (size : BitVec 16) (sect : Byte) (s : State) :
    Host.Outcome State Fault Refusal :=
  namedSetter s.cfg.wire.setScr sect (modeFlags chainInitPa chainReset) size (maskAllErrors s.cfg.ssr)
    (sectionOk s sect) s

/-- `SET_RST_RESP`, rule R171. -/
def execSetRstResp (size : BitVec 16) (s : State) : Host.Outcome State Fault Refusal :=
  namedSetter s.cfg.wire.setRstResp 0 0 size (maskAllErrors s.cfg.ssr) true s

/-- `SET_ACLR`, rule R172. -/
def execSetAclr (size : BitVec 16) (s : State) : Host.Outcome State Fault Refusal :=
  namedSetter s.cfg.wire.setAclr 0 0 size (maskAllErrors s.cfg.ssr) true s

end Sys2Proof.Machine
end

