-- ==== Sys2Proof/Machine/Getters.lean ====
section
/-! DEFINITION. The generic signed getter `CALC_SIG` and the named getters over it (rules R180 to R189). -/

namespace Sys2Proof.Machine

/-- The previous-TC a response echoes (rules R107, R108). -/
def echoedTc (r : Bytes) : Word := rd32 r

/-- `CALC_SIG(dtype, section, size)` past its boundary checks (rule R180): the signature is checked first,
then the freshness. -/
def runCalcSig (dtype sect : Byte) (size : Nat) : M Unit := do
  let s ← get
  let ctag := calcSigCtag s.cfg dtype sect
  let _ ← useMc
  let (b, sv) ← secureOrRaise ctag [] 44 true
  checkAllOrRaise sv
  let r ← present b
  phase .verify
  let d := (r.drop 4).take size
  let sigRx := r.drop 36
  let sigExp ← signData ctag d true
  require (sigExp == sigRx) .securityErr
  let t ← get
  require (echoedTc r == t.mc.tc - 1) .systemInIncorrectState
  setRbuf d
  setSigOut sigRx

/-- A signed getter with its boundary checks (rule R180). -/
def signedGetter (dtype sect : Byte) (size : BitVec 16) (s : State) : Host.Outcome State Fault Refusal :=
  runOp (do
    require s.busIsLocked .notConnected
    require (dataFits size && isDataType dtype && sectionOk s sect) .parameterErr
    unspecifyResults
    runCalcSig dtype sect size.toNat) s

/-- `CALC_SIG`, rule R180: the section index is checked and sent for every data type (`calcSigCtag`). -/
def execCalcSig (size : BitVec 16) (sect dtype : Byte) (s : State) : Host.Outcome State Fault Refusal :=
  signedGetter dtype sect size s

/-- `GET_WID`, rule R181: `CALC_SIG(DT_WID, 0, size)`. -/
def execGetWid (size : BitVec 16) (s : State) : Host.Outcome State Fault Refusal := signedGetter 1 0 size s

/-- `GET_SUID`, rule R182. -/
def execGetSuid (size : BitVec 16) (s : State) : Host.Outcome State Fault Refusal := signedGetter 2 0 size s

/-- `GET_SSR_SIGNED`, rule R183: the signed SSR is data, not written to `ssr`. -/
def execGetSsrSigned (size : BitVec 16) (s : State) : Host.Outcome State Fault Refusal :=
  signedGetter 3 0 size s

/-- `GET_GMC`, rule R184. -/
def execGetGmc (size : BitVec 16) (s : State) : Host.Outcome State Fault Refusal := signedGetter 4 0 size s

/-- `GET_GMT`, rule R185. -/
def execGetGmt (size : BitVec 16) (s : State) : Host.Outcome State Fault Refusal := signedGetter 5 0 size s

/-- `GET_AWDT`, rule R186. -/
def execGetAwdt (size : BitVec 16) (s : State) : Host.Outcome State Fault Refusal := signedGetter 6 0 size s

/-- `GET_SCR`, rule R187: the only named getter that uses the section index. -/
def execGetScr (size : BitVec 16) (sect : Byte) (s : State) : Host.Outcome State Fault Refusal :=
  signedGetter 7 sect size s

/-- `GET_HW_VER`, rule R188. -/
def execGetHwVer (size : BitVec 16) (s : State) : Host.Outcome State Fault Refusal := signedGetter 8 0 size s

/-- `GET_MC_SIGNED`, rule R189: the counter arrives as data; `mc` is not written from it. -/
def execGetMcSigned (size : BitVec 16) (s : State) : Host.Outcome State Fault Refusal :=
  signedGetter 9 0 size s

end Sys2Proof.Machine
end

