-- ==== Sys2Proof/Machine/ReadWriteErase.lean ====
section
/-! DEFINITION. Secure read, authenticated read, authenticated write and erase (rules R220 to R230). -/

namespace Sys2Proof.Machine

/-- The 24 address bits of an address that passed `AddrOk` (rule R93). -/
def addr24 (a : Word) : BitVec 24 := a.setWidth 24

/-- `PrepRead(opc, a, slot)` (rule R221): the draw is made before the tick; the context is filled for the
command that reads page `a`. -/
def prepRead (opc : Byte) (a : Word) (slot : Bool) : M Unit := do
  phase .derive
  let ar ← drawAddr a
  let (t, _) ← useMc
  phase .derive
  let s ← get
  let ssk ← refreshSsk (s.ctx slot).key t
  let ck ← buildCipherKey ssk .decrypt
  let ea ← encryptAddress (addr24 ar) ck
  modifyCtx slot fun c =>
    { c with tc := t, ssk := ssk, cipherKey := ck, ctagW := mkCtagAddr opc ea }

/-- The freshness check of a page read against its own tick (rules R222, R223, R253). -/
def checkFresh (r : Bytes) (c : Ctx) : M Unit :=
  require (echoedTc r == c.tc - 1) .systemInIncorrectState

/-- The ciphertext of a page response (rule R108). -/
def pageOf (r : Bytes) : Bytes := (r.drop 4).take Config.pageSize

/-- Whether the signature of an authenticated page read of address `a` is the one expected over the
unrandomised address and the plaintext `p`, with the context's own `ssk` (rules R223, R253). -/
def pageSigned (opc : Byte) (a : Word) (slot : Bool) (p r : Bytes) : M Bool := do
  let sctag := mkCtagAddr opc (addr24 a)
  modifyCtx slot fun c => { c with sctag := sctag, sdata := p }
  let s ← get
  let sig ← calcAuthSignature (s.ctx slot).ssk sctag p
  pure (sig == r.drop 36)

/-- The part of a single page read that SRD and SARD share (rules R222, R223): command, response of `len` bytes,
classification, freshness, decryption. Returns the response and the plaintext. -/
def readPage (opc : Byte) (a : Word) (slot : Bool) (len : Nat) : M (Bytes × Bytes) := do
  prepRead opc a slot
  let s ← get
  let (b, sv) ← secureOrRaise (s.ctx slot).ctagW [] len true
  checkAllOrRaise sv
  let r ← present b
  phase .verify
  let t ← get
  checkFresh r (t.ctx slot)
  let p ← cipher (t.ctx slot).cipherKey (pageOf r)
  pure (r, p)

/-- `SRD`, rule R222. -/
def execSrd (addr : Word) (s : State) : Host.Outcome State Fault Refusal :=
  runOp (do
    require s.busIsLocked .notConnected
    require (addrOk addr) .parameterErr
    unspecifyResults
    let (_, p) ← readPage s.cfg.wire.srd addr s.ctxIdx 36
    setRbuf p) s

/-- `SARD`, rule R223: on a signature mismatch the output is zero. -/
def execSard (addr : Word) (s : State) : Host.Outcome State Fault Refusal :=
  runOp (do
    require s.busIsLocked .notConnected
    require (addrOk addr) .parameterErr
    unspecifyResults
    let (r, p) ← readPage s.cfg.wire.sard addr s.ctxIdx 44
    let good ← pageSigned s.cfg.wire.sard addr s.ctxIdx p r
    if good then setRbuf p
    else do
      setRbuf (List.replicate Config.pageSize 0)
      raise .securityErr) s

/-- `SAWR`, rule R224: the generic setter on the randomised address, data and address encrypted. -/
def execSawr (addr : Word) (size : BitVec 16) (s : State) : Host.Outcome State Fault Refusal :=
  runOp (do
    require s.busIsLocked .notConnected
    require (addrOk addr && decide (size.toNat = Config.pageSize)) .parameterErr
    unspecifyResults
    let ar ← drawAddr addr
    runSetter (mkCtagAddr s.cfg.wire.sawr (addr24 ar)) (dataOperand s size) true true
      (maskAllErrors s.cfg.ssr)) s

/-- An address-bearing erase (rules R225, R230): no data, the address randomised, signed, then encrypted. -/
def addressErase (opc : Byte) (addr : Word) (s : State) : Host.Outcome State Fault Refusal :=
  runOp (do
    require s.busIsLocked .notConnected
    require (addrOk addr) .parameterErr
    unspecifyResults
    let ar ← drawAddr addr
    runSetter (mkCtagAddr opc (addr24 ar)) [] false true (maskAllErrors s.cfg.ssr)) s

/-- `SERASE_4K`, rule R225. -/
def execSerase4k (addr : Word) (s : State) : Host.Outcome State Fault Refusal :=
  addressErase s.cfg.wire.erase4k addr s

/-- `SERASE_32K`, rule R226. -/
def execSerase32k (addr : Word) (s : State) : Host.Outcome State Fault Refusal :=
  addressErase s.cfg.wire.erase32k addr s

/-- `SERASE_64K`, rule R227. -/
def execSerase64k (addr : Word) (s : State) : Host.Outcome State Fault Refusal :=
  addressErase s.cfg.wire.erase64k addr s

/-- `SERASE_SECTION`, rule R228: the section index in the parameter byte. -/
def execSeraseSection (sect : Byte) (s : State) : Host.Outcome State Fault Refusal :=
  runOp (do
    require s.busIsLocked .notConnected
    require (sectionOk s sect) .parameterErr
    unspecifyResults
    runSetter (mkCtag s.cfg.wire.eraseSection sect 0) [] false false (maskAllErrors s.cfg.ssr)) s

/-- `SERASE_CHIP`, rule R229. -/
def execSeraseChip (s : State) : Host.Outcome State Fault Refusal :=
  runOp (do
    require s.busIsLocked .notConnected
    unspecifyResults
    runSetter (mkCtag s.cfg.wire.eraseChip 0 0) [] false false (maskAllErrors s.cfg.ssr)) s

end Sys2Proof.Machine
end

