-- ==== Sys2Proof/Machine/Multiblock.lean ====
section
/-! DEFINITION. The pipelined multi-block reads (rules R250 to R257). -/

namespace Sys2Proof.Machine

/-- `Drain()` (rule R252): complete a started command; the status of its wait is ignored. -/
def drain : M Unit := do
  let s ← get
  onlyIf s.inFlight (do
    intMask
    let _ ← attempt busyWait
    setInFlight false
    intRestore)

/-- What `rbuf` holds after a signature mismatch on the page that follows `done` in a read of `size` bytes (rule
R257): the verified pages and zeros, or all zeros. -/
def zeroedOutput (z : Config.MultiZero) (done : Bytes) (size : Nat) : Bytes :=
  match z with
  | .remaining => done ++ List.replicate (size - done.length) 0
  | .all => List.replicate size 0

/-- `Fail(st, i)` (rule R257): `done` is the plaintext of the pages before page `i`. -/
def failMulti {α : Type} (st : Status) (done : Bytes) (size : Nat) : M α := do
  drain
  let s ← get
  onlyIf (st == .securityErr) (setRbuf (zeroedOutput s.cfg.multiZero done size))
  raise st

/-- A step of the pipeline whose failure is `Fail(st, i)`. -/
def orFailMulti {α : Type} (x : M α) (done : Bytes) (size : Nat) : M α := do
  let r ← attempt x
  match r with
  | .ok a => pure a
  | .error st => failMulti st done size

/-- The operands a multi-block read keeps throughout: wire opcode, response length, whether pages are signed, the
size in bytes (rules R251, R255, R256). -/
structure MultiRead where
  opc : Byte
  len : Nat
  signed : Bool
  size : Nat
deriving DecidableEq, Repr

/-- Start of the command prepared in a context, without waiting (steps 1 and 4 of rule R253). -/
def startRead (slot : Bool) : M Unit := do
  let s ← get
  let _ ← secureOrRaise (s.ctx slot).ctagW [] 0 false

/-- The error check after step 4 (rules R253, R258): drain, then classify. -/
def checkPage (sv : Word) (done : Bytes) (size : Nat) : M Unit := do
  let s ← get
  onlyIf (hasError s.cfg.ssr sv) (do
    drain
    let st ← checkSsrErrors sv (maskAllErrors s.cfg.ssr)
    failMulti st done size)

/-- Freshness, decryption and, for the authenticated variant, the signature of the page at `a` read with context
`old` (step 5 of rule R253): the plaintext. -/
def verifyPage (m : MultiRead) (a : Word) (old : Bool) (r : Bytes) : M Bytes := do
  phase .verify
  let s ← get
  checkFresh r (s.ctx old)
  let p ← cipher (s.ctx old).cipherKey (pageOf r)
  onlyIf m.signed (do
    let good ← pageSigned m.opc a old p r
    require good .securityErr)
  pure p

/-- The loop of rule R253 with `rest` pages left, the first of them at address `a` and started in context `old`;
`done` is the plaintext so far. Returns the whole plaintext. -/
def pagesLoop (m : MultiRead) : Nat → Word → Bool → Bytes → M Bytes
  | 0, _, _, done => pure done
  | rest + 1, a, old, done => do
    let next := a + BitVec.ofNat 32 Config.pageSize
    onlyIf (rest != 0) (do
      setCtxIdx (!old)
      orFailMulti (prepRead m.opc next (!old)) done m.size)
    let (b, sv) ← orFailMulti (secureOrRaise 0 [] m.len true) done m.size
    onlyIf (rest != 0) (orFailMulti (startRead (!old)) done m.size)
    checkPage sv done m.size
    let r ← present b
    let p ← orFailMulti (verifyPage m a old r) done m.size
    pagesLoop m rest next (!old) (done ++ p)

/-- A multi-block read past its boundary checks (rule R253). -/
def readMulti (m : MultiRead) (a : Word) : M Unit := do
  let s ← get
  prepRead m.opc a s.ctxIdx
  orFailMulti (startRead s.ctxIdx) [] m.size
  let out ← pagesLoop m (m.size / Config.pageSize) a s.ctxIdx []
  setRbuf out

/-- A multi-block read with its boundary checks (rules R251, R253). -/
def multiRead (m : MultiRead) (addr size : Word) (s : State) : Host.Outcome State Fault Refusal :=
  runOp (do
    require s.busIsLocked .notConnected
    require (multiOk addr size) .parameterErr
    unspecifyResults
    readMulti m addr) s

/-- `SRD_MULTI`, rule R255. -/
def execSrdMulti (addr size : Word) (s : State) : Host.Outcome State Fault Refusal :=
  multiRead { opc := s.cfg.wire.srd, len := 36, signed := false, size := size.toNat } addr size s

/-- `SARD_MULTI`, rule R256. -/
def execSardMulti (addr size : Word) (s : State) : Host.Outcome State Fault Refusal :=
  multiRead { opc := s.cfg.wire.sard, len := 44, signed := true, size := size.toNat } addr size s

end Sys2Proof.Machine
end

