-- ==== Sys2Proof/Machine/TransactionManager.lean ====
section
/-! DEFINITION. The transaction manager's host operations: connection, `Secure` and `Standard` as issued by
the host, the status accessor (rules R270 to R272, R293, R294, R298). -/

namespace Sys2Proof.Machine

/-- Write `busIsLocked` (rule R31). -/
def setBusIsLocked (b : Bool) : M Unit := modify fun s => { s with busIsLocked := b }

/-- `TM_CONNECT`, rule R271: a test-and-set in a masked section. -/
def execTmConnect (s : State) : Host.Outcome State Fault Refusal :=
  runOp (do
    masked (do
      let t ← get
      require (!t.busIsLocked) .deviceBusy
      setBusIsLocked true)
    unspecifyResults) s

/-- `TM_DISCONNECT`, rule R272: a test-and-clear in a masked section; session, keys and counter stay. -/
def execTmDisconnect (s : State) : Host.Outcome State Fault Refusal :=
  runOp (do
    masked (do
      let t ← get
      require t.busIsLocked .notConnected
      setBusIsLocked false)
    unspecifyResults) s

/-- Deliver the bytes of a response in `rbuf`, if any were read (rule R298). -/
def deliver : Option Bytes → M Unit
  | some b => setRbuf b
  | none => pure ()

/-- `TM_SECURE`, rule R298: `Secure` on the host's CTAG, without classification and without a tick. -/
def execTmSecure (wantSsr : Bool) (ctag : Word) (size : BitVec 16) (readLen : Word) (s : State) :
    Host.Outcome State Fault Refusal :=
  runOp (do
    unspecifyResults
    let (b, _) ← secureOrRaise ctag (dataOperand s size) readLen.toNat wantSsr
    deliver b) s

/-- `Standard(opcode, addr, addrSize, w, n, dummy, writeEnable, waitBusy)` past its connection check (rule
R293). -/
def standard (opcode : Byte) (addr : Option Word) (addrSize : Byte) (w : Bytes) (n : Nat) (dummy : Byte)
    (writeEnable waitBusy : Bool) : M Bytes :=
  masked (do
    phase .send
    let s ← get
    onlyIf writeEnable (bareExchange s.cfg.stdWren)
    let r ← exchange opcode addr addrSize w dummy n
    onlyIf waitBusy busyWait
    pure r)

/-- `TM_STANDARD`, rules R114, R293: with `HAS_ADDR` an address of more than 24 bits is refused at the boundary;
without it the address size passed is 0. A refusal writes `status` and `seq` only. DEDUCED, unsafe: the check of the
address follows the connection check (log 25), and the result registers stay while the bus is not locked (log 8). -/
def execTmStandard (writeEnable waitBusy hasAddr : Bool) (addr : Word) (size : BitVec 16)
    (addrSize dummy opcode : Byte) (readLen : BitVec 16) (s : State) : Host.Outcome State Fault Refusal :=
  runOp (do
    require s.busIsLocked .notConnected
    require (standardAddrOk hasAddr addr) .parameterErr
    unspecifyResults
    let r ← standard opcode (if hasAddr then some addr else none) (if hasAddr then addrSize else 0)
      (dataOperand s size) readLen.toNat dummy writeEnable waitBusy
    setRbuf r) s

/-- `GET_LAST_SSR`, rule R294: the snapshot as it stands, connected or not. -/
def execGetLastSsr (s : State) : Host.Outcome State Fault Refusal :=
  runOp (do
    unspecifyResults
    setSsrOut s.ssr) s

end Sys2Proof.Machine
end

