-- ==== Sys2Proof/Machine/Wire.lean ====
section
/-! DEFINITION. The wire commands as such (rules R110, R111, R115): the transaction that carries each of them to
the device, with the payload and the response length its rule fixes (R108). The host reaches them through
`TM_SECURE` (rule R298, I26); the payload's bytes are the host's. DESIGN CHOICE, unsafe (log 15). -/

namespace Sys2Proof.Machine

/-- The `size` field of the latched descriptor (rule R90). -/
def sizeField (s : State) : BitVec 16 := s.latch.cmd.w2.extractLsb' 0 16

/-- The read length in the latched descriptor, its word 3 (rules R90, R112). -/
def readField (s : State) : Nat := s.latch.cmd.w3.toNat

/-- A payload of `n` bytes from the host's buffer. -/
def payload (s : State) (n : Nat) : Bytes := fit n s.latch.wbuf

/-- The payload of a setter: the data and the signature, as many bytes as the host says (rule R108). -/
def setterPayload (s : State) : Bytes := dataOperand s (sizeField s)

/-- One wire command's transaction: OP1 with the CTAG and the payload, the wait, the response of `n` bytes if
any (rules R298, R300). No classification and no tick. -/
def wireCommand (ctag : Word) (w : Bytes) (n : Nat) (s : State) : Host.Outcome State Fault Refusal :=
  runOp (do
    unspecifyResults
    let (b, _) ← secureOrRaise ctag w n true
    deliver b) s

/-- `OPC_GET_MC` (rules R110, R318): no payload, a response of 8 bytes. -/
def execOpcGetMc (param : Byte) (mode : BitVec 16) (s : State) : Host.Outcome State Fault Refusal :=
  wireCommand (mkCtag s.cfg.wire.getMc param mode) [] 8 s

/-- `OPC_SESSION_OPEN` (rules R110, R142): payload of 16 bytes: nonce and signature, no response. -/
def execOpcSessionOpen (param : Byte) (mode : BitVec 16) (s : State) : Host.Outcome State Fault Refusal :=
  wireCommand (mkCtag s.cfg.wire.sessionOpen param mode) (payload s 16) 0 s

/-- `OPC_INIT_PA` (rules R110, R148): no payload, no response. -/
def execOpcInitPa (param : Byte) (mode : BitVec 16) (s : State) : Host.Outcome State Fault Refusal :=
  wireCommand (mkCtag s.cfg.wire.initPa param mode) [] 0 s

/-- `OPC_CALC_SIG` (rules R110, R180): no payload, a response of 44 bytes. -/
def execOpcCalcSig (param : Byte) (mode : BitVec 16) (s : State) : Host.Outcome State Fault Refusal :=
  wireCommand (mkCtag s.cfg.wire.calcSig param mode) [] 44 s

/-- `OPC_SRD` (rules R110, R222): no payload, a response of 36 bytes. -/
def execOpcSrd (addr24 : BitVec 24) (s : State) : Host.Outcome State Fault Refusal :=
  wireCommand (mkCtagAddr s.cfg.wire.srd addr24) [] 36 s

/-- `OPC_SARD` (rules R110, R223): no payload, a response of 44 bytes. -/
def execOpcSard (addr24 : BitVec 24) (s : State) : Host.Outcome State Fault Refusal :=
  wireCommand (mkCtagAddr s.cfg.wire.sard addr24) [] 44 s

/-- `OPC_SAWR` (rules R110, R224): payload of 40 bytes: one page and signature, no response. -/
def execOpcSawr (addr24 : BitVec 24) (s : State) : Host.Outcome State Fault Refusal :=
  wireCommand (mkCtagAddr s.cfg.wire.sawr addr24) (payload s 40) 0 s

/-- `OPC_SET_KEY` (rules R110, R165): payload: data and signature, no response. -/
def execOpcSetKey (param : Byte) (mode : BitVec 16) (s : State) : Host.Outcome State Fault Refusal :=
  wireCommand (mkCtag s.cfg.wire.setKey param mode) (setterPayload s) 0 s

/-- `OPC_SET_SUID` (rules R110, R166): payload: data and signature, no response. -/
def execOpcSetSuid (param : Byte) (mode : BitVec 16) (s : State) : Host.Outcome State Fault Refusal :=
  wireCommand (mkCtag s.cfg.wire.setSuid param mode) (setterPayload s) 0 s

/-- `OPC_SET_GMC` (rules R110, R167): payload: data and signature, no response. -/
def execOpcSetGmc (param : Byte) (mode : BitVec 16) (s : State) : Host.Outcome State Fault Refusal :=
  wireCommand (mkCtag s.cfg.wire.setGmc param mode) (setterPayload s) 0 s

/-- `OPC_SET_GMT` (rules R110, R168): payload: data and signature, no response. -/
def execOpcSetGmt (param : Byte) (mode : BitVec 16) (s : State) : Host.Outcome State Fault Refusal :=
  wireCommand (mkCtag s.cfg.wire.setGmt param mode) (setterPayload s) 0 s

/-- `OPC_SET_AWDT` (rules R110, R169): payload: data and signature, no response. -/
def execOpcSetAwdt (param : Byte) (mode : BitVec 16) (s : State) : Host.Outcome State Fault Refusal :=
  wireCommand (mkCtag s.cfg.wire.setAwdt param mode) (setterPayload s) 0 s

/-- `OPC_SET_SCR` (rules R110, R170): payload: data and signature, no response. -/
def execOpcSetScr (param : Byte) (mode : BitVec 16) (s : State) : Host.Outcome State Fault Refusal :=
  wireCommand (mkCtag s.cfg.wire.setScr param mode) (setterPayload s) 0 s

/-- `OPC_SET_RST_RESP` (rules R110, R171): payload: data and signature, no response. -/
def execOpcSetRstResp (param : Byte) (mode : BitVec 16) (s : State) : Host.Outcome State Fault Refusal :=
  wireCommand (mkCtag s.cfg.wire.setRstResp param mode) (setterPayload s) 0 s

/-- `OPC_SET_ACLR` (rules R110, R172): payload: data and signature, no response. -/
def execOpcSetAclr (param : Byte) (mode : BitVec 16) (s : State) : Host.Outcome State Fault Refusal :=
  wireCommand (mkCtag s.cfg.wire.setAclr param mode) (setterPayload s) 0 s

/-- `OPC_ERASE_4K` (rules R110, R225): payload of 8 bytes: the signature, no response. -/
def execOpcErase4k (addr24 : BitVec 24) (s : State) : Host.Outcome State Fault Refusal :=
  wireCommand (mkCtagAddr s.cfg.wire.erase4k addr24) (payload s 8) 0 s

/-- `OPC_ERASE_32K` (rules R110, R226): payload of 8 bytes: the signature, no response. -/
def execOpcErase32k (addr24 : BitVec 24) (s : State) : Host.Outcome State Fault Refusal :=
  wireCommand (mkCtagAddr s.cfg.wire.erase32k addr24) (payload s 8) 0 s

/-- `OPC_ERASE_64K` (rules R110, R227): payload of 8 bytes: the signature, no response. -/
def execOpcErase64k (addr24 : BitVec 24) (s : State) : Host.Outcome State Fault Refusal :=
  wireCommand (mkCtagAddr s.cfg.wire.erase64k addr24) (payload s 8) 0 s

/-- `OPC_ERASE_SECTION` (rules R110, R228): payload of 8 bytes: the signature, no response. -/
def execOpcEraseSection (param : Byte) (mode : BitVec 16) (s : State) : Host.Outcome State Fault Refusal :=
  wireCommand (mkCtag s.cfg.wire.eraseSection param mode) (payload s 8) 0 s

/-- `OPC_ERASE_CHIP` (rules R110, R229): payload of 8 bytes: the signature, no response. -/
def execOpcEraseChip (param : Byte) (mode : BitVec 16) (s : State) : Host.Outcome State Fault Refusal :=
  wireCommand (mkCtag s.cfg.wire.eraseChip param mode) (payload s 8) 0 s

/-- `OPC_CALC_SIG.DT_WID` (rules R111, R180, R181): parameter byte 1, a response of 44 bytes. -/
def execOpcCalcSigDtWid (mode : BitVec 16) (s : State) : Host.Outcome State Fault Refusal :=
  wireCommand (mkCtag s.cfg.wire.calcSig 1 mode) [] 44 s

/-- `OPC_CALC_SIG.DT_SUID` (rules R111, R180, R182): parameter byte 2, a response of 44 bytes. -/
def execOpcCalcSigDtSuid (mode : BitVec 16) (s : State) : Host.Outcome State Fault Refusal :=
  wireCommand (mkCtag s.cfg.wire.calcSig 2 mode) [] 44 s

/-- `OPC_CALC_SIG.DT_SSR` (rules R111, R180, R183): parameter byte 3, a response of 44 bytes. -/
def execOpcCalcSigDtSsr (mode : BitVec 16) (s : State) : Host.Outcome State Fault Refusal :=
  wireCommand (mkCtag s.cfg.wire.calcSig 3 mode) [] 44 s

/-- `OPC_CALC_SIG.DT_GMC` (rules R111, R180, R184): parameter byte 4, a response of 44 bytes. -/
def execOpcCalcSigDtGmc (mode : BitVec 16) (s : State) : Host.Outcome State Fault Refusal :=
  wireCommand (mkCtag s.cfg.wire.calcSig 4 mode) [] 44 s

/-- `OPC_CALC_SIG.DT_GMT` (rules R111, R180, R185): parameter byte 5, a response of 44 bytes. -/
def execOpcCalcSigDtGmt (mode : BitVec 16) (s : State) : Host.Outcome State Fault Refusal :=
  wireCommand (mkCtag s.cfg.wire.calcSig 5 mode) [] 44 s

/-- `OPC_CALC_SIG.DT_AWDT` (rules R111, R180, R186): parameter byte 6, a response of 44 bytes. -/
def execOpcCalcSigDtAwdt (mode : BitVec 16) (s : State) : Host.Outcome State Fault Refusal :=
  wireCommand (mkCtag s.cfg.wire.calcSig 6 mode) [] 44 s

/-- `OPC_CALC_SIG.DT_SCR` (rules R111, R180, R187): parameter byte 7, a response of 44 bytes. -/
def execOpcCalcSigDtScr (mode : BitVec 16) (s : State) : Host.Outcome State Fault Refusal :=
  wireCommand (mkCtag s.cfg.wire.calcSig 7 mode) [] 44 s

/-- `OPC_CALC_SIG.DT_HW_VER` (rules R111, R180, R188): parameter byte 8, a response of 44 bytes. -/
def execOpcCalcSigDtHwVer (mode : BitVec 16) (s : State) : Host.Outcome State Fault Refusal :=
  wireCommand (mkCtag s.cfg.wire.calcSig 8 mode) [] 44 s

/-- `OPC_CALC_SIG.DT_MC` (rules R111, R180, R189): parameter byte 9, a response of 44 bytes. -/
def execOpcCalcSigDtMc (mode : BitVec 16) (s : State) : Host.Outcome State Fault Refusal :=
  wireCommand (mkCtag s.cfg.wire.calcSig 9 mode) [] 44 s

/-- A CTAG with an unassigned opcode (I26): passed to the device unchanged, with the payload and the read length of
the latched descriptor. -/
def execOtherCtag (s : State) : Host.Outcome State Fault Refusal :=
  wireCommand s.latch.cmd.w0 (setterPayload s) (readField s) s

end Sys2Proof.Machine
end

