-- ==== Sys2Proof/Machine/Bus.lean ====
section
/-! DEFINITION. The bus sub-operations as such (rules R103 to R106, R109): the single exchange of each, under the
discipline of `Standard` (rule R293): the bus lock is required and the exchange runs in a masked section.
The host reaches them through `TM_STANDARD` (I27); `inFlight` and `mc` are not touched but by the device
reset. DESIGN CHOICE, unsafe (log 16). -/

namespace Sys2Proof.Machine

/-- One sub-operation on the host's request. -/
def busCommand (x : M Unit) (s : State) : Host.Outcome State Fault Refusal :=
  runOp (do
    require s.busIsLocked .notConnected
    unspecifyResults
    masked x) s

/-- `OP0`, rules R104, R290: one status poll; the snapshot takes what was read. -/
def execOp0 (s : State) : Host.Outcome State Fault Refusal :=
  busCommand (do
    phase .wait
    op0) s

/-- `OP1`, rules R105, R291: the command-tag-and-payload frame of the CTAG in word 1 of the descriptor. -/
def execOp1 (s : State) : Host.Outcome State Fault Refusal :=
  busCommand (do
    phase .send
    op1 s.latch.cmd.w1 (setterPayload s)) s

/-- `OP2`, rules R106, R292: a response of the length in word 3 of the descriptor. -/
def execOp2 (s : State) : Host.Outcome State Fault Refusal :=
  busCommand (do
    phase .read
    let r ← op2 (readField s)
    setRbuf r) s

/-- `STD_WREN`, rule R109: the write-enable prefix. -/
def execStdWren (s : State) : Host.Outcome State Fault Refusal :=
  busCommand (do
    phase .send
    bareExchange s.cfg.stdWren) s

/-- `STD_RSTEN`, rules R109, R297: first exchange of the device reset. -/
def execStdRsten (s : State) : Host.Outcome State Fault Refusal := busCommand resetEnable s

/-- `STD_RST`, rules R109, R297: second exchange of the device reset, and what the block then forgets. -/
def execStdRst (s : State) : Host.Outcome State Fault Refusal := busCommand resetDevice s

/-- An unassigned bus opcode (I27): passed through, as `TM_STANDARD` without options does. -/
def execOtherBus (opcode : Byte) (s : State) : Host.Outcome State Fault Refusal :=
  busCommand (do
    phase .send
    let r ← exchange opcode none 0 (setterPayload s) 0 (readField s)
    setRbuf r) s

end Sys2Proof.Machine
end

