-- ==== Sys2Proof/Machine/Session.lean ====
section
/-! DEFINITION. The session lifecycle: `SESSION_OPEN`, both forms of `SESSION_CLOSE`, and the procedures they
share (rules R140 to R148). -/

namespace Sys2Proof.Machine

/-- `Handshake(k, key, includeWID, ignoreScr)` (rule R142): the derived session key and the final status
word. The nonce is drawn before the tick, and `kid` is written before the frame is sent. -/
def handshake (k : Byte) (key : Bytes) (includeWid ignoreScr : Bool) : M (Bytes × Word) := do
  phase .derive
  let nonce ← drawNonce
  let s ← get
  let ctag := mkCtag s.cfg.wire.sessionOpen k (modeFlags includeWid ignoreScr)
  let (tc, dmc) ← useMc
  phase .derive
  let (sk, sig) ← cryptoCall .deriveSession fun t =>
    sessionOf t.cfg key ctag tc dmc nonce (if includeWid then some t.conf.wid else none)
  setKid k
  let (_, sv) ← secureOrRaise ctag (nonce ++ sig) 0 true
  pure (sk, sv)

/-- The mask under which an open is classified (rules R143, R313): integrity errors are tolerated for a
full-access key. -/
def openMask (L : Config.SsrLayout) (k : Byte) : Word :=
  if kidIsFull k then maskIgnoreIntg L else maskAllErrors L

/-- `SES_READY` is 1 and the `KID` field is the requested KID (rule R143). -/
def sessionReady (L : Config.SsrLayout) (sv : Word) (k : Byte) : Bool :=
  sesReady L sv && ssrKid L sv == k

/-- The long-term key of an open (rules R141, R143): the explicit one, else the key manager's for a section
KID; `none` is `PARAMETER_ERR`. -/
def openKey (s : State) (k : Byte) (hasKey : Bool) : Option Bytes :=
  if hasKey then some (keyOperand s)
  else if kidIsSection k then getKey s (kidSection k).toNat (kidIsFull k)
  else none

/-- An open past its boundary checks (rule R143): on success the three key registers take the session key;
whatever fails, they are wiped and `kid` is invalid. -/
def openSession (k : Byte) (key : Bytes) (includeWid ignoreScr : Bool) : M Unit := do
  let r ← attempt (do
    let (sk, sv) ← handshake k key includeWid ignoreScr
    let s ← get
    checkOrRaise sv (openMask s.cfg.ssr k)
    require (sessionReady s.cfg.ssr sv k) .systemInIncorrectState
    pure sk)
  match r with
  | .ok sk => modify fun s => s.withKeys sk
  | .error st => do
    phase .cleanup
    closeSession
    raise st

/-- `SESSION_OPEN`, rule R143. -/
def execSessionOpen (kid : Byte) (hasKey includeWid ignoreScr : Bool) (s : State) :
    Host.Outcome State Fault Refusal :=
  runOp (do
    require s.busIsLocked .notConnected
    require (kidOk s kid) .parameterErr
    match openKey s kid hasKey with
    | none => raise .parameterErr
    | some key => do
      unspecifyResults
      openSession kid key includeWid ignoreScr) s

/-- `InitPA(s)`, the stand-alone init plain-access command (rule R148). -/
def initPa (sect : Byte) : M Unit := do
  let _ ← useMc
  let s ← get
  let (_, sv) ← secureOrRaise (mkCtag s.cfg.wire.initPa sect 0) [] 0 true
  checkAllOrRaise sv

/-- `paEnabled[sect] <- false` (rule R32). -/
def clearPaEnabled (sect : Nat) : M Unit :=
  modify fun s => { s with conf := { s.conf with
    paEnabled := s.conf.paEnabled &&& ~~~(BitVec.twoPow 16 sect) } }

/-- `SESSION_CLOSE` with `REVOKE_PA` = 1, rule R146: the keys are not wiped on this path. -/
def execSessionCloseRevoke (kid : Byte) (s : State) : Host.Outcome State Fault Refusal :=
  runOp (do
    require s.busIsLocked .notConnected
    require (kidOk s kid && kidIsSection kid) .parameterErr
    unspecifyResults
    initPa ((kidSection kid).setWidth 8)
    clearPaEnabled (kidSection kid).toNat
    setKid Config.kidInvalid) s

/-- The handshake with the zero key that forces the device's session closed, up to its checks (rule R147). -/
def closeHandshake (k : Byte) : M Unit := do
  let s ← get
  let (_, sv) ← handshake k (List.replicate s.cfg.keyBytes 0) false false
  checkOrRaise sv maskNone
  require (!sesReady s.cfg.ssr sv) .systemInIncorrectState

/-- `SESSION_CLOSE` with `REVOKE_PA` = 0, rule R147: `kid` is invalidated and the keys are wiped whatever the
handshake's status is. -/
def execSessionClose (kid : Byte) (s : State) : Host.Outcome State Fault Refusal :=
  runOp (do
    require s.busIsLocked .notConnected
    require (kidOk s kid) .parameterErr
    unspecifyResults
    let r ← attempt (closeHandshake kid)
    phase .cleanup
    closeSession
    orRaise r) s

end Sys2Proof.Machine
end

