-- ==== Sys2Proof/Machine/Dispatch.lean ====
section
/-! DEFINITION. The dispatch: one arm per instruction, each one call of its meaning. -/

namespace Sys2Proof.Machine

def exec (i : Instr) (s : State) : Host.Outcome State Fault Refusal :=
  match i with
  | .tmConnect => Sys2Proof.Machine.execTmConnect s
  | .tmDisconnect => Sys2Proof.Machine.execTmDisconnect s
  | .tmSecure wantSsr ctag size readLen => Sys2Proof.Machine.execTmSecure wantSsr ctag size readLen s
  | .tmStandard writeEnable waitBusy hasAddr addr size addrSize dummy opcode readLen => Sys2Proof.Machine.execTmStandard writeEnable waitBusy hasAddr addr size addrSize dummy opcode readLen s
  | .getLastSsr => Sys2Proof.Machine.execGetLastSsr s
  | .synchMc => Sys2Proof.Machine.execSynchMc s
  | .getMcUnsigned => Sys2Proof.Machine.execGetMcUnsigned s
  | .checkLastSsrErrors mask => Sys2Proof.Machine.execCheckLastSsrErrors mask s
  | .sessionOpen kid hasKey includeWid ignoreScr => Sys2Proof.Machine.execSessionOpen kid hasKey includeWid ignoreScr s
  | .sessionCloseRevoke kid => Sys2Proof.Machine.execSessionCloseRevoke kid s
  | .sessionClose kid => Sys2Proof.Machine.execSessionClose kid s
  | .signData refresh ctag size => Sys2Proof.Machine.execSignData refresh ctag size s
  | .prepareSignedSetter encData encAddr ctag size => Sys2Proof.Machine.execPrepareSignedSetter encData encAddr ctag size s
  | .executeSignedSetter encData encAddr ctag size mask => Sys2Proof.Machine.execExecuteSignedSetter encData encAddr ctag size mask s
  | .setKey kid size => Sys2Proof.Machine.execSetKey kid size s
  | .setSuid size => Sys2Proof.Machine.execSetSuid size s
  | .setGmc size => Sys2Proof.Machine.execSetGmc size s
  | .setGmt size => Sys2Proof.Machine.execSetGmt size s
  | .setAwdt size => Sys2Proof.Machine.execSetAwdt size s
  | .setScr chainInitPa chainReset size sect => Sys2Proof.Machine.execSetScr chainInitPa chainReset size sect s
  | .setRstResp size => Sys2Proof.Machine.execSetRstResp size s
  | .setAclr size => Sys2Proof.Machine.execSetAclr size s
  | .getWid size => Sys2Proof.Machine.execGetWid size s
  | .getSuid size => Sys2Proof.Machine.execGetSuid size s
  | .getSsrSigned size => Sys2Proof.Machine.execGetSsrSigned size s
  | .getGmc size => Sys2Proof.Machine.execGetGmc size s
  | .getGmt size => Sys2Proof.Machine.execGetGmt size s
  | .getAwdt size => Sys2Proof.Machine.execGetAwdt size s
  | .getScr size sect => Sys2Proof.Machine.execGetScr size sect s
  | .getHwVer size => Sys2Proof.Machine.execGetHwVer size s
  | .getMcSigned size => Sys2Proof.Machine.execGetMcSigned size s
  | .calcSig size sect dtype => Sys2Proof.Machine.execCalcSig size sect dtype s
  | .srd addr => Sys2Proof.Machine.execSrd addr s
  | .sard addr => Sys2Proof.Machine.execSard addr s
  | .srdMulti addr size => Sys2Proof.Machine.execSrdMulti addr size s
  | .sardMulti addr size => Sys2Proof.Machine.execSardMulti addr size s
  | .sawr addr size => Sys2Proof.Machine.execSawr addr size s
  | .serase4k addr => Sys2Proof.Machine.execSerase4k addr s
  | .serase32k addr => Sys2Proof.Machine.execSerase32k addr s
  | .serase64k addr => Sys2Proof.Machine.execSerase64k addr s
  | .seraseSection sect => Sys2Proof.Machine.execSeraseSection sect s
  | .seraseChip => Sys2Proof.Machine.execSeraseChip s
  | .opcGetMc param mode => Sys2Proof.Machine.execOpcGetMc param mode s
  | .opcSessionOpen param mode => Sys2Proof.Machine.execOpcSessionOpen param mode s
  | .opcInitPa param mode => Sys2Proof.Machine.execOpcInitPa param mode s
  | .opcCalcSig param mode => Sys2Proof.Machine.execOpcCalcSig param mode s
  | .opcSrd addr24 => Sys2Proof.Machine.execOpcSrd addr24 s
  | .opcSard addr24 => Sys2Proof.Machine.execOpcSard addr24 s
  | .opcSawr addr24 => Sys2Proof.Machine.execOpcSawr addr24 s
  | .opcSetKey param mode => Sys2Proof.Machine.execOpcSetKey param mode s
  | .opcSetSuid param mode => Sys2Proof.Machine.execOpcSetSuid param mode s
  | .opcSetGmc param mode => Sys2Proof.Machine.execOpcSetGmc param mode s
  | .opcSetGmt param mode => Sys2Proof.Machine.execOpcSetGmt param mode s
  | .opcSetAwdt param mode => Sys2Proof.Machine.execOpcSetAwdt param mode s
  | .opcSetScr param mode => Sys2Proof.Machine.execOpcSetScr param mode s
  | .opcSetRstResp param mode => Sys2Proof.Machine.execOpcSetRstResp param mode s
  | .opcSetAclr param mode => Sys2Proof.Machine.execOpcSetAclr param mode s
  | .opcErase4k addr24 => Sys2Proof.Machine.execOpcErase4k addr24 s
  | .opcErase32k addr24 => Sys2Proof.Machine.execOpcErase32k addr24 s
  | .opcErase64k addr24 => Sys2Proof.Machine.execOpcErase64k addr24 s
  | .opcEraseSection param mode => Sys2Proof.Machine.execOpcEraseSection param mode s
  | .opcEraseChip param mode => Sys2Proof.Machine.execOpcEraseChip param mode s
  | .opcCalcSigDtWid mode => Sys2Proof.Machine.execOpcCalcSigDtWid mode s
  | .opcCalcSigDtSuid mode => Sys2Proof.Machine.execOpcCalcSigDtSuid mode s
  | .opcCalcSigDtSsr mode => Sys2Proof.Machine.execOpcCalcSigDtSsr mode s
  | .opcCalcSigDtGmc mode => Sys2Proof.Machine.execOpcCalcSigDtGmc mode s
  | .opcCalcSigDtGmt mode => Sys2Proof.Machine.execOpcCalcSigDtGmt mode s
  | .opcCalcSigDtAwdt mode => Sys2Proof.Machine.execOpcCalcSigDtAwdt mode s
  | .opcCalcSigDtScr mode => Sys2Proof.Machine.execOpcCalcSigDtScr mode s
  | .opcCalcSigDtHwVer mode => Sys2Proof.Machine.execOpcCalcSigDtHwVer mode s
  | .opcCalcSigDtMc mode => Sys2Proof.Machine.execOpcCalcSigDtMc mode s
  | .op0 => Sys2Proof.Machine.execOp0 s
  | .op1 => Sys2Proof.Machine.execOp1 s
  | .op2 => Sys2Proof.Machine.execOp2 s
  | .stdWren => Sys2Proof.Machine.execStdWren s
  | .stdRsten => Sys2Proof.Machine.execStdRsten s
  | .stdRst => Sys2Proof.Machine.execStdRst s

end Sys2Proof.Machine
end

