-- ==== Sys2Proof/WellFormed.lean ====
section
/-! DEFINITION. Which instruction terms stand for words of the table. Every descriptor field of a host
operation and every bit of a CTAG is an unsigned integer taken as is (rule R90), and no encoding is
undefined (rule R114), so all but one row admit every operand. -/

namespace Sys2Proof

/-- A well-formed instruction. The words of the general `OPC_CALC_SIG` row whose parameter byte is a
data-type code are the nine `OPC_CALC_SIG.DT_x` rows' words. -/
def WellFormed : Instr → Bool
  | .opcCalcSig param _ => !isDataType param
  | .tmConnect => true
  | .tmDisconnect => true
  | .tmSecure _ _ _ _ => true
  | .tmStandard _ _ _ _ _ _ _ _ _ => true
  | .getLastSsr => true
  | .synchMc => true
  | .getMcUnsigned => true
  | .checkLastSsrErrors _ => true
  | .sessionOpen _ _ _ _ => true
  | .sessionCloseRevoke _ => true
  | .sessionClose _ => true
  | .signData _ _ _ => true
  | .prepareSignedSetter _ _ _ _ => true
  | .executeSignedSetter _ _ _ _ _ => true
  | .setKey _ _ => true
  | .setSuid _ => true
  | .setGmc _ => true
  | .setGmt _ => true
  | .setAwdt _ => true
  | .setScr _ _ _ _ => true
  | .setRstResp _ => true
  | .setAclr _ => true
  | .getWid _ => true
  | .getSuid _ => true
  | .getSsrSigned _ => true
  | .getGmc _ => true
  | .getGmt _ => true
  | .getAwdt _ => true
  | .getScr _ _ => true
  | .getHwVer _ => true
  | .getMcSigned _ => true
  | .calcSig _ _ _ => true
  | .srd _ => true
  | .sard _ => true
  | .srdMulti _ _ => true
  | .sardMulti _ _ => true
  | .sawr _ _ => true
  | .serase4k _ => true
  | .serase32k _ => true
  | .serase64k _ => true
  | .seraseSection _ => true
  | .seraseChip => true
  | .opcGetMc _ _ => true
  | .opcSessionOpen _ _ => true
  | .opcInitPa _ _ => true
  | .opcSrd _ => true
  | .opcSard _ => true
  | .opcSawr _ => true
  | .opcSetKey _ _ => true
  | .opcSetSuid _ _ => true
  | .opcSetGmc _ _ => true
  | .opcSetGmt _ _ => true
  | .opcSetAwdt _ _ => true
  | .opcSetScr _ _ => true
  | .opcSetRstResp _ _ => true
  | .opcSetAclr _ _ => true
  | .opcErase4k _ => true
  | .opcErase32k _ => true
  | .opcErase64k _ => true
  | .opcEraseSection _ _ => true
  | .opcEraseChip _ _ => true
  | .opcCalcSigDtWid _ => true
  | .opcCalcSigDtSuid _ => true
  | .opcCalcSigDtSsr _ => true
  | .opcCalcSigDtGmc _ => true
  | .opcCalcSigDtGmt _ => true
  | .opcCalcSigDtAwdt _ => true
  | .opcCalcSigDtScr _ => true
  | .opcCalcSigDtHwVer _ => true
  | .opcCalcSigDtMc _ => true
  | .op0 => true
  | .op1 => true
  | .op2 => true
  | .stdWren => true
  | .stdRsten => true
  | .stdRst => true

end Sys2Proof
end

