-- ==== Sys2Proof/Decode.lean ====
section
/-! DEFINITION. From stored bytes to an instruction, total on any bytes and rejecting by name, and from an
instruction to its bytes. Fields: rule R90 (descriptor), R113 (`hflags`), R92 and R93 (CTAG), R103 and
R109 (bus opcodes). Words are stored least significant byte first (rule R64). -/

namespace Sys2Proof

/-- Why bytes are no instruction of the table. A reserved host operation code completes with
`PARAMETER_ERR` (rule R114); an unassigned wire or bus opcode is passed through (R110, I26, I27); a wrong
number of bytes never comes from the machine's own fetch. -/
inductive DecodeError where
  | reservedHostOp (op : Byte)
  | unassignedWireOpcode (opcode : Byte)
  | unassignedBusOpcode (opcode : Byte)
  | wrongLength (n : Nat)
deriving DecidableEq, Repr

/-- The host operation whose descriptor is the 16 bytes `bs` (rules R90, R112, R113). Fields and flags the
operation does not read are ignored. -/
def decodeHost (bs : Bytes) : Except DecodeError Instr :=
  let w0 := rd32 bs
  let arg0 := rd32 (bs.drop 4)
  let w2 := rd32 (bs.drop 8)
  let arg1 := rd32 (bs.drop 12)
  let op := w0.extractLsb' 0 8
  let kid := w0.extractLsb' 8 8
  let size := w2.extractLsb' 0 16
  let sect := w2.extractLsb' 16 8
  let dtype := w2.extractLsb' 24 8
  match op.toNat with
  | 0x01 => .ok .tmConnect
  | 0x02 => .ok .tmDisconnect
  | 0x03 => .ok (.tmSecure (w0.getLsbD 23) arg0 size arg1)
  | 0x04 => .ok (.tmStandard (w0.getLsbD 24) (w0.getLsbD 25) (w0.getLsbD 28) arg0 size sect dtype (arg1.extractLsb' 0 8) (arg1.extractLsb' 16 16))
  | 0x05 => .ok .getLastSsr
  | 0x08 => .ok .synchMc
  | 0x09 => .ok .getMcUnsigned
  | 0x0A => .ok (.checkLastSsrErrors arg0)
  | 0x10 => .ok (.sessionOpen kid (w0.getLsbD 16) (w0.getLsbD 17) (w0.getLsbD 18))
  | 0x11 => if w0.getLsbD 19 then .ok (.sessionCloseRevoke kid) else .ok (.sessionClose kid)
  | 0x18 => .ok (.signData (w0.getLsbD 20) arg0 size)
  | 0x19 => .ok (.prepareSignedSetter (w0.getLsbD 21) (w0.getLsbD 22) arg0 size)
  | 0x1A => .ok (.executeSignedSetter (w0.getLsbD 21) (w0.getLsbD 22) arg0 size arg1)
  | 0x20 => .ok (.setKey kid size)
  | 0x21 => .ok (.setSuid size)
  | 0x22 => .ok (.setGmc size)
  | 0x23 => .ok (.setGmt size)
  | 0x24 => .ok (.setAwdt size)
  | 0x25 => .ok (.setScr (w0.getLsbD 26) (w0.getLsbD 27) size sect)
  | 0x26 => .ok (.setRstResp size)
  | 0x27 => .ok (.setAclr size)
  | 0x30 => .ok (.getWid size)
  | 0x31 => .ok (.getSuid size)
  | 0x32 => .ok (.getSsrSigned size)
  | 0x33 => .ok (.getGmc size)
  | 0x34 => .ok (.getGmt size)
  | 0x35 => .ok (.getAwdt size)
  | 0x36 => .ok (.getScr size sect)
  | 0x37 => .ok (.getHwVer size)
  | 0x38 => .ok (.getMcSigned size)
  | 0x3F => .ok (.calcSig size sect dtype)
  | 0x40 => .ok (.srd arg0)
  | 0x41 => .ok (.sard arg0)
  | 0x42 => .ok (.srdMulti arg0 arg1)
  | 0x43 => .ok (.sardMulti arg0 arg1)
  | 0x44 => .ok (.sawr arg0 size)
  | 0x48 => .ok (.serase4k arg0)
  | 0x49 => .ok (.serase32k arg0)
  | 0x4A => .ok (.serase64k arg0)
  | 0x4B => .ok (.seraseSection sect)
  | 0x4C => .ok .seraseChip
  | _ => .error (.reservedHostOp op)

/-- The wire command whose CTAG is the four bytes `bs` (rules R92, R93, R110, R111). -/
def decodeWire (bs : Bytes) : Except DecodeError Instr :=
  let c := rd32 bs
  let opcode := ctagOpc c
  let param := ctagParam c
  let mode := ctagMode c
  let addr24 := ctagAddr c
  match opcode.toNat with
  | 0x40 => .ok (.opcGetMc param mode)
  | 0x44 => .ok (.opcSessionOpen param mode)
  | 0x45 => .ok (.opcInitPa param mode)
  | 0x46 =>
    match param.toNat with
    | 1 => .ok (.opcCalcSigDtWid mode)
    | 2 => .ok (.opcCalcSigDtSuid mode)
    | 3 => .ok (.opcCalcSigDtSsr mode)
    | 4 => .ok (.opcCalcSigDtGmc mode)
    | 5 => .ok (.opcCalcSigDtGmt mode)
    | 6 => .ok (.opcCalcSigDtAwdt mode)
    | 7 => .ok (.opcCalcSigDtScr mode)
    | 8 => .ok (.opcCalcSigDtHwVer mode)
    | 9 => .ok (.opcCalcSigDtMc mode)
    | _ => .ok (.opcCalcSig param mode)
  | 0x50 => .ok (.opcSrd addr24)
  | 0x51 => .ok (.opcSard addr24)
  | 0x52 => .ok (.opcSawr addr24)
  | 0x60 => .ok (.opcSetKey param mode)
  | 0x61 => .ok (.opcSetSuid param mode)
  | 0x62 => .ok (.opcSetGmc param mode)
  | 0x63 => .ok (.opcSetGmt param mode)
  | 0x64 => .ok (.opcSetAwdt param mode)
  | 0x65 => .ok (.opcSetScr param mode)
  | 0x66 => .ok (.opcSetRstResp param mode)
  | 0x67 => .ok (.opcSetAclr param mode)
  | 0x70 => .ok (.opcErase4k addr24)
  | 0x71 => .ok (.opcErase32k addr24)
  | 0x72 => .ok (.opcErase64k addr24)
  | 0x73 => .ok (.opcEraseSection param mode)
  | 0x74 => .ok (.opcEraseChip param mode)
  | _ => .error (.unassignedWireOpcode opcode)

/-- The bus opcode `v` (rules R103, R109). -/
def decodeBus (v : Byte) : Except DecodeError Instr :=
  match v.toNat with
  | 0xA0 => .ok .op0
  | 0xA1 => .ok .op1
  | 0xA2 => .ok .op2
  | 0x06 => .ok .stdWren
  | 0x66 => .ok .stdRsten
  | 0x99 => .ok .stdRst
  | _ => .error (.unassignedBusOpcode v)

/-- The instruction stored in the bytes `bs`, read in the encoding `sp`. -/
def decode (sp : Space) (bs : Bytes) : Except DecodeError Instr :=
  match sp with
  | .host => if bs.length = 16 then decodeHost bs else .error (.wrongLength bs.length)
  | .wire => if bs.length = 4 then decodeWire bs else .error (.wrongLength bs.length)
  | .bus =>
    match bs with
    | [v] => decodeBus v
    | _ => .error (.wrongLength bs.length)

/-! ## The encoder -/

/-- `hflags` with one bit set to a truth value (rule R113). -/
def hflag (bit : Nat) (b : Bool) : BitVec 16 := if b then BitVec.twoPow 16 bit else 0#16

/-- The 16 bytes of a descriptor (rule R90), every field not named zero. -/
def descriptor (op : Byte) (kid : Byte := 0) (hflags : BitVec 16 := 0) (arg0 : Word := 0)
    (size : BitVec 16 := 0) (sect : Byte := 0) (dtype : Byte := 0) (arg1 : Word := 0) : Bytes :=
  le32 (hflags ++ kid ++ op) ++ le32 arg0 ++ le32 (dtype ++ sect ++ size) ++ le32 arg1

/-- The stored bytes of an instruction. -/
def encode : Instr → Bytes
  | .tmConnect => descriptor 0x01
  | .tmDisconnect => descriptor 0x02
  | .tmSecure wantSsr ctag size readLen =>
    descriptor 0x03 (arg0 := ctag) (size := size) (arg1 := readLen) (hflags := hflag 7 wantSsr)
  | .tmStandard writeEnable waitBusy hasAddr addr size addrSize dummy opcode readLen =>
    descriptor 0x04 (arg0 := addr) (size := size) (sect := addrSize) (dtype := dummy) (arg1 := readLen ++ 0#8 ++ opcode) (hflags := hflag 8 writeEnable ||| hflag 9 waitBusy ||| hflag 12 hasAddr)
  | .getLastSsr => descriptor 0x05
  | .synchMc => descriptor 0x08
  | .getMcUnsigned => descriptor 0x09
  | .checkLastSsrErrors mask => descriptor 0x0A (arg0 := mask)
  | .sessionOpen kid hasKey includeWid ignoreScr =>
    descriptor 0x10 (kid := kid) (hflags := hflag 0 hasKey ||| hflag 1 includeWid ||| hflag 2 ignoreScr)
  | .sessionCloseRevoke kid => descriptor 0x11 (kid := kid) (hflags := hflag 3 true)
  | .sessionClose kid => descriptor 0x11 (kid := kid) (hflags := hflag 3 false)
  | .signData refresh ctag size =>
    descriptor 0x18 (arg0 := ctag) (size := size) (hflags := hflag 4 refresh)
  | .prepareSignedSetter encData encAddr ctag size =>
    descriptor 0x19 (arg0 := ctag) (size := size) (hflags := hflag 5 encData ||| hflag 6 encAddr)
  | .executeSignedSetter encData encAddr ctag size mask =>
    descriptor 0x1A (arg0 := ctag) (size := size) (arg1 := mask) (hflags := hflag 5 encData ||| hflag 6 encAddr)
  | .setKey kid size => descriptor 0x20 (kid := kid) (size := size)
  | .setSuid size => descriptor 0x21 (size := size)
  | .setGmc size => descriptor 0x22 (size := size)
  | .setGmt size => descriptor 0x23 (size := size)
  | .setAwdt size => descriptor 0x24 (size := size)
  | .setScr chainInitPa chainReset size sect =>
    descriptor 0x25 (size := size) (sect := sect) (hflags := hflag 10 chainInitPa ||| hflag 11 chainReset)
  | .setRstResp size => descriptor 0x26 (size := size)
  | .setAclr size => descriptor 0x27 (size := size)
  | .getWid size => descriptor 0x30 (size := size)
  | .getSuid size => descriptor 0x31 (size := size)
  | .getSsrSigned size => descriptor 0x32 (size := size)
  | .getGmc size => descriptor 0x33 (size := size)
  | .getGmt size => descriptor 0x34 (size := size)
  | .getAwdt size => descriptor 0x35 (size := size)
  | .getScr size sect => descriptor 0x36 (size := size) (sect := sect)
  | .getHwVer size => descriptor 0x37 (size := size)
  | .getMcSigned size => descriptor 0x38 (size := size)
  | .calcSig size sect dtype => descriptor 0x3F (size := size) (sect := sect) (dtype := dtype)
  | .srd addr => descriptor 0x40 (arg0 := addr)
  | .sard addr => descriptor 0x41 (arg0 := addr)
  | .srdMulti addr size => descriptor 0x42 (arg0 := addr) (arg1 := size)
  | .sardMulti addr size => descriptor 0x43 (arg0 := addr) (arg1 := size)
  | .sawr addr size => descriptor 0x44 (arg0 := addr) (size := size)
  | .serase4k addr => descriptor 0x48 (arg0 := addr)
  | .serase32k addr => descriptor 0x49 (arg0 := addr)
  | .serase64k addr => descriptor 0x4A (arg0 := addr)
  | .seraseSection sect => descriptor 0x4B (sect := sect)
  | .seraseChip => descriptor 0x4C
  | .opcGetMc param mode => le32 (mkCtag 0x40 param mode)
  | .opcSessionOpen param mode => le32 (mkCtag 0x44 param mode)
  | .opcInitPa param mode => le32 (mkCtag 0x45 param mode)
  | .opcCalcSig param mode => le32 (mkCtag 0x46 param mode)
  | .opcSrd addr24 => le32 (mkCtagAddr 0x50 addr24)
  | .opcSard addr24 => le32 (mkCtagAddr 0x51 addr24)
  | .opcSawr addr24 => le32 (mkCtagAddr 0x52 addr24)
  | .opcSetKey param mode => le32 (mkCtag 0x60 param mode)
  | .opcSetSuid param mode => le32 (mkCtag 0x61 param mode)
  | .opcSetGmc param mode => le32 (mkCtag 0x62 param mode)
  | .opcSetGmt param mode => le32 (mkCtag 0x63 param mode)
  | .opcSetAwdt param mode => le32 (mkCtag 0x64 param mode)
  | .opcSetScr param mode => le32 (mkCtag 0x65 param mode)
  | .opcSetRstResp param mode => le32 (mkCtag 0x66 param mode)
  | .opcSetAclr param mode => le32 (mkCtag 0x67 param mode)
  | .opcErase4k addr24 => le32 (mkCtagAddr 0x70 addr24)
  | .opcErase32k addr24 => le32 (mkCtagAddr 0x71 addr24)
  | .opcErase64k addr24 => le32 (mkCtagAddr 0x72 addr24)
  | .opcEraseSection param mode => le32 (mkCtag 0x73 param mode)
  | .opcEraseChip param mode => le32 (mkCtag 0x74 param mode)
  | .opcCalcSigDtWid mode => le32 (mkCtag 0x46 1 mode)
  | .opcCalcSigDtSuid mode => le32 (mkCtag 0x46 2 mode)
  | .opcCalcSigDtSsr mode => le32 (mkCtag 0x46 3 mode)
  | .opcCalcSigDtGmc mode => le32 (mkCtag 0x46 4 mode)
  | .opcCalcSigDtGmt mode => le32 (mkCtag 0x46 5 mode)
  | .opcCalcSigDtAwdt mode => le32 (mkCtag 0x46 6 mode)
  | .opcCalcSigDtScr mode => le32 (mkCtag 0x46 7 mode)
  | .opcCalcSigDtHwVer mode => le32 (mkCtag 0x46 8 mode)
  | .opcCalcSigDtMc mode => le32 (mkCtag 0x46 9 mode)
  | .op0 => [0xA0]
  | .op1 => [0xA1]
  | .op2 => [0xA2]
  | .stdWren => [0x06]
  | .stdRsten => [0x66]
  | .stdRst => [0x99]

/-! ## The words of spec/opcode_table.json -/

/-- The bytes of a number, `n` of them, least significant first. -/
def natBytes : Nat → Nat → Bytes
  | 0, _ => []
  | n + 1, w => BitVec.ofNat 8 w :: natBytes n (w / 256)

/-- How many bytes the instructions of an encoding are stored in. -/
def Space.bytes : Space → Nat
  | .host => 16
  | .wire => 4
  | .bus => 1

/-- Whether the bytes of `w` are an instruction of the encoding `sp`. -/
def Space.accepts (sp : Space) (w : Nat) : Bool :=
  match decode sp (natBytes sp.bytes w) with
  | .ok _ => true
  | .error _ => false

/-- The encoding a word of `nbits` bits of the table is read in: the table's host rows have 128 bits, its wire
rows 32 and its bus rows 8. A narrower word that its own encoding does not know is taken as the leading
bits of the next wider encoding that knows it. -/
def Space.ofTable (nbits w : Nat) : Space :=
  if 32 < nbits then .host
  else if 8 < nbits then (if Space.accepts .wire w then .wire else .host)
  else if Space.accepts .bus w then .bus
  else if Space.accepts .host w then .host
  else .wire

/-- The instruction the decoder reads from the `nbits`-bit word `w` of the opcode table. -/
def decodeTableWord (nbits w : Nat) : Option Instr :=
  let sp := Space.ofTable nbits w
  match decode sp (natBytes sp.bytes w) with
  | .ok i => some i
  | .error _ => none

end Sys2Proof
end

