-- ==== Sys2Proof/Machine/HostPort.lean ====
section
/-! DEFINITION. The host's side of the block: the command port and the configuration registers (rules R20, R75,
R91, R384), the key manager's contents (R141, R383), and the codes that are no instruction of the table
(R114, I26, I27). DESIGN CHOICE, safe: the host is a queue of events (logs 14, 17). -/

namespace Sys2Proof.Machine

/-! ## Host writes -/

/-- The write buffer with the bytes `b` written from offset 0. -/
def overlay (b old : Bytes) : Bytes := b ++ old.drop b.length

/-- Host write of `CFG_BUS` (rule R91): `busMode` and `dtr`. -/
def writeCfgBus (v : Word) (s : State) : State :=
  { s with conf := { s.conf with busMode := v.extractLsb' 0 8, dtr := v.getLsbD 8 } }

/-- Host write of `CFG_PA` (rule R91): one bit for each section there is. -/
def writeCfgPa (v : Word) (s : State) : State :=
  { s with conf := { s.conf with
    paEnabled := v.extractLsb' 0 16 &&& BitVec.ofNat 16 (2 ^ s.cfg.numSections - 1) } }

/-- Host write of `CFG_WID` (rule R91): `WID_BYTES` bytes. -/
def writeCfgWid (b : Bytes) (s : State) : State :=
  { s with conf := { s.conf with wid := fit s.cfg.widBytes b } }

/-- A configuration write takes effect only while the block is idle (rule R91, I6). -/
def whenIdle (f : State → State) (s : State) : State := if s.seq = .idle then f s else s

/-- The key manager comes to hold a key (rules R141, R383). DESIGN CHOICE, safe (log 21). -/
def storeKey (e : KeyEntry) (s : State) : State := { s with env := { s.env with keys := e :: s.env.keys } }

/-! ## Host reads (rules R75, R91) -/

/-- The port is ready (rule R75). -/
def portReady (s : State) : Bool := s.seq == .idle

/-- What the host reads in the result registers: their contents, valid only while the block is idle (rule R75). -/
def readResults (s : State) : Results := if portReady s then s.out else freeResults s.env.frees

/-- What the host reads in `status`: the number of the status, valid only while the block is idle (rules R20, R75,
R340). -/
def readStatus (s : State) : Byte :=
  if portReady s then statusCode s.cfg.status s.status else Config.freeStatus s.env.frees

/-- What the host reads in `CFG_BUS`, at any time (rule R91). -/
def readCfgBus (s : State) : Word := (BitVec.ofBool s.conf.dtr ++ s.conf.busMode).setWidth 32

/-- What the host reads in `CFG_PA`, at any time (rule R91). -/
def readCfgPa (s : State) : Word := s.conf.paEnabled.setWidth 32

/-- What the host reads in `CFG_WID`, at any time (rule R91). -/
def readCfgWid (s : State) : Bytes := s.conf.wid

/-! ## Issue (rule R75) -/

/-- Issue: the operand registers are copied into the latches and `seq` becomes `CHECK`. DEDUCED, unsafe: what a
byte no one wrote reads as (log 18). -/
def latchOperands (s : State) : State :=
  { s with
    seq := .check
    latch := { cmd := s.inp.cmd
               wbuf := s.inp.wbuf.take (s.inp.cmd.w2.extractLsb' 0 16).toNat
               kbuf := s.inp.kbuf } }

/-- The bytes of a descriptor, word 0 first (rules R64, R90). -/
def cmdBytes (c : Cmd) : Bytes := le32 c.w0 ++ le32 c.w1 ++ le32 c.w2 ++ le32 c.w3

/-- The instruction bytes of an issued request: the leading bytes of the latched descriptor. -/
def fetch (sp : Space) (s : State) : Bytes := (cmdBytes s.latch.cmd).take sp.bytes

/-- A request whose code is no row of the table: a reserved host operation code is refused with
`PARAMETER_ERR` and nothing else (rule R114); other codes are passed through (I26, I27). -/
def execUnassigned (e : DecodeError) (s : State) : Host.Outcome State Fault Refusal :=
  match e with
  | .reservedHostOp _ => .next (complete .parameterErr s)
  | .unassignedWireOpcode _ => execOtherCtag s
  | .unassignedBusOpcode v => execOtherBus v s
  | .wrongLength _ => .next (complete .parameterErr s)

/-- A descriptor that holds the bytes of `w`, least significant first. -/
def cmdOfNat (w : Nat) : Cmd :=
  { w0 := BitVec.ofNat 32 w
    w1 := BitVec.ofNat 32 (w / 2 ^ 32)
    w2 := BitVec.ofNat 32 (w / 2 ^ 64)
    w3 := BitVec.ofNat 32 (w / 2 ^ 96) }

end Sys2Proof.Machine
end

