-- ==== Sys2Proof/Machine/Step.lean ====
section
/-! DEFINITION. One step: the next thing the host does, and for a request the whole operation (rules R15, R21,
R75, R384). The step is deterministic; the host's queue, the scripted answers and the free values of
`Config` make the choices. DESIGN CHOICE, unsafe: one step is one whole operation (log 2). -/

namespace Sys2Proof.Machine

/-- An issued request, from the state in which its operands are latched. -/
def serve (sp : Space) (s : State) : Host.Outcome State Fault Refusal :=
  match decode sp (fetch sp s) with
  | .ok i => exec i s
  | .error e => execUnassigned e s

/-- What one host event does (rules R75, R91, R380, R383, R384). A write to `wbuf` is laid over what the buffer held.
A write to `kbuf` replaces the whole buffer, so that a shorter one leaves zeros where the older bytes stood. DESIGN
CHOICE, unsafe: no rule says what a buffer holds past the bytes a write gives (log 17). -/
def hostStep (e : HostEvent) (s : State) : Host.Outcome State Fault Refusal :=
  match e with
  | .writeCmd c => .next { s with inp := { s.inp with cmd := c } }
  | .writeWbuf b => .next { s with inp := { s.inp with wbuf := overlay b s.inp.wbuf } }
  | .writeKbuf b => .next { s with inp := { s.inp with kbuf := b } }
  | .writeCfgBus v => .next (whenIdle (writeCfgBus v) s)
  | .writeCfgPa v => .next (whenIdle (writeCfgPa v) s)
  | .writeCfgWid b => .next (whenIdle (writeCfgWid b) s)
  | .storeKey sect full key => .next (storeKey { sect := sect, fullAccess := full, key := key } s)
  | .request sp => if portReady s then serve sp (latchOperands s) else .next s
  | .reset => .next s.blockReset

/-- The state once the host's next event has been taken from the queue. -/
def State.dequeue (s : State) (rest : List HostEvent) : State := { s with env := { s.env with host := rest } }

/-- One step of the machine. With nothing queued the block waits. -/
def step (s : State) : Host.Outcome State Fault Refusal :=
  match s.env.host with
  | [] => .next s
  | e :: rest => hostStep e (s.dequeue rest)

/-- The state in which the host is about to issue the instruction `w` of the opcode table: the word stands in
`cmd`, the port is ready, and the request is the next event. DESIGN CHOICE, safe (log 14). -/
def State.withFetchWord (s : State) (nbits w : Nat) : State :=
  let sp := Space.ofTable nbits w
  { s with
    seq := .idle
    inp := { s.inp with cmd := cmdOfNat (w % 256 ^ sp.bytes) }
    env := { s.env with host := .request sp :: s.env.host } }

end Sys2Proof.Machine
end

