-- ==== Sys2Proof/Safety.lean ====
section
/-! DEFINITION. The terms in which claims are made: the constraints on the parameters (rules R100, R103, R110,
R340; I20), the invariant of the block, what a connection check and a boundary check cover (R342, R345), and
undisturbed traffic with the device: waits, transactions, page responses, as scripts of answers and as the
events they leave (rules R71, R283, R288, R300, R253). -/

namespace Sys2Proof.Machine

open Config (Params WireOpcodes SsrLayout Exchange Event Answer)

/-! ## Parameters (I20) -/

/-- Every wire opcode (rule R110). -/
def wireCodes (w : WireOpcodes) : List Byte :=
  [w.getMc, w.sessionOpen, w.initPa, w.calcSig, w.srd, w.sard, w.sawr, w.setKey, w.setSuid, w.setGmc, w.setGmt,
    w.setAwdt, w.setScr, w.setRstResp, w.setAclr, w.erase4k, w.erase32k, w.erase64k, w.eraseSection, w.eraseChip]

/-- The position of every one-bit SSR field (rule R100). -/
def ssrPositions (L : SsrLayout) : List Nat := [L.busy, L.respReady, L.sesReady] ++ errorPositions L

/-- Every status (rule R340). -/
def allStatuses : List Status :=
  [.ok, .parameterErr, .notConnected, .connectivityErr, .securityErr, .systemInIncorrectState, .deviceBusy, .deviceErr,
    .deviceMcErr, .deviceFlashErr, .deviceSystemErr, .commandIgnored, .devicePrivilegeErr, .deviceAuthenticationErr,
    .deviceIntegrityErr, .deviceSessionErr]

/-- The constraints a substitute for the default parameters must keep: distinct non-zero wire opcodes (R110),
bus codes apart (R103), distinct SSR bits outside the KID field (R100), opcode 0 in no table (R97), at most
16 sections (R10), distinct status numbers with `OK` = 0 (R340). The swizzle needs none: each value of its parameter
is a bijection (R96). DEDUCED, safe (log 22). -/
def paramsWf (p : Params) : Bool :=
  decide ((wireCodes p.wire).Nodup ∧ (0 : Byte) ∉ wireCodes p.wire
    ∧ [p.op0Code, p.op1Code, p.op2Code].Nodup
    ∧ (∀ c ∈ [p.op0Code, p.op1Code, p.op2Code], c ∉ [p.stdWren, p.stdRsten, p.stdRst])
    ∧ (ssrPositions p.ssr).Nodup
    ∧ (∀ i ∈ ssrPositions p.ssr, i < 32 ∧ (i < p.ssr.kidLo ∨ p.ssr.kidLo + 8 ≤ i))
    ∧ p.ssr.kidLo + 8 ≤ 32
    ∧ (0 : Byte) ∉ p.doubleWait ∧ (0 : Byte) ∉ p.pollForReady ∧ (0 : Byte) ∉ p.modeFlip
    ∧ p.numSections ≤ 16
    ∧ (allStatuses.map (statusCode p.status)).Nodup ∧ p.status.ok = 0)

/-! ## The invariant -/

/-- A crypto context whose fields have their widths (rule R27). -/
def Ctx.sized (cfg : Params) (c : Ctx) : Prop :=
  c.key.length = cfg.keyBytes ∧ c.ssk.length = cfg.keyBytes ∧ c.cipherKey.length = cfg.keyBytes
    ∧ c.sdata.length = Config.pageSize

/-- What holds of the block between steps. -/
structure Inv (s : State) : Prop where
  /-- The parameters are as I20 asks. -/
  params : paramsWf s.cfg = true
  /-- A trusted counter is in range (rules R22, R23). -/
  counter : s.mc.inSync = true → mcValid s.mc.tc s.mc.dmc = true
  /-- `kid` is a valid KID or the sentinel (rule R25). -/
  kid : s.kid = Config.kidInvalid ∨ kidOk s s.kid = true
  /-- `atomic` is 0 while the block is idle (rule R37); else a poll is going on in a masked section (I16). -/
  port : (s.seq = .idle ∧ s.atomic = 0) ∨ ((s.seq = .wait ∨ s.seq = .poll) ∧ s.atomic = 1)
  /-- Every exchange was made in a masked section (rules R281, R352). -/
  masked : ∀ x a, Event.exchange x a ∈ s.env.trace → x.masked = true
  /-- The key registers and the contexts have their widths (rules R26, R27). -/
  keys : s.sessionKey.length = s.cfg.keyBytes ∧ s.ctx0.sized s.cfg ∧ s.ctx1.sized s.cfg
  /-- `wid` and `sigOut` have their widths (rules R20, R34). -/
  widths : s.conf.wid.length = s.cfg.widBytes ∧ s.out.sigOut.length = Config.sigBytes
  /-- `paEnabled` has a bit for each section and no other (rule R32). -/
  sections : s.conf.paEnabled.toNat < 2 ^ s.cfg.numSections

/-- The three key registers hold the wipe pattern and no session is open (rule R30). -/
def Wiped (s : State) : Prop :=
  s.ctx0.key = wiped s.cfg ∧ s.ctx1.key = wiped s.cfg ∧ s.sessionKey = wiped s.cfg ∧ s.kid = Config.kidInvalid

/-! ## Boundary checks -/

/-- The host operations that check the connection at their boundary (rule R342), and the bus commands. -/
def checksConnection : Instr → Bool
  | .tmStandard _ _ _ _ _ _ _ _ _ => true
  | .sessionOpen _ _ _ _ | .sessionCloseRevoke _ | .sessionClose _ => true
  | .executeSignedSetter _ _ _ _ _ => true
  | .setKey _ _ | .setSuid _ | .setGmc _ | .setGmt _ | .setAwdt _ | .setScr _ _ _ _ | .setRstResp _ | .setAclr _ => true
  | .getWid _ | .getSuid _ | .getSsrSigned _ | .getGmc _ | .getGmt _ | .getAwdt _ | .getScr _ _ | .getHwVer _
  | .getMcSigned _ | .calcSig _ _ _ => true
  | .srd _ | .sard _ | .srdMulti _ _ | .sardMulti _ _ | .sawr _ _ => true
  | .serase4k _ | .serase32k _ | .serase64k _ | .seraseSection _ | .seraseChip => true
  | .op0 | .op1 | .op2 | .stdWren | .stdRsten | .stdRst => true
  | _ => false

/-- The operations that meet the connection check inside `Secure` (rule R342). -/
def reachesSecure : Instr → Bool
  | .tmSecure _ _ _ _ | .getMcUnsigned => true
  | .opcGetMc _ _ | .opcSessionOpen _ _ | .opcInitPa _ _ | .opcCalcSig _ _ | .opcSrd _
  | .opcSard _ | .opcSawr _ | .opcSetKey _ _ | .opcSetSuid _ _
  | .opcSetGmc _ _ | .opcSetGmt _ _ | .opcSetAwdt _ _ | .opcSetScr _ _
  | .opcSetRstResp _ _ | .opcSetAclr _ _ | .opcErase4k _ | .opcErase32k _
  | .opcErase64k _ | .opcEraseSection _ _ | .opcEraseChip _ _ | .opcCalcSigDtWid _
  | .opcCalcSigDtSuid _ | .opcCalcSigDtSsr _ | .opcCalcSigDtGmc _ | .opcCalcSigDtGmt _
  | .opcCalcSigDtAwdt _ | .opcCalcSigDtScr _ | .opcCalcSigDtHwVer _ | .opcCalcSigDtMc _ => true
  | _ => false

/-- The consumers of a tick (rule R317) that make no random draw before they consume it. -/
def ticksFirst : Instr → Bool
  | .sessionCloseRevoke _ | .executeSignedSetter _ _ _ _ _ => true
  | .setKey _ _ | .setSuid _ | .setGmc _ | .setGmt _ | .setAwdt _ | .setScr _ _ _ _ | .setRstResp _ | .setAclr _ => true
  | .getWid _ | .getSuid _ | .getSsrSigned _ | .getGmc _ | .getGmt _ | .getAwdt _ | .getScr _ _ | .getHwVer _
  | .getMcSigned _ | .calcSig _ _ _ => true
  | .seraseSection _ | .seraseChip => true
  | _ => false

/-- The consumers of a tick (rule R317) that first draw the random low bits of an address (rule R94). -/
def drawsAddress : Instr → Bool
  | .srd _ | .sard _ | .srdMulti _ _ | .sardMulti _ _ => true
  | .sawr _ _ | .serase4k _ | .serase32k _ | .serase64k _ => true
  | _ => false

/-- The consumers of a tick (rule R317) that first draw a nonce (rule R142). -/
def drawsNonce : Instr → Bool
  | .sessionOpen _ _ _ _ | .sessionClose _ => true
  | _ => false

/-- Data of more than one page (rules R66, R345). -/
def tooLong (size : BitVec 16) : Prop := 32 < size.toNat

/-- An address that is not a page address (rules R66, R220). -/
def badAddr (a : Word) : Prop := 2 ^ 24 ≤ a.toNat ∨ a.toNat % 32 ≠ 0

/-- The size and range violations of a multi-block read (rules R66, R251). -/
def badRange (a size : Word) : Prop :=
  badAddr a ∨ size.toNat = 0 ∨ size.toNat % 32 ≠ 0 ∨ 2 ^ 24 < a.toNat + size.toNat

/-- A byte that is no KID (rule R98): a reserved type, a section out of range, types 2 and 3 with a section. -/
def badKid (numSections : Nat) (k : Byte) : Prop :=
  3 < k.toNat / 16 ∨ (k.toNat / 16 ≤ 1 ∧ numSections ≤ k.toNat % 16) ∨ (2 ≤ k.toNat / 16 ∧ k.toNat % 16 ≠ 0)

/-- The parameter causes of rules R114 and R345 for each operation. -/
def badOperands (s : State) : Instr → Prop
  | .tmStandard _ _ hasAddr addr _ _ _ _ _ => hasAddr = true ∧ 2 ^ 24 ≤ addr.toNat
  | .sessionOpen kid hasKey _ _ =>
    badKid s.cfg.numSections kid
      ∨ (hasKey = false ∧ (2 ≤ kid.toNat / 16 ∨ getKey s (kid.toNat % 16) (kid.toNat / 16 == 1) = none))
  | .sessionCloseRevoke kid => badKid s.cfg.numSections kid ∨ 2 ≤ kid.toNat / 16
  | .sessionClose kid => badKid s.cfg.numSections kid
  | .signData _ _ size => tooLong size
  | .prepareSignedSetter encData _ _ size => tooLong size ∨ (encData = true ∧ size.toNat ≠ 32)
  | .executeSignedSetter encData _ _ size _ => tooLong size ∨ (encData = true ∧ size.toNat ≠ 32)
  | .setKey kid size => badKid s.cfg.numSections kid ∨ tooLong size
  | .setSuid size | .setGmc size | .setGmt size | .setAwdt size | .setRstResp size | .setAclr size => tooLong size
  | .setScr _ _ size sect => s.cfg.numSections ≤ sect.toNat ∨ tooLong size
  | .getWid size | .getSuid size | .getSsrSigned size | .getGmc size | .getGmt size | .getAwdt size
  | .getHwVer size | .getMcSigned size => tooLong size ∨ s.cfg.numSections = 0
  | .getScr size sect => tooLong size ∨ s.cfg.numSections ≤ sect.toNat
  | .calcSig size sect dtype => tooLong size ∨ s.cfg.numSections ≤ sect.toNat ∨ dtype = 0 ∨ 9 < dtype.toNat
  | .srd addr | .sard addr | .serase4k addr | .serase32k addr | .serase64k addr => badAddr addr
  | .srdMulti addr size | .sardMulti addr size => badRange addr size
  | .sawr addr size => badAddr addr ∨ size.toNat ≠ 32
  | .seraseSection sect => s.cfg.numSections ≤ sect.toNat
  | _ => False

/-! ## Undisturbed traffic -/

/-- One exchange of a sub-operation (rules R104 to R106, R109): no address, in a masked section. -/
def request (s : State) (code : Byte) (w : Bytes) (dummy : Byte) (n : Nat) : Exchange :=
  { busMode := s.conf.busMode, dtr := s.conf.dtr, opcode := code, addr := none, addrSize := 0, write := w,
    dummy := dummy, readLen := n, masked := true }

/-- An OP0 that reads the status word `v`. -/
def op0Event (s : State) (v : Word) : Event :=
  .exchange (request s s.cfg.op0Code [] s.cfg.op0Dummy 4) (.bytes (le32 v))

/-- An OP1 with a CTAG and a payload. -/
def op1Event (s : State) (ctag : Word) (w : Bytes) : Event :=
  .exchange (request s s.cfg.op1Code (le32 ctag ++ w) s.cfg.op1Dummy 0) (.bytes [])

/-- An OP2 that reads `r`. -/
def op2Event (s : State) (r : Bytes) : Event :=
  .exchange (request s s.cfg.op2Code [] s.cfg.op2Dummy r.length) (.bytes r)

/-- A bare standard command. -/
def bareEvent (s : State) (code : Byte) : Event := .exchange (request s code [] 0 0) (.bytes [])

/-- A busy-wait (rule R288): polls that do not end it, then one that does. -/
structure Wait where
  polls : List Word
  last : Word
deriving DecidableEq, Repr

/-- The status words a wait reads, in order. -/
def Wait.words (w : Wait) : List Word := w.polls ++ [w.last]

/-- The words make a busy-wait that ends with the last of them. -/
def Wait.good (L : SsrLayout) (w : Wait) : Bool :=
  w.polls.all (fun v => !deadLink v && !waitOver L v) && !deadLink w.last && waitOver L w.last

/-- The device's answers to status polls. -/
def statusAnswers (ws : List Word) : List Answer := ws.map fun v => .bytes (le32 v)

/-- A transaction: one wire command with its waits and its response (rule R18). -/
structure Transaction where
  ctag : Word
  payload : Bytes
  first : Wait
  second : Wait
  response : Bytes
deriving DecidableEq, Repr

/-- The status words it reads: one wait, or two for the opcodes of `DOUBLE_WAIT` (rule R283). -/
def Transaction.words (cfg : Params) (x : Transaction) : List Word :=
  if cfg.doubleWait.contains (ctagOpc x.ctag) then x.first.words ++ x.second.words else x.first.words

/-- The status word it ends with. -/
def Transaction.final (cfg : Params) (x : Transaction) : Word :=
  if cfg.doubleWait.contains (ctagOpc x.ctag) then x.second.last else x.first.last

/-- The device's answers: to OP1, to the polls, to OP2 if a response is read. -/
def Transaction.answers (cfg : Params) (x : Transaction) : List Answer :=
  .bytes [] :: (statusAnswers (x.words cfg) ++ if x.response = [] then [] else [.bytes x.response])

/-- The events it leaves, oldest first (rule R300). -/
def Transaction.events (s : State) (x : Transaction) : List Event :=
  (if flips s.cfg x.ctag then [.busModeExit] else []) ++ [op1Event s x.ctag x.payload]
    ++ (if flips s.cfg x.ctag then [.busModeReenter] else []) ++ (x.words s.cfg).map (op0Event s)
    ++ (if x.response = [] then [] else [op2Event s x.response])

/-- The command is a section-config set that chains further sub-commands (rule R295). -/
def Transaction.chains (cfg : Params) (x : Transaction) : Bool :=
  ctagOpc x.ctag == cfg.wire.setScr && (x.ctag.getLsbD 16 || x.ctag.getLsbD 17) && !hasError cfg.ssr (x.final cfg)

/-- A transaction that nothing disturbs: its waits end, and a response that is read was announced. -/
def Transaction.sound (cfg : Params) (x : Transaction) : Bool :=
  decide (x.ctag ≠ 0) && x.first.good cfg.ssr
    && (!cfg.doubleWait.contains (ctagOpc x.ctag) || x.second.good cfg.ssr)
    && (decide (x.response = []) || respReady cfg.ssr (x.final cfg))

/-- A transaction that nothing disturbs and that chains nothing. -/
def Transaction.good (cfg : Params) (x : Transaction) : Bool := x.sound cfg && !x.chains cfg

/-- A good transaction after which the device reports no error: the operation that made it goes on. -/
def Transaction.clean (cfg : Params) (x : Transaction) : Bool :=
  x.good cfg && !hasError cfg.ssr (x.final cfg)

/-- The state after a good transaction, with `rest` the answers still to come. -/
def State.transacted (s : State) (x : Transaction) (rest : List Answer) : State :=
  { s with
    ssr := x.final s.cfg
    inFlight := false
    out := { s.out with ssrOut := x.final s.cfg }
    env := { s.env with answers := rest, trace := (x.events s).reverse ++ s.env.trace } }

/-- The device's answers to the sub-commands that `x` chains (rules R295 to R297), `v` the wait of the init plain
access. -/
def Transaction.chainAnswers (x : Transaction) (v : Wait) : List Answer :=
  (if x.ctag.getLsbD 16 then .bytes [] :: statusAnswers v.words else [])
    ++ (if x.ctag.getLsbD 17 then [.bytes [], .bytes []] else [])

/-- The state after the chained init plain access of a section (rule R296): the counter copy is no longer trusted. -/
def State.initPaChained (s : State) (sect : Byte) (v : Wait) : State :=
  { s with
    ssr := v.last
    mc := { s.mc with inSync := false }
    env := { s.env with
      trace := (v.words.map (op0Event s)).reverse
        ++ op1Event s (mkCtag s.cfg.wire.initPa sect 0) [] :: s.env.trace } }

/-- The state after the chained device reset (rule R297): the device has forgotten its session. -/
def State.resetChained (s : State) : State :=
  { (if s.cfg.resetInvalidatesSession then { s.wipeKeys with kid := Config.kidInvalid } else s) with
    mc := { s.mc with inSync := false }
    env := { s.env with trace := bareEvent s s.cfg.stdRst :: bareEvent s s.cfg.stdRsten :: s.env.trace } }

/-- The state after a transaction and the sub-commands it chains (rules R295 to R300): the init plain access first. -/
def State.transactedChain (s : State) (x : Transaction) (v : Wait) (rest : List Answer) : State :=
  let t := s.transacted x rest
  let t := if x.ctag.getLsbD 16 then t.initPaChained (ctagParam x.ctag) v else t
  let t := if x.ctag.getLsbD 17 then t.resetChained else t
  { t with out := { t.out with ssrOut := t.ssr } }

/-- The device's answer to step 1 of `Secure` (rule R282), which CTAG 0 leaves out (rule R97). -/
def commandAnswers (ctag : Word) : List Answer := if ctag = 0 then [] else [.bytes []]

/-- The state after step 1 of `Secure` (rule R282), with `rest` the answers still to come. -/
def State.commanded (s : State) (ctag : Word) (w : Bytes) (rest : List Answer) : State :=
  { s with
    inFlight := s.inFlight || decide (ctag ≠ 0)
    env := { s.env with
      answers := rest
      trace := (if ctag = 0 then []
        else (if flips s.cfg ctag then [.busModeReenter] else []) ++ [op1Event s ctag w]
          ++ (if flips s.cfg ctag then [.busModeExit] else [])) ++ s.env.trace } }

/-- The frame of each wire command (rules R92, R93, R108, R110, R111): the CTAG, the payload from the host's buffer
and the response length. -/
def wireFrame (s : State) : Instr → Option (Word × Bytes × Nat)
  | .opcGetMc param mode => some (mode ++ param ++ s.cfg.wire.getMc, [], 8)
  | .opcSessionOpen param mode => some (mode ++ param ++ s.cfg.wire.sessionOpen, fit 16 s.latch.wbuf, 0)
  | .opcInitPa param mode => some (mode ++ param ++ s.cfg.wire.initPa, [], 0)
  | .opcCalcSig param mode => some (mode ++ param ++ s.cfg.wire.calcSig, [], 44)
  | .opcSrd addr => some (addr ++ s.cfg.wire.srd, [], 36)
  | .opcSard addr => some (addr ++ s.cfg.wire.sard, [], 44)
  | .opcSawr addr => some (addr ++ s.cfg.wire.sawr, fit 40 s.latch.wbuf, 0)
  | .opcSetKey param mode => some (mode ++ param ++ s.cfg.wire.setKey, dataOperand s (s.latch.cmd.w2.extractLsb' 0 16), 0)
  | .opcSetSuid param mode => some (mode ++ param ++ s.cfg.wire.setSuid, dataOperand s (s.latch.cmd.w2.extractLsb' 0 16), 0)
  | .opcSetGmc param mode => some (mode ++ param ++ s.cfg.wire.setGmc, dataOperand s (s.latch.cmd.w2.extractLsb' 0 16), 0)
  | .opcSetGmt param mode => some (mode ++ param ++ s.cfg.wire.setGmt, dataOperand s (s.latch.cmd.w2.extractLsb' 0 16), 0)
  | .opcSetAwdt param mode => some (mode ++ param ++ s.cfg.wire.setAwdt, dataOperand s (s.latch.cmd.w2.extractLsb' 0 16), 0)
  | .opcSetScr param mode => some (mode ++ param ++ s.cfg.wire.setScr, dataOperand s (s.latch.cmd.w2.extractLsb' 0 16), 0)
  | .opcSetRstResp param mode => some (mode ++ param ++ s.cfg.wire.setRstResp, dataOperand s (s.latch.cmd.w2.extractLsb' 0 16), 0)
  | .opcSetAclr param mode => some (mode ++ param ++ s.cfg.wire.setAclr, dataOperand s (s.latch.cmd.w2.extractLsb' 0 16), 0)
  | .opcErase4k addr => some (addr ++ s.cfg.wire.erase4k, fit 8 s.latch.wbuf, 0)
  | .opcErase32k addr => some (addr ++ s.cfg.wire.erase32k, fit 8 s.latch.wbuf, 0)
  | .opcErase64k addr => some (addr ++ s.cfg.wire.erase64k, fit 8 s.latch.wbuf, 0)
  | .opcEraseSection param mode => some (mode ++ param ++ s.cfg.wire.eraseSection, fit 8 s.latch.wbuf, 0)
  | .opcEraseChip param mode => some (mode ++ param ++ s.cfg.wire.eraseChip, fit 8 s.latch.wbuf, 0)
  | .opcCalcSigDtWid mode => some (mode ++ 1#8 ++ s.cfg.wire.calcSig, [], 44)
  | .opcCalcSigDtSuid mode => some (mode ++ 2#8 ++ s.cfg.wire.calcSig, [], 44)
  | .opcCalcSigDtSsr mode => some (mode ++ 3#8 ++ s.cfg.wire.calcSig, [], 44)
  | .opcCalcSigDtGmc mode => some (mode ++ 4#8 ++ s.cfg.wire.calcSig, [], 44)
  | .opcCalcSigDtGmt mode => some (mode ++ 5#8 ++ s.cfg.wire.calcSig, [], 44)
  | .opcCalcSigDtAwdt mode => some (mode ++ 6#8 ++ s.cfg.wire.calcSig, [], 44)
  | .opcCalcSigDtScr mode => some (mode ++ 7#8 ++ s.cfg.wire.calcSig, [], 44)
  | .opcCalcSigDtHwVer mode => some (mode ++ 8#8 ++ s.cfg.wire.calcSig, [], 44)
  | .opcCalcSigDtMc mode => some (mode ++ 9#8 ++ s.cfg.wire.calcSig, [], 44)
  | _ => none

/-! ## Effects that operations share -/

/-- The operation is under way: the result registers hold unspecified values (rules R20, R75). -/
def State.begun (s : State) : State :=
  { s with out := freeResults s.env.frees, env := { s.env with frees := s.env.frees + 1 } }

/-- Crypto calls on record, oldest first. -/
def State.called (s : State) (cs : List Config.CryptoCall) : State :=
  { s with env := { s.env with trace := (cs.map .crypto).reverse ++ s.env.trace } }

/-- One random draw of the given kind (rule R15). -/
def State.drawn (s : State) (c : Config.CryptoCall) : State :=
  { s.called [c] with env := { (s.called [c]).env with prng := s.env.prng + 1 } }

/-- The counter copy is trusted and a tick is left (rules R315, R316). -/
def canTick (s : State) : Bool := s.mc.inSync && decide (s.mc.tc.toNat + 1 < Config.tcLim)

/-- One tick consumed (rule R316). -/
def State.ticked (s : State) : State := { s with mc := { s.mc with tc := s.mc.tc + 1 } }

/-- The `TC` that `use_mc` returns: the incremented one, unless `MC_USE_ORDER` says otherwise (rule R316). -/
def tickValue (s : State) : Word :=
  match s.cfg.mcUseOrder with
  | .incrementThenFetch => s.mc.tc + 1
  | .fetchThenIncrement => s.mc.tc

/-- The state after the synchronisation of an untrusted counter (rule R315): the unsigned read `y`, after which the copy
holds what the device reported and is trusted. -/
def State.synced (s : State) (y : Transaction) (tc dmc : Word) (rest : List Answer) : State :=
  { s.transacted y rest with mc := { tc := tc, dmc := dmc, inSync := true } }

/-- The state after a forced fetch of a valid counter (rules R310, R311): the unsigned read `y`; `ssrOut` stays at the
word that is being classified (log 9). -/
def State.refetched (s : State) (y : Transaction) (tc dmc : Word) (rest : List Answer) : State :=
  { s.transacted y rest with
    mc := { tc := tc, dmc := dmc, inSync := s.mc.inSync && !s.cfg.errorClearsInSync }
    out := s.out }

/-! ## Sessions -/

/-- The session key and the signature of a handshake that consumes the next tick (rule R142). -/
def sessionSecrets (s : State) (key : Bytes) (includeWid : Bool) (ctag : Word) : Bytes × Bytes :=
  sessionOf s.cfg key ctag (tickValue s) s.mc.dmc (nonceOf s.env.prng) (if includeWid then some s.conf.wid else none)

/-- The state after a handshake whose transaction nothing disturbed (rule R142): nonce, tick, derivation, frame. -/
def State.handshaken (s : State) (x : Transaction) (rest : List Answer) : State :=
  ((s.drawn .nonce).ticked.called [.deriveSession]).transacted x rest

/-- The keys wiped and no session open (rule R30), with a status. -/
def State.closed (s : State) (st : Status) : State :=
  { s.wipeKeys with kid := Config.kidInvalid, status := st, seq := .idle }

/-! ## Signing -/

/-- The `ssk` of the current context derived with the counter as it stands (rule R162). -/
def freshSsk (s : State) : Bytes := sskOf s.cfg (s.ctx s.ctxIdx).key s.mc.tc

/-- The `ssk` that signs: refreshed or as it is (rule R162). -/
def signingKey (s : State) (refresh : Bool) : Bytes := if refresh then freshSsk s else (s.ctx s.ctxIdx).ssk

/-- The signature of `ctag` and `data` in the current context (rule R162). -/
def signature (s : State) (ctag : Word) (data : Bytes) (refresh : Bool) : Bytes :=
  signatureOf (signingKey s refresh) s.kid ctag (padPage data)

/-- The state after `sign_data` (rule R162). -/
def State.signed (s : State) (ctag : Word) (data : Bytes) (refresh : Bool) : State :=
  let c := s.ctx s.ctxIdx
  let c := if refresh then { c with ssk := freshSsk s, tc := s.mc.tc } else c
  (s.withCtx s.ctxIdx { c with sctag := ctag, sdata := padPage data }).called
    ((if refresh then [.refreshSsk] else []) ++ [.calcAuthSignature])

/-- The cipher key of a setter (rule R163). -/
def setterCipherKey (s : State) : Bytes := cipherKeyOf s.cfg (freshSsk s) s.kid .encrypt

/-- The CTAG a setter sends (rule R163). -/
def sentCtag (s : State) (encAddr : Bool) (ctag : Word) : Word :=
  if encAddr then mkCtagAddr (ctagOpc ctag) (encryptAddr s.cfg (ctagAddr ctag) (setterCipherKey s)) else ctag

/-- The data a setter sends (rule R163). -/
def sentData (s : State) (encData : Bool) (data : Bytes) : Bytes :=
  if encData then cipherPage (setterCipherKey s) data else data

/-- The state after `prepare_signed_setter` (rule R163): signed first, then the cipher key, the address, the data. -/
def State.prepared (s : State) (ctag : Word) (data : Bytes) (encData encAddr : Bool) : State :=
  let t := s.signed ctag data true
  if encData || encAddr then
    (t.withCtx t.ctxIdx { t.ctx t.ctxIdx with cipherKey := setterCipherKey s }).called
      ([.buildCipherKey] ++ (if encAddr then [.addressKey] else []) ++ (if encData then [.cipher] else []))
  else t

/-- The transaction of a setter, from the state in which its tick is consumed (rule R164). -/
def sendsSetter (s : State) (ctag : Word) (data : Bytes) (encData encAddr : Bool) (x : Transaction) : Prop :=
  x.ctag = sentCtag s encAddr ctag
    ∧ x.payload = sentData s encData data ++ signature s ctag data true ∧ x.response = []

/-- The state in which a setter that meets no error completes: begun, ticked, prepared, sent (rule R164). -/
def State.setterDone (s : State) (ctag : Word) (data : Bytes) (encData encAddr : Bool) (x : Transaction)
    (rest : List Answer) : State :=
  complete .ok ((s.ticked.prepared ctag data encData encAddr).transacted x rest)

/-! ## Page reads -/

/-- The address a page command carries: the page address with random low bits (rule R94). -/
def randomAddr (s : State) (a : Word) : Word :=
  randomiseAddr s.cfg.addrRandBits a (Config.randomDraw s.env.prng)

/-- The `ssk` of a page read prepared in context `slot` (rule R221). -/
def readSsk (s : State) (slot : Bool) : Bytes := sskOf s.cfg (s.ctx slot).key (tickValue s)

/-- The key a page is decrypted with (rule R221). -/
def readKey (s : State) (slot : Bool) : Bytes := cipherKeyOf s.cfg (readSsk s slot) s.kid .decrypt

/-- The CTAG of a page read (rule R221): the encrypted address. -/
def readCtag (s : State) (opc : Byte) (a : Word) (slot : Bool) : Word :=
  mkCtagAddr opc (encryptAddr s.cfg ((randomAddr s a).setWidth 24) (readKey s slot))

/-- The state after `PrepRead` (rule R221). -/
def State.readPrepared (s : State) (opc : Byte) (a : Word) (slot : Bool) : State :=
  let t := ((s.drawn .randomBits).ticked).called [.refreshSsk, .buildCipherKey, .addressKey]
  t.withCtx slot { s.ctx slot with
    tc := tickValue s, ssk := readSsk s slot, cipherKey := readKey s slot, ctagW := readCtag s opc a slot }

/-- As `readPrepared`, when the preparation's tick is the first one of an untrusted counter (rules R221, R315): the draw,
then the unsigned read `y`, then the tick. -/
def State.readPreparedFirst (s : State) (y : Transaction) (tc dmc : Word) (rest : List Answer) (opc : Byte) (a : Word)
    (slot : Bool) : State :=
  let s' := s.synced y tc dmc rest
  let t := ((s.drawn .randomBits).synced y tc dmc rest).ticked.called [.refreshSsk, .buildCipherKey, .addressKey]
  t.withCtx slot { s.ctx slot with
    tc := tickValue s', ssk := readSsk s' slot, cipherKey := readKey s' slot, ctagW := readCtag s' opc a slot }

/-- The plaintext of a page response (rules R222, R223). -/
def plaintext (s : State) (slot : Bool) (r : Bytes) : Bytes := cipherPage (readKey s slot) (pageOf r)

/-- The signature a page response must carry (rules R223, R386): over the unrandomised address and the plaintext. -/
def pageSignature (s : State) (opc : Byte) (a : Word) (slot : Bool) (r : Bytes) : Bytes :=
  signatureOf (readSsk s slot) s.kid (mkCtagAddr opc (a.setWidth 24)) (plaintext s slot r)

/-- One page of a multi-block read as the device answers it (rule R253): the wait and the response. -/
structure PageAnswer where
  wait : Wait
  response : Bytes
deriving DecidableEq, Repr

/-- The answers to the loop of rule R253: for each page the polls and OP2, then OP1 of the page after the next. -/
def pageAnswers : List PageAnswer → List Answer
  | [] => []
  | p :: ps =>
    statusAnswers p.wait.words ++ [.bytes p.response] ++ (if ps.isEmpty then [] else [.bytes []]) ++ pageAnswers ps

/-- One page response is in order: the wait ended with a response and no error, the echoed counter is the one
before the page's own tick, and the signature, where there is one, is right (rule R253). `s` holds the
counter as it is before the tick of this page. -/
def pageGood (s : State) (m : MultiRead) (a : Word) (slot : Bool) (p : PageAnswer) : Prop :=
  p.wait.good s.cfg.ssr = true ∧ respReady s.cfg.ssr p.wait.last = true ∧ hasError s.cfg.ssr p.wait.last = false
    ∧ p.response.length = m.len ∧ echoedTc p.response = tickValue s - 1
    ∧ (m.signed = true → p.response.drop 36 = pageSignature s m.opc a slot p.response)

/-- All pages are in order, page after page with alternating contexts and successive ticks. -/
def pagesGood (s : State) (m : MultiRead) : Word → Bool → List PageAnswer → Prop
  | _, _, [] => True
  | a, slot, p :: ps => pageGood s m a slot p ∧ pagesGood s.ticked m (a + 32) (!slot) ps

/-- The data of a multi-block read: the plaintexts of the pages in order. -/
def pagesData (s : State) : Bool → List PageAnswer → Bytes
  | _, [] => []
  | slot, p :: ps => plaintext s slot p.response ++ pagesData s.ticked (!slot) ps

/-- The answers to the part of the loop of rule R253 that handles these pages, each followed by another one: for each
page the polls and OP2, then OP1 of the page after it. -/
def passedAnswers : List PageAnswer → List Answer
  | [] => []
  | p :: ps => statusAnswers p.wait.words ++ [.bytes p.response, .bytes []] ++ passedAnswers ps

/-- `n` ticks consumed (rule R316). -/
def State.tickedBy (s : State) (n : Nat) : State := { s with mc := { s.mc with tc := s.mc.tc + BitVec.ofNat 32 n } }

/-- The context of page `n` of a multi-block read: they alternate from the current one (rule R254). -/
def State.pageSlot (s : State) (n : Nat) : Bool := s.ctxIdx ^^ (n % 2 == 1)

/-- The address of page `n` of a multi-block read from `a`. -/
def pageAddr (a : Word) (n : Nat) : Word := a + BitVec.ofNat 32 (32 * n)

/-- The state in which page `n` of a multi-block read is prepared, as far as its preparation reads it: a tick and a draw
consumed for each page before it (rules R94, R221, R316). -/
def State.preparedBy (s : State) (n : Nat) : State :=
  { s.tickedBy n with env := { s.env with prng := s.env.prng + n } }

/-- The CTAG of the command that reads page `n` of a multi-block read from `a` (rules R221, R254). -/
def multiCtag (s : State) (opc : Byte) (a : Word) (n : Nat) : Word :=
  readCtag (s.preparedBy n) opc (pageAddr a n) (s.pageSlot n)

/-- The crypto calls of `PrepRead`, oldest first (rule R221). -/
def prepEvents : List Event := [.crypto .randomBits, .crypto .refreshSsk, .crypto .buildCipherKey, .crypto .addressKey]

/-- A page command started without waiting (rules R253, R282): its OP1 with an empty payload, in its bus sub-mode. -/
def startEvents (s : State) (ctag : Word) : List Event :=
  (if flips s.cfg ctag then [.busModeExit] else []) ++ [op1Event s ctag []]
    ++ (if flips s.cfg ctag then [.busModeReenter] else [])

/-- The crypto calls of the check of a page, oldest first (step 5 of rule R253). -/
def checkEvents (m : MultiRead) : List Event :=
  .crypto .cipher :: if m.signed then [.crypto .calcAuthSignature] else []

/-- The state after the check of a page in order (step 5 of rule R253), `p` its plaintext. -/
def State.pageVerified (s : State) (m : MultiRead) (a : Word) (slot : Bool) (p : Bytes) : State :=
  let t := if m.signed then
      s.withCtx slot { s.ctx slot with sctag := mkCtagAddr m.opc (a.setWidth 24), sdata := p }
    else s
  { t with seq := .verify, env := { t.env with trace := (checkEvents m).reverse ++ t.env.trace } }

/-- The events of the loop of rule R253 from page `n` on, oldest first: for each page the preparation of the next one, the
polls and the OP2 that reads the response, the start of the next one, the check. -/
def loopEvents (s : State) (m : MultiRead) (a : Word) : Nat → List PageAnswer → List Event
  | _, [] => []
  | n, p :: ps =>
    (if ps.isEmpty then [] else prepEvents) ++ p.wait.words.map (op0Event s) ++ [op2Event s p.response]
      ++ (if ps.isEmpty then [] else startEvents s (multiCtag s m.opc a (n + 1))) ++ checkEvents m
      ++ loopEvents s m a (n + 1) ps

/-- The events of a multi-block read that has prepared its first page, oldest first: that page's start, then the loop. -/
def pipelineEvents (s : State) (m : MultiRead) (a : Word) (pages : List PageAnswer) : List Event :=
  startEvents s (multiCtag s m.opc a 0) ++ loopEvents s m a 0 pages

/-- Page `n` of a buffer. -/
def pageOfBuffer (b : Bytes) (n : Nat) : Bytes := (b.drop (32 * n)).take 32

/-- How many signatures were computed in these events. -/
def signaturesMade (es : List Event) : Nat := es.count (.crypto .calcAuthSignature)

/-- The responses of `n` bytes that OP2 read in these events (rules R106, R292), the oldest first. -/
def responses (cfg : Params) (n : Nat) (es : List Event) : List Bytes :=
  es.reverse.filterMap fun
    | .exchange x (.bytes r) => if x.opcode = cfg.op2Code ∧ x.readLen = n then some r else none
    | _ => none

/-- The value `base` of the first tick of an operation that left these events (rules R315, R316): over the counter copy
while it is trusted, else over the counter in the response of the one unsigned read. -/
def firstTick (s : State) (es : List Event) (base : Word) : Prop :=
  (s.mc.inSync = true → base = tickValue s)
    ∧ (s.mc.inSync = false →
      ∃ r, responses s.cfg 8 es = [r] ∧ base = tickValue { s with mc := { s.mc with tc := rd32 r } })

/-- What the check of page `n` of an authenticated read from `a` found (`n` = 0 for `SARD`), in a read whose first
tick returned `base` (rules R221, R223, R253): the response of page `n` is the `n`-th of these events, it echoes the
counter before the page's tick, its ciphertext decrypts to `p`, and `good` says if it carries the page's signature, the
one over the unrandomised address and `p`; with the keys derived from the key of the page's context and the page's
tick. -/
def pageChecked (s : State) (opc : Byte) (a : Word) (es : List Event) (base : Word) (n : Nat) (p : Bytes)
    (good : Bool) : Prop :=
  ∃ r, (responses s.cfg 44 es)[n]? = some r ∧ r.length = 44 ∧
    let tick := base + BitVec.ofNat 32 n
    let ssk := sskOf s.cfg (s.ctx (s.pageSlot n)).key tick
    echoedTc r = tick - 1
      ∧ p = cipherPage (cipherKeyOf s.cfg ssk s.kid .decrypt) (pageOf r)
      ∧ good = (r.drop 36 == signatureOf ssk s.kid (mkCtagAddr opc ((pageAddr a n).setWidth 24)) p)

end Sys2Proof.Machine
end

