-- ==== Sys2Proof/Certificates/Slice0/Obligations.lean ====
section
/-! DEFINITION. The statements. Each docstring names the rules of spec/ it formalises. -/

open Sys2Proof Sys2Proof.Machine
open Sys2Proof.Config (Answer Event)

/-! ## Reset, the port, one step -/

/-- R380: after the reset input every register that has a reset value holds it, whatever was going on, and the
block sends nothing. The state after power-on holds the same values. Rests on the spec's own decision D37, and on
log 11, 23. -/
def Obligations.BlockResetValues : Prop :=
  ∀ (s : State) (rest : List HostEvent), s.env.host = .reset :: rest →
    ∃ t, step s = .next t ∧ t.env.trace = s.env.trace ∧
      ∀ u ∈ [t, State.reset],
        u.seq = .idle ∧ u.status = .ok ∧ u.mc.inSync = false ∧ u.kid = 0xFF
        ∧ u.sessionKey = List.replicate u.cfg.keyBytes 0xFF
        ∧ u.ctx0.key = List.replicate u.cfg.keyBytes 0xFF ∧ u.ctx1.key = List.replicate u.cfg.keyBytes 0xFF
        ∧ u.ctxIdx = false ∧ u.busIsLocked = false ∧ u.conf.paEnabled = 0 ∧ u.inFlight = false
        ∧ u.atomic = 0 ∧ u.interruptsMasked = false

/-- R75, R21: a request to an idle block latches the operands and enters `CHECK`; if the latched bytes decode to
an instruction, the step is that instruction's. Rests on the spec's own decisions D1, D41, and on log 2, 14,
18. -/
def Obligations.StepRunsDecodedInstruction : Prop :=
  ∀ (s : State) (sp : Space) (rest : List HostEvent) (i : Instr),
    s.env.host = .request sp :: rest → s.seq = .idle →
    decode sp ((le32 s.inp.cmd.w0 ++ le32 s.inp.cmd.w1 ++ le32 s.inp.cmd.w2 ++ le32 s.inp.cmd.w3).take sp.bytes)
      = .ok i →
    step s = exec i { s.dequeue rest with
      seq := .check
      latch := { s.inp with wbuf := s.inp.wbuf.take (s.inp.cmd.w2.extractLsb' 0 16).toNat } }

/-- R384: while an operation is in progress a request is ignored and not queued. -/
def Obligations.RequestIgnoredWhileBusy : Prop :=
  ∀ (s : State) (sp : Space) (rest : List HostEvent),
    s.env.host = .request sp :: rest → s.seq ≠ .idle → step s = .next (s.dequeue rest)

/-- R75, R91, R340: what the host's writes of the configuration registers and of the operand registers leave, and
what its reads of the configuration give. A configuration write takes effect while the block is idle; an operand
write at any time: `cmd` and `kbuf` whole, `wbuf` at its front. No operation sees them: with other contents of the
operand registers it does the same and leaves those contents, unless the reset of the block cut it off, which sets
them. R340: what the idle block reads in `status` is 0 for `OK` alone and differs for different statuses, whatever
the status numbers are. Rests on the spec's own decisions D1, D3, D41, and on log 17, 18, 22, 23. -/
def Obligations.HostWritesAndReads : Prop :=
  (∀ (s : State) (rest : List HostEvent),
    (∀ v : Word, s.env.host = .writeCfgBus v :: rest →
      step s = .next (if s.seq = .idle then
        { s.dequeue rest with conf := { s.conf with busMode := v.extractLsb' 0 8, dtr := v.getLsbD 8 } }
        else s.dequeue rest))
    ∧ (∀ v : Word, s.env.host = .writeCfgPa v :: rest →
      ∃ pa : BitVec 16, (∀ i < 16, pa.getLsbD i = (v.getLsbD i && decide (i < s.cfg.numSections)))
        ∧ step s = .next (if s.seq = .idle then { s.dequeue rest with conf := { s.conf with paEnabled := pa } }
          else s.dequeue rest))
    ∧ (∀ b : Bytes, b.length = s.cfg.widBytes → s.env.host = .writeCfgWid b :: rest →
      step s = .next (if s.seq = .idle then { s.dequeue rest with conf := { s.conf with wid := b } }
        else s.dequeue rest))
    ∧ (readCfgBus s).extractLsb' 0 8 = s.conf.busMode ∧ (readCfgBus s).getLsbD 8 = s.conf.dtr
    ∧ (∀ i < 16, (readCfgPa s).getLsbD i = s.conf.paEnabled.getLsbD i) ∧ readCfgWid s = s.conf.wid
    ∧ (∀ c : Cmd, s.env.host = .writeCmd c :: rest →
      step s = .next { s.dequeue rest with inp := { s.inp with cmd := c } })
    ∧ (∀ b : Bytes, s.env.host = .writeWbuf b :: rest →
      step s = .next { s.dequeue rest with inp := { s.inp with wbuf := b ++ s.inp.wbuf.drop b.length } })
    ∧ ∀ b : Bytes, s.env.host = .writeKbuf b :: rest →
      step s = .next { s.dequeue rest with inp := { s.inp with kbuf := b } })
  ∧ (∀ (i : Instr) (s t : State) (other : Inputs), exec i s = .next t →
      exec i { s with inp := other } = .next { t with inp := other }
      ∨ ((∃ u : State, t = u.blockReset) ∧ exec i { s with inp := other } = .next t))
  ∧ ∀ s t : State, paramsWf s.cfg = true → t.cfg = s.cfg → s.seq = .idle → t.seq = .idle →
      (readStatus s = 0 ↔ s.status = .ok) ∧ (readStatus s = readStatus t ↔ s.status = t.status)

/-- R114, I26, I27: a request whose code no row of the table has. A reserved host operation code completes with
`PARAMETER_ERR` and changes nothing but `status` and `seq`; the operand latches take the request (R75). A CTAG
with an unassigned opcode is `TM_SECURE` of that CTAG; an unassigned bus opcode is one exchange of that code in a
masked section. Rests on the spec's own decisions D2, D8, D10, D31, and on log 3, 8, 14, 15, 16, 18. -/
def Obligations.UnlistedCodesHandled : Prop :=
  ∀ (s : State) (rest : List HostEvent), s.seq = .idle →
    let latched : State := { s.dequeue rest with
      seq := .check
      latch := { s.inp with wbuf := s.inp.wbuf.take (s.inp.cmd.w2.extractLsb' 0 16).toNat } }
    let code := s.inp.cmd.w0.toNat % 256
    (s.env.host = .request .host :: rest →
      code ∉ [0x01, 0x02, 0x03, 0x04, 0x05, 0x08, 0x09, 0x0A, 0x10, 0x11, 0x18, 0x19, 0x1A, 0x20, 0x21, 0x22, 0x23,
        0x24, 0x25, 0x26, 0x27, 0x30, 0x31, 0x32, 0x33, 0x34, 0x35, 0x36, 0x37, 0x38, 0x3F, 0x40, 0x41, 0x42, 0x43,
        0x44, 0x48, 0x49, 0x4A, 0x4B, 0x4C] →
      step s = .next { latched with status := .parameterErr, seq := .idle })
    ∧ (s.env.host = .request .wire :: rest →
      code ∉ [0x40, 0x44, 0x45, 0x46, 0x50, 0x51, 0x52, 0x60, 0x61, 0x62, 0x63, 0x64, 0x65, 0x66, 0x67, 0x70, 0x71,
        0x72, 0x73, 0x74] →
      step s = exec (.tmSecure true s.inp.cmd.w0 (s.inp.cmd.w2.extractLsb' 0 16) s.inp.cmd.w3) latched)
    ∧ (s.env.host = .request .bus :: rest → code ∉ [0xA0, 0xA1, 0xA2, 0x06, 0x66, 0x99] →
      (s.busIsLocked = false → step s = .next { latched with status := .notConnected, seq := .idle })
      ∧ (s.busIsLocked = true →
        let size := s.inp.cmd.w2.extractLsb' 0 16
        let x := request s (BitVec.ofNat 8 code) (dataOperand latched size) 0 s.inp.cmd.w3.toNat
        (∀ (r : Bytes) (later : List Answer), r.length = s.inp.cmd.w3.toNat → s.env.answers = .bytes r :: later →
          step s = .next { latched.begun with
            out := { latched.begun.out with rbuf := r }
            status := .ok
            seq := .idle
            env := { latched.begun.env with
              answers := later, trace := .exchange x (.bytes r) :: s.env.trace } })
        ∧ ∀ later : List Answer, s.env.answers = .linkError :: later →
          step s = .next { latched.begun with
            status := .connectivityErr
            seq := .idle
            env := { latched.begun.env with answers := later, trace := .exchange x .linkError :: s.env.trace } }))

/-! ## Encodings -/

/-- Words written out from the spec's encodings decode to the instructions they stand for (R90, R92, R93, R103,
R111, R113). Rests on the spec's own decisions D1, D5, D8, D9, D33, and on log 1. -/
def Obligations.SpecWordsDecode : Prop :=
  decodeTableWord 128 0x00000008000000000000004000800003 = some (.tmSecure true 0x40 0 8)
  ∧ decodeTableWord 128 0x00000020000300000000100013000004
      = some (.tmStandard true true true 0x1000 0 3 0 0x20 0)
  ∧ decodeTableWord 128 0x00000000000000000000000000021110 = some (.sessionOpen 0x11 false true false)
  ∧ decodeTableWord 128 0x00000000000000000000010000000041 = some (.sard 0x100)
  ∧ decodeTableWord 32 0x00030065 = some (.opcSetScr 0 3)
  ∧ decodeTableWord 32 0x00000346 = some (.opcCalcSigDtSsr 0)
  ∧ decodeTableWord 32 0x12345650 = some (.opcSrd 0x123456)
  ∧ decodeTableWord 8 0x99 = some .stdRst

/-- Every well-formed instruction is the one its encoding decodes to: no operand bit is lost (R90, R92, R93, R103,
R113). Rests on the spec's own decisions D1, D5, and on log 1, 14. -/
def Obligations.DecodeInvertsEncode : Prop :=
  ∀ i : Instr, WellFormed i = true → decode i.space (encode i) = .ok i

/-- What decodes is well-formed and of the encoding it was read in; a CTAG and a bus opcode have one instruction
each and an instruction has one of them (R92, R93, R103). Rests on the spec's own decisions D5, D8, and on log 1,
14. -/
def Obligations.EncodeInvertsDecode : Prop :=
  (∀ sp bs i, decode sp bs = .ok i → WellFormed i = true ∧ i.space = sp)
  ∧ ∀ bs i, (decode .wire bs = .ok i ∨ decode .bus bs = .ok i) → encode i = bs

/-! ## Connection -/

/-- R271, R272: `TM_CONNECT` tests and sets the lock, `TM_DISCONNECT` tests and clears it; a refused one changes
nothing but `status` and `seq`; session, keys and counter stay. Rests on the spec's own decision D23, and on log
8, 2. -/
def Obligations.ConnectAndDisconnectRun : Prop :=
  ∀ s : State,
    exec .tmConnect s = .next
      (if s.busIsLocked then { s with status := .deviceBusy, seq := .idle }
      else { s.begun with busIsLocked := true, status := .ok, seq := .idle })
    ∧ exec .tmDisconnect s = .next
      (if s.busIsLocked then { s.begun with busIsLocked := false, status := .ok, seq := .idle }
      else { s with status := .notConnected, seq := .idle })

/-- R270: the framing state machine. It starts `Disconnected`; `TM_CONNECT` makes it `Connected` and
`TM_DISCONNECT` `Disconnected`; while it is `Disconnected` every operation with a connection check, of its own or
inside `Secure`, ends with `NOT_CONNECTED` (`SYNCH_MC` with an untrusted counter:
`DisconnectedOperationsRefused`); and nothing else changes the bus lock, but the reset of the block, which brings
the initial state back. Rests on the spec's own decision D37, and on log 15, 16, 23. -/
def Obligations.ConnectionFramingMachine : Prop :=
  State.reset.busIsLocked = false
  ∧ (∀ s : State, s.busIsLocked = false → ∃ t, exec .tmConnect s = .next t ∧ t.status = .ok ∧ t.busIsLocked = true)
  ∧ (∀ s : State, s.busIsLocked = true → ∃ t, exec .tmDisconnect s = .next t ∧ t.status = .ok ∧ t.busIsLocked = false)
  ∧ (∀ (i : Instr) (s : State), checksConnection i = true ∨ reachesSecure i = true → s.busIsLocked = false →
      ∃ t, exec i s = .next t ∧ t.status = .notConnected ∧ t.busIsLocked = false)
  ∧ ∀ (i : Instr) (s t : State), exec i s = .next t → i ≠ .tmConnect → i ≠ .tmDisconnect →
      t.busIsLocked = s.busIsLocked ∨ ∃ u : State, t = u.blockReset

/-- R281, R342, R347: while the bus is not locked, an operation with a connection check of its own is refused with
`NOT_CONNECTED` before any effect; one that meets the check inside `Secure`, and `SYNCH_MC` with an untrusted
counter, makes no exchange and leaves the counter alone. Rests on the spec's own decisions D24, D25, and on log 8,
9, 15, 16. -/
def Obligations.DisconnectedOperationsRefused : Prop :=
  ∀ (i : Instr) (s : State), s.busIsLocked = false →
    (checksConnection i = true → exec i s = .next { s with status := .notConnected, seq := .idle })
    ∧ ((reachesSecure i = true ∨ (i = .synchMc ∧ s.mc.inSync = false)) →
      exec i s = .next { s.begun with
        out := { s.begun.out with ssrOut := s.ssr }, status := .notConnected, seq := .idle })

/-- R114, R345, R347: an operand that breaks a parameter rule is refused with `PARAMETER_ERR` before any effect.
Rests on the spec's own decisions D3, D7, D13, D25, and on log 8, 10, 25. -/
def Obligations.BadOperandsRefused : Prop :=
  ∀ (i : Instr) (s : State), badOperands s i → (checksConnection i = true → s.busIsLocked = true) →
    exec i s = .next { s with status := .parameterErr, seq := .idle }

/-! ## The transaction manager -/

/-- R294: the snapshot, as it stands, connected or not. Rests on the spec's own decision D20, and on log 8. -/
def Obligations.LastStatusIsSnapshot : Prop :=
  ∀ s : State, exec .getLastSsr s = .next { s.begun with
    out := { s.begun.out with ssrOut := s.ssr }, status := .ok, seq := .idle }

/-- R298, R300: `TM_SECURE` with a status wait, when nothing disturbs it: its exchanges in order, the response in
`rbuf`, the final status word in `ssr` and `ssrOut`; no tick, no classification. Rests on the spec's own decisions
D39, D45, and on log 3, 8. -/
def Obligations.TmSecureRuns : Prop :=
  ∀ (s : State) (x : Transaction) (rest : List Answer) (size : BitVec 16) (n : Word),
    s.busIsLocked = true → x.good s.cfg = true → x.payload = dataOperand s size → x.response.length = n.toNat →
    s.env.answers = x.answers s.cfg ++ rest →
    exec (.tmSecure true x.ctag size n) s = .next { s.begun.transacted x rest with
      out := { (s.begun.transacted x rest).out with
        rbuf := if x.response = [] then s.begun.out.rbuf else x.response }
      status := .ok
      seq := .idle }

/-- R97, R282 to R286, R298, R389: `TM_SECURE` without a status wait sends its command and leaves it in flight; a
read then tests the stale snapshot: it reads at once, polls for readiness, or gets the synthetic error. With CTAG
0 it sends nothing; with a wait it refreshes the snapshot and reads a response that is ready. Rests on the spec's
own decisions D18, D19, D20, D39, D45, and on log 3, 8. -/
def Obligations.TmSecureWithoutWaitOrCommand : Prop :=
  ∀ (s : State) (rest : List Answer) (size : BitVec 16), s.busIsLocked = true →
    (∀ (ctag n : Word),
      let answered := fun later : List Answer => s.env.answers = commandAnswers ctag ++ later
      let sent := s.begun.commanded ctag (dataOperand s size) rest
      let polled := s.cfg.pollForReady.contains (ctagOpc ctag)
      let quiet := n = 0
        ∨ (respReady s.cfg.ssr s.ssr = false ∧ polled = true ∧ hasError s.cfg.ssr s.ssr = true)
      (quiet → answered rest →
        exec (.tmSecure false ctag size n) s = .next { sent with
          out := { sent.out with ssrOut := s.ssr }, status := .ok, seq := .idle })
      ∧ (∀ r : Bytes, r ≠ [] → r.length = n.toNat → respReady s.cfg.ssr s.ssr = true → answered (.bytes r :: rest) →
        exec (.tmSecure false ctag size n) s = .next { sent with
          out := { sent.out with rbuf := r, ssrOut := s.ssr }
          status := .ok
          seq := .idle
          env := { sent.env with trace := op2Event s r :: sent.env.trace } })
      ∧ (n ≠ 0 → respReady s.cfg.ssr s.ssr = false → polled = false → s.cfg.ssr.err ≠ s.cfg.ssr.respReady →
        answered rest →
        exec (.tmSecure false ctag size n) s = .next { sent with
          ssr := s.ssr ||| BitVec.twoPow 32 s.cfg.ssr.err
          out := { sent.out with ssrOut := s.ssr ||| BitVec.twoPow 32 s.cfg.ssr.err }
          status := .ok
          seq := .idle })
      ∧ ∀ (polls : List Word) (v : Word) (r : Bytes), r ≠ [] → r.length = n.toNat → polled = true →
        (∀ u ∈ s.ssr :: polls, hasError s.cfg.ssr u = false ∧ respReady s.cfg.ssr u = false) →
        (∀ u ∈ polls ++ [v], deadLink u = false) → hasError s.cfg.ssr v || respReady s.cfg.ssr v →
        answered (statusAnswers (polls ++ [v]) ++ (if respReady s.cfg.ssr v then [.bytes r] else []) ++ rest) →
        exec (.tmSecure false ctag size n) s = .next { sent with
          ssr := v
          out := { sent.out with ssrOut := v, rbuf := if respReady s.cfg.ssr v then r else sent.out.rbuf }
          status := .ok
          seq := .idle
          env := { sent.env with
            trace := (if respReady s.cfg.ssr v then [op2Event s r] else [])
              ++ ((polls ++ [v]).map (op0Event s)).reverse ++ sent.env.trace } })
    ∧ ∀ (w : Wait) (r : Bytes) (n : Word), w.good s.cfg.ssr = true → s.cfg.doubleWait.contains 0 = false →
      r.length = n.toNat → (r ≠ [] → respReady s.cfg.ssr w.last = true) →
      s.env.answers = statusAnswers w.words ++ (if r = [] then [] else [.bytes r]) ++ rest →
      exec (.tmSecure true 0 size n) s = .next { s.begun with
        ssr := w.last
        inFlight := false
        out := { s.begun.out with ssrOut := w.last, rbuf := if r = [] then s.begun.out.rbuf else r }
        status := .ok
        seq := .idle
        env := { s.begun.env with
          answers := rest
          trace := (if r = [] then [] else [op2Event s r]) ++ (w.words.map (op0Event s)).reverse ++ s.env.trace } }

/-- R114, R293: `TM_STANDARD` with every combination of its options. An address it is given of more than 24 bits
is refused with `PARAMETER_ERR` before any effect. Otherwise, when the device answers: the write-enable prefix,
the command itself, the wait; the bytes read in `rbuf`. Without a wait the snapshot stays, and `inFlight` and the
counter always stay. Rests on the spec's own decisions D3, D31, and on log 3, 8, 25. -/
def Obligations.TmStandardRuns : Prop :=
  ∀ (s : State) (we wb ha : Bool) (addr : Word) (size : BitVec 16) (addrSize dummy opcode : Byte) (n : BitVec 16)
    (r : Bytes) (w : Wait) (rest : List Answer),
    s.busIsLocked = true →
    (ha = true → 2 ^ 24 ≤ addr.toNat →
      exec (.tmStandard we wb ha addr size addrSize dummy opcode n) s
        = .next { s with status := .parameterErr, seq := .idle })
    ∧ ((ha = true → addr.toNat < 2 ^ 24) → r.length = n.toNat → w.good s.cfg.ssr = true →
      s.env.answers = (if we then [.bytes []] else []) ++ [.bytes r] ++ (if wb then statusAnswers w.words else [])
        ++ rest →
      exec (.tmStandard we wb ha addr size addrSize dummy opcode n) s = .next { s.begun with
        ssr := if wb then w.last else s.ssr
        out := { s.begun.out with rbuf := r }
        status := .ok
        seq := .idle
        env := { s.begun.env with
          answers := rest
          trace := (if wb then (w.words.map (op0Event s)).reverse else [])
            ++ [.exchange { request s opcode (dataOperand s size) dummy n.toNat with
              addr := if ha then some addr else none
              addrSize := if ha then addrSize else 0 } (.bytes r)]
            ++ (if we then [bareEvent s s.cfg.stdWren] else []) ++ s.env.trace } })

/-- R290: everything a status poll does: a link failure leaves the snapshot, an all-ones or all-zeros word is
written to it and reported as a link failure, any other word is written to it. Rests on the spec's own decisions
D20, D24, and on log 3. -/
def Obligations.StatusPollLaw : Prop :=
  ∀ (s : State) (rest : List Answer), s.atomic ≠ 0 →
    (s.env.answers = .linkError :: rest →
      op0.run s = .error (.raise .connectivityErr) { s with env := { s.env with
        answers := rest
        trace := .exchange (request s s.cfg.op0Code [] s.cfg.op0Dummy 4) .linkError :: s.env.trace } })
    ∧ ∀ v : Word, s.env.answers = .bytes (le32 v) :: rest →
      op0.run s =
        if v = 0 ∨ v = 0xFFFFFFFF then
          .error (.raise .connectivityErr) { s with
            ssr := v, env := { s.env with answers := rest, trace := op0Event s v :: s.env.trace } }
        else .ok () { s with
            ssr := v, env := { s.env with answers := rest, trace := op0Event s v :: s.env.trace } }

/-- R287: a link failure reported by `Secure` leaves the counter copy untrusted, and `NOT_CONNECTED` leaves it as
it was. Rests on the spec's own decision D24, and on log 3. -/
def Obligations.LinkFailureDistrustsCounter : Prop :=
  ∀ (s t : State) (ctag : Word) (w : Bytes) (n : Nat) (wantSsr : Bool) (sv : Word),
    ((secure ctag w n wantSsr).run s = .ok (.error .connectivityErr, sv) t → t.mc.inSync = false)
    ∧ ((secure ctag w n wantSsr).run s = .ok (.error .notConnected, sv) t → t.mc = s.mc)

/-- R350, R287: when the link fails as a signed setter's frame is sent, the operation ends with
`CONNECTIVITY_ERR`, the tick stays consumed, the context keeps what was prepared, the counter copy is no longer
trusted, and the snapshot stays. Rests on the spec's own decisions D16, D24, and on log 9, 13. -/
def Obligations.SetterLinkFailure : Prop :=
  ∀ (s : State) (encData encAddr : Bool) (ctag mask : Word) (size : BitVec 16) (rest : List Answer),
    s.busIsLocked = true → canTick s = true → size.toNat ≤ 32 → (encData = true → size.toNat = 32) →
    s.env.answers = .linkError :: rest → s.cfg.capQpiExitReenter = false →
    sentCtag s.begun.ticked encAddr ctag ≠ 0 →
    ∃ t, exec (.executeSignedSetter encData encAddr ctag size mask) s = .next t
      ∧ t.status = .connectivityErr ∧ t.seq = .idle ∧ t.atomic = s.atomic
      ∧ t.mc = { tc := s.mc.tc + 1, dmc := s.mc.dmc, inSync := false }
      ∧ t.ssr = s.ssr ∧ t.out.ssrOut = s.ssr ∧ t.inFlight = s.inFlight ∧ t.kid = s.kid
      ∧ t.sessionKey = s.sessionKey
      ∧ t.ctx s.ctxIdx = (s.begun.ticked.prepared ctag (dataOperand s size) encData encAddr).ctx s.ctxIdx
      ∧ t.ctx (!s.ctxIdx) = s.ctx (!s.ctxIdx) ∧ t.env.answers = rest

/-- R286: a read requested of an opcode that is not polled for readiness, when the wait ends without a response:
nothing is read, and the snapshot and `ssrOut` carry the generic error bit. Rests on the spec's own decision D18,
and on log 3. -/
def Obligations.MissingResponseIsSyntheticError : Prop :=
  ∀ (s : State) (x : Transaction) (rest : List Answer) (size : BitVec 16) (n : Word),
    s.busIsLocked = true → x.good s.cfg = true → x.response = [] → x.payload = dataOperand s size →
    0 < n.toNat → respReady s.cfg.ssr (x.final s.cfg) = false →
    s.cfg.pollForReady.contains (ctagOpc x.ctag) = false → ctagOpc x.ctag ≠ s.cfg.wire.setScr →
    s.cfg.ssr.err ≠ s.cfg.ssr.respReady →
    s.env.answers = x.answers s.cfg ++ rest →
    exec (.tmSecure true x.ctag size n) s = .next { s.begun.transacted x rest with
      ssr := x.final s.cfg ||| BitVec.twoPow 32 s.cfg.ssr.err
      out := { s.begun.out with ssrOut := x.final s.cfg ||| BitVec.twoPow 32 s.cfg.ssr.err }
      status := .ok
      seq := .idle }

/-- R285: an opcode that is polled for readiness: after the wait ended with neither a response nor an error the
status is polled until one of them shows; the buffer is read only in the first case. Rests on the spec's own
decision D19, and on log 3. -/
def Obligations.ReadinessIsPolled : Prop :=
  ∀ (s : State) (x : Transaction) (polls : List Word) (v : Word) (r : Bytes) (rest : List Answer)
    (size : BitVec 16) (n : Word),
    s.busIsLocked = true → x.good s.cfg = true → x.response = [] → x.payload = dataOperand s size →
    r.length = n.toNat → r ≠ [] →
    s.cfg.pollForReady.contains (ctagOpc x.ctag) = true → ctagOpc x.ctag ≠ s.cfg.wire.setScr →
    (∀ u ∈ x.final s.cfg :: polls,
      deadLink u = false ∧ hasError s.cfg.ssr u = false ∧ respReady s.cfg.ssr u = false) →
    deadLink v = false → hasError s.cfg.ssr v || respReady s.cfg.ssr v →
    s.env.answers = x.answers s.cfg ++ statusAnswers (polls ++ [v])
      ++ (if respReady s.cfg.ssr v then [.bytes r] else []) ++ rest →
    exec (.tmSecure true x.ctag size n) s = .next { s.begun.transacted x rest with
      ssr := v
      out := { s.begun.out with ssrOut := v, rbuf := if respReady s.cfg.ssr v then r else s.begun.out.rbuf }
      status := .ok
      seq := .idle
      env := { s.begun.env with
        answers := rest
        trace := (if respReady s.cfg.ssr v then [op2Event s r] else [])
          ++ ((polls ++ [v]).map (op0Event s)).reverse ++ (x.events s).reverse ++ s.env.trace } }

/-! ## The counter and the classifier -/

/-- The transaction of the unsigned counter read (R318): its CTAG, no payload, the two words. -/
def readsCounter (s : State) (x : Transaction) (tc dmc : Word) : Prop :=
  x.ctag = mkCtag s.cfg.wire.getMc 0 0 ∧ x.payload = [] ∧ x.response = le32 tc ++ le32 dmc
    ∧ x.clean s.cfg = true

/-- R315: everything `SYNCH_MC` does with the counter: nothing if the copy is trusted; else the unsigned read and
the range check, with the copy unchanged on every failure. Rests on the spec's own decision D11, and on log 3. -/
def Obligations.SynchroniseCounter : Prop :=
  ∀ s : State,
    (s.mc.inSync = true → exec .synchMc s = .next { s.begun with status := .ok, seq := .idle })
    ∧ (s.mc.inSync = false →
      (∀ (x : Transaction) (tc dmc : Word) (rest : List Answer), s.busIsLocked = true → readsCounter s x tc dmc →
        s.env.answers = x.answers s.cfg ++ rest →
        exec .synchMc s = .next { s.begun.transacted x rest with
          mc := if 0x10 ≤ tc.toNat ∧ tc.toNat < 0xFFFFFFFF ∧ dmc.toNat < 0x3FFFFFFF
            then { tc := tc, dmc := dmc, inSync := true } else s.mc
          status := if 0x10 ≤ tc.toNat ∧ tc.toNat < 0xFFFFFFFF ∧ dmc.toNat < 0x3FFFFFFF
            then .ok else .deviceMcErr
          seq := .idle })
      ∧ (∀ (st : Status) (t : State), getMc.run { s with seq := .sync } = .error (.raise st) t →
        synchMc.run s = .error (.raise st) t ∧ t.mc = s.mc))

/-- R316: everything `use_mc` does, in the default order: synchronise, refuse at the end of the range, increment,
return the incremented pair. Rests on the spec's own decision D15, and on log 19. -/
def Obligations.UseCounter : Prop :=
  ∀ s : State, s.cfg.mcUseOrder = .incrementThenFetch →
    (∀ (st : Status) (t : State), synchMc.run s = .error (.raise st) t → useMc.run s = .error (.raise st) t)
    ∧ ∀ t : State, synchMc.run s = .ok () t →
      useMc.run s =
        if t.mc.tc.toNat + 1 < 0xFFFFFFFF then
          .ok (t.mc.tc + 1, t.mc.dmc) { t with mc := { t.mc with tc := t.mc.tc + 1 } }
        else .error (.raise .deviceMcErr) t

/-- R318: `GET_MC_UNSIGNED` delivers the counter as the device reports it, in range or not; no tick is consumed
and the copy is unchanged. Rests on the spec's own decision D11, and on log 3, 9. -/
def Obligations.UnsignedCounterRead : Prop :=
  ∀ (s : State) (x : Transaction) (tc dmc : Word) (rest : List Answer),
    s.busIsLocked = true → readsCounter s x tc dmc → s.env.answers = x.answers s.cfg ++ rest →
    exec .getMcUnsigned s = .next { s.begun.transacted x rest with
      out := { s.begun.out with ssrOut := x.final s.cfg, rbuf := le32 tc ++ le32 dmc }, status := .ok, seq := .idle }

/-- R311: everything the forced fetch does, for every outcome of the unsigned read: valid values replace the copy
and leave `inSync` as it was, or clear it if `ERROR_CLEARS_INSYNC` says so; a read that fails or is out of range
makes the copy untrusted; the fetch itself always returns. Nothing else changes but the result registers (log
9). -/
def Obligations.ForcedFetchResynchronises : Prop :=
  ∀ s : State,
    (∀ (tc dmc : Word) (t : State), getMc.run s = .ok (tc, dmc) t →
      ∃ u, forcedFetch.run s = .ok () u ∧ { u with mc := t.mc, out := t.out } = t
        ∧ u.mc = if 0x10 ≤ tc.toNat ∧ tc.toNat < 0xFFFFFFFF ∧ dmc.toNat < 0x3FFFFFFF
          then { tc := tc, dmc := dmc, inSync := t.mc.inSync && !s.cfg.errorClearsInSync }
          else { t.mc with inSync := false })
    ∧ ∀ (st : Status) (t : State), getMc.run s = .error (.raise st) t →
      ∃ u, forcedFetch.run s = .ok () u ∧ { u with mc := t.mc, out := t.out } = t
        ∧ u.mc = { t.mc with inSync := false }

/-- R312: the status of a status word under a mask, by fixed priority; `BUSY` does not count while a response is
ready. Rests on the spec's own decision D21. -/
def Obligations.ClassifyByPriority : Prop :=
  ∀ (L : Config.SsrLayout) (raw mask : Word), (ssrPositions L).Nodup →
    classify L raw mask =
      let m := fun p : Nat => raw.getLsbD p && mask.getLsbD p
      if m L.sesErr then .deviceSessionErr
      else if m L.intgErr then .deviceIntegrityErr
      else if m L.authErr then .deviceAuthenticationErr
      else if m L.privErr then .devicePrivilegeErr
      else if m L.ignoreErr then .commandIgnored
      else if m L.sysErr then .deviceSystemErr
      else if m L.flashErr then .deviceFlashErr
      else if m L.mcErr then .deviceMcErr
      else if m L.err then .deviceErr
      else if m L.busy && !raw.getLsbD L.respReady then .deviceBusy
      else .ok

/-- R310, R311, R281: everything `CHECK_LAST_SSR_ERRORS` does. On a snapshot without an error bit nothing is sent;
with one the counter is fetched whatever the mask; while disconnected the counter copy becomes untrusted instead.
The status is always the classification of the snapshot as it was. Rests on the spec's own decision D20, and on
log 9. -/
def Obligations.CheckLastStatusRuns : Prop :=
  ∀ (s : State) (mask : Word),
    (hasError s.cfg.ssr s.ssr = false →
      exec (.checkLastSsrErrors mask) s = .next { s.begun with
        out := { s.begun.out with ssrOut := s.ssr }, status := classify s.cfg.ssr s.ssr mask, seq := .idle })
    ∧ (hasError s.cfg.ssr s.ssr = true → s.busIsLocked = true →
      ∀ (x : Transaction) (tc dmc : Word) (rest : List Answer), readsCounter s x tc dmc →
        s.env.answers = x.answers s.cfg ++ rest →
        exec (.checkLastSsrErrors mask) s = .next { s.begun.transacted x rest with
          mc := if 0x10 ≤ tc.toNat ∧ tc.toNat < 0xFFFFFFFF ∧ dmc.toNat < 0x3FFFFFFF
            then { tc := tc, dmc := dmc, inSync := s.mc.inSync && !s.cfg.errorClearsInSync }
            else { s.mc with inSync := false }
          out := { s.begun.out with ssrOut := s.ssr }
          status := classify s.cfg.ssr s.ssr mask
          seq := .idle })
    ∧ (hasError s.cfg.ssr s.ssr = true → s.busIsLocked = false →
      exec (.checkLastSsrErrors mask) s = .next { s.begun with
        mc := { s.mc with inSync := false }
        out := { s.begun.out with ssrOut := s.ssr }
        status := classify s.cfg.ssr s.ssr mask
        seq := .idle })

/-! ## Sessions -/

/-- The key a `SESSION_OPEN` uses (R141, R143): the explicit one, or the one the key manager holds for a section
KID. -/
def opensWith (s : State) (k : Byte) (hasKey : Bool) (key : Bytes) : Prop :=
  if hasKey then key = fit s.cfg.keyBytes s.latch.kbuf
  else k.toNat / 16 ≤ 1 ∧ getKey s (k.toNat % 16) (k.toNat / 16 == 1) = some key

/-- The transaction of a handshake (R142): its CTAG, the nonce and the signature, no response. -/
def asksSession (s : State) (k : Byte) (mode : BitVec 16) (key : Bytes) (includeWid : Bool) (x : Transaction) : Prop :=
  x.ctag = mkCtag s.cfg.wire.sessionOpen k mode
    ∧ x.payload = nonceOf s.env.prng ++ (sessionSecrets s key includeWid x.ctag).2 ∧ x.response = []

/-- R142, R143: `SESSION_OPEN` that the device accepts: nonce, then tick, then derivation over the value the tick
returned, then the frame; the three key registers take the session key and `kid` the KID. Rests on the spec's own
decision D26, and on log 6, 7, 19. -/
def Obligations.SessionOpenRuns : Prop :=
  ∀ (s : State) (k : Byte) (hasKey includeWid ignoreScr : Bool) (key : Bytes) (x : Transaction)
    (rest : List Answer),
    let r := sessionOf s.cfg key x.ctag (tickValue s) s.mc.dmc (nonceOf s.env.prng)
      (if includeWid then some s.conf.wid else none)
    s.busIsLocked = true → kidOk s k = true → canTick s = true →
    (if hasKey then key = fit s.cfg.keyBytes s.latch.kbuf
      else k.toNat / 16 ≤ 1 ∧ getKey s (k.toNat % 16) (k.toNat / 16 == 1) = some key) →
    x.ctag = mkCtag s.cfg.wire.sessionOpen k (modeFlags includeWid ignoreScr) →
    x.payload = nonceOf s.env.prng ++ r.2 → x.response = [] → x.clean s.cfg = true →
    sesReady s.cfg.ssr (x.final s.cfg) = true → ssrKid s.cfg.ssr (x.final s.cfg) = k →
    s.env.answers = x.answers s.cfg ++ rest →
    exec (.sessionOpen k hasKey includeWid ignoreScr) s = .next
      { (((s.begun.drawn .nonce).ticked.called [.deriveSession]).transacted x rest).withKeys r.1 with
        kid := k, status := .ok, seq := .idle }

/-- R147: `SESSION_CLOSE` without revocation that the device follows: a handshake with the zero key, no error bit
and no session left; the keys are wiped and `kid` is invalid. Rests on the spec's own decisions D22, D27, and on
log 6, 7, 19. -/
def Obligations.SessionCloseRuns : Prop :=
  ∀ (s : State) (k : Byte) (x : Transaction) (rest : List Answer),
    let r := sessionOf s.cfg (List.replicate s.cfg.keyBytes 0) x.ctag (tickValue s) s.mc.dmc (nonceOf s.env.prng) none
    s.busIsLocked = true → kidOk s k = true → canTick s = true →
    x.ctag = mkCtag s.cfg.wire.sessionOpen k 0 → x.payload = nonceOf s.env.prng ++ r.2 → x.response = [] →
    x.clean s.cfg = true → sesReady s.cfg.ssr (x.final s.cfg) = false →
    s.env.answers = x.answers s.cfg ++ rest →
    exec (.sessionClose k) s = .next
      { (((s.begun.drawn .nonce).ticked.called [.deriveSession]).transacted x rest).wipeKeys with
        kid := 0xFF, status := .ok, seq := .idle }

/-- R143, R147, R344: a handshake that meets no error and ends in the wrong readiness: `SESSION_OPEN` with
`SES_READY` 0 or another KID in the status word, and `SESSION_CLOSE` with `SES_READY` still 1, end with
`SYSTEM_IN_INCORRECT_STATE`, the keys wiped and `kid` invalid. Rests on the spec's own decisions D26, D27, and on
log 3, 6, 7, 19. -/
def Obligations.SessionMismatchRefused : Prop :=
  ∀ (s : State) (k : Byte) (x : Transaction) (rest : List Answer),
    s.busIsLocked = true → kidOk s k = true → canTick s = true → x.clean s.cfg = true →
    s.env.answers = x.answers s.cfg ++ rest →
    (∀ (hasKey includeWid ignoreScr : Bool) (key : Bytes), opensWith s k hasKey key →
      asksSession s k (modeFlags includeWid ignoreScr) key includeWid x →
      ¬ (sesReady s.cfg.ssr (x.final s.cfg) = true ∧ ssrKid s.cfg.ssr (x.final s.cfg) = k) →
      exec (.sessionOpen k hasKey includeWid ignoreScr) s
        = .next ((s.begun.handshaken x rest).closed .systemInIncorrectState))
    ∧ (asksSession s k 0 (List.replicate s.cfg.keyBytes 0) false x → sesReady s.cfg.ssr (x.final s.cfg) = true →
      exec (.sessionClose k) s = .next ((s.begun.handshaken x rest).closed .systemInIncorrectState))

/-- R146, R148: `SESSION_CLOSE` with revocation: init plain access with a tick, then the section's flag is cleared
and `kid` is invalid; the keys stay. Rests on the spec's own decisions D27, D28, and on log 3. -/
def Obligations.RevokePlainAccessRuns : Prop :=
  ∀ (s : State) (k : Byte) (x : Transaction) (rest : List Answer),
    s.busIsLocked = true → kidOk s k = true → k.toNat / 16 ≤ 1 → canTick s = true →
    x.ctag = mkCtag s.cfg.wire.initPa (k &&& 0x0F) 0 → x.payload = [] → x.response = [] → x.clean s.cfg = true →
    s.env.answers = x.answers s.cfg ++ rest →
    exec (.sessionCloseRevoke k) s = .next { s.begun.ticked.transacted x rest with
      kid := 0xFF
      conf := { s.conf with paEnabled := s.conf.paEnabled &&& ~~~(BitVec.twoPow 16 (k.toNat % 16)) }
      status := .ok
      seq := .idle }

/-- R30: after any `SESSION_OPEN` that ends with a status other than `OK`, and after any `SESSION_CLOSE` without
revocation whatever its status, the keys are wiped and `kid` is invalid; unless a parameter or connection check
refused it, which changes nothing. -/
def Obligations.KeysWipedAfterSessionEnd : Prop :=
  ∀ (s t : State) (k : Byte), t.seq = .idle →
    (∀ a b c, exec (.sessionOpen k a b c) s = .next t → t.status ≠ .ok →
      Wiped t ∨ ((t.status = .notConnected ∨ t.status = .parameterErr)
        ∧ t = { s with status := t.status, seq := .idle }))
    ∧ (exec (.sessionClose k) s = .next t →
      Wiped t ∨ ((t.status = .notConnected ∨ t.status = .parameterErr)
        ∧ t = { s with status := t.status, seq := .idle }))

/-- R25, R354: `kid` changes to another KID only through the session operations; anything else leaves it or
invalidates it. Rests on the spec's own decisions D7, D42. -/
def Obligations.OnlySessionOpsChangeKid : Prop :=
  ∀ (i : Instr) (s t : State), exec i s = .next t →
    (∀ k a b c, i ≠ .sessionOpen k a b c) → (∀ k, i ≠ .sessionClose k) →
    t.kid = s.kid ∨ t.kid = 0xFF

/-! ## Setters -/

/-- R162: `SIGN_DATA` signs the data, zero-padded to a page, in the current context, with the key refreshed or as
it is; no connection, no exchange, no tick. Rests on the spec's own decision D17, and on log 7. -/
def Obligations.SignDataRuns : Prop :=
  ∀ (s : State) (refresh : Bool) (ctag : Word) (size : BitVec 16), size.toNat ≤ 32 →
    exec (.signData refresh ctag size) s = .next { s.begun.signed ctag (dataOperand s size) refresh with
      out := { s.begun.out with sigOut := signature s ctag (dataOperand s size) refresh }
      status := .ok
      seq := .idle }

/-- R163, R386: `PREPARE_SIGNED_SETTER` signs the plain CTAG and data first and then encrypts what is asked for.
Rests on the spec's own decisions D17, D32, and on log 7, 10. -/
def Obligations.PrepareSetterRuns : Prop :=
  ∀ (s : State) (encData encAddr : Bool) (ctag : Word) (size : BitVec 16),
    size.toNat ≤ 32 → (encData = true → size.toNat = 32) →
    exec (.prepareSignedSetter encData encAddr ctag size) s = .next
      { s.begun.prepared ctag (dataOperand s size) encData encAddr with
        out := { s.begun.out with
          ctagOut := sentCtag s encAddr ctag
          sigOut := signature s ctag (dataOperand s size) true
          rbuf := sentData s encData (dataOperand s size) }
        status := .ok
        seq := .idle }

/-- R164: `EXECUTE_SIGNED_SETTER` that meets no error: one tick, the preparation, one transaction that carries the
prepared data and the signature. Rests on the spec's own decision D32, and on log 3, 7. -/
def Obligations.ExecuteSetterRuns : Prop :=
  ∀ (s : State) (encData encAddr : Bool) (ctag mask : Word) (size : BitVec 16) (x : Transaction)
    (rest : List Answer),
    s.busIsLocked = true → canTick s = true → size.toNat ≤ 32 → (encData = true → size.toNat = 32) →
    sendsSetter s.begun.ticked ctag (dataOperand s size) encData encAddr x → x.clean s.cfg = true →
    s.env.answers = x.answers s.cfg ++ rest →
    exec (.executeSignedSetter encData encAddr ctag size mask) s
      = .next (s.begun.setterDone ctag (dataOperand s size) encData encAddr x rest)

/-- R310, R311, R343: when the device answers the setter with an error bit, the status is the classification of
that word under the mask, `ssrOut` is that word, and the counter is what the forced fetch read. Rests on the
spec's own decision D20, and on log 9. -/
def Obligations.SetterDeviceError : Prop :=
  ∀ (s : State) (encData encAddr : Bool) (ctag mask : Word) (size : BitVec 16) (x y : Transaction)
    (tc dmc : Word) (rest : List Answer),
    s.busIsLocked = true → canTick s = true → size.toNat ≤ 32 → (encData = true → size.toNat = 32) →
    sendsSetter s.begun.ticked ctag (dataOperand s size) encData encAddr x →
    x.good s.cfg = true → hasError s.cfg.ssr (x.final s.cfg) = true →
    readsCounter s y tc dmc → mcValid tc dmc = true →
    s.env.answers = x.answers s.cfg ++ y.answers s.cfg ++ rest →
    ∃ t, exec (.executeSignedSetter encData encAddr ctag size mask) s = .next t
      ∧ t.status = classify s.cfg.ssr (x.final s.cfg) mask ∧ t.seq = .idle
      ∧ t.out.ssrOut = x.final s.cfg ∧ t.ssr = y.final s.cfg
      ∧ t.mc = { tc := tc, dmc := dmc, inSync := !s.cfg.errorClearsInSync }
      ∧ t.kid = s.kid ∧ t.sessionKey = s.sessionKey ∧ t.conf = s.conf ∧ t.busIsLocked = true
      ∧ t.ctxIdx = s.ctxIdx ∧ t.ctx (!s.ctxIdx) = s.ctx (!s.ctxIdx) ∧ t.env.answers = rest

/-- R165 to R173: the named setters, each an execution of the generic one with its own CTAG, nothing encrypted.
Rests on the spec's own decisions D30, D32, and on log 3. -/
def Obligations.NamedSettersRun : Prop :=
  ∀ (s : State) (size : BitVec 16) (k sect : Byte) (chainInitPa chainReset : Bool) (x : Transaction)
    (rest : List Answer) (i : Instr) (opc param : Byte) (mode : BitVec 16),
    (i, opc, param, mode) ∈
      [(.setKey k size, s.cfg.wire.setKey, k, 0), (.setSuid size, s.cfg.wire.setSuid, 0, 0),
        (.setGmc size, s.cfg.wire.setGmc, 0, 0), (.setGmt size, s.cfg.wire.setGmt, 0, 0),
        (.setAwdt size, s.cfg.wire.setAwdt, 0, 0),
        (.setScr chainInitPa chainReset size sect, s.cfg.wire.setScr, sect, modeFlags chainInitPa chainReset),
        (.setRstResp size, s.cfg.wire.setRstResp, 0, 0), (.setAclr size, s.cfg.wire.setAclr, 0, 0)] →
    s.busIsLocked = true → canTick s = true → size.toNat ≤ 32 → kidOk s k = true →
    sect.toNat < s.cfg.numSections →
    sendsSetter s.begun.ticked (mkCtag opc param mode) (dataOperand s size) false false x → x.clean s.cfg = true →
    s.env.answers = x.answers s.cfg ++ rest →
    exec i s = .next (s.begun.setterDone (mkCtag opc param mode) (dataOperand s size) false false x rest)

/-- The only error bit of a status word (R100). -/
def onlyError (L : Config.SsrLayout) (v : Word) (p : Nat) : Prop :=
  ∀ q ∈ errorPositions L, v.getLsbD q = decide (q = p)

/-- R143, R147, R165, R311, R313: the masks where they decide. An integrity error alone is tolerated by
`SESSION_OPEN` of a full-access KID and refused for every other KID; `SESSION_CLOSE` tolerates every error bit; an
'ignored' error alone is tolerated by `SET_KEY` and refused by every other named setter. The counter is fetched
whether the error is tolerated or not. Rests on the spec's own decisions D20, D22, D26, D27, and on log 3, 6, 7,
9, 19, 22. -/
def Obligations.ToleratedErrorsPass : Prop :=
  ∀ (s : State) (x y : Transaction) (tc dmc : Word) (rest : List Answer),
    let v := x.final s.cfg
    let later := y.answers s.cfg ++ rest
    paramsWf s.cfg = true → s.busIsLocked = true → canTick s = true → x.good s.cfg = true →
    readsCounter s y tc dmc → mcValid tc dmc = true → s.env.answers = x.answers s.cfg ++ later →
    (∀ (k : Byte) (hasKey includeWid ignoreScr : Bool) (key : Bytes),
      kidOk s k = true → opensWith s k hasKey key → asksSession s k (modeFlags includeWid ignoreScr) key includeWid x →
      onlyError s.cfg.ssr v s.cfg.ssr.intgErr → sesReady s.cfg.ssr v = true → ssrKid s.cfg.ssr v = k →
      exec (.sessionOpen k hasKey includeWid ignoreScr) s = .next
        (if k.toNat / 16 = 1 then
          { ((s.begun.handshaken x later).refetched y tc dmc rest).withKeys (sessionSecrets s key includeWid x.ctag).1 with
            kid := k, status := .ok, seq := .idle }
        else ((s.begun.handshaken x later).refetched y tc dmc rest).closed .deviceIntegrityErr))
    ∧ (∀ (k : Byte), kidOk s k = true → asksSession s k 0 (List.replicate s.cfg.keyBytes 0) false x →
      hasError s.cfg.ssr v = true → sesReady s.cfg.ssr v = false →
      exec (.sessionClose k) s = .next (((s.begun.handshaken x later).refetched y tc dmc rest).closed .ok))
    ∧ (∀ (size : BitVec 16) (k sect : Byte) (chainInitPa chainReset : Bool) (i : Instr) (opc param : Byte)
        (mode : BitVec 16) (st : Status),
      (i, opc, param, mode, st) ∈
        [(.setKey k size, s.cfg.wire.setKey, k, 0, .ok), (.setSuid size, s.cfg.wire.setSuid, 0, 0, .commandIgnored),
          (.setGmc size, s.cfg.wire.setGmc, 0, 0, .commandIgnored),
          (.setGmt size, s.cfg.wire.setGmt, 0, 0, .commandIgnored),
          (.setAwdt size, s.cfg.wire.setAwdt, 0, 0, .commandIgnored),
          (.setScr chainInitPa chainReset size sect, s.cfg.wire.setScr, sect, modeFlags chainInitPa chainReset,
            .commandIgnored),
          (.setRstResp size, s.cfg.wire.setRstResp, 0, 0, .commandIgnored),
          (.setAclr size, s.cfg.wire.setAclr, 0, 0, .commandIgnored)] →
      size.toNat ≤ 32 → kidOk s k = true → sect.toNat < s.cfg.numSections →
      sendsSetter s.begun.ticked (mkCtag opc param mode) (dataOperand s size) false false x →
      onlyError s.cfg.ssr v s.cfg.ssr.ignoreErr →
      exec i s = .next (complete st
        (((s.begun.ticked.prepared (mkCtag opc param mode) (dataOperand s size) false false).transacted x
          later).refetched y tc dmc rest)))

/-- R295 to R298: a section-config set that succeeds chains an init plain access and a device reset, as its flags
ask, whichever operation sends it: the init comes first and makes the counter copy untrusted, the reset ends the
local session. Rests on the spec's own decisions D28, D29, D30, D32, D45, and on log 3, 7, 8, 15. -/
def Obligations.SetScrChains : Prop :=
  ∀ (s : State) (x : Transaction) (v : Wait) (rest : List Answer),
    s.busIsLocked = true → x.sound s.cfg = true → x.chains s.cfg = true → v.good s.cfg.ssr = true →
    s.env.answers = x.answers s.cfg ++ x.chainAnswers v ++ rest →
    let raw := { s.begun.transactedChain x v rest with
      out := { (s.begun.transactedChain x v rest).out with
        rbuf := if x.response = [] then s.begun.out.rbuf else x.response }
      status := .ok
      seq := .idle }
    (∀ (size : BitVec 16) (n : Word), x.payload = dataOperand s size → x.response.length = n.toNat →
      exec (.tmSecure true x.ctag size n) s = .next raw)
    ∧ (∀ (param : Byte) (mode : BitVec 16),
      wireFrame s (.opcSetScr param mode) = some (x.ctag, x.payload, x.response.length) →
      exec (.opcSetScr param mode) s = .next raw)
    ∧ (canTick s = true → (x.ctag.getLsbD 16 = true → hasError s.cfg.ssr v.last = false) →
      ∀ (ctag : Word) (size : BitVec 16) (encData encAddr : Bool), size.toNat ≤ 32 →
        (encData = true → size.toNat = 32) →
        sendsSetter s.begun.ticked ctag (dataOperand s size) encData encAddr x →
        let done := complete .ok
          ((s.begun.ticked.prepared ctag (dataOperand s size) encData encAddr).transactedChain x v rest)
        (∀ mask : Word, exec (.executeSignedSetter encData encAddr ctag size mask) s = .next done)
        ∧ ∀ (initPa reset : Bool) (sect : Byte), sect.toNat < s.cfg.numSections → encData = false → encAddr = false →
          ctag = mkCtag s.cfg.wire.setScr sect (modeFlags initPa reset) →
          exec (.setScr initPa reset size sect) s = .next done)

/-- R316, R317: at the end of the counter's range every consumer of a tick is refused with `DEVICE_MC_ERR` and
sends nothing; a random draw made before the tick stays made, and a session operation ends with the keys wiped and
no session. Rests on the spec's own decisions D15, D16, and on log 6, 8. -/
def Obligations.CounterEndRefused : Prop :=
  ∀ (s : State) (i : Instr), ¬ badOperands s i →
    s.busIsLocked = true → s.mc.inSync = true → 0xFFFFFFFF ≤ s.mc.tc.toNat + 1 →
    (ticksFirst i = true → exec i s = .next { s.begun with status := .deviceMcErr, seq := .idle })
    ∧ (drawsAddress i = true →
      exec i s = .next { s.begun.drawn .randomBits with status := .deviceMcErr, seq := .idle })
    ∧ (drawsNonce i = true → exec i s = .next ((s.begun.drawn .nonce).closed .deviceMcErr))

/-! ## Writes and erases -/

/-- R224 to R230: the secure write and the erases, each the generic setter: the address randomised by one draw,
signed, then encrypted; the data of the write encrypted too; section and chip erase carry no address. Rests on the
spec's own decisions D13, D48, and on log 6, 7. -/
def Obligations.WritesAndErasesRun : Prop :=
  ∀ (s : State) (a : Word) (size : BitVec 16) (sect : Byte) (x : Transaction) (rest : List Answer),
    s.busIsLocked = true → canTick s = true → x.clean s.cfg = true →
    s.env.answers = x.answers s.cfg ++ rest →
    (a.toNat < 2 ^ 24 → a.toNat % 32 = 0 →
      (size.toNat = 32 →
        let ctag := mkCtagAddr s.cfg.wire.sawr ((randomAddr s a).setWidth 24)
        sendsSetter s.begun.ticked ctag (dataOperand s size) true true x →
        exec (.sawr a size) s
          = .next ((s.begun.drawn .randomBits).setterDone ctag (dataOperand s size) true true x rest))
      ∧ ∀ i opc, (i, opc) ∈ [(Instr.serase4k a, s.cfg.wire.erase4k), (.serase32k a, s.cfg.wire.erase32k),
          (.serase64k a, s.cfg.wire.erase64k)] →
        let ctag := mkCtagAddr opc ((randomAddr s a).setWidth 24)
        sendsSetter s.begun.ticked ctag [] false true x →
        exec i s = .next ((s.begun.drawn .randomBits).setterDone ctag [] false true x rest))
    ∧ (sect.toNat < s.cfg.numSections →
      sendsSetter s.begun.ticked (mkCtag s.cfg.wire.eraseSection sect 0) [] false false x →
      exec (.seraseSection sect) s
        = .next (s.begun.setterDone (mkCtag s.cfg.wire.eraseSection sect 0) [] false false x rest))
    ∧ (sendsSetter s.begun.ticked (mkCtag s.cfg.wire.eraseChip 0 0) [] false false x →
      exec .seraseChip s = .next (s.begun.setterDone (mkCtag s.cfg.wire.eraseChip 0 0) [] false false x rest))

/-! ## Signed getters -/

/-- The transaction of a signed getter (R180): its CTAG, no payload, an envelope of 44 bytes. -/
def asksSigned (s : State) (dtype sect : Byte) (x : Transaction) : Prop :=
  x.ctag = calcSigCtag s.cfg dtype sect ∧ x.payload = [] ∧ x.response.length = 44
    ∧ x.clean s.cfg = true

/-- The data of an envelope (R107, R180): the first `size` bytes of its data field. -/
def envelopeData (r : Bytes) (size : Nat) : Bytes := (r.drop 4).take size

/-- The state of a signed getter whose signature has been computed (R180). -/
def getterState (s : State) (x : Transaction) (size : Nat) (rest : List Answer) : State :=
  (s.begun.ticked.transacted x rest).signed x.ctag (envelopeData x.response size) true

/-- R180 to R189: `CALC_SIG` and the named getters over it, when the envelope is signed and fresh: data and
signature are delivered; nothing of them enters `ssr` or the counter. Rests on the spec's own decision D33, and on
log 3, 8, 26. -/
def Obligations.SignedGettersRun : Prop :=
  ∀ (s : State) (size : BitVec 16) (sect dtype : Byte) (x : Transaction) (rest : List Answer) (i : Instr)
    (dt : Byte) (sec : Byte),
    (i, dt, sec) ∈
      [(.getWid size, 1, 0), (.getSuid size, 2, 0), (.getSsrSigned size, 3, 0), (.getGmc size, 4, 0),
        (.getGmt size, 5, 0), (.getAwdt size, 6, 0), (.getScr size sect, 7, sect), (.getHwVer size, 8, 0),
        (.getMcSigned size, 9, 0), (.calcSig size sect dtype, dtype, sect)] →
    s.busIsLocked = true → canTick s = true → size.toNat ≤ 32 → sec.toNat < s.cfg.numSections →
    1 ≤ dtype.toNat → dtype.toNat ≤ 9 →
    asksSigned s dt sec x → s.env.answers = x.answers s.cfg ++ rest →
    x.response.drop 36 = signature s.begun.ticked x.ctag (envelopeData x.response size.toNat) true →
    rd32 x.response = s.mc.tc →
    exec i s = .next { getterState s x size.toNat rest with
      out := { s.begun.out with
        ssrOut := x.final s.cfg, rbuf := envelopeData x.response size.toNat, sigOut := x.response.drop 36 }
      status := .ok
      seq := .idle }

/-- R180 to R189, R344: a signed getter, `CALC_SIG` or a named one, whose envelope does not carry the expected
signature ends with `SECURITY_ERR`; one that is signed but does not echo the counter before its tick ends with
`SYSTEM_IN_INCORRECT_STATE`. Nothing is delivered. Rests on the spec's own decisions D33, D34, and on log 3, 8,
26. -/
def Obligations.GetterRejectsBadEnvelope : Prop :=
  ∀ (s : State) (size : BitVec 16) (sect dtype : Byte) (x : Transaction) (rest : List Answer) (i : Instr)
    (dt : Byte) (sec : Byte),
    (i, dt, sec) ∈
      [(.getWid size, 1, 0), (.getSuid size, 2, 0), (.getSsrSigned size, 3, 0), (.getGmc size, 4, 0),
        (.getGmt size, 5, 0), (.getAwdt size, 6, 0), (.getScr size sect, 7, sect), (.getHwVer size, 8, 0),
        (.getMcSigned size, 9, 0), (.calcSig size sect dtype, dtype, sect)] →
    s.busIsLocked = true → canTick s = true → size.toNat ≤ 32 → sec.toNat < s.cfg.numSections →
    1 ≤ dtype.toNat → dtype.toNat ≤ 9 →
    asksSigned s dt sec x → s.env.answers = x.answers s.cfg ++ rest →
    let good := x.response.drop 36 = signature s.begun.ticked x.ctag (envelopeData x.response size.toNat) true
    (¬ good →
      exec i s = .next { getterState s x size.toNat rest with status := .securityErr, seq := .idle })
    ∧ (good → rd32 x.response ≠ s.mc.tc →
      exec i s = .next { getterState s x size.toNat rest with status := .systemInIncorrectState, seq := .idle })

/-- R180, R344: whatever the device does, a `CALC_SIG` that completes with `OK` has delivered a signature that is
the expected one over the delivered data. Rests on the spec's own decision D33, and on log 22, 26. -/
def Obligations.GetterOnlyDeliversSigned : Prop :=
  ∀ (s t : State) (size : BitVec 16) (sect dtype : Byte), paramsWf s.cfg = true →
    exec (.calcSig size sect dtype) s = .next t → t.seq = .idle → t.status = .ok → t.busIsLocked = true →
    t.out.sigOut = signatureOf (t.ctx t.ctxIdx).ssk t.kid
      (calcSigCtag s.cfg dtype sect) (padPage t.out.rbuf)

/-! ## Page reads -/

/-- The transaction of a page read in the current context (R221). -/
def asksPage (s : State) (opc : Byte) (a : Word) (len : Nat) (x : Transaction) : Prop :=
  x.ctag = readCtag s opc a s.ctxIdx ∧ x.payload = [] ∧ x.response.length = len ∧ x.clean s.cfg = true

/-- R221, R222: `SRD` of a page whose response is fresh: one draw, one tick, the three derivations, one
transaction, the decrypted page in `rbuf`. Rests on the spec's own decisions D13, D34, and on log 6, 7, 19. -/
def Obligations.SecureReadRuns : Prop :=
  ∀ (s : State) (a : Word) (x : Transaction) (rest : List Answer),
    s.busIsLocked = true → canTick s = true → a.toNat < 2 ^ 24 → a.toNat % 32 = 0 →
    asksPage s s.cfg.wire.srd a 36 x → s.env.answers = x.answers s.cfg ++ rest →
    rd32 x.response = tickValue s - 1 →
    exec (.srd a) s = .next
      { ((s.begun.readPrepared s.cfg.wire.srd a s.ctxIdx).transacted x rest).called [.cipher] with
        out := { s.begun.out with ssrOut := x.final s.cfg, rbuf := plaintext s s.ctxIdx x.response }
        status := .ok
        seq := .idle }

/-- R223: `SARD` of a page whose response is fresh: the signature over the unrandomised address and the plaintext
decides between the page with `OK` and a page of zeros with `SECURITY_ERR`. Rests on the spec's own decisions D13,
D34, and on log 6, 7, 19. -/
def Obligations.AuthenticatedReadRuns : Prop :=
  ∀ (s : State) (a : Word) (x : Transaction) (rest : List Answer),
    s.busIsLocked = true → canTick s = true → a.toNat < 2 ^ 24 → a.toNat % 32 = 0 →
    asksPage s s.cfg.wire.sard a 44 x → s.env.answers = x.answers s.cfg ++ rest →
    rd32 x.response = tickValue s - 1 →
    let good := x.response.drop 36 = pageSignature s s.cfg.wire.sard a s.ctxIdx x.response
    let u := (s.begun.readPrepared s.cfg.wire.sard a s.ctxIdx).transacted x rest
    exec (.sard a) s = .next
      { (u.withCtx s.ctxIdx { u.ctx s.ctxIdx with
          sctag := mkCtagAddr s.cfg.wire.sard (a.setWidth 24)
          sdata := plaintext s s.ctxIdx x.response }).called [.cipher, .calcAuthSignature] with
        out := { s.begun.out with
          ssrOut := x.final s.cfg
          rbuf := if good then plaintext s s.ctxIdx x.response else List.replicate 32 0 }
        status := if good then .ok else .securityErr
        seq := .idle }

/-- R222, R223, R344: a page response that does not echo the counter one below the value its tick returned ends
the read with `SYSTEM_IN_INCORRECT_STATE`, before decryption and before the signature check. Rests on the spec's
own decision D34, and on log 8, 19. -/
def Obligations.StalePageRefused : Prop :=
  ∀ (s : State) (a : Word) (x : Transaction) (rest : List Answer) (i : Instr) (opc : Byte) (len : Nat),
    (i, opc, len) ∈ [(.srd a, s.cfg.wire.srd, 36), (.sard a, s.cfg.wire.sard, 44)] →
    s.busIsLocked = true → canTick s = true → a.toNat < 2 ^ 24 → a.toNat % 32 = 0 →
    asksPage s opc a len x → s.env.answers = x.answers s.cfg ++ rest →
    rd32 x.response ≠ tickValue s - 1 →
    exec i s = .next { (s.begun.readPrepared opc a s.ctxIdx).transacted x rest with
      status := .systemInIncorrectState, seq := .idle }

/-- R223, R344, R393: whatever the device does, an authenticated read that ends with `OK` has delivered pages
whose signatures over the unrandomised address and the plaintext are the expected ones, each the decryption of the
response read for it: the one page of `SARD`, every page of `SARD_MULTI`. A `SARD` that ends with `SECURITY_ERR`
read one response, found that signature wrong and leaves a page of zeros. Rests on the spec's own decisions D34,
D35, and on log 3, 7, 8, 19, 22. -/
def Obligations.ForgedPageNeverDelivered : Prop :=
  (∀ (s t : State) (a : Word), exec (.sard a) s = .next t → t.seq = .idle → t.status = .securityErr →
    t.out.rbuf = List.replicate 32 0)
  ∧ (∀ (s t : State) (a : Word), paramsWf s.cfg = true → exec (.sard a) s = .next t → t.seq = .idle →
    t.status = .ok ∧ t.busIsLocked = true ∨ t.status = .securityErr →
    ∃ new base p, t.env.trace = new ++ s.env.trace ∧ firstTick s new base
      ∧ (responses s.cfg 44 new).length = 1 ∧ signaturesMade new = 1
      ∧ pageChecked s s.cfg.wire.sard a new base 0 p (t.status == .ok)
      ∧ t.out.rbuf = if t.status = .ok then p else List.replicate 32 0)
  ∧ ∀ (s t : State) (a size : Word), paramsWf s.cfg = true → exec (.sardMulti a size) s = .next t → t.seq = .idle →
    t.status = .ok → t.busIsLocked = true →
    ∃ new base, t.env.trace = new ++ s.env.trace ∧ firstTick s new base
      ∧ (responses s.cfg 44 new).length = size.toNat / 32 ∧ signaturesMade new = size.toNat / 32
      ∧ t.out.rbuf.length = size.toNat
      ∧ ∀ n < size.toNat / 32, pageChecked s s.cfg.wire.sard a new base n (pageOfBuffer t.out.rbuf n) true

/-- How a multi-block read of these pages ends when each is in order (R253, R254): the plaintexts delivered, the last
page's final status word in `ssr` and `ssrOut`, one tick and one draw a page, the contexts alternated, the rest as it
was. -/
def multiDone (s t : State) (pages : List PageAnswer) (rest : List Answer) : Prop :=
  t.status = .ok ∧ t.seq = .idle ∧ t.out.rbuf = pagesData s s.ctxIdx pages
    ∧ t.mc = { s.mc with tc := s.mc.tc + BitVec.ofNat 32 pages.length }
    ∧ t.ctxIdx = (s.ctxIdx ^^ (pages.length % 2 == 0)) ∧ t.env.prng = s.env.prng + pages.length
    ∧ t.inFlight = false ∧ t.env.answers = rest
    ∧ (∀ p ∈ pages.getLast?, t.ssr = p.wait.last ∧ t.out.ssrOut = p.wait.last)
    ∧ t.kid = s.kid ∧ t.sessionKey = s.sessionKey ∧ t.ctx0.key = s.ctx0.key ∧ t.ctx1.key = s.ctx1.key
    ∧ t.conf = s.conf ∧ t.busIsLocked = s.busIsLocked ∧ t.atomic = s.atomic ∧ t.cfg = s.cfg
    ∧ t.inp = s.inp ∧ t.latch = s.latch

/-- R253 to R256, R258, R259: a multi-block read of any number of pages, each answered in order: the plaintexts in
page order, one tick and one draw a page, the contexts alternating. Its events are exactly those of the pipeline:
page by page the OP1 with the CTAG of that page, its own address encrypted with the key of its own tick and
context, and no payload; the polls; the OP2 of the response's whole length; the command of page N+1 after the
response of page N. Rests on the spec's own decision D36, and on log 3, 6, 7, 19, 22. -/
def Obligations.MultiBlockReadsRun : Prop :=
  ∀ (s : State) (a size : Word) (i : Instr) (m : MultiRead) (pages : List PageAnswer) (rest : List Answer),
    (i, m) ∈ [(.srdMulti a size, ⟨s.cfg.wire.srd, 36, false, size.toNat⟩),
      (.sardMulti a size, ⟨s.cfg.wire.sard, 44, true, size.toNat⟩)] →
    s.busIsLocked = true → a.toNat % 32 = 0 → size.toNat = 32 * pages.length → pages ≠ [] →
    a.toNat + size.toNat ≤ 2 ^ 24 → s.mc.inSync = true → s.mc.tc.toNat + pages.length < 0xFFFFFFFF →
    paramsWf s.cfg = true → pagesGood s m a s.ctxIdx pages →
    s.env.answers = .bytes [] :: pageAnswers pages ++ rest →
    ∃ t, exec i s = .next t ∧ multiDone s t pages rest
      ∧ t.env.trace = (prepEvents ++ pipelineEvents s m a pages).reverse ++ s.env.trace

/-- A multi-block read of `size` bytes from `a` that its boundary checks pass, that reaches page `k` and has a tick left
for it and the next page (R251, R316). -/
def readsPages (s : State) (a size : Word) (k : Nat) : Prop :=
  paramsWf s.cfg = true ∧ s.busIsLocked = true ∧ a.toNat % 32 = 0 ∧ size.toNat % 32 = 0 ∧ 32 * k < size.toNat
    ∧ a.toNat + size.toNat ≤ 2 ^ 24 ∧ s.mc.inSync = true ∧ s.mc.tc.toNat + k + 2 < 0xFFFFFFFF

/-- The device answers a page with a whole response. -/
def pageArrives (s : State) (m : MultiRead) (p : PageAnswer) : Prop :=
  p.wait.good s.cfg.ssr = true ∧ respReady s.cfg.ssr p.wait.last = true ∧ p.response.length = m.len

/-- How a multi-block read that prepared `n` pages and was aborted leaves the block (R252, R254, R257): no command in
flight, `ctxIdx` at the last context prepared, a draw for each page prepared, the session and the lock as they were. -/
def readAborted (s t : State) (n : Nat) (rest : List Answer) : Prop :=
  t.seq = .idle ∧ t.inFlight = false ∧ t.ctxIdx = s.pageSlot (n - 1) ∧ t.env.prng = s.env.prng + n
    ∧ t.env.answers = rest ∧ t.kid = s.kid ∧ t.sessionKey = s.sessionKey ∧ t.ctx0.key = s.ctx0.key
    ∧ t.ctx1.key = s.ctx1.key ∧ t.conf = s.conf ∧ t.busIsLocked = s.busIsLocked ∧ t.atomic = s.atomic

/-- R315, R316, R317: the first consumer of an untrusted counter. It reads the counter unsigned and goes on as
with a trusted one: for those that draw nothing first, the outcome is that of the same operation after the
synchronisation; for the others the draw comes before the unsigned read, and the outcome is written out. Rests on
the spec's own decisions D11, D15, D16, D36, and on log 3, 6, 7, 19, 22. -/
def Obligations.FirstConsumerSynchronises : Prop :=
  ∀ (s : State) (y : Transaction) (tc dmc : Word) (rest : List Answer),
    s.busIsLocked = true → s.mc.inSync = false → readsCounter s y tc dmc → mcValid tc dmc = true →
    tc.toNat + 1 < 0xFFFFFFFF → s.env.answers = y.answers s.cfg ++ rest →
    let u := s.synced y tc dmc rest
    (∀ (i : Instr) (t : State), ticksFirst i = true → ¬ badOperands s i → t.seq = .idle →
      (exec i s = .next t ↔ exec i u = .next t))
    ∧ (∀ (x : Transaction) (later : List Answer), rest = x.answers s.cfg ++ later → x.clean s.cfg = true →
      let d := (s.begun.drawn .randomBits).synced y tc dmc rest
      let n := ((s.begun.drawn .nonce).synced y tc dmc rest).ticked.called [.deriveSession]
      (∀ k hasKey includeWid ignoreScr key, kidOk s k = true → opensWith s k hasKey key →
        asksSession u k (modeFlags includeWid ignoreScr) key includeWid x →
        sesReady s.cfg.ssr (x.final s.cfg) = true → ssrKid s.cfg.ssr (x.final s.cfg) = k →
        exec (.sessionOpen k hasKey includeWid ignoreScr) s = .next
          { (n.transacted x later).withKeys (sessionSecrets u key includeWid x.ctag).1 with
            kid := k, status := .ok, seq := .idle })
      ∧ (∀ k, kidOk s k = true → asksSession u k 0 (List.replicate s.cfg.keyBytes 0) false x →
        sesReady s.cfg.ssr (x.final s.cfg) = false →
        exec (.sessionClose k) s = .next ((n.transacted x later).closed .ok))
      ∧ ∀ a : Word, a.toNat < 2 ^ 24 → a.toNat % 32 = 0 →
        (∀ size : BitVec 16, size.toNat = 32 →
          let ctag := mkCtagAddr s.cfg.wire.sawr ((randomAddr s a).setWidth 24)
          sendsSetter u.ticked ctag (dataOperand s size) true true x →
          exec (.sawr a size) s = .next (d.setterDone ctag (dataOperand s size) true true x later))
        ∧ (∀ i opc, (i, opc) ∈ [(Instr.serase4k a, s.cfg.wire.erase4k), (.serase32k a, s.cfg.wire.erase32k),
            (.serase64k a, s.cfg.wire.erase64k)] →
          let ctag := mkCtagAddr opc ((randomAddr s a).setWidth 24)
          sendsSetter u.ticked ctag [] false true x → exec i s = .next (d.setterDone ctag [] false true x later))
        ∧ (asksPage u s.cfg.wire.srd a 36 x → rd32 x.response = tickValue u - 1 →
          let v := (s.begun.readPreparedFirst y tc dmc rest s.cfg.wire.srd a s.ctxIdx).transacted x later
          exec (.srd a) s = .next { v.called [.cipher] with
            out := { v.out with rbuf := plaintext u s.ctxIdx x.response }, status := .ok, seq := .idle })
        ∧ (asksPage u s.cfg.wire.sard a 44 x → rd32 x.response = tickValue u - 1 →
          x.response.drop 36 = pageSignature u s.cfg.wire.sard a s.ctxIdx x.response →
          let v := (s.begun.readPreparedFirst y tc dmc rest s.cfg.wire.sard a s.ctxIdx).transacted x later
          exec (.sard a) s = .next
            { (v.withCtx s.ctxIdx { v.ctx s.ctxIdx with
                sctag := mkCtagAddr s.cfg.wire.sard (a.setWidth 24)
                sdata := plaintext u s.ctxIdx x.response }).called [.cipher, .calcAuthSignature] with
              out := { v.out with rbuf := plaintext u s.ctxIdx x.response }, status := .ok, seq := .idle }))
    ∧ ∀ (a size : Word) (i : Instr) (m : MultiRead) (pages : List PageAnswer) (later : List Answer),
      (i, m) ∈ [(.srdMulti a size, ⟨s.cfg.wire.srd, 36, false, size.toNat⟩),
        (.sardMulti a size, ⟨s.cfg.wire.sard, 44, true, size.toNat⟩)] →
      a.toNat % 32 = 0 → size.toNat = 32 * pages.length → pages ≠ [] → a.toNat + size.toNat ≤ 2 ^ 24 →
      tc.toNat + pages.length < 0xFFFFFFFF → paramsWf s.cfg = true → pagesGood u m a s.ctxIdx pages →
      rest = .bytes [] :: pageAnswers pages ++ later →
      ∃ t, exec i s = .next t ∧ multiDone u t pages later
        ∧ t.env.trace = (prepEvents.take 1 ++ y.events s ++ prepEvents.drop 1 ++ pipelineEvents u m a pages).reverse
          ++ s.env.trace

/-- R253, R257, R393: a `SARD_MULTI` that ends with `SECURITY_ERR`. Whatever the device does: response `k`, the
`k+1`st page response read and the last one checked, is the one that does not carry its page's signature; `rbuf`
has the requested length; with `MULTI_ZERO` = all it is zero, else page `k` and all later ones are, and each page
before it is the plaintext of its response, whose signature was right. The ticks of the pages follow each other
from the first one. And when `k` pages are in order and page `k` carries a wrong signature, the read ends so, with
those plaintexts. Rests on the spec's own decisions D35, D36, and on log 3, 7, 8, 19, 22. -/
def Obligations.ForgedPagesZeroed : Prop :=
  (∀ (s t : State) (a size : Word), exec (.sardMulti a size) s = .next t → t.seq = .idle → t.status = .securityErr →
    ∃ k new base, t.env.trace = new ++ s.env.trace ∧ 32 * k < size.toNat
      ∧ firstTick s new base
      ∧ (responses s.cfg 44 new).length = k + 1 ∧ signaturesMade new = k + 1
      ∧ (∃ p, pageChecked s s.cfg.wire.sard a new base k p false)
      ∧ t.out.rbuf.length = size.toNat
      ∧ (s.cfg.multiZero = .all → t.out.rbuf = List.replicate size.toNat 0)
      ∧ (s.cfg.multiZero = .remaining → t.out.rbuf.drop (32 * k) = List.replicate (size.toNat - 32 * k) 0
        ∧ ∀ n < k, pageChecked s s.cfg.wire.sard a new base n (pageOfBuffer t.out.rbuf n) true))
  ∧ ∀ (s : State) (a size : Word) (pages : List PageAnswer) (p : PageAnswer) (w : Wait) (rest : List Answer),
    let m : MultiRead := ⟨s.cfg.wire.sard, 44, true, size.toNat⟩
    let k := pages.length
    let more := decide (32 * (k + 1) < size.toNat)
    readsPages s a size k → pagesGood s m a s.ctxIdx pages →
    pageArrives s m p → hasError s.cfg.ssr p.wait.last = false →
    echoedTc p.response = tickValue (s.tickedBy k) - 1 →
    p.response.drop 36 ≠ pageSignature (s.tickedBy k) m.opc (pageAddr a k) (s.pageSlot k) p.response →
    w.good s.cfg.ssr = true →
    s.env.answers = .bytes [] :: passedAnswers pages ++ statusAnswers p.wait.words ++ [.bytes p.response]
      ++ (if more then .bytes [] :: statusAnswers w.words else []) ++ rest →
    ∃ t, exec (.sardMulti a size) s = .next t
      ∧ t.status = .securityErr ∧ readAborted s t (if more then k + 2 else k + 1) rest
      ∧ t.mc = { s.mc with tc := s.mc.tc + BitVec.ofNat 32 (if more then k + 2 else k + 1) }
      ∧ t.out.ssrOut = p.wait.last
      ∧ t.out.rbuf = match s.cfg.multiZero with
        | .remaining => pagesData s s.ctxIdx pages ++ List.replicate (size.toNat - 32 * k) 0
        | .all => List.replicate size.toNat 0

/-- R252, R253, R257, R258: the other aborts of the multi-block reads. Whatever the device does, a read that
starts with no command in flight ends with none. After `k` pages in order: a stale page, a page with a device
error (after the next command was started), and a link failure in its wait, each with the status of its cause; the
command in flight is drained. Rests on the spec's own decisions D18, D24, D34, D36, and on log 3, 7, 9, 19, 22. -/
def Obligations.MultiBlockAbortsDrain : Prop :=
  (∀ (s t : State) (a size : Word) (i : Instr), i ∈ [.srdMulti a size, .sardMulti a size] →
    s.mc.inSync = true → s.inFlight = false → exec i s = .next t → t.seq = .idle → t.inFlight = false)
  ∧ ∀ (s : State) (a size : Word) (i : Instr) (m : MultiRead) (pages : List PageAnswer) (p : PageAnswer) (w : Wait)
      (rest : List Answer),
    (i, m) ∈ [(.srdMulti a size, ⟨s.cfg.wire.srd, 36, false, size.toNat⟩),
      (.sardMulti a size, ⟨s.cfg.wire.sard, 44, true, size.toNat⟩)] →
    let k := pages.length
    let more := decide (32 * (k + 1) < size.toNat)
    let ticks := if more then k + 2 else k + 1
    let v := if respReady s.cfg.ssr p.wait.last then p.wait.last else withSyntheticError s.cfg.ssr p.wait.last
    let sent := .bytes [] :: passedAnswers pages ++ statusAnswers p.wait.words
    let drained := if more then .bytes [] :: statusAnswers w.words else []
    readsPages s a size k → pagesGood s m a s.ctxIdx pages → w.good s.cfg.ssr = true →
    (pageArrives s m p → hasError s.cfg.ssr p.wait.last = false →
      echoedTc p.response ≠ tickValue (s.tickedBy k) - 1 →
      s.env.answers = sent ++ [.bytes p.response] ++ drained ++ rest →
      ∃ t, exec i s = .next t ∧ t.status = .systemInIncorrectState ∧ readAborted s t ticks rest
        ∧ t.mc = { s.mc with tc := s.mc.tc + BitVec.ofNat 32 ticks } ∧ t.out.ssrOut = v)
    ∧ (∀ (y : Transaction) (tc dmc : Word), p.wait.good s.cfg.ssr = true → p.response.length = m.len →
      hasError s.cfg.ssr v = true → readsCounter s y tc dmc → mcValid tc dmc = true →
      s.env.answers = sent ++ (if respReady s.cfg.ssr p.wait.last then [.bytes p.response] else []) ++ drained
        ++ y.answers s.cfg ++ rest →
      ∃ t, exec i s = .next t ∧ t.status = classify s.cfg.ssr v (maskAllErrors s.cfg.ssr) ∧ t.status ≠ .ok
        ∧ readAborted s t ticks rest
        ∧ t.mc = { tc := tc, dmc := dmc, inSync := !s.cfg.errorClearsInSync } ∧ t.out.ssrOut = v)
    ∧ ∀ polls : List Word,
      (∀ q ∈ polls, deadLink q = false ∧ waitOver s.cfg.ssr q = false) →
      s.env.answers = .bytes [] :: passedAnswers pages ++ statusAnswers polls ++ [.linkError]
        ++ statusAnswers w.words ++ rest →
      ∃ t, exec i s = .next t ∧ t.status = .connectivityErr ∧ readAborted s t ticks rest
        ∧ t.mc = { s.mc with tc := s.mc.tc + BitVec.ofNat 32 ticks, inSync := false }

/-! ## The wire commands and the bus commands -/

/-- R108, R110, R298: every wire command of the table, sent as a transaction that nothing disturbs: its own CTAG,
the payload and the response length its rule fixes; the response in `rbuf`, the final status word in `ssrOut`; no
classification and no tick. Rests on the spec's own decisions D8, D10, D11, D45, and on log 15. -/
def Obligations.WireCommandsRun : Prop :=
  ∀ (i : Instr) (s : State) (x : Transaction) (rest : List Answer),
    wireFrame s i = some (x.ctag, x.payload, x.response.length) →
    s.busIsLocked = true → x.good s.cfg = true → s.env.answers = x.answers s.cfg ++ rest →
    exec i s = .next { s.begun.transacted x rest with
      out := { (s.begun.transacted x rest).out with
        rbuf := if x.response = [] then s.begun.out.rbuf else x.response }
      status := .ok
      seq := .idle }

/-- R104 to R106, R109, R297: every bus command of the table, when the device answers: its one exchange, in a
masked section. OP0 writes the snapshot, OP2 delivers its bytes, the second reset command ends the local session.
Rests on the spec's own decisions D9, D10, D29, and on log 16. -/
def Obligations.BusCommandsRun : Prop :=
  ∀ (s : State) (rest : List Answer), s.busIsLocked = true →
    (∀ v : Word, deadLink v = false → s.env.answers = .bytes (le32 v) :: rest →
      exec .op0 s = .next { s.begun with
        ssr := v, status := .ok, seq := .idle
        env := { s.begun.env with answers := rest, trace := op0Event s v :: s.env.trace } })
    ∧ (∀ r : Bytes, r.length = s.latch.cmd.w3.toNat → s.env.answers = .bytes r :: rest →
      exec .op2 s = .next { s.begun with
        out := { s.begun.out with rbuf := r }, status := .ok, seq := .idle
        env := { s.begun.env with answers := rest, trace := op2Event s r :: s.env.trace } })
    ∧ (s.env.answers = .bytes [] :: rest →
      exec .op1 s = .next { s.begun with
          status := .ok, seq := .idle
          env := { s.begun.env with
            answers := rest
            trace := op1Event s s.latch.cmd.w1 (fit (s.latch.cmd.w2.toNat % 65536) s.latch.wbuf)
              :: s.env.trace } }
      ∧ exec .stdWren s = .next { s.begun with
          status := .ok, seq := .idle
          env := { s.begun.env with answers := rest, trace := bareEvent s s.cfg.stdWren :: s.env.trace } }
      ∧ exec .stdRsten s = .next { s.begun with
          status := .ok, seq := .idle
          env := { s.begun.env with answers := rest, trace := bareEvent s s.cfg.stdRsten :: s.env.trace } }
      ∧ exec .stdRst s = .next
          { (if s.cfg.resetInvalidatesSession then s.begun.wipeKeys else s.begun) with
            kid := if s.cfg.resetInvalidatesSession then 0xFF else s.kid
            mc := { s.mc with inSync := false }
            inFlight := false
            status := .ok
            seq := .idle
            env := { s.begun.env with answers := rest, trace := bareEvent s s.cfg.stdRst :: s.env.trace } })

/-! ## Invariants -/

/-- R22, R23, R25, R32, R37, R281, R352: the invariant of the block is kept by every step, whatever the host asks
and the device answers. Rests on the spec's own decisions D7, D17, D37, D38, and on log 5, 22. -/
def Obligations.StepKeepsInvariant : Prop :=
  ∀ s t : State, Inv s → step s = .next t → Inv t

/-- The state after reset meets the invariant. Rests on the spec's own decision D37, and on log 11. -/
def Obligations.ResetMeetsInvariant : Prop := Inv State.reset

/-- R14, R114, R340: every instruction completes, waits or is cut off; under the constraints on the parameters
none stops the machine. Rests on the spec's own decision D3, and on log 5, 12, 22. -/
def Obligations.EveryInstructionGoesOn : Prop :=
  ∀ (i : Instr) (s : State), paramsWf s.cfg = true → ∃ t, exec i s = .next t

/-- R39, R71: no step changes a parameter, or an event already in the model's record of the ports. Rests on log 1,
2. -/
def Obligations.ParametersAndHistoryStay : Prop :=
  ∀ s t : State, step s = .next t → t.cfg = s.cfg ∧ ∃ new, t.env.trace = new ++ s.env.trace

/-- R320: after a classification of a word with an error bit, either the counter copy is untrusted or it is in
range and stands as the forced fetch read it. Rests on the spec's own decision D20, and on log 9. -/
def Obligations.ErrorLeavesCounterSound : Prop :=
  ∀ (s t : State) (raw mask : Word) (st : Status), hasError s.cfg.ssr raw = true →
    (checkSsrErrors raw mask).run s = .ok st t →
    t.mc.inSync = false ∨ (mcValid t.mc.tc t.mc.dmc = true
      ∧ ∃ u, getMc.run { s with seq := .classify } = .ok (t.mc.tc, t.mc.dmc) u)
end

