-- ==== Sys2Proof/Laws/Bytes.lean ====
section
/-! SUPPORT. Byte strings: what `fit`, `le32` and `rd32` do. -/

namespace Sys2Proof

@[simp] theorem length_fit (n : Nat) (b : Bytes) : (fit n b).length = n := by simp [fit]

/-- A string of the right length is taken as it is. -/
theorem fit_eq {n : Nat} {b : Bytes} (h : b.length = n) : fit n b = b := by
  subst h; simp [fit]

@[simp] theorem fit_fit (n : Nat) (b : Bytes) : fit n (fit n b) = fit n b := fit_eq (length_fit n b)

@[simp] theorem fit_zero (b : Bytes) : fit 0 b = [] := by simp [fit]

@[simp] theorem length_le32 (v : Word) : (le32 v).length = 4 := rfl

@[simp] theorem fit_le32 (v : Word) : fit 4 (le32 v) = le32 v := fit_eq rfl

/-- Reading back a serialised word (rule R64), whatever follows it. -/
@[simp] theorem rd32_le32_append (v : Word) (b : Bytes) : rd32 (le32 v ++ b) = v := by
  apply BitVec.eq_of_getLsbD_eq
  intro i hi
  simp only [rd32, le32, List.cons_append, List.getD_cons_zero, List.getD_cons_succ, BitVec.getLsbD_append,
    BitVec.getLsbD_extractLsb']
  by_cases h1 : i < 8
  · simp [h1]
  · by_cases h2 : i < 16
    · simp [h1, show i - 8 < 8 by omega, show 8 + (i - 8) = i by omega]
    · by_cases h3 : i < 24
      · simp [h1, show ¬ i - 8 < 8 by omega, show i - 8 - 8 < 8 by omega, show 16 + (i - 8 - 8) = i by omega]
      · simp [h1, show ¬ i - 8 < 8 by omega, show ¬ i - 8 - 8 < 8 by omega, show i - 8 - 8 - 8 < 8 by omega,
          show 24 + (i - 8 - 8 - 8) = i by omega]

@[simp] theorem rd32_le32 (v : Word) : rd32 (le32 v) = v := by
  simpa using rd32_le32_append v []

@[simp] theorem drop_le32_append (v : Word) (b : Bytes) : (le32 v ++ b).drop 4 = b := rfl

/-- Serialising four bytes read back (rule R64). -/
theorem le32_rd32 (a b c d : Byte) : le32 (rd32 [a, b, c, d]) = [a, b, c, d] := by
  simp only [le32, rd32, List.getD_cons_zero, List.getD_cons_succ, List.cons.injEq, and_true]
  refine ⟨?_, ?_, ?_, ?_⟩ <;>
  · apply BitVec.eq_of_getLsbD_eq
    intro i hi
    simp only [BitVec.getLsbD_extractLsb', BitVec.getLsbD_append, hi]
    try simp [hi, show ¬ 8 + i < 8 by omega, show ¬ 16 + i < 8 by omega, show ¬ 24 + i < 8 by omega,
      show ¬ 16 + i - 8 < 8 by omega, show ¬ 24 + i - 8 < 8 by omega, show ¬ 24 + i - 8 - 8 < 8 by omega,
      show 16 + i - 8 - 8 = i by omega, show 24 + i - 8 - 8 - 8 = i by omega]

/-- Data operands are what the host wrote, cut or padded to the size (rule R75). -/
theorem fit_take (n : Nat) (b : Bytes) : fit n (b.take n) = fit n b := by
  rcases Nat.le_total n b.length with h | h
  · simp [fit, List.take_append, h]
  · rw [List.take_of_length_le h]

/-- A nonempty response has a positive length. -/
theorem length_ne_zero_iff (b : Bytes) : b.length = 0 ↔ b = [] := List.length_eq_zero_iff

end Sys2Proof
end

