-- ==== Sys2Proof/Laws/State.lean ====
section
/-! SUPPORT. Fields of updated states: one lemma for each named update and each field it leaves or sets. -/

namespace Sys2Proof.Machine

@[simp] theorem complete_cfg (s : State) (st : Status) : (complete st s).cfg = s.cfg := rfl
@[simp] theorem complete_inp (s : State) (st : Status) : (complete st s).inp = s.inp := rfl
@[simp] theorem complete_latch (s : State) (st : Status) : (complete st s).latch = s.latch := rfl
@[simp] theorem complete_out (s : State) (st : Status) : (complete st s).out = s.out := rfl
@[simp] theorem complete_status (s : State) (st : Status) : (complete st s).status = st := rfl
@[simp] theorem complete_seq (s : State) (st : Status) : (complete st s).seq = .idle := rfl
@[simp] theorem complete_mc (s : State) (st : Status) : (complete st s).mc = s.mc := rfl
@[simp] theorem complete_kid (s : State) (st : Status) : (complete st s).kid = s.kid := rfl
@[simp] theorem complete_sessionKey (s : State) (st : Status) : (complete st s).sessionKey = s.sessionKey := rfl
@[simp] theorem complete_ctx0 (s : State) (st : Status) : (complete st s).ctx0 = s.ctx0 := rfl
@[simp] theorem complete_ctx1 (s : State) (st : Status) : (complete st s).ctx1 = s.ctx1 := rfl
@[simp] theorem complete_ctxIdx (s : State) (st : Status) : (complete st s).ctxIdx = s.ctxIdx := rfl
@[simp] theorem complete_ssr (s : State) (st : Status) : (complete st s).ssr = s.ssr := rfl
@[simp] theorem complete_busIsLocked (s : State) (st : Status) : (complete st s).busIsLocked = s.busIsLocked := rfl
@[simp] theorem complete_conf (s : State) (st : Status) : (complete st s).conf = s.conf := rfl
@[simp] theorem complete_inFlight (s : State) (st : Status) : (complete st s).inFlight = s.inFlight := rfl
@[simp] theorem complete_atomic (s : State) (st : Status) : (complete st s).atomic = s.atomic := rfl
@[simp] theorem complete_env (s : State) (st : Status) : (complete st s).env = s.env := rfl

@[simp] theorem withKeys_cfg (s : State) (k : Bytes) : (s.withKeys k).cfg = s.cfg := rfl
@[simp] theorem withKeys_inp (s : State) (k : Bytes) : (s.withKeys k).inp = s.inp := rfl
@[simp] theorem withKeys_latch (s : State) (k : Bytes) : (s.withKeys k).latch = s.latch := rfl
@[simp] theorem withKeys_out (s : State) (k : Bytes) : (s.withKeys k).out = s.out := rfl
@[simp] theorem withKeys_status (s : State) (k : Bytes) : (s.withKeys k).status = s.status := rfl
@[simp] theorem withKeys_seq (s : State) (k : Bytes) : (s.withKeys k).seq = s.seq := rfl
@[simp] theorem withKeys_mc (s : State) (k : Bytes) : (s.withKeys k).mc = s.mc := rfl
@[simp] theorem withKeys_kid (s : State) (k : Bytes) : (s.withKeys k).kid = s.kid := rfl
@[simp] theorem withKeys_sessionKey (s : State) (k : Bytes) : (s.withKeys k).sessionKey = k := rfl
@[simp] theorem withKeys_ctx0 (s : State) (k : Bytes) : (s.withKeys k).ctx0 = { s.ctx0 with key := k } := rfl
@[simp] theorem withKeys_ctx1 (s : State) (k : Bytes) : (s.withKeys k).ctx1 = { s.ctx1 with key := k } := rfl
@[simp] theorem withKeys_ctxIdx (s : State) (k : Bytes) : (s.withKeys k).ctxIdx = s.ctxIdx := rfl
@[simp] theorem withKeys_ssr (s : State) (k : Bytes) : (s.withKeys k).ssr = s.ssr := rfl
@[simp] theorem withKeys_busIsLocked (s : State) (k : Bytes) : (s.withKeys k).busIsLocked = s.busIsLocked := rfl
@[simp] theorem withKeys_conf (s : State) (k : Bytes) : (s.withKeys k).conf = s.conf := rfl
@[simp] theorem withKeys_inFlight (s : State) (k : Bytes) : (s.withKeys k).inFlight = s.inFlight := rfl
@[simp] theorem withKeys_atomic (s : State) (k : Bytes) : (s.withKeys k).atomic = s.atomic := rfl
@[simp] theorem withKeys_env (s : State) (k : Bytes) : (s.withKeys k).env = s.env := rfl

@[simp] theorem begun_cfg (s : State) : s.begun.cfg = s.cfg := rfl
@[simp] theorem begun_inp (s : State) : s.begun.inp = s.inp := rfl
@[simp] theorem begun_latch (s : State) : s.begun.latch = s.latch := rfl
@[simp] theorem begun_out (s : State) : s.begun.out = freeResults s.env.frees := rfl
@[simp] theorem begun_status (s : State) : s.begun.status = s.status := rfl
@[simp] theorem begun_seq (s : State) : s.begun.seq = s.seq := rfl
@[simp] theorem begun_mc (s : State) : s.begun.mc = s.mc := rfl
@[simp] theorem begun_kid (s : State) : s.begun.kid = s.kid := rfl
@[simp] theorem begun_sessionKey (s : State) : s.begun.sessionKey = s.sessionKey := rfl
@[simp] theorem begun_ctx0 (s : State) : s.begun.ctx0 = s.ctx0 := rfl
@[simp] theorem begun_ctx1 (s : State) : s.begun.ctx1 = s.ctx1 := rfl
@[simp] theorem begun_ctxIdx (s : State) : s.begun.ctxIdx = s.ctxIdx := rfl
@[simp] theorem begun_ssr (s : State) : s.begun.ssr = s.ssr := rfl
@[simp] theorem begun_busIsLocked (s : State) : s.begun.busIsLocked = s.busIsLocked := rfl
@[simp] theorem begun_conf (s : State) : s.begun.conf = s.conf := rfl
@[simp] theorem begun_inFlight (s : State) : s.begun.inFlight = s.inFlight := rfl
@[simp] theorem begun_atomic (s : State) : s.begun.atomic = s.atomic := rfl
@[simp] theorem begun_env (s : State) : s.begun.env = { s.env with frees := s.env.frees + 1 } := rfl

@[simp] theorem ticked_cfg (s : State) : s.ticked.cfg = s.cfg := rfl
@[simp] theorem ticked_inp (s : State) : s.ticked.inp = s.inp := rfl
@[simp] theorem ticked_latch (s : State) : s.ticked.latch = s.latch := rfl
@[simp] theorem ticked_out (s : State) : s.ticked.out = s.out := rfl
@[simp] theorem ticked_status (s : State) : s.ticked.status = s.status := rfl
@[simp] theorem ticked_seq (s : State) : s.ticked.seq = s.seq := rfl
@[simp] theorem ticked_mc (s : State) : s.ticked.mc = { s.mc with tc := s.mc.tc + 1 } := rfl
@[simp] theorem ticked_kid (s : State) : s.ticked.kid = s.kid := rfl
@[simp] theorem ticked_sessionKey (s : State) : s.ticked.sessionKey = s.sessionKey := rfl
@[simp] theorem ticked_ctx0 (s : State) : s.ticked.ctx0 = s.ctx0 := rfl
@[simp] theorem ticked_ctx1 (s : State) : s.ticked.ctx1 = s.ctx1 := rfl
@[simp] theorem ticked_ctxIdx (s : State) : s.ticked.ctxIdx = s.ctxIdx := rfl
@[simp] theorem ticked_ssr (s : State) : s.ticked.ssr = s.ssr := rfl
@[simp] theorem ticked_busIsLocked (s : State) : s.ticked.busIsLocked = s.busIsLocked := rfl
@[simp] theorem ticked_conf (s : State) : s.ticked.conf = s.conf := rfl
@[simp] theorem ticked_inFlight (s : State) : s.ticked.inFlight = s.inFlight := rfl
@[simp] theorem ticked_atomic (s : State) : s.ticked.atomic = s.atomic := rfl
@[simp] theorem ticked_env (s : State) : s.ticked.env = s.env := rfl

@[simp] theorem called_cfg (s : State) (cs : List Config.CryptoCall) : (s.called cs).cfg = s.cfg := rfl
@[simp] theorem called_inp (s : State) (cs : List Config.CryptoCall) : (s.called cs).inp = s.inp := rfl
@[simp] theorem called_latch (s : State) (cs : List Config.CryptoCall) : (s.called cs).latch = s.latch := rfl
@[simp] theorem called_out (s : State) (cs : List Config.CryptoCall) : (s.called cs).out = s.out := rfl
@[simp] theorem called_status (s : State) (cs : List Config.CryptoCall) : (s.called cs).status = s.status := rfl
@[simp] theorem called_seq (s : State) (cs : List Config.CryptoCall) : (s.called cs).seq = s.seq := rfl
@[simp] theorem called_mc (s : State) (cs : List Config.CryptoCall) : (s.called cs).mc = s.mc := rfl
@[simp] theorem called_kid (s : State) (cs : List Config.CryptoCall) : (s.called cs).kid = s.kid := rfl
@[simp] theorem called_sessionKey (s : State) (cs : List Config.CryptoCall) : (s.called cs).sessionKey = s.sessionKey := rfl
@[simp] theorem called_ctx0 (s : State) (cs : List Config.CryptoCall) : (s.called cs).ctx0 = s.ctx0 := rfl
@[simp] theorem called_ctx1 (s : State) (cs : List Config.CryptoCall) : (s.called cs).ctx1 = s.ctx1 := rfl
@[simp] theorem called_ctxIdx (s : State) (cs : List Config.CryptoCall) : (s.called cs).ctxIdx = s.ctxIdx := rfl
@[simp] theorem called_ssr (s : State) (cs : List Config.CryptoCall) : (s.called cs).ssr = s.ssr := rfl
@[simp] theorem called_busIsLocked (s : State) (cs : List Config.CryptoCall) : (s.called cs).busIsLocked = s.busIsLocked := rfl
@[simp] theorem called_conf (s : State) (cs : List Config.CryptoCall) : (s.called cs).conf = s.conf := rfl
@[simp] theorem called_inFlight (s : State) (cs : List Config.CryptoCall) : (s.called cs).inFlight = s.inFlight := rfl
@[simp] theorem called_atomic (s : State) (cs : List Config.CryptoCall) : (s.called cs).atomic = s.atomic := rfl
@[simp] theorem called_env (s : State) (cs : List Config.CryptoCall) : (s.called cs).env = { s.env with trace := (cs.map .crypto).reverse ++ s.env.trace } := rfl

@[simp] theorem drawn_cfg (s : State) (c : Config.CryptoCall) : (s.drawn c).cfg = s.cfg := rfl
@[simp] theorem drawn_inp (s : State) (c : Config.CryptoCall) : (s.drawn c).inp = s.inp := rfl
@[simp] theorem drawn_latch (s : State) (c : Config.CryptoCall) : (s.drawn c).latch = s.latch := rfl
@[simp] theorem drawn_out (s : State) (c : Config.CryptoCall) : (s.drawn c).out = s.out := rfl
@[simp] theorem drawn_status (s : State) (c : Config.CryptoCall) : (s.drawn c).status = s.status := rfl
@[simp] theorem drawn_seq (s : State) (c : Config.CryptoCall) : (s.drawn c).seq = s.seq := rfl
@[simp] theorem drawn_mc (s : State) (c : Config.CryptoCall) : (s.drawn c).mc = s.mc := rfl
@[simp] theorem drawn_kid (s : State) (c : Config.CryptoCall) : (s.drawn c).kid = s.kid := rfl
@[simp] theorem drawn_sessionKey (s : State) (c : Config.CryptoCall) : (s.drawn c).sessionKey = s.sessionKey := rfl
@[simp] theorem drawn_ctx0 (s : State) (c : Config.CryptoCall) : (s.drawn c).ctx0 = s.ctx0 := rfl
@[simp] theorem drawn_ctx1 (s : State) (c : Config.CryptoCall) : (s.drawn c).ctx1 = s.ctx1 := rfl
@[simp] theorem drawn_ctxIdx (s : State) (c : Config.CryptoCall) : (s.drawn c).ctxIdx = s.ctxIdx := rfl
@[simp] theorem drawn_ssr (s : State) (c : Config.CryptoCall) : (s.drawn c).ssr = s.ssr := rfl
@[simp] theorem drawn_busIsLocked (s : State) (c : Config.CryptoCall) : (s.drawn c).busIsLocked = s.busIsLocked := rfl
@[simp] theorem drawn_conf (s : State) (c : Config.CryptoCall) : (s.drawn c).conf = s.conf := rfl
@[simp] theorem drawn_inFlight (s : State) (c : Config.CryptoCall) : (s.drawn c).inFlight = s.inFlight := rfl
@[simp] theorem drawn_atomic (s : State) (c : Config.CryptoCall) : (s.drawn c).atomic = s.atomic := rfl
@[simp] theorem drawn_env (s : State) (c : Config.CryptoCall) : (s.drawn c).env = { s.env with trace := .crypto c :: s.env.trace, prng := s.env.prng + 1 } := rfl

@[simp] theorem dequeue_cfg (s : State) (r : List HostEvent) : (s.dequeue r).cfg = s.cfg := rfl
@[simp] theorem dequeue_inp (s : State) (r : List HostEvent) : (s.dequeue r).inp = s.inp := rfl
@[simp] theorem dequeue_latch (s : State) (r : List HostEvent) : (s.dequeue r).latch = s.latch := rfl
@[simp] theorem dequeue_out (s : State) (r : List HostEvent) : (s.dequeue r).out = s.out := rfl
@[simp] theorem dequeue_status (s : State) (r : List HostEvent) : (s.dequeue r).status = s.status := rfl
@[simp] theorem dequeue_seq (s : State) (r : List HostEvent) : (s.dequeue r).seq = s.seq := rfl
@[simp] theorem dequeue_mc (s : State) (r : List HostEvent) : (s.dequeue r).mc = s.mc := rfl
@[simp] theorem dequeue_kid (s : State) (r : List HostEvent) : (s.dequeue r).kid = s.kid := rfl
@[simp] theorem dequeue_sessionKey (s : State) (r : List HostEvent) : (s.dequeue r).sessionKey = s.sessionKey := rfl
@[simp] theorem dequeue_ctx0 (s : State) (r : List HostEvent) : (s.dequeue r).ctx0 = s.ctx0 := rfl
@[simp] theorem dequeue_ctx1 (s : State) (r : List HostEvent) : (s.dequeue r).ctx1 = s.ctx1 := rfl
@[simp] theorem dequeue_ctxIdx (s : State) (r : List HostEvent) : (s.dequeue r).ctxIdx = s.ctxIdx := rfl
@[simp] theorem dequeue_ssr (s : State) (r : List HostEvent) : (s.dequeue r).ssr = s.ssr := rfl
@[simp] theorem dequeue_busIsLocked (s : State) (r : List HostEvent) : (s.dequeue r).busIsLocked = s.busIsLocked := rfl
@[simp] theorem dequeue_conf (s : State) (r : List HostEvent) : (s.dequeue r).conf = s.conf := rfl
@[simp] theorem dequeue_inFlight (s : State) (r : List HostEvent) : (s.dequeue r).inFlight = s.inFlight := rfl
@[simp] theorem dequeue_atomic (s : State) (r : List HostEvent) : (s.dequeue r).atomic = s.atomic := rfl
@[simp] theorem dequeue_env (s : State) (r : List HostEvent) : (s.dequeue r).env = { s.env with host := r } := rfl

@[simp] theorem transacted_cfg (s : State) (x : Transaction) (r : List Config.Answer) : (s.transacted x r).cfg = s.cfg := rfl
@[simp] theorem transacted_inp (s : State) (x : Transaction) (r : List Config.Answer) : (s.transacted x r).inp = s.inp := rfl
@[simp] theorem transacted_latch (s : State) (x : Transaction) (r : List Config.Answer) : (s.transacted x r).latch = s.latch := rfl
@[simp] theorem transacted_out (s : State) (x : Transaction) (r : List Config.Answer) : (s.transacted x r).out = { s.out with ssrOut := x.final s.cfg } := rfl
@[simp] theorem transacted_status (s : State) (x : Transaction) (r : List Config.Answer) : (s.transacted x r).status = s.status := rfl
@[simp] theorem transacted_seq (s : State) (x : Transaction) (r : List Config.Answer) : (s.transacted x r).seq = s.seq := rfl
@[simp] theorem transacted_mc (s : State) (x : Transaction) (r : List Config.Answer) : (s.transacted x r).mc = s.mc := rfl
@[simp] theorem transacted_kid (s : State) (x : Transaction) (r : List Config.Answer) : (s.transacted x r).kid = s.kid := rfl
@[simp] theorem transacted_sessionKey (s : State) (x : Transaction) (r : List Config.Answer) : (s.transacted x r).sessionKey = s.sessionKey := rfl
@[simp] theorem transacted_ctx0 (s : State) (x : Transaction) (r : List Config.Answer) : (s.transacted x r).ctx0 = s.ctx0 := rfl
@[simp] theorem transacted_ctx1 (s : State) (x : Transaction) (r : List Config.Answer) : (s.transacted x r).ctx1 = s.ctx1 := rfl
@[simp] theorem transacted_ctxIdx (s : State) (x : Transaction) (r : List Config.Answer) : (s.transacted x r).ctxIdx = s.ctxIdx := rfl
@[simp] theorem transacted_ssr (s : State) (x : Transaction) (r : List Config.Answer) : (s.transacted x r).ssr = x.final s.cfg := rfl
@[simp] theorem transacted_busIsLocked (s : State) (x : Transaction) (r : List Config.Answer) : (s.transacted x r).busIsLocked = s.busIsLocked := rfl
@[simp] theorem transacted_conf (s : State) (x : Transaction) (r : List Config.Answer) : (s.transacted x r).conf = s.conf := rfl
@[simp] theorem transacted_inFlight (s : State) (x : Transaction) (r : List Config.Answer) : (s.transacted x r).inFlight = false := rfl
@[simp] theorem transacted_atomic (s : State) (x : Transaction) (r : List Config.Answer) : (s.transacted x r).atomic = s.atomic := rfl
@[simp] theorem transacted_env (s : State) (x : Transaction) (r : List Config.Answer) : (s.transacted x r).env = { s.env with answers := r, trace := (x.events s).reverse ++ s.env.trace } := rfl

@[simp] theorem withCtx_cfg (s : State) (i : Bool) (c : Ctx) : (s.withCtx i c).cfg = s.cfg := by
  cases i <;> rfl
@[simp] theorem withCtx_inp (s : State) (i : Bool) (c : Ctx) : (s.withCtx i c).inp = s.inp := by
  cases i <;> rfl
@[simp] theorem withCtx_latch (s : State) (i : Bool) (c : Ctx) : (s.withCtx i c).latch = s.latch := by
  cases i <;> rfl
@[simp] theorem withCtx_out (s : State) (i : Bool) (c : Ctx) : (s.withCtx i c).out = s.out := by
  cases i <;> rfl
@[simp] theorem withCtx_status (s : State) (i : Bool) (c : Ctx) : (s.withCtx i c).status = s.status := by
  cases i <;> rfl
@[simp] theorem withCtx_seq (s : State) (i : Bool) (c : Ctx) : (s.withCtx i c).seq = s.seq := by
  cases i <;> rfl
@[simp] theorem withCtx_mc (s : State) (i : Bool) (c : Ctx) : (s.withCtx i c).mc = s.mc := by
  cases i <;> rfl
@[simp] theorem withCtx_kid (s : State) (i : Bool) (c : Ctx) : (s.withCtx i c).kid = s.kid := by
  cases i <;> rfl
@[simp] theorem withCtx_sessionKey (s : State) (i : Bool) (c : Ctx) : (s.withCtx i c).sessionKey = s.sessionKey := by
  cases i <;> rfl
@[simp] theorem withCtx_ctxIdx (s : State) (i : Bool) (c : Ctx) : (s.withCtx i c).ctxIdx = s.ctxIdx := by
  cases i <;> rfl
@[simp] theorem withCtx_ssr (s : State) (i : Bool) (c : Ctx) : (s.withCtx i c).ssr = s.ssr := by
  cases i <;> rfl
@[simp] theorem withCtx_busIsLocked (s : State) (i : Bool) (c : Ctx) : (s.withCtx i c).busIsLocked = s.busIsLocked := by
  cases i <;> rfl
@[simp] theorem withCtx_conf (s : State) (i : Bool) (c : Ctx) : (s.withCtx i c).conf = s.conf := by
  cases i <;> rfl
@[simp] theorem withCtx_inFlight (s : State) (i : Bool) (c : Ctx) : (s.withCtx i c).inFlight = s.inFlight := by
  cases i <;> rfl
@[simp] theorem withCtx_atomic (s : State) (i : Bool) (c : Ctx) : (s.withCtx i c).atomic = s.atomic := by
  cases i <;> rfl
@[simp] theorem withCtx_env (s : State) (i : Bool) (c : Ctx) : (s.withCtx i c).env = s.env := by
  cases i <;> rfl

@[simp] theorem withCtx_ctx_self (s : State) (i : Bool) (c : Ctx) : (s.withCtx i c).ctx i = c := by cases i <;> rfl
@[simp] theorem withCtx_ctx_other (s : State) (i : Bool) (c : Ctx) : (s.withCtx i c).ctx (!i) = s.ctx (!i) := by
  cases i <;> rfl
@[simp] theorem withCtx_ctx_other' (s : State) (i : Bool) (c : Ctx) : (s.withCtx (!i) c).ctx i = s.ctx i := by
  cases i <;> rfl
@[simp] theorem withCtx_withCtx (s : State) (i : Bool) (c d : Ctx) : (s.withCtx i c).withCtx i d = s.withCtx i d := by
  cases i <;> rfl
@[simp] theorem begun_ctx (s : State) (i : Bool) : s.begun.ctx i = s.ctx i := rfl
@[simp] theorem ticked_ctx (s : State) (i : Bool) : s.ticked.ctx i = s.ctx i := rfl
@[simp] theorem called_ctx (s : State) (cs : List Config.CryptoCall) (i : Bool) : (s.called cs).ctx i = s.ctx i := rfl
@[simp] theorem drawn_ctx (s : State) (c : Config.CryptoCall) (i : Bool) : (s.drawn c).ctx i = s.ctx i := rfl
@[simp] theorem dequeue_ctx (s : State) (r : List HostEvent) (i : Bool) : (s.dequeue r).ctx i = s.ctx i := rfl

end Sys2Proof.Machine
end

