-- ==== Sys2Proof/Laws/Status.lean ====
section
/-! SUPPORT. The status word: its error bits one by one, and when a word classifies as `OK`. -/

namespace Sys2Proof.Machine

open Config (SsrLayout)

theorem getLsbD_bitsOf (ps : List Nat) (i : Nat) : (bitsOf ps).getLsbD i = decide (i < 32 ∧ i ∈ ps) := by
  induction ps with
  | nil => simp [bitsOf]
  | cons p ps ih =>
    have : bitsOf (p :: ps) = BitVec.twoPow 32 p ||| bitsOf ps := rfl
    rw [this, BitVec.getLsbD_or, ih, BitVec.getLsbD_twoPow]
    by_cases h : i < 32
    · by_cases h2 : i = p
      · subst h2; simp [h]
      · simp [h, h2, show ¬ p = i from fun e => h2 e.symm]
    · by_cases h2 : p = i
      · subst h2; simp [h]
      · simp [h, h2]

/-- A word without error bits has none of them. -/
theorem getLsbD_error {L : SsrLayout} {v : Word} (h : hasError L v = false) {p : Nat} (hp : p ∈ errorPositions L) :
    v.getLsbD p = false := by
  by_cases h32 : p < 32
  · have h0 : (v &&& ssrErrorBits L).getLsbD p = false := by
      have : v &&& ssrErrorBits L = 0 := by simpa [hasError] using h
      simp [this]
    rw [BitVec.getLsbD_and, ssrErrorBits, getLsbD_bitsOf] at h0
    simpa only [h32, hp, and_self, decide_true, Bool.and_true] using h0
  · exact BitVec.getLsbD_of_ge v p (by omega)

/-- A word without error bits with which a wait ends classifies as `OK`, whatever the mask (rule R312). -/
theorem classify_ok {L : SsrLayout} {v : Word} (h : hasError L v = false)
    (hw : (respReady L v || !isBusy L v) = true) (mask : Word) : classify L v mask = .ok := by
  have hb : ∀ p ∈ errorPositions L, ∀ m : Word, (v &&& mask &&& m).getLsbD p = false := fun p hp m => by
    simp [getLsbD_error h hp]
  have hb' : ∀ p ∈ errorPositions L, (v &&& mask).getLsbD p = false := fun p hp => by
    simp [getLsbD_error h hp]
  have hbusy : (if respReady L v = true then v &&& mask &&& ~~~(BitVec.twoPow 32 L.busy) else v &&& mask).getLsbD L.busy
      = false := by
    split
    · rename_i hr
      by_cases hl : L.busy < 32 <;> simp [BitVec.getLsbD_twoPow, hl]
    · rename_i hr
      simp only [Bool.not_eq_true] at hr
      simp [hr, isBusy] at hw
      simp [hw]
  simp only [errorPositions, List.mem_cons, List.not_mem_nil, or_false, forall_eq_or_imp, forall_eq] at hb hb'
  simp only [classify, firstError]
  split
  · rename_i hr
    simp only [hr, if_true] at hbusy
    simp only [hb, hbusy, Bool.false_eq_true, if_false]
  · rename_i hr
    rw [if_neg hr] at hbusy
    simp only [hb', hbusy, Bool.false_eq_true, if_false]

end Sys2Proof.Machine
end

