-- ==== Sys2Proof/Laws/Monad.lean ====
section
/-! SUPPORT. How procedures of the block compute: one lemma per primitive of the procedure type, and what
`attempt`, `masked` and `runOp` do with a procedure whose outcome is known. -/

namespace Sys2Proof.Machine

variable {α β : Type}

theorem M.run_bind (x : M α) (f : α → M β) (s : State) :
    (x >>= f).run s = (match x.run s with
      | .ok a t => (f a).run t
      | .error e t => .error e t) := by
  cases h : x.run s <;> simp_all [bind, EStateM.bind, EStateM.run]

@[simp] theorem M.run_pure (a : α) (s : State) : (pure a : M α).run s = .ok a s := rfl
@[simp] theorem M.run_get (s : State) : (get : M State).run s = .ok s s := rfl
@[simp] theorem M.run_set (t s : State) : (set t : M PUnit).run s = .ok ⟨⟩ t := rfl
@[simp] theorem M.run_modify (f : State → State) (s : State) :
    (modify f : M PUnit).run s = .ok ⟨⟩ (f s) := rfl
@[simp] theorem M.run_throw (e : Stop) (s : State) : (throw e : M α).run s = .error e s := rfl
@[simp] theorem run_raise (st : Status) (s : State) : (raise st : M α).run s = .error (.raise st) s := rfl

@[simp] theorem require_true (st : Status) : require true st = pure () := rfl
@[simp] theorem require_false (st : Status) : require false st = raise st := rfl
@[simp] theorem onlyIf_true (x : M Unit) : onlyIf true x = x := rfl
@[simp] theorem onlyIf_false (x : M Unit) : onlyIf false x = pure () := rfl
@[simp] theorem okOrRaise_ok : okOrRaise .ok = pure () := rfl
@[simp] theorem orRaise_ok (a : α) : orRaise (.ok a : Except Status α) = pure a := rfl
@[simp] theorem orRaise_error (st : Status) : orRaise (.error st : Except Status α) = raise st := rfl
@[simp] theorem present_some (b : Bytes) : present (some b) = pure b := rfl

@[simp] theorem run_attempt (x : M α) (s : State) :
    (attempt x).run s = (match x.run s with
      | .ok a t => .ok (.ok a) t
      | .error (.raise st) t => .ok (.error st) t
      | .error e t => .error e t) := rfl

@[simp] theorem run_phase (p : Phase) (s : State) : (phase p).run s = .ok () { s with seq := p } := rfl
@[simp] theorem run_setRbuf (b : Bytes) (s : State) :
    (setRbuf b).run s = .ok () { s with out := { s.out with rbuf := b } } := rfl
@[simp] theorem run_setSigOut (b : Bytes) (s : State) :
    (setSigOut b).run s = .ok () { s with out := { s.out with sigOut := b } } := rfl
@[simp] theorem run_setCtagOut (c : Word) (s : State) :
    (setCtagOut c).run s = .ok () { s with out := { s.out with ctagOut := c } } := rfl
@[simp] theorem run_setSsrOut (v : Word) (s : State) :
    (setSsrOut v).run s = .ok () { s with out := { s.out with ssrOut := v } } := rfl
@[simp] theorem run_setSsr (v : Word) (s : State) : (setSsr v).run s = .ok () { s with ssr := v } := rfl
@[simp] theorem run_setInFlight (b : Bool) (s : State) :
    (setInFlight b).run s = .ok () { s with inFlight := b } := rfl
@[simp] theorem run_setInSync (b : Bool) (s : State) :
    (setInSync b).run s = .ok () { s with mc := { s.mc with inSync := b } } := rfl
@[simp] theorem run_setKid (k : Byte) (s : State) : (setKid k).run s = .ok () { s with kid := k } := rfl
@[simp] theorem run_setCtxIdx (i : Bool) (s : State) :
    (setCtxIdx i).run s = .ok () { s with ctxIdx := i } := rfl
@[simp] theorem run_logEvent (e : Config.Event) (s : State) :
    (logEvent e).run s = .ok () { s with env := { s.env with trace := e :: s.env.trace } } := rfl
@[simp] theorem run_closeSession (s : State) :
    closeSession.run s = .ok () { s.wipeKeys with kid := Config.kidInvalid } := rfl
@[simp] theorem run_modifyCtx (i : Bool) (f : Ctx → Ctx) (s : State) :
    (modifyCtx i f).run s = .ok () (s.withCtx i (f (s.ctx i))) := rfl
@[simp] theorem run_unspecifyResults (s : State) : unspecifyResults.run s = .ok () s.begun := rfl
@[simp] theorem run_cryptoCall (c : Config.CryptoCall) (f : State → α) (s : State) :
    (cryptoCall c f).run s = .ok (f (s.called [c])) (s.called [c]) := rfl
@[simp] theorem run_draw (c : Config.CryptoCall) (f : Nat → α) (s : State) :
    (draw c f).run s = .ok (f s.env.prng) (s.drawn c) := rfl
@[simp] theorem run_intMask (s : State) : intMask.run s = .ok () { s with atomic := s.atomic + 1 } := rfl
@[simp] theorem run_intRestore (s : State) :
    intRestore.run s = .ok () { s with atomic := s.atomic - 1 } := rfl

/-- A sequence whose first procedure returns. -/
theorem bind_ok {x : M α} {f : α → M β} {s t : State} {a : α} (h : x.run s = .ok a t) :
    (x >>= f).run s = (f a).run t := by simp [h]

/-- A sequence whose first procedure does not return. -/
theorem bind_error {x : M α} {f : α → M β} {s t : State} {e : Stop} (h : x.run s = .error e t) :
    (x >>= f).run s = .error e t := by simp [h]

theorem attempt_ok {x : M α} {s t : State} {a : α} (h : x.run s = .ok a t) :
    (attempt x).run s = .ok (.ok a) t := by simp [h]

theorem attempt_raise {x : M α} {s t : State} {st : Status} (h : x.run s = .error (.raise st) t) :
    (attempt x).run s = .ok (.error st) t := by simp [h]

@[simp] theorem M.bind_pure (a : α) (f : α → M β) (s : State) :
    ((pure a : M α) >>= f).run s = (f a).run s := bind_ok rfl
@[simp] theorem M.bind_get (f : State → M β) (s : State) :
    ((get : M State) >>= f).run s = (f s).run s := bind_ok rfl
@[simp] theorem M.bind_set (t : State) (f : PUnit → M β) (s : State) :
    ((set t : M PUnit) >>= f).run s = (f ⟨⟩).run t := bind_ok rfl
@[simp] theorem M.bind_modify (g : State → State) (f : PUnit → M β) (s : State) :
    ((modify g : M PUnit) >>= f).run s = (f ⟨⟩).run (g s) := bind_ok rfl
@[simp] theorem bind_phase (p : Phase) (f : Unit → M β) (s : State) :
    (phase p >>= f).run s = (f ()).run { s with seq := p } := bind_ok rfl
@[simp] theorem bind_setRbuf (b : Bytes) (f : Unit → M β) (s : State) :
    (setRbuf b >>= f).run s = (f ()).run { s with out := { s.out with rbuf := b } } := bind_ok rfl
@[simp] theorem bind_setSigOut (b : Bytes) (f : Unit → M β) (s : State) :
    (setSigOut b >>= f).run s = (f ()).run { s with out := { s.out with sigOut := b } } := bind_ok rfl
@[simp] theorem bind_setCtagOut (c : Word) (f : Unit → M β) (s : State) :
    (setCtagOut c >>= f).run s = (f ()).run { s with out := { s.out with ctagOut := c } } := bind_ok rfl
@[simp] theorem bind_setSsrOut (v : Word) (f : Unit → M β) (s : State) :
    (setSsrOut v >>= f).run s = (f ()).run { s with out := { s.out with ssrOut := v } } := bind_ok rfl
@[simp] theorem bind_setSsr (v : Word) (f : Unit → M β) (s : State) :
    (setSsr v >>= f).run s = (f ()).run { s with ssr := v } := bind_ok rfl
@[simp] theorem bind_setInFlight (b : Bool) (f : Unit → M β) (s : State) :
    (setInFlight b >>= f).run s = (f ()).run { s with inFlight := b } := bind_ok rfl
@[simp] theorem bind_setInSync (b : Bool) (f : Unit → M β) (s : State) :
    (setInSync b >>= f).run s = (f ()).run { s with mc := { s.mc with inSync := b } } := bind_ok rfl
@[simp] theorem bind_setKid (k : Byte) (f : Unit → M β) (s : State) :
    (setKid k >>= f).run s = (f ()).run { s with kid := k } := bind_ok rfl
@[simp] theorem bind_setCtxIdx (i : Bool) (f : Unit → M β) (s : State) :
    (setCtxIdx i >>= f).run s = (f ()).run { s with ctxIdx := i } := bind_ok rfl
@[simp] theorem bind_logEvent (e : Config.Event) (f : Unit → M β) (s : State) :
    (logEvent e >>= f).run s = (f ()).run { s with env := { s.env with trace := e :: s.env.trace } } := bind_ok rfl
@[simp] theorem bind_closeSession (f : Unit → M β) (s : State) :
    (closeSession >>= f).run s = (f ()).run { s.wipeKeys with kid := Config.kidInvalid } := bind_ok rfl
@[simp] theorem bind_modifyCtx (i : Bool) (g : Ctx → Ctx) (f : Unit → M β) (s : State) :
    (modifyCtx i g >>= f).run s = (f ()).run (s.withCtx i (g (s.ctx i))) := bind_ok rfl
@[simp] theorem bind_unspecifyResults (f : Unit → M β) (s : State) :
    (unspecifyResults >>= f).run s = (f ()).run s.begun := bind_ok rfl
@[simp] theorem bind_intMask (f : Unit → M β) (s : State) :
    (intMask >>= f).run s = (f ()).run { s with atomic := s.atomic + 1 } := bind_ok rfl
@[simp] theorem bind_intRestore (f : Unit → M β) (s : State) :
    (intRestore >>= f).run s = (f ()).run { s with atomic := s.atomic - 1 } := bind_ok rfl
@[simp] theorem bind_cryptoCall (c : Config.CryptoCall) (g : State → α) (f : α → M β) (s : State) :
    (cryptoCall c g >>= f).run s = (f (g (s.called [c]))).run (s.called [c]) := bind_ok rfl
@[simp] theorem bind_draw (c : Config.CryptoCall) (g : Nat → α) (f : α → M β) (s : State) :
    (draw c g >>= f).run s = (f (g s.env.prng)).run (s.drawn c) := bind_ok rfl
@[simp] theorem M.bind_throw (e : Stop) (f : α → M β) (s : State) :
    ((throw e : M α) >>= f).run s = .error e s := bind_error rfl
@[simp] theorem bind_raise (st : Status) (f : α → M β) (s : State) :
    ((raise st : M α) >>= f).run s = .error (.raise st) s := bind_error rfl

/-- Everything a masked section can do. -/
theorem run_masked (x : M α) (s : State) :
    (masked x).run s = (match x.run { s with atomic := s.atomic + 1 } with
      | .ok a t => .ok a { t with atomic := t.atomic - 1 }
      | .error (.raise st) t => .error (.raise st) { t with atomic := t.atomic - 1 }
      | .error e t => .error e t) := by
  simp only [masked, M.run_bind, run_intMask, run_attempt]
  rcases x.run { s with atomic := s.atomic + 1 } with ⟨a, t⟩ | ⟨e, t⟩
  · simp
  · cases e <;> simp

theorem masked_ok {x : M α} {s t : State} {a : α} (h : x.run { s with atomic := s.atomic + 1 } = .ok a t) :
    (masked x).run s = .ok a { t with atomic := t.atomic - 1 } := by simp [run_masked, h]

theorem masked_raise {x : M α} {s t : State} {st : Status}
    (h : x.run { s with atomic := s.atomic + 1 } = .error (.raise st) t) :
    (masked x).run s = .error (.raise st) { t with atomic := t.atomic - 1 } := by simp [run_masked, h]

/-- Everything an exchange can do. -/
theorem run_exchange (op : Byte) (addr : Option Word) (sz : Byte) (w : Bytes) (d : Byte) (n : Nat) (s : State) :
    (exchange op addr sz w d n).run s =
      (match s.nextAnswer with
        | .bytes b => .ok (fit n b) (s.exchanged (s.exchangeRequest op addr sz w d n))
        | .linkError => .error (.raise .connectivityErr) (s.exchanged (s.exchangeRequest op addr sz w d n))
        | .reset => .error .reset (s.exchanged (s.exchangeRequest op addr sz w d n))) := rfl

/-- Everything the completion of an operation can do. -/
theorem runOp_eq (x : M Unit) (s : State) :
    runOp x s = (match x.run s with
      | .ok _ t => .next (complete .ok t)
      | .error (.raise st) t => .next (complete st t)
      | .error .stuck t => .next t
      | .error .reset t => .next t.blockReset
      | .error (.fault f) _ => .fault f) := rfl

/-- An operation that completes with `OK`. -/
theorem runOp_ok {x : M Unit} {s t : State} (h : x.run s = .ok () t) : runOp x s = .next (complete .ok t) := by
  simp [runOp_eq, h]

/-- An operation that completes with a failure status. -/
theorem runOp_raise {x : M Unit} {s t : State} {st : Status} (h : x.run s = .error (.raise st) t) :
    runOp x s = .next (complete st t) := by
  simp [runOp_eq, h]

end Sys2Proof.Machine
end

