-- ==== Sys2Proof/Laws/Transport.lean ====
section
/-! SUPPORT. What the transport operations do when the device answers: each sub-operation, the busy-wait, and a
transaction that nothing disturbs. -/

namespace Sys2Proof.Machine

open Config (Answer Event)

/-! ## One exchange -/

/-- An exchange in a masked section that the device answers. -/
theorem run_exchange_bytes {s : State} {b : Bytes} {rest : List Answer} (h : s.env.answers = .bytes b :: rest)
    (ha : s.atomic ≠ 0) {code : Byte} {addr : Option Word} {sz : Byte} {w : Bytes} {d : Byte} {n : Nat} :
    (exchange code addr sz w d n).run s = .ok (fit n b)
      { s with env := { s.env with
          answers := rest
          trace := .exchange { request s code w d n with addr := addr, addrSize := sz } (.bytes (fit n b))
            :: s.env.trace } } := by
  simp [run_exchange, State.nextAnswer, h, State.exchanged, State.exchangeRequest, fitAnswer, request,
    State.interruptsMasked, ha]

/-- OP0 on a link that is up. -/
theorem run_op0_word {s : State} {v : Word} {rest : List Answer}
    (h : s.env.answers = .bytes (le32 v) :: rest) (hv : deadLink v = false) (ha : s.atomic ≠ 0) :
    op0.run s = .ok () { s with
      ssr := v
      env := { s.env with answers := rest, trace := op0Event s v :: s.env.trace } } := by
  simp [op0, bind_ok (run_exchange_bytes h ha), hv, op0Event, request]

/-- OP1 answered. -/
theorem run_op1_ack {s : State} {rest : List Answer} (h : s.env.answers = .bytes [] :: rest) (ha : s.atomic ≠ 0)
    {ctag : Word} {w : Bytes} :
    (op1 ctag w).run s = .ok () { s with env := { s.env with
      answers := rest, trace := op1Event s ctag w :: s.env.trace } } := by
  simp only [op1, M.bind_get]
  refine Eq.trans (bind_ok (run_exchange_bytes h ha)) ?_
  simp [op1Event, request]

/-- OP2 answered with a response of the length asked for. -/
theorem run_op2_bytes {s : State} {r : Bytes} {rest : List Answer} (h : s.env.answers = .bytes r :: rest)
    (ha : s.atomic ≠ 0) :
    (op2 r.length).run s = .ok r { s with env := { s.env with
      answers := rest, trace := op2Event s r :: s.env.trace } } := by
  simp [op2, run_exchange_bytes h ha, op2Event, fit_eq, request]

/-! ## Polls -/

/-- The state after the status words `ws`, the last of them `v`, have been read. -/
def State.polled (s : State) (ws : List Word) (v : Word) (rest : List Answer) : State :=
  { s with
    ssr := v
    env := { s.env with answers := rest, trace := (ws.map (op0Event s)).reverse ++ s.env.trace } }

/-- A poll loop over scripted words: it ends with the first word that stops it. -/
theorem run_pollUntil {stop : Config.SsrLayout → Word → Bool} {v : Word} {rest : List Answer} (polls : List Word) :
    ∀ {s : State} {fuel : Nat}, s.env.answers = statusAnswers (polls ++ [v]) ++ rest →
      (∀ p ∈ polls, deadLink p = false ∧ stop s.cfg.ssr p = false) → deadLink v = false →
      stop s.cfg.ssr v = true → s.atomic ≠ 0 → polls.length < fuel →
      (pollUntil stop fuel).run s = .ok () (s.polled (polls ++ [v]) v rest) := by
  induction polls with
  | nil =>
    intro s fuel h _ hv hs ha hf
    obtain ⟨fuel, rfl⟩ : ∃ k, fuel = k + 1 := ⟨fuel - 1, by simp at hf; omega⟩
    simp [pollUntil, bind_ok (run_op0_word (by simpa [statusAnswers] using h) hv ha), hs, State.polled]
  | cons p ps ih =>
    intro s fuel h hp hv hs ha hf
    obtain ⟨fuel, rfl⟩ : ∃ k, fuel = k + 1 := ⟨fuel - 1, by simp at hf; omega⟩
    have h0 := hp p (by simp)
    have h1 := run_op0_word (rest := statusAnswers (ps ++ [v]) ++ rest) (by simpa [statusAnswers] using h) h0.1 ha
    simp only [pollUntil, bind_ok h1, M.bind_get, h0.2, Bool.false_eq_true, if_false]
    refine Eq.trans (ih (by rfl) (fun q hq => hp q (by simp [hq])) hv hs ha (by simp at hf; omega)) ?_
    simp [State.polled, op0Event, request]

/-- A busy-wait over the words of a good wait. -/
theorem run_busyWait {s : State} {w : Wait} {rest : List Answer} (h : s.env.answers = statusAnswers w.words ++ rest)
    (hw : w.good s.cfg.ssr = true) (ha : s.atomic ≠ 0) :
    busyWait.run s = .ok () { s.polled w.words w.last rest with seq := .wait } := by
  simp only [Wait.good, Bool.and_eq_true, List.all_eq_true, Bool.not_eq_true'] at hw
  have hl : s.env.answers.length = w.polls.length + 1 + rest.length := by
    simp [h, statusAnswers, Wait.words]; omega
  simp only [busyWait, bind_phase, M.bind_get]
  exact run_pollUntil (s := { s with seq := .wait }) (v := w.last) (rest := rest) w.polls h
    (fun p hp => hw.1.1 p hp) hw.1.2 hw.2 ha (by simp [State.pollFuel, hl]; omega)

/-! ## Transactions -/

/-- Step 1 of a transaction. -/
theorem run_secureSend {s : State} {x : Transaction} {rest : List Answer} (h : s.env.answers = .bytes [] :: rest)
    (ha : s.atomic ≠ 0) :
    (secureSend x.ctag x.payload).run s = .ok () { s with
      seq := .send
      inFlight := true
      env := { s.env with
        answers := rest
        trace := (if flips s.cfg x.ctag then [.busModeReenter] else []) ++ [op1Event s x.ctag x.payload]
          ++ (if flips s.cfg x.ctag then [.busModeExit] else []) ++ s.env.trace } } := by
  unfold secureSend
  simp only [bind_phase, M.bind_get]
  rcases Bool.eq_false_or_eq_true (flips s.cfg x.ctag) with hf | hf
  · simp only [hf, if_true, onlyIf_true, bind_logEvent]
    refine Eq.trans (bind_ok (attempt_ok (run_op1_ack (by exact h) (by exact ha)))) ?_
    simp [op1Event, request]
  · simp only [hf, Bool.false_eq_true, if_false, onlyIf_false, M.bind_pure]
    refine Eq.trans (bind_ok (attempt_ok (run_op1_ack (by exact h) (by exact ha)))) ?_
    simp [op1Event, request]

/-- Step 2 of a transaction. -/
theorem run_secureWait {s : State} {x : Transaction} {rest : List Answer}
    (h : s.env.answers = statusAnswers (x.words s.cfg) ++ rest) (h1 : x.first.good s.cfg.ssr = true)
    (h2 : s.cfg.doubleWait.contains (ctagOpc x.ctag) = true → x.second.good s.cfg.ssr = true) (ha : s.atomic ≠ 0) :
    (secureWait (ctagOpc x.ctag)).run s = .ok ()
      { s.polled (x.words s.cfg) (x.final s.cfg) rest with seq := .wait, inFlight := false } := by
  unfold secureWait
  cases hd : s.cfg.doubleWait.contains (ctagOpc x.ctag)
  · simp only [Transaction.words, hd] at h
    refine Eq.trans (bind_ok (run_busyWait (by exact h) (by exact h1) (by exact ha))) ?_
    simp only [M.bind_get, State.polled, hd, onlyIf_false, M.bind_pure, run_setInFlight,
      Transaction.final, Transaction.words, Bool.false_eq_true, if_false]
  · simp only [Transaction.words, hd] at h
    have h' : s.env.answers = statusAnswers x.first.words ++ (statusAnswers x.second.words ++ rest) := by
      simpa [statusAnswers] using h
    refine Eq.trans (bind_ok (run_busyWait (by exact h') (by exact h1) (by exact ha))) ?_
    simp only [M.bind_get, State.polled, hd, onlyIf_true]
    refine Eq.trans (bind_ok (run_busyWait (w := x.second) (rest := rest) (by rfl) (by exact h2 hd) (by exact ha))) ?_
    simp [State.polled, Transaction.final, Transaction.words, hd, op0Event, request, -List.contains_eq_mem]

/-- Step 4 does nothing where nothing is chained. -/
theorem run_secureChain_none {s : State} {x : Transaction} (hx : x.chains s.cfg = false)
    (hs : s.ssr = x.final s.cfg) : (secureChain x.ctag true).run s = .ok () s := by
  simp only [secureChain, M.bind_get, hs]
  rcases Bool.eq_false_or_eq_true (x.ctag != 0 && ctagOpc x.ctag == s.cfg.wire.setScr && true
    && !hasError s.cfg.ssr (x.final s.cfg)) with hc | hc
  · have hq : x.ctag.getLsbD 16 = false ∧ x.ctag.getLsbD 17 = false := by
      simp only [Transaction.chains, Bool.and_eq_true] at hx hc
      rw [hc.1.1.2, hc.2, Bool.true_and, Bool.and_true] at hx
      simpa only [Bool.or_eq_false_iff] using hx
    simp only [hc, onlyIf_true, hq.1, hq.2, onlyIf_false, M.bind_pure, M.run_pure]
  · simp only [hc, onlyIf_false, M.run_pure]

/-- The state in which a transaction that nothing disturbs comes to step 4 (rules R282 to R286). -/
def State.beforeChain (s : State) (x : Transaction) (rest : List Answer) : State :=
  { s with
    seq := if x.response = [] then .wait else .read
    ssr := x.final s.cfg
    inFlight := false
    env := { s.env with answers := rest, trace := (x.events s).reverse ++ s.env.trace } }

/-- The steps of a transaction that nothing disturbs, in a masked section: step 4 decides where they end. -/
theorem run_secureSteps_sound {s t : State} {x : Transaction} {rest : List Answer} (ha : s.atomic ≠ 0)
    (hx : x.sound s.cfg = true) (h : s.env.answers = x.answers s.cfg ++ rest)
    (hch : (secureChain x.ctag true).run (s.beforeChain x rest) = .ok () t) :
    (secureSteps x.ctag x.payload x.response.length true).run s =
      .ok (if x.response = [] then none else some x.response) t := by
  simp only [Transaction.sound, Bool.and_eq_true, decide_eq_true_eq, Bool.or_eq_true, Bool.not_eq_true'] at hx
  obtain ⟨⟨⟨hc, h1⟩, h2⟩, hr⟩ := hx
  have h2' : s.cfg.doubleWait.contains (ctagOpc x.ctag) = true → x.second.good s.cfg.ssr = true := by
    intro hd; rw [hd] at h2; simpa using h2
  have h0 : s.env.answers = .bytes [] :: (statusAnswers (x.words s.cfg)
      ++ ((if x.response = [] then [] else [.bytes x.response]) ++ rest)) := by
    simpa [Transaction.answers] using h
  simp only [secureSteps, bne_iff_ne.mpr hc, onlyIf_true]
  refine Eq.trans (bind_ok (run_secureSend (by exact h0) (by exact ha))) ?_
  refine Eq.trans (bind_ok (run_secureWait (x := x) (by rfl) (by exact h1) (by exact h2') (by exact ha))) ?_
  by_cases he : x.response = []
  · simp only [secureRead, he, List.length_nil, if_true]
    rw [M.bind_pure]
    refine Eq.trans (bind_ok (Eq.trans (congrArg _ ?_) hch)) rfl
    simp only [State.beforeChain, State.polled, Transaction.events, he, if_true]
    cases flips s.cfg x.ctag <;> simp [op0Event, op1Event, request]
  · have hr' : respReady s.cfg.ssr (x.final s.cfg) = true := by simpa [he] using hr
    have hl : ¬ x.response.length = 0 := by simpa using he
    have hread : ∀ t : State, t.cfg = s.cfg → t.ssr = x.final s.cfg → t.atomic ≠ 0 →
        t.env.answers = .bytes x.response :: rest →
        (secureRead (ctagOpc x.ctag) x.response.length).run t = .ok (some x.response)
          { t with seq := .read, env := { t.env with answers := rest, trace := op2Event t x.response :: t.env.trace } } := by
      intro t hc1 hs1 ha1 hans
      have hr1 : respReady t.cfg.ssr t.ssr = true := by rw [hc1, hs1]; exact hr'
      simp only [secureRead, if_neg hl, M.bind_get, hr1, Bool.not_true, onlyIf_false, M.bind_pure, if_true,
        bind_phase]
      exact Eq.trans (bind_ok (run_op2_bytes (by exact hans) (by exact ha1))) rfl
    refine Eq.trans (bind_ok (hread _ (by rfl) (by rfl) (by exact ha) (by simp [State.polled, he]))) ?_
    refine Eq.trans (bind_ok (Eq.trans (congrArg _ ?_) hch)) (by rw [if_neg he]; rfl)
    simp only [State.beforeChain, State.polled, Transaction.events, he, if_false]
    cases flips s.cfg x.ctag <;> simp [op0Event, op1Event, op2Event, request]

/-- The four steps of a transaction that nothing disturbs and that chains nothing, in a masked section. -/
theorem run_secureSteps_good {s : State} {x : Transaction} {rest : List Answer} (ha : s.atomic ≠ 0)
    (hx : x.good s.cfg = true) (h : s.env.answers = x.answers s.cfg ++ rest) :
    (secureSteps x.ctag x.payload x.response.length true).run s =
      .ok (if x.response = [] then none else some x.response) (s.beforeChain x rest) := by
  simp only [Transaction.good, Bool.and_eq_true, Bool.not_eq_true'] at hx
  exact run_secureSteps_sound ha hx.1 h (run_secureChain_none hx.2 rfl)

/-- `Secure` on a locked bus whose steps complete (rules R281, R300). -/
theorem run_secure_ok {s t : State} {ctag : Word} {w : Bytes} {n : Nat} {b : Bool} {r : Option Bytes}
    (hb : s.busIsLocked = true) (h : (secureSteps ctag w n b).run { s with atomic := s.atomic + 1 } = .ok r t) :
    (secure ctag w n b).run s =
      .ok (.ok r, t.ssr) { t with atomic := t.atomic - 1, out := { t.out with ssrOut := t.ssr } } := by
  simp only [secure, M.bind_get, if_pos hb, bind_ok (attempt_ok (masked_ok h)), bind_setSsrOut,
    M.run_pure]

/-- `Secure` on a locked bus with a step that fails (rules R281, R287). -/
theorem run_secure_fails {s t : State} {ctag : Word} {w : Bytes} {n : Nat} {b : Bool} {st : Status}
    (hb : s.busIsLocked = true)
    (h : (secureSteps ctag w n b).run { s with atomic := s.atomic + 1 } = .error (.raise st) t) :
    (secure ctag w n b).run s =
      .ok (.error st, t.ssr) { t with
        atomic := t.atomic - 1
        out := { t.out with ssrOut := t.ssr }
        mc := { t.mc with inSync := t.mc.inSync && decide (st ≠ .connectivityErr) } } := by
  simp only [secure, M.bind_get, if_pos hb, bind_ok (attempt_raise (masked_raise h))]
  cases st <;> simp

/-- `Secure` on a bus that is not locked (rule R281). -/
theorem run_secure_disconnected {s : State} (ctag : Word) (w : Bytes) (n : Nat) (b : Bool)
    (hb : s.busIsLocked = false) :
    (secure ctag w n b).run s =
      .ok (.error .notConnected, s.ssr) { s with out := { s.out with ssrOut := s.ssr } } := by
  simp [secure, hb]

theorem run_secureOrRaise_ok {s t : State} {ctag : Word} {w : Bytes} {n : Nat} {b : Bool} {r : Option Bytes}
    (hb : s.busIsLocked = true) (h : (secureSteps ctag w n b).run { s with atomic := s.atomic + 1 } = .ok r t) :
    (secureOrRaise ctag w n b).run s =
      .ok (r, t.ssr) { t with atomic := t.atomic - 1, out := { t.out with ssrOut := t.ssr } } := by
  unfold secureOrRaise
  exact Eq.trans (bind_ok (run_secure_ok hb h)) rfl

theorem run_secureOrRaise_fails {s t : State} {ctag : Word} {w : Bytes} {n : Nat} {b : Bool} {st : Status}
    (hb : s.busIsLocked = true)
    (h : (secureSteps ctag w n b).run { s with atomic := s.atomic + 1 } = .error (.raise st) t) :
    (secureOrRaise ctag w n b).run s =
      .error (.raise st) { t with
        atomic := t.atomic - 1
        out := { t.out with ssrOut := t.ssr }
        mc := { t.mc with inSync := t.mc.inSync && decide (st ≠ .connectivityErr) } } := by
  unfold secureOrRaise
  exact Eq.trans (bind_ok (run_secure_fails hb h)) rfl

theorem run_secureOrRaise_disconnected {s : State} (ctag : Word) (w : Bytes) (n : Nat) (b : Bool)
    (hb : s.busIsLocked = false) :
    (secureOrRaise ctag w n b).run s =
      .error (.raise .notConnected) { s with out := { s.out with ssrOut := s.ssr } } := by
  unfold secureOrRaise
  exact Eq.trans (bind_ok (run_secure_disconnected ctag w n b hb)) rfl

/-- A transaction that nothing disturbs (rule R300). -/
theorem run_secure_good {s : State} {x : Transaction} {rest : List Answer} (hb : s.busIsLocked = true)
    (hx : x.good s.cfg = true) (h : s.env.answers = x.answers s.cfg ++ rest) :
    (secure x.ctag x.payload x.response.length true).run s =
      .ok (.ok (if x.response = [] then none else some x.response), x.final s.cfg)
        { s.transacted x rest with seq := if x.response = [] then .wait else .read } := by
  have h0 := masked_ok (run_secureSteps_good (s := { s with atomic := s.atomic + 1 }) (by simp) hx h)
  simp only [secure, M.bind_get, if_pos hb]
  refine Eq.trans (bind_ok (attempt_ok h0)) ?_
  simp [State.beforeChain, State.transacted, Transaction.events, op0Event, op1Event, op2Event, request]

/-- The same, for a caller that stops at a failure. -/
theorem run_secureOrRaise_good {s : State} {x : Transaction} {rest : List Answer} (hb : s.busIsLocked = true)
    (hx : x.good s.cfg = true) (h : s.env.answers = x.answers s.cfg ++ rest) :
    (secureOrRaise x.ctag x.payload x.response.length true).run s =
      .ok (if x.response = [] then none else some x.response, x.final s.cfg)
        { s.transacted x rest with seq := if x.response = [] then .wait else .read } := by
  unfold secureOrRaise
  exact Eq.trans (bind_ok (run_secure_good hb hx h)) rfl

end Sys2Proof.Machine
end

