-- ==== Sys2Proof/Laws/Procedures.lean ====
section
/-! SUPPORT. What the shared procedures do when nothing disturbs them: the counter, classification, signing, the
setters and the page reads. -/

namespace Sys2Proof.Machine

open Config (Answer)

/-! ## Counter and classification -/

theorem run_synchMc_inSync {s : State} (h : s.mc.inSync = true) : synchMc.run s = .ok () s := by
  simp [synchMc, h]

/-- Consuming a tick of a trusted counter (rule R316). -/
theorem run_useMc {s : State} (h : canTick s = true) : useMc.run s = .ok (tickValue s, s.mc.dmc) s.ticked := by
  simp only [canTick, Bool.and_eq_true] at h
  simp only [useMc, bind_ok (run_synchMc_inSync h.1), M.bind_get, h.2, require_true, M.bind_pure, M.bind_set]
  cases ho : s.cfg.mcUseOrder <;> simp [tickValue, State.ticked, ho]

/-- The end of the counter's range (rule R316). -/
theorem run_useMc_end {s : State} (h : s.mc.inSync = true) (ht : ¬ s.mc.tc.toNat + 1 < Config.tcLim) :
    useMc.run s = .error (.raise .deviceMcErr) s := by
  simp [useMc, bind_ok (run_synchMc_inSync h), ht]

/-- The wait of an undisturbed transaction ended: a response is ready or the device is not busy. -/
theorem waitOver_sound {cfg : Config.Params} {x : Transaction} (hx : x.sound cfg = true) :
    waitOver cfg.ssr (x.final cfg) = true := by
  simp only [Transaction.sound, Bool.and_eq_true, Bool.or_eq_true, Bool.not_eq_true'] at hx
  obtain ⟨⟨⟨_, h1⟩, h2⟩, _⟩ := hx
  unfold Transaction.final
  split
  · rename_i hd
    rw [hd] at h2
    simp only [reduceCtorEq, false_or, Wait.good, Bool.and_eq_true] at h2
    exact h2.2
  · simp only [Wait.good, Bool.and_eq_true] at h1
    exact h1.2

/-- The same of a transaction that chains nothing. -/
theorem waitOver_final {cfg : Config.Params} {x : Transaction} (hx : x.good cfg = true) :
    waitOver cfg.ssr (x.final cfg) = true := by
  simp only [Transaction.good, Bool.and_eq_true] at hx
  exact waitOver_sound hx.1

/-- A status word without errors passes every mask (rules R310, R312). -/
theorem run_checkOrRaise {s : State} {v : Word} (h : hasError s.cfg.ssr v = false)
    (hw : waitOver s.cfg.ssr v = true) (mask : Word) :
    (checkOrRaise v mask).run s = .ok () { s with seq := .classify } := by
  simp only [checkOrRaise, checkSsrErrors, bind_assoc, bind_phase, M.bind_get, h, onlyIf_false, M.bind_pure,
    classify_ok h hw mask, okOrRaise_ok, M.run_pure]

theorem run_checkAllOrRaise {s : State} {v : Word} (h : hasError s.cfg.ssr v = false)
    (hw : waitOver s.cfg.ssr v = true) : (checkAllOrRaise v).run s = .ok () { s with seq := .classify } := by
  simp only [checkAllOrRaise, M.bind_get, run_checkOrRaise h hw]

/-! ## Signing and the setters -/

/-- Everything `sign_data` does (rule R162). -/
theorem run_signData (s : State) (ctag : Word) (data : Bytes) (refresh : Bool) :
    (signData ctag data refresh).run s =
      .ok (signature s ctag data refresh) { s.signed ctag data refresh with seq := .derive } := by
  cases refresh <;>
  · simp [signData, refreshSsk, calcAuthSignature, State.signed, signature, signingKey, freshSsk, State.called,
      State.withCtx, State.ctx]
    cases s.ctxIdx <;> simp

/-- Everything `prepare_signed_setter` does (rule R163). -/
theorem run_prepareSetter (s : State) (ctag : Word) (data : Bytes) (encData encAddr : Bool) :
    (prepareSetter ctag data encData encAddr).run s =
      .ok (sentCtag s encAddr ctag, signature s ctag data true, sentData s encData data)
        { s.prepared ctag data encData encAddr with seq := .derive } := by
  simp only [prepareSetter, bind_ok (run_signData s ctag data true), M.bind_get]
  cases encData <;> cases encAddr <;>
  · simp [State.prepared, sentCtag, sentData, buildCipherKey, encryptAddress, cipher, setterCipherKey, freshSsk,
      State.signed, State.called, State.withCtx, State.ctx]
    try (cases s.ctxIdx <;> simp)

/-- A setter that meets no error (rule R164). -/
theorem run_runSetter {s : State} {ctag : Word} {data : Bytes} {encData encAddr : Bool} {x : Transaction}
    {rest : List Answer} (hb : s.busIsLocked = true) (ht : canTick s = true) (hx : x.clean s.cfg = true)
    (hs : sendsSetter s.ticked ctag data encData encAddr x) (ha : s.env.answers = x.answers s.cfg ++ rest)
    (mask : Word) :
    (runSetter ctag data encData encAddr mask).run s =
      .ok () { (s.ticked.prepared ctag data encData encAddr).transacted x rest with seq := .classify } := by
  obtain ⟨h1, h2, h3⟩ := hs
  simp only [Transaction.clean, Bool.and_eq_true, Bool.not_eq_true'] at hx
  simp only [runSetter, bind_ok (run_useMc ht), bind_ok (run_prepareSetter _ _ _ _ _)]
  rw [← h1, ← h2]
  have hn : x.response.length = 0 := by simp [h3]
  have hcfg : (s.ticked.prepared ctag data encData encAddr).cfg = s.cfg := by
    cases encData <;> cases encAddr <;> simp [State.prepared, State.signed]
  have hbus : (s.ticked.prepared ctag data encData encAddr).busIsLocked = true := by
    cases encData <;> cases encAddr <;> simp [State.prepared, State.signed, hb]
  have hans : (s.ticked.prepared ctag data encData encAddr).env.answers = x.answers s.cfg ++ rest := by
    cases encData <;> cases encAddr <;> simp [State.prepared, State.signed, ha]
  have h0 := run_secureOrRaise_good (s := { s.ticked.prepared ctag data encData encAddr with seq := .derive })
    (x := x) (rest := rest) hbus (by rw [show _ = s.cfg from hcfg]; exact hx.1) (by rw [show _ = s.cfg from hcfg]; exact hans)
  rw [hn] at h0
  refine Eq.trans (bind_ok h0) ?_
  refine Eq.trans (run_checkOrRaise (by simpa [hcfg] using hx.2) (by simpa [hcfg] using waitOver_final hx.1) mask) ?_
  simp [State.transacted, Transaction.events, op0Event, op1Event, op2Event, request, hcfg]

end Sys2Proof.Machine
end

