-- ==== Sys2Proof/Laws/Inputs.lean ====
section
/-! SUPPORT. What an operation does not look at: the operand registers (rule R75), and the result registers while
it talks to the device. A procedure commutes with a change of those registers if the change makes no other
difference to what it does. -/

namespace Sys2Proof.Machine

variable {α β : Type}

/-- The operand registers changed by `a`, the result registers by `b`. -/
def State.mapPort (a : Inputs → Inputs) (b : Results → Results) (s : State) : State :=
  { s with inp := a s.inp, out := b s.out }

/-- How a procedure ended, with its state changed by `g`. -/
def mapEnd (g : State → State) : EStateM.Result Stop State α → EStateM.Result Stop State α
  | .ok v t => .ok v (g t)
  | .error e t => .error e (g t)

/-- The change of `a` and `b` makes no other difference to what `x` does. -/
def Commutes (a : Inputs → Inputs) (b : Results → Results) (x : M α) : Prop :=
  ∀ s, x.run (s.mapPort a b) = mapEnd (·.mapPort a b) (x.run s)

namespace Commutes

variable {a : Inputs → Inputs} {b : Results → Results}

theorem pure (v : α) : Commutes a b (pure v : M α) := fun _ => rfl
theorem raise (st : Status) : Commutes a b (raise st : M α) := fun _ => rfl
theorem stop (e : Stop) : Commutes a b (throw e : M α) := fun _ => rfl
theorem modify {f : State → State} (h : ∀ s, f (s.mapPort a b) = (f s).mapPort a b) : Commutes a b (modify f) :=
  fun s => by rw [M.run_modify, M.run_modify, h]; rfl

theorem bind {x : M α} {f : α → M β} (hx : Commutes a b x) (hf : ∀ v, Commutes a b (f v)) : Commutes a b (x >>= f) :=
  fun s => by
    rw [M.run_bind, M.run_bind, hx s]
    cases x.run s with
    | ok v t => exact hf v t
    | error e t => rfl

/-- A procedure that looks at other parts of the state only. -/
theorem look {f : State → M α} (h : ∀ s, f (s.mapPort a b) = f s) (hf : ∀ s, Commutes a b (f s)) :
    Commutes a b (get >>= f) := fun s => by
  rw [M.bind_get, M.bind_get, h, hf s s]

theorem attempt {x : M α} (hx : Commutes a b x) : Commutes a b (attempt x) := fun s => by
  rw [run_attempt, run_attempt, hx s]
  cases x.run s with
  | ok v t => rfl
  | error e t => cases e <;> rfl

theorem require (c : Bool) (st : Status) : Commutes a b (require c st) := by
  cases c
  · exact .raise st
  · exact .pure _

theorem onlyIf {c : Bool} {x : M Unit} (hx : Commutes a b x) : Commutes a b (onlyIf c x) := by
  cases c
  · exact .pure _
  · exact hx

theorem okOrRaise (st : Status) : Commutes a b (okOrRaise st) := by
  unfold Machine.okOrRaise
  split
  · exact .pure _
  · exact .raise _

theorem orRaise (r : Except Status α) : Commutes a b (orRaise r) := by
  cases r
  · exact .raise _
  · exact .pure _

theorem present (r : Option Bytes) : Commutes a b (present r) := by
  cases r
  · exact .stop _
  · exact .pure _

theorem masked {x : M α} (hx : Commutes a b x) : Commutes a b (masked x) :=
  .bind (.modify fun _ => rfl) fun _ => .bind (.attempt hx) fun _ => .bind (.modify fun _ => rfl) fun _ => .orRaise _

theorem cryptoCall {c : Config.CryptoCall} {f : State → α} (h : ∀ s, f (s.mapPort a b) = f s) :
    Commutes a b (cryptoCall c f) :=
  .bind (.modify fun _ => rfl) fun _ => .look (fun s => by rw [h]) fun _ => .pure _

theorem draw {c : Config.CryptoCall} {f : Nat → α} : Commutes a b (draw c f) := fun _ => rfl
theorem drawAddr (v : Word) : Commutes a b (drawAddr v) := fun _ => rfl

/-! ## The transport -/

theorem exchange (op : Byte) (addr : Option Word) (sz : Byte) (w : Bytes) (d : Byte) (n : Nat) :
    Commutes a b (exchange op addr sz w d n) := fun s => by
  show (match s.nextAnswer with | .bytes _ => _ | .linkError => _ | .reset => _) = mapEnd _ (match s.nextAnswer with
    | .bytes _ => _ | .linkError => _ | .reset => _)
  cases s.nextAnswer <;> rfl

theorem op0 : Commutes a b op0 :=
  .look (fun _ => rfl) fun _ => .bind (.exchange _ _ _ _ _ _) fun _ => .bind (.modify fun _ => rfl) fun _ => .require _ _
theorem op1 (ctag : Word) (w : Bytes) : Commutes a b (op1 ctag w) :=
  .look (fun _ => rfl) fun _ => .bind (.exchange _ _ _ _ _ _) fun _ => .pure _
theorem op2 (n : Nat) : Commutes a b (op2 n) := .look (fun _ => rfl) fun _ => .exchange _ _ _ _ _ _
theorem bareExchange (c : Byte) : Commutes a b (bareExchange c) := .bind (.exchange _ _ _ _ _ _) fun _ => .pure _

theorem pollUntil (stop : Config.SsrLayout → Word → Bool) (fuel : Nat) : Commutes a b (pollUntil stop fuel) := by
  induction fuel with
  | zero => exact .stop _
  | succ fuel ih =>
    refine .bind .op0 fun _ => .look (fun _ => rfl) fun _ => ?_
    split
    · exact .pure _
    · exact ih

theorem busyWait : Commutes a b busyWait :=
  .bind (.modify fun _ => rfl) fun _ => .look (fun _ => rfl) fun _ => .pollUntil _ _

theorem pollReady : Commutes a b pollReady := by
  refine .bind (.modify fun _ => rfl) fun _ => .look (fun _ => rfl) fun _ => ?_
  split
  · exact .pure _
  · exact .pollUntil _ _

theorem resetEnable : Commutes a b resetEnable :=
  .bind (.modify fun _ => rfl) fun _ => .look (fun _ => rfl) fun _ => .bareExchange _

theorem resetDevice : Commutes a b resetDevice :=
  .bind (.modify fun _ => rfl) fun _ => .look (fun _ => rfl) fun _ => .bind (.bareExchange _) fun _ =>
    .bind (.modify fun _ => rfl) fun _ => .bind (.onlyIf (.modify fun _ => rfl)) fun _ => .modify fun _ => rfl

theorem secureSteps (ctag : Word) (w : Bytes) (n : Nat) (wantSsr : Bool) :
    Commutes a b (secureSteps ctag w n wantSsr) := by
  refine .bind (.onlyIf ?_) fun _ => .bind (.onlyIf ?_) fun _ => .bind ?_ fun _ => .bind ?_ fun _ => .pure _
  · exact .bind (.modify fun _ => rfl) fun _ => .look (fun _ => rfl) fun _ => .bind (.onlyIf (.modify fun _ => rfl))
      fun _ => .bind (.attempt (.op1 _ _)) fun _ => .bind (.onlyIf (.modify fun _ => rfl)) fun _ => .bind (.orRaise _)
      fun _ => .modify fun _ => rfl
  · exact .bind .busyWait fun _ => .look (fun _ => rfl) fun _ => .bind (.onlyIf .busyWait) fun _ => .modify fun _ => rfl
  · unfold secureRead
    split
    · exact .pure _
    · refine .look (fun _ => rfl) fun _ => .bind (.onlyIf (.look (fun _ => rfl) fun _ => ?_)) fun _ =>
        .look (fun _ => rfl) fun _ => ?_
      · split
        · exact .pollReady
        · exact .modify fun _ => rfl
      · split
        · exact .bind (.modify fun _ => rfl) fun _ => .bind (.op2 _) fun _ => .pure _
        · exact .pure _
  · exact .look (fun _ => rfl) fun _ => .onlyIf (.bind (.onlyIf (.bind (.modify fun _ => rfl) fun _ =>
      .look (fun _ => rfl) fun _ => .bind (.op1 _ _) fun _ => .bind (.modify fun _ => rfl) fun _ => .bind .busyWait
      fun _ => .bind (.modify fun _ => rfl) fun _ => .modify fun _ => rfl)) fun _ => .onlyIf (.bind .resetEnable
      fun _ => .resetDevice))

/-! ## The operations: they never look at the operand registers -/

theorem secure (ctag : Word) (w : Bytes) (n : Nat) (wantSsr : Bool) : Commutes a id (secure ctag w n wantSsr) := by
  refine .look (fun _ => rfl) fun s => ?_
  have tail : ∀ r : Except Status (Option Bytes), Commutes a id (do
      match r with
      | .error .connectivityErr => setInSync false
      | _ => Pure.pure ()
      let t ← get
      setSsrOut t.ssr
      Pure.pure (r, t.ssr) : M (Except Status (Option Bytes) × Word)) := by
    intro r
    dsimp only
    split
    · exact .bind (.modify fun _ => rfl) fun _ => .look (fun _ => rfl) fun _ => .bind (.modify fun _ => rfl) fun _ => .pure _
    · exact .look (fun _ => rfl) fun _ => .bind (.modify fun _ => rfl) fun _ => .pure _
  dsimp only
  split
  · exact .bind (.attempt (.masked (.secureSteps _ _ _ _))) tail
  · exact .bind (.pure _) tail

theorem secureOrRaise (ctag : Word) (w : Bytes) (n : Nat) (wantSsr : Bool) :
    Commutes a id (secureOrRaise ctag w n wantSsr) :=
  .bind (.secure _ _ _ _) fun _ => .bind (.orRaise _) fun _ => .pure _

theorem getMc : Commutes a id getMc := by
  refine .look (fun _ => rfl) fun _ => .bind (.secureOrRaise _ _ _ _) fun _ => ?_
  dsimp only
  split
  · exact .raise _
  · exact .bind (.present _) fun _ => .pure _

theorem checkSsrErrors (raw mask : Word) : Commutes a id (checkSsrErrors raw mask) := by
  refine .bind (.modify fun _ => rfl) fun _ => .look (fun _ => rfl) fun _ => .bind (.onlyIf ?_) fun _ =>
    .bind (.modify fun _ => rfl) fun _ => .pure _
  refine .look (fun _ => rfl) fun _ => .bind (.attempt .getMc) fun r => .bind (.modify fun _ => rfl) fun _ =>
    .bind (.modify fun s => ?_) fun _ => .onlyIf (.modify fun _ => rfl)
  unfold State.afterFetch
  split
  · split <;> rfl
  · rfl

theorem checkOrRaise (raw mask : Word) : Commutes a id (checkOrRaise raw mask) :=
  .bind (.checkSsrErrors _ _) fun _ => .okOrRaise _

theorem checkAllOrRaise (raw : Word) : Commutes a id (checkAllOrRaise raw) :=
  .look (fun _ => rfl) fun _ => .checkOrRaise _ _

theorem synchMc : Commutes a id synchMc := by
  refine .look (fun _ => rfl) fun _ => ?_
  split
  · exact .pure _
  · exact .bind (.modify fun _ => rfl) fun _ => .bind .getMc fun _ => .bind (.require _ _) fun _ => .modify fun _ => rfl

theorem useMc : Commutes a id useMc := by
  refine .bind .synchMc fun _ s => ?_
  rw [M.bind_get, M.bind_get]
  show (Machine.require (decide (s.mc.tc.toNat + 1 < Config.tcLim)) .deviceMcErr >>= _).run _ = _
  cases decide (s.mc.tc.toNat + 1 < Config.tcLim)
  · rfl
  · rw [require_true, M.bind_pure, M.bind_pure, M.bind_set, M.bind_set]
    show (match s.cfg.mcUseOrder with | .incrementThenFetch => _ | .fetchThenIncrement => _ : M (Word × Word)).run _ = _
    cases s.cfg.mcUseOrder <;> rfl

theorem modifyCtx {i : Bool} {f : Ctx → Ctx} : Commutes a b (modifyCtx i f) :=
  .modify fun _ => by cases i <;> rfl

theorem signData (ctag : Word) (data : Bytes) (refresh : Bool) : Commutes a b (signData ctag data refresh) :=
  .bind (.modify fun _ => rfl) fun _ => .look (fun _ => rfl) fun _ => .bind (.onlyIf (.bind (.cryptoCall fun _ => rfl)
    fun _ => .modifyCtx)) fun _ => .bind .modifyCtx fun _ => .look (fun _ => rfl) fun _ => .cryptoCall fun _ => rfl

theorem prepareSetter (ctag : Word) (data : Bytes) (encData encAddr : Bool) :
    Commutes a b (prepareSetter ctag data encData encAddr) := fun s => by
  rw [run_prepareSetter, run_prepareSetter]
  rcases s with ⟨_, _, _, _, _, _, _, _, _, _, _, i, _, _, _, _, _, _⟩
  cases encData <;> cases encAddr <;> cases i <;> rfl

theorem runSetter (ctag : Word) (data : Bytes) (encData encAddr : Bool) (mask : Word) :
    Commutes a id (runSetter ctag data encData encAddr mask) :=
  .bind .useMc fun _ => .bind (.prepareSetter _ _ _ _) fun _ => .bind (.secureOrRaise _ _ _ _) fun _ =>
    .checkOrRaise _ _

theorem runCalcSig (dtype sect : Byte) (size : Nat) : Commutes a id (runCalcSig dtype sect size) :=
  .look (fun _ => rfl) fun _ => .bind .useMc fun _ => .bind (.secureOrRaise _ _ _ _) fun _ =>
    .bind (.checkAllOrRaise _) fun _ => .bind (.present _) fun _ => .bind (.modify fun _ => rfl) fun _ =>
    .bind (.signData _ _ _) fun _ => .bind (.require _ _) fun _ => .look (fun _ => rfl) fun _ =>
    .bind (.require _ _) fun _ => .bind (.modify fun _ => rfl) fun _ => .modify fun _ => rfl

theorem handshake (k : Byte) (key : Bytes) (includeWid ignoreScr : Bool) :
    Commutes a id (handshake k key includeWid ignoreScr) :=
  .bind (.modify fun _ => rfl) fun _ => .bind .draw fun _ => .look (fun _ => rfl) fun _ => .bind .useMc fun _ =>
    .bind (.modify fun _ => rfl) fun _ => .bind (.cryptoCall fun _ => rfl) fun _ => .bind (.modify fun _ => rfl)
    fun _ => .bind (.secureOrRaise _ _ _ _) fun _ => .pure _

theorem openSession (k : Byte) (key : Bytes) (includeWid ignoreScr : Bool) :
    Commutes a id (openSession k key includeWid ignoreScr) := by
  refine .bind (.attempt (.bind (.handshake _ _ _ _) fun _ => .look (fun _ => rfl) fun _ => .bind (.checkOrRaise _ _)
    fun _ => .bind (.require _ _) fun _ => .pure _)) fun r => ?_
  cases r
  · exact .bind (.modify fun _ => rfl) fun _ => .bind (.modify fun _ => rfl) fun _ => .raise _
  · exact .modify fun _ => rfl

theorem closeHandshake (k : Byte) : Commutes a id (closeHandshake k) :=
  .look (fun _ => rfl) fun _ => .bind (.handshake _ _ _ _) fun _ => .bind (.checkOrRaise _ _) fun _ => .require _ _

theorem prepRead (opc : Byte) (v : Word) (slot : Bool) : Commutes a id (prepRead opc v slot) :=
  .bind (.modify fun _ => rfl) fun _ => .bind (.drawAddr _) fun _ => .bind .useMc fun _ =>
    .bind (.modify fun _ => rfl) fun _ => .look (fun s => by cases slot <;> rfl) fun _ => .bind (.cryptoCall fun _ => rfl)
    fun _ => .bind (.cryptoCall fun _ => rfl) fun _ => .bind (.cryptoCall fun _ => rfl) fun _ => .modifyCtx

theorem pageSigned (opc : Byte) (v : Word) (slot : Bool) (p r : Bytes) : Commutes a id (pageSigned opc v slot p r) :=
  .bind .modifyCtx fun _ => .look (fun s => by cases slot <;> rfl) fun _ => .bind (.cryptoCall fun _ => rfl) fun _ => .pure _

theorem readPage (opc : Byte) (v : Word) (slot : Bool) (len : Nat) : Commutes a id (readPage opc v slot len) :=
  .bind (.prepRead _ _ _) fun _ => .look (fun _ => by cases slot <;> rfl) fun _ => .bind (.secureOrRaise _ _ _ _)
    fun _ => .bind (.checkAllOrRaise _) fun _ => .bind (.present _) fun _ => .bind (.modify fun _ => rfl) fun _ =>
    .look (fun _ => by cases slot <;> rfl) fun _ => .bind (.require _ _) fun _ => .bind (.cryptoCall fun _ => rfl)
    fun _ => .pure _

theorem drain : Commutes a id drain :=
  .look (fun _ => rfl) fun _ => .onlyIf (.bind (.modify fun _ => rfl) fun _ => .bind (.attempt .busyWait) fun _ =>
    .bind (.modify fun _ => rfl) fun _ => .modify fun _ => rfl)

theorem failMulti (st : Status) (done : Bytes) (size : Nat) : Commutes a id (failMulti st done size : M α) :=
  .bind .drain fun _ => .look (fun _ => rfl) fun _ => .bind (.onlyIf (.modify fun _ => rfl)) fun _ => .raise _

theorem orFailMulti {x : M α} (hx : Commutes a id x) (done : Bytes) (size : Nat) :
    Commutes a id (orFailMulti x done size) := by
  refine .bind (.attempt hx) fun r => ?_
  cases r
  · exact .failMulti _ _ _
  · exact .pure _

theorem startRead (slot : Bool) : Commutes a id (startRead slot) :=
  .look (fun _ => by cases slot <;> rfl) fun _ => .bind (.secureOrRaise _ _ _ _) fun _ => .pure _

theorem pagesLoop (m : MultiRead) (rest : Nat) (v : Word) (old : Bool) (done : Bytes) :
    Commutes a id (pagesLoop m rest v old done) := by
  induction rest generalizing v old done with
  | zero => exact .pure _
  | succ rest ih =>
    refine .bind (.onlyIf (.bind (.modify fun _ => rfl) fun _ => .orFailMulti (.prepRead _ _ _) _ _)) fun _ =>
      .bind (.orFailMulti (.secureOrRaise _ _ _ _) _ _) fun _ => .bind (.onlyIf (.orFailMulti (.startRead _) _ _)) fun _ =>
      .bind (.look (fun _ => rfl) fun _ => .onlyIf (.bind .drain fun _ => .bind (.checkSsrErrors _ _) fun _ =>
        .failMulti _ _ _)) fun _ =>
      .bind (.present _) fun _ => .bind (.orFailMulti ?_ _ _) fun _ => ih _ _ _
    exact .bind (.modify fun _ => rfl) fun _ => .look (fun _ => by cases old <;> rfl) fun _ => .bind (.require _ _) fun _ =>
      .bind (.cryptoCall fun _ => rfl) fun _ => .bind (.onlyIf (.bind (.pageSigned _ _ _ _ _) fun _ => .require _ _))
      fun _ => .pure _

theorem readMulti (m : MultiRead) (v : Word) : Commutes a id (readMulti m v) :=
  .look (fun _ => rfl) fun _ => .bind (.prepRead _ _ _) fun _ => .bind (.orFailMulti (.startRead _) _ _) fun _ =>
    .bind (.pagesLoop _ _ _ _ _) fun _ => .modify fun _ => rfl

end Commutes

/-- What the change of the operand registers does to an operation: nothing but that they are changed at the end, unless
the reset input cut it off. -/
theorem Commutes.runOp {a : Inputs → Inputs} {x : M Unit} (hx : Commutes a id x) (s : State) :
    (∃ t, runOp x s = .next t ∧ runOp x (s.mapPort a id) = .next (t.mapPort a id))
      ∨ (∃ u : State, runOp x s = .next u.blockReset ∧ runOp x (s.mapPort a id) = .next u.blockReset)
      ∨ ∃ f, runOp x s = .fault f ∧ runOp x (s.mapPort a id) = .fault f := by
  have h := hx s
  simp only [Machine.runOp]
  rw [h]
  cases x.run s with
  | ok v t => exact .inl ⟨_, rfl, rfl⟩
  | error e t =>
    cases e with
    | raise st => exact .inl ⟨_, rfl, rfl⟩
    | stuck => exact .inl ⟨_, rfl, rfl⟩
    | reset => exact .inr (.inl ⟨t, rfl, rfl⟩)
    | fault f => exact .inr (.inr ⟨f, rfl, rfl⟩)

end Sys2Proof.Machine
end

