-- ==== Sys2Proof/Laws/Params.lean ====
section
/-! SUPPORT. The constraints on the parameters one by one (I20), and what they give: error words classify as
errors, opcodes differ, a CTAG carries its opcode. -/

namespace Sys2Proof.Machine

theorem paramsWf_iff (p : Config.Params) : paramsWf p = true ↔
    (wireCodes p.wire).Nodup ∧ (0 : Byte) ∉ wireCodes p.wire
      ∧ [p.op0Code, p.op1Code, p.op2Code].Nodup
      ∧ (∀ c ∈ [p.op0Code, p.op1Code, p.op2Code], c ∉ [p.stdWren, p.stdRsten, p.stdRst])
      ∧ (ssrPositions p.ssr).Nodup
      ∧ (∀ i ∈ ssrPositions p.ssr, i < 32 ∧ (i < p.ssr.kidLo ∨ p.ssr.kidLo + 8 ≤ i))
      ∧ p.ssr.kidLo + 8 ≤ 32
      ∧ (0 : Byte) ∉ p.doubleWait ∧ (0 : Byte) ∉ p.pollForReady ∧ (0 : Byte) ∉ p.modeFlip
      ∧ p.numSections ≤ 16
      ∧ (allStatuses.map (statusCode p.status)).Nodup ∧ p.status.ok = 0 := by
  rw [paramsWf, decide_eq_true_eq]

/-- The numbers of the statuses differ (rule R340). -/
theorem statusCode_inj {p : Config.Params} (h : paramsWf p = true) {a b : Status} :
    statusCode p.status a = statusCode p.status b ↔ a = b := by
  have hn := ((paramsWf_iff p).1 h).2.2.2.2.2.2.2.2.2.2.2.1
  have hall : ∀ x : Status, x ∈ allStatuses := fun x => by cases x <;> decide
  exact ⟨fun e => List.inj_on_of_nodup_map hn (hall a) (hall b) e, fun e => e ▸ rfl⟩

/-- `OK` reads as 0, and nothing else does (rule R340). -/
theorem statusCode_eq_zero {p : Config.Params} (h : paramsWf p = true) {a : Status} :
    statusCode p.status a = 0 ↔ a = .ok := by
  have h0 : statusCode p.status .ok = 0 := ((paramsWf_iff p).1 h).2.2.2.2.2.2.2.2.2.2.2.2
  rw [← h0, statusCode_inj h]

/-- The synthetic error is an error (rule R286). -/
theorem hasError_synthetic {p : Config.Params} (h : paramsWf p = true) (v : Word) :
    hasError p.ssr (withSyntheticError p.ssr v) = true := by
  have h32 : p.ssr.err < 32 := ((paramsWf_iff p).1 h).2.2.2.2.2.1 _ (by simp [ssrPositions, errorPositions]) |>.1
  have hb : (withSyntheticError p.ssr v &&& ssrErrorBits p.ssr).getLsbD p.ssr.err = true := by
    rw [BitVec.getLsbD_and, ssrErrorBits, getLsbD_bitsOf, withSyntheticError, BitVec.getLsbD_or, BitVec.getLsbD_twoPow]
    simp [h32, errorPositions]
  rw [hasError, bne_iff_ne]
  intro h0
  rw [h0] at hb
  simp at hb

/-- A word from which no status is read has no error bit (rule R312). -/
theorem firstError_ok {L : Config.SsrLayout} {m : Word} (h : firstError L m = .ok) :
    ∀ p ∈ errorPositions L, m.getLsbD p = false := by
  unfold firstError at h
  repeat' split at h
  all_goals first | exact Status.noConfusion h | skip
  simp only [errorPositions, List.mem_cons, List.not_mem_nil, or_false, forall_eq_or_imp, forall_eq]
  simp_all only [Bool.not_eq_true, and_self]

/-- A word with an error bit classifies as an error when nothing is tolerated (rules R312, R313). -/
theorem classify_all_ne_ok {p : Config.Params} (h : paramsWf p = true) {v : Word} (he : hasError p.ssr v = true) :
    classify p.ssr v (maskAllErrors p.ssr) ≠ .ok := by
  obtain ⟨i, hi⟩ : ∃ i, (v &&& ssrErrorBits p.ssr).getLsbD i = true := by
    by_contra hn
    push Not at hn
    rw [hasError, bne_iff_ne] at he
    exact he (BitVec.eq_of_getLsbD_eq fun i _ => by simpa using hn i)
  rw [BitVec.getLsbD_and, ssrErrorBits, getLsbD_bitsOf, Bool.and_eq_true, decide_eq_true_eq] at hi
  obtain ⟨hv, h32, hm⟩ := hi
  have hnd := ((paramsWf_iff p).1 h).2.2.2.2.1
  have hb : i ≠ p.ssr.busy := by
    rintro rfl
    simp only [ssrPositions, List.cons_append, List.nil_append, List.nodup_cons, List.mem_cons, not_or] at hnd
    exact hnd.1.2.2 hm
  have h1 : (v &&& maskAllErrors p.ssr).getLsbD i = true := by
    rw [BitVec.getLsbD_and, maskAllErrors, BitVec.getLsbD_or, ssrErrorBits, getLsbD_bitsOf]
    simp only [hv, h32, hm, and_self, decide_true, Bool.or_true, Bool.and_self]
  intro hok
  have h0 := firstError_ok hok i hm
  split at h0
  · rw [BitVec.getLsbD_and, h1, BitVec.getLsbD_not, BitVec.getLsbD_twoPow] at h0
    simp [h32, Ne.symm hb] at h0
  · rw [h1] at h0
    exact Bool.noConfusion h0

/-- Distinct wire opcodes are distinct (rule R110). -/
theorem wire_ne_setScr {p : Config.Params} (h : paramsWf p = true) :
    p.wire.getMc ≠ p.wire.setScr ∧ p.wire.calcSig ≠ p.wire.setScr ∧ p.wire.srd ≠ p.wire.setScr
      ∧ p.wire.sard ≠ p.wire.setScr := by
  have hnd := ((paramsWf_iff p).1 h).1
  simp only [wireCodes, List.nodup_cons, List.mem_cons, not_or] at hnd
  simp only [ne_eq, hnd, not_false_eq_true, and_self]

@[simp] theorem ctagOpc_mkCtag (opc param : Byte) (mode : BitVec 16) : ctagOpc (mkCtag opc param mode) = opc := by
  apply BitVec.eq_of_getLsbD_eq
  intro i hi
  rw [ctagOpc, mkCtag, BitVec.getLsbD_extractLsb', BitVec.getLsbD_append]
  simp only [hi, Nat.zero_add, decide_true, Bool.true_and, if_true]

@[simp] theorem ctagOpc_mkCtagAddr (opc : Byte) (a : BitVec 24) : ctagOpc (mkCtagAddr opc a) = opc := by
  apply BitVec.eq_of_getLsbD_eq
  intro i hi
  rw [ctagOpc, mkCtagAddr, BitVec.getLsbD_extractLsb', BitVec.getLsbD_append]
  simp only [hi, Nat.zero_add, decide_true, Bool.true_and, if_true]

@[simp] theorem ctagParam_mkCtag (opc param : Byte) (mode : BitVec 16) : ctagParam (mkCtag opc param mode) = param := by
  apply BitVec.eq_of_getLsbD_eq
  intro i hi
  rw [ctagParam, mkCtag, BitVec.getLsbD_extractLsb', BitVec.getLsbD_append, BitVec.getLsbD_append]
  simp only [hi, decide_true, Bool.true_and, show ¬ 8 + i < 8 by omega, if_false, show 8 + i - 8 = i by omega, if_true]

/-! ## The CTAG of a signed getter (rules R99, R111, R180) -/

@[simp] theorem ctagOpc_calcSigCtag (cfg : Config.Params) (dtype sect : Byte) :
    ctagOpc (calcSigCtag cfg dtype sect) = cfg.wire.calcSig := ctagOpc_mkCtag _ _ _

/-- `DT_SCR` carries the section index. -/
theorem calcSigCtag_scr (cfg : Config.Params) (sect : Byte) :
    calcSigCtag cfg 7 sect = mkCtag cfg.wire.calcSig 7 (sect.setWidth 16) := rfl

/-- With the other reading a data type that does not use the section sends it as 0. -/
theorem calcSigCtag_unused {cfg : Config.Params} (h : cfg.unusedSection = .sentAsZero) {dtype : Byte} (hd : dtype ≠ 7)
    (sect : Byte) : calcSigCtag cfg dtype sect = mkCtag cfg.wire.calcSig dtype 0 := by
  have hd' : ¬ dtype = 7#8 := hd
  simp [calcSigCtag, usesSection, h, hd']

/-- Every data type carries the section given. -/
theorem calcSigCtag_given {cfg : Config.Params} (h : cfg.unusedSection = .sentAsGiven) (dtype sect : Byte) :
    calcSigCtag cfg dtype sect = mkCtag cfg.wire.calcSig dtype (sect.setWidth 16) := by
  simp [calcSigCtag, h]

end Sys2Proof.Machine
end

