-- ==== Sys2Proof/Laws/Keeps.lean ====
section
/-! SUPPORT. Whatever the device does: `wp x Q E s` says that `x` from `s` returns as `Q` or stops as `E`, and
`Keeps P base n x` that `x` keeps a property `P` of the state, whatever happens. One lemma for each procedure
says what it keeps, from what `P` must allow (`Stable`). -/

namespace Sys2Proof.Machine

open Config (Event)

variable {α β : Type}

/-! ## Postconditions -/

/-- `x` from `s` returns a value and a state as `Q` says, or stops as `E` says. -/
def wp (x : M α) (Q : α → State → Prop) (E : Stop → State → Prop) (s : State) : Prop :=
  match x.run s with
  | .ok a t => Q a t
  | .error e t => E e t

variable {Q : α → State → Prop} {E : Stop → State → Prop} {s : State}

theorem wp_bind {x : M α} {f : α → M β} {Q : β → State → Prop} :
    wp (x >>= f) Q E s ↔ wp x (fun a t => wp (f a) Q E t) E s := by
  unfold wp; rw [M.run_bind]; cases x.run s <;> rfl

theorem wp_mono {x : M α} {Q' : α → State → Prop} {E' : Stop → State → Prop} (h : wp x Q E s)
    (hQ : ∀ a t, Q a t → Q' a t) (hE : ∀ e t, E e t → E' e t) : wp x Q' E' s := by
  unfold wp at *; cases hx : x.run s <;> simp only [hx] at h ⊢
  · exact hQ _ _ h
  · exact hE _ _ h

theorem wp_attempt {x : M α} {Q : Except Status α → State → Prop} :
    wp (attempt x) Q E s ↔ wp x (fun a t => Q (.ok a) t)
      (fun e t => match e with | .raise st => Q (.error st) t | e => E e t) s := by
  unfold wp; rw [run_attempt]; rcases x.run s with ⟨a, t⟩ | ⟨e, t⟩
  · rfl
  · cases e <;> rfl

theorem wp_ok {x : M α} {a : α} {t : State} (h : x.run s = .ok a t) : wp x Q E s ↔ Q a t := by simp [wp, h]
theorem wp_error {x : M α} {e : Stop} {t : State} (h : x.run s = .error e t) : wp x Q E s ↔ E e t := by
  simp [wp, h]

@[simp] theorem wp_pure {a : α} : wp (pure a : M α) Q E s ↔ Q a s := Iff.rfl
@[simp] theorem wp_raise {st : Status} : wp (raise st : M α) Q E s ↔ E (.raise st) s := Iff.rfl
@[simp] theorem wp_throw {e : Stop} : wp (throw e : M α) Q E s ↔ E e s := Iff.rfl
@[simp] theorem wp_get {Q : State → State → Prop} : wp (get : M State) Q E s ↔ Q s s := Iff.rfl
@[simp] theorem wp_set {t : State} {Q : PUnit → State → Prop} : wp (set t : M PUnit) Q E s ↔ Q ⟨⟩ t := Iff.rfl
@[simp] theorem wp_modify {f : State → State} {Q : PUnit → State → Prop} :
    wp (modify f : M PUnit) Q E s ↔ Q ⟨⟩ (f s) := Iff.rfl

theorem wp_onlyIf {c : Bool} {x : M Unit} {Q : Unit → State → Prop} (h1 : c = true → wp x Q E s)
    (h2 : c = false → Q () s) : wp (onlyIf c x) Q E s := by
  cases c
  · exact h2 rfl
  · exact h1 rfl

theorem wp_require {c : Bool} {st : Status} {Q : Unit → State → Prop} (h1 : c = true → Q () s)
    (h2 : c = false → E (.raise st) s) : wp (require c st) Q E s := by
  cases c
  · exact h2 rfl
  · exact h1 rfl

/-! ## What an operation keeps -/

/-- How a procedure that keeps `P` stops: a status in the section it began in, an endless poll inside a masked
section, the reset input at any time, a fault of the model only under parameters that break their constraints. -/
def Exit (P : State → Prop) (base n : Nat) : Stop → State → Prop
  | .raise _, t => P t ∧ t.atomic = n
  | .stuck, t => P t ∧ t.atomic = base + 1 ∧ (t.seq = .wait ∨ t.seq = .poll)
  | .reset, t => P t
  | .fault _, t => P t ∧ paramsWf t.cfg ≠ true

/-- `x` keeps `P`, started with `atomic = n` by an operation that began with `atomic = base`. -/
def Keeps (P : State → Prop) (base n : Nat) (x : M α) : Prop :=
  ∀ s, P s → s.atomic = n → wp x (fun _ t => P t ∧ t.atomic = n) (Exit P base n) s

theorem Exit.weaken {Q R : State → Prop} {base n : Nat} {e : Stop} {t : State}
    (h : Exit (fun t => Q t ∧ R t) base n e t) : Exit Q base n e t := by
  cases e with
  | raise st => exact ⟨h.1.1, h.2⟩
  | stuck => exact ⟨h.1.1, h.2⟩
  | reset => exact h.1
  | fault f => exact ⟨h.1.1, h.2⟩

/-- What a property must allow to be kept by the exchanges with the device, the waits and the device reset. -/
structure Quiet (P : State → Prop) : Prop where
  seq : ∀ s p, P s → P { s with seq := p }
  ssrOut : ∀ s v, P s → P { s with out := { s.out with ssrOut := v } }
  ssr : ∀ s v, P s → P { s with ssr := v }
  inFlight : ∀ s b, P s → P { s with inFlight := b }
  atomic : ∀ s n, P s → P { s with atomic := n }
  exchanged : ∀ s op addr sz w d n, P s → s.atomic ≠ 0 → P (s.exchanged (s.exchangeRequest op addr sz w d n))
  logEvent : ∀ s (e : Event), (∀ x a, e ≠ .exchange x a) → P s →
    P { s with env := { s.env with trace := e :: s.env.trace } }
  distrust : ∀ s, P s → P { s with mc := { s.mc with inSync := false } }
  close : ∀ s, P s → P { s.wipeKeys with kid := Config.kidInvalid }

/-- What a property must allow to be kept by the operations that are not about sessions. -/
structure Stable (P : State → Prop) : Prop extends Quiet P where
  rbuf : ∀ s b, P s → P { s with out := { s.out with rbuf := b } }
  sigOut : ∀ s b, b.length = 8 → P s → P { s with out := { s.out with sigOut := b } }
  ctagOut : ∀ s c, P s → P { s with out := { s.out with ctagOut := c } }
  begun : ∀ s, P s → P s.begun
  prng : ∀ s n, P s → P { s with env := { s.env with prng := n } }
  counter : ∀ s tc dmc b, mcValid tc dmc = true → P s → P { s with mc := { tc := tc, dmc := dmc, inSync := b } }
  tick : ∀ s, s.mc.inSync = true → s.mc.tc.toNat + 1 < Config.tcLim → P s →
    P { s with mc := { s.mc with tc := s.mc.tc + 1 } }
  ctxIdx : ∀ s i, P s → P { s with ctxIdx := i }
  ctx : ∀ s i c, c.key = (s.ctx i).key →
    ((s.ctx i).ssk.length = s.cfg.keyBytes → c.ssk.length = s.cfg.keyBytes) →
    ((s.ctx i).cipherKey.length = s.cfg.keyBytes → c.cipherKey.length = s.cfg.keyBytes) →
    ((s.ctx i).sdata.length = Config.pageSize → c.sdata.length = Config.pageSize) → P s → P (s.withCtx i c)

variable {P : State → Prop} {base n : Nat}

theorem Keeps.bind {x : M α} {f : α → M β} (hx : Keeps P base n x) (hf : ∀ a, Keeps P base n (f a)) :
    Keeps P base n (x >>= f) := fun s hs ha =>
  wp_bind.2 (wp_mono (hx s hs ha) (fun a t h => hf a t h.1 h.2) fun _ _ h => h)

/-- A sequence whose first procedure also returns a value as `V` says. -/
theorem Keeps.bind_val {x : M α} {f : α → M β} {V : α → Prop}
    (hx : ∀ s, P s → s.atomic = n → wp x (fun a t => V a ∧ P t ∧ t.atomic = n) (Exit P base n) s)
    (hf : ∀ a, V a → Keeps P base n (f a)) : Keeps P base n (x >>= f) := fun s hs ha =>
  wp_bind.2 (wp_mono (hx s hs ha) (fun a t h => hf a h.1 t h.2.1 h.2.2) fun _ _ h => h)

/-- A procedure that first looks at the state. -/
theorem Keeps.look {f : State → M α} (hf : ∀ u : State, P u → u.atomic = n → wp (f u) (fun _ t => P t ∧ t.atomic = n) (Exit P base n) u) :
    Keeps P base n (MonadState.get >>= f) := fun s hs ha => wp_bind.2 (hf s hs ha)

theorem Keeps.look' {f : State → M α} (hf : ∀ u, Keeps P base n (f u)) : Keeps P base n (MonadState.get >>= f) :=
  Keeps.look fun u => hf u u

theorem Keeps.pure (a : α) : Keeps P base n (pure a : M α) := fun _ hs ha => ⟨hs, ha⟩
theorem Keeps.raise (st : Status) : Keeps P base n (raise st : M α) := fun _ hs ha => ⟨hs, ha⟩

theorem Keeps.modify {f : State → State} (h : ∀ s, P s → P (f s)) (ha : ∀ s, (f s).atomic = s.atomic) :
    Keeps P base n (modify f) := fun s hs hn => ⟨h s hs, (ha s).trans hn⟩

theorem Keeps.require {c : Bool} {st : Status} : Keeps P base n (require c st) := by
  cases c
  · exact .raise _
  · exact .pure _

theorem Keeps.onlyIf {c : Bool} {x : M Unit} (h : Keeps P base n x) : Keeps P base n (onlyIf c x) := by
  cases c
  · exact .pure _
  · exact h

theorem Keeps.okOrRaise (st : Status) : Keeps P base n (okOrRaise st) := by
  unfold Machine.okOrRaise; split
  · exact .pure _
  · exact .raise _

theorem Keeps.orRaise (r : Except Status α) : Keeps P base n (orRaise r) := by
  cases r
  · exact .raise _
  · exact .pure _

theorem Keeps.attempt {x : M α} (h : Keeps P base n x) : Keeps P base n (attempt x) := fun s hs ha =>
  wp_attempt.2 (wp_mono (h s hs ha) (fun _ _ h => h) fun e t h => by cases e <;> exact h)

/-- What a read of `k` bytes for a command gives: those bytes; or none, and then an error bit in the status word
(rules R285, R286), unless the command chains others. -/
def ReadAs (c : Config.Params) (ctag : Word) (k : Nat) (r : Option Bytes) (sv : Word) : Prop :=
  (∀ b, r = some b → b.length = k)
    ∧ (r = none → k ≠ 0 → paramsWf c = true → (ctag = 0 ∨ ctagOpc ctag ≠ c.wire.setScr) → hasError c.ssr sv = true)

/-- A response is present where no error is. -/
theorem wp_present {r : Option Bytes} {c : Config.Params} {ctag sv : Word} {k : Nat} {s : State}
    (h : ReadAs c ctag k r sv) (hk : k ≠ 0) (hc : s.cfg = c) (ho : paramsWf c = true → ctag = 0 ∨ ctagOpc ctag ≠ c.wire.setScr)
    (he : paramsWf c = true → hasError c.ssr sv = false) (hs : P s) (ha : s.atomic = n) :
    wp (present r) (fun b t => b.length = k ∧ P t ∧ t.atomic = n) (Exit P base n) s := by
  cases r with
  | some b => exact ⟨h.1 b rfl, hs, ha⟩
  | none =>
    refine ⟨hs, fun hw => ?_⟩
    rw [hc] at hw
    exact Bool.noConfusion ((h.2 rfl hk hw (ho hw)).symm.trans (he hw))

namespace Quiet

variable (S : Quiet P)
include S

/-- The parameters stay, whatever else does. -/
theorem withCfg (c : Config.Params) : Quiet (fun t => P t ∧ t.cfg = c) where
  seq s p h := ⟨S.seq s p h.1, h.2⟩
  ssrOut s v h := ⟨S.ssrOut s v h.1, h.2⟩
  ssr s v h := ⟨S.ssr s v h.1, h.2⟩
  inFlight s b h := ⟨S.inFlight s b h.1, h.2⟩
  atomic s n h := ⟨S.atomic s n h.1, h.2⟩
  exchanged s _ _ _ _ _ _ h ha := ⟨S.exchanged s _ _ _ _ _ _ h.1 ha, h.2⟩
  logEvent s e he h := ⟨S.logEvent s e he h.1, h.2⟩
  distrust s h := ⟨S.distrust s h.1, h.2⟩
  close s h := ⟨S.close s h.1, h.2⟩

theorem phase (p : Phase) : Keeps P base n (phase p) := .modify (fun s => S.seq s p) fun _ => rfl
theorem setSsrOut (v : Word) : Keeps P base n (setSsrOut v) := .modify (fun s => S.ssrOut s v) fun _ => rfl
theorem setSsr (v : Word) : Keeps P base n (setSsr v) := .modify (fun s => S.ssr s v) fun _ => rfl
theorem setInFlight (b : Bool) : Keeps P base n (setInFlight b) := .modify (fun s => S.inFlight s b) fun _ => rfl
theorem setInSync_false : Keeps P base n (setInSync false) := .modify S.distrust fun _ => rfl
theorem closeSession : Keeps P base n closeSession := .modify S.close fun _ => rfl

theorem log {e : Event} (he : ∀ x a, e ≠ .exchange x a) : Keeps P base n (Machine.logEvent e) :=
  .modify (fun s => S.logEvent s e he) fun _ => rfl

theorem cryptoCall (c : Config.CryptoCall) (f : State → α) : Keeps P base n (cryptoCall c f) :=
  .bind (S.log (by simp)) fun _ => .look' fun _ => .pure _

theorem masked {x : M α} (h : Keeps P base (base + 1) x) : Keeps P base base (masked x) := by
  intro s hs ha
  have h1 := h { s with atomic := s.atomic + 1 } (S.atomic s _ hs) (by simp [ha])
  unfold wp at h1 ⊢
  rw [run_masked]
  rcases hx : x.run { s with atomic := s.atomic + 1 } with ⟨a, t⟩ | ⟨e, t⟩ <;> simp only [hx] at h1 ⊢
  · exact ⟨S.atomic t _ h1.1, by simp [h1.2]⟩
  · cases e
    · exact ⟨S.atomic t _ h1.1, by simp [h1.2]⟩
    all_goals exact h1

/-- An exchange in a masked section keeps the property and returns the bytes asked for. -/
theorem exchange_val {op : Byte} {addr : Option Word} {sz : Byte} {w : Bytes} {d : Byte} {k : Nat} {s : State}
    (hs : P s) (ha : s.atomic = base + 1) :
    wp (exchange op addr sz w d k) (fun b t => b.length = k ∧ P t ∧ t.atomic = base + 1) (Exit P base (base + 1)) s := by
  have h := S.exchanged s op addr sz w d k hs (by simp [ha])
  unfold wp
  rw [run_exchange]
  cases s.nextAnswer
  · exact ⟨length_fit _ _, h, ha⟩
  · exact ⟨h, ha⟩
  · exact h

theorem exchange {op : Byte} {addr : Option Word} {sz : Byte} {w : Bytes} {d : Byte} {k : Nat} :
    Keeps P base (base + 1) (exchange op addr sz w d k) := fun _ hs ha =>
  wp_mono (S.exchange_val hs ha) (fun _ _ h => h.2) fun _ _ h => h

theorem op0 : Keeps P base (base + 1) op0 :=
  .look' fun _ => .bind (S.exchange) fun _ => .bind (S.setSsr _) fun _ => .require

theorem op1 {ctag : Word} {w : Bytes} : Keeps P base (base + 1) (op1 ctag w) :=
  .look' fun _ => .bind (S.exchange) fun _ => .pure _

theorem op2_val {k : Nat} {s : State} (hs : P s) (ha : s.atomic = base + 1) :
    wp (op2 k) (fun b t => b.length = k ∧ P t ∧ t.atomic = base + 1) (Exit P base (base + 1)) s :=
  wp_bind.2 (S.exchange_val hs ha)

theorem bareExchange (code : Byte) : Keeps P base (base + 1) (bareExchange code) :=
  .bind (S.exchange) fun _ => .pure _

/-- Polls end with a status word that stops them, or go on in the masked section and the phase they began in. -/
theorem pollUntil (stop : Config.SsrLayout → Word → Bool) (fuel : Nat) (s : State) (hs : P s) (ha : s.atomic = base + 1)
    (hq : s.seq = .wait ∨ s.seq = .poll) :
    wp (pollUntil stop fuel) (fun _ t => stop t.cfg.ssr t.ssr = true ∧ P t ∧ t.atomic = base + 1)
      (Exit P base (base + 1)) s := by
  have S' : Quiet P := S
  induction fuel generalizing s with
  | zero => exact ⟨hs, ha, hq⟩
  | succ fuel ih =>
    have h0 : wp Machine.op0 (fun _ t => (P t ∧ t.atomic = base + 1) ∧ t.seq = s.seq) (Exit P base (base + 1)) s := by
      have h1 := S'.op0 s hs ha
      have h2 : ∀ t, Machine.op0.run s = .ok () t → t.seq = s.seq := by
        intro t ht
        simp only [Machine.op0, M.bind_get] at ht
        rw [M.run_bind, run_exchange] at ht
        cases hn : s.nextAnswer <;> simp only [hn] at ht
        · rw [bind_setSsr] at ht
          revert ht
          cases !deadLink (rd32 (fit 4 _)) <;> intro ht
          · cases ht
          · cases ht; rfl
        · cases ht
        · cases ht
      unfold wp at h1 ⊢
      cases hx : Machine.op0.run s with
      | ok a t => simp only [hx] at h1 ⊢; exact ⟨h1, h2 t (by rw [hx])⟩
      | error e t => simp only [hx] at h1 ⊢; exact h1
    refine wp_bind.2 (wp_mono h0 ?_ fun _ _ h => h)
    intro _ t ht
    refine wp_bind.2 (wp_get.2 ?_)
    split
    · exact ⟨by assumption, ht.1⟩
    · exact ih t ht.1.1 ht.1.2 (by rw [ht.2]; exact hq)

theorem busyWait : Keeps P base (base + 1) busyWait := by
  intro s hs ha
  refine wp_bind.2 (wp_bind.2 ?_)
  show wp (Machine.pollUntil waitOver _) _ _ { s with seq := .wait }
  exact wp_mono (S.pollUntil waitOver _ { s with seq := .wait } (S.seq s _ hs) ha (.inl rfl)) (fun _ _ h => h.2)
    fun _ _ h => h

/-- The poll for readiness ends with a response or an error. -/
theorem pollReady_val {s : State} (hs : P s) (ha : s.atomic = base + 1) :
    wp pollReady (fun _ t => readyOrError t.cfg.ssr t.ssr = true ∧ P t ∧ t.atomic = base + 1)
      (Exit P base (base + 1)) s := by
  refine wp_bind.2 (wp_bind.2 ?_)
  show wp (if _ then _ else _) _ _ { s with seq := .poll }
  split
  · exact ⟨by assumption, S.seq s _ hs, ha⟩
  · exact S.pollUntil _ _ _ (S.seq s _ hs) ha (.inr rfl)

theorem resetEnable : Keeps P base (base + 1) resetEnable :=
  .bind (S.phase _) fun _ => .look' fun _ => S.bareExchange _

theorem resetDevice : Keeps P base (base + 1) resetDevice :=
  .bind (S.phase _) fun _ => .look' fun _ => .bind (S.bareExchange _) fun _ => .bind S.setInSync_false fun _ =>
    .bind (.onlyIf S.closeSession) fun _ => S.setInFlight _

theorem deviceReset : Keeps P base (base + 1) deviceReset := .bind S.resetEnable fun _ => S.resetDevice

theorem secureSend (ctag : Word) (w : Bytes) : Keeps P base (base + 1) (secureSend ctag w) :=
  .bind (S.phase _) fun _ => .look' fun _ => .bind (.onlyIf (S.log (by simp))) fun _ =>
    .bind (.attempt (S.op1)) fun _ => .bind (.onlyIf (S.log (by simp))) fun _ => .bind (.orRaise _) fun _ =>
      S.setInFlight _

theorem secureWait (opc : Byte) : Keeps P base (base + 1) (secureWait opc) :=
  .bind S.busyWait fun _ => .look' fun _ => .bind (.onlyIf S.busyWait) fun _ => S.setInFlight _

/-- What is done about a missing response leaves a response or an error bit. -/
theorem notReady_val {opc : Byte} {s : State} (hs : P s) (ha : s.atomic = base + 1) :
    wp (notReady opc) (fun _ t => (paramsWf t.cfg = true → readyOrError t.cfg.ssr t.ssr = true) ∧ P t
      ∧ t.atomic = base + 1) (Exit P base (base + 1)) s := by
  refine wp_bind.2 (wp_get.2 ?_)
  split
  · exact wp_mono (S.pollReady_val hs ha) (fun _ _ h => ⟨fun _ => h.1, h.2⟩) fun _ _ h => h
  · exact ⟨fun hw => by simp only [readyOrError, hasError_synthetic hw, Bool.true_or], S.ssr s _ hs, ha⟩

/-- What `Secure` reads. -/
theorem secureRead_val {opc : Byte} {ctag : Word} {k : Nat} {c : Config.Params} {s : State} (hs : P s)
    (hc : s.cfg = c) (ha : s.atomic = base + 1) :
    wp (secureRead opc k) (fun r t => ReadAs c ctag k r t.ssr ∧ P t ∧ t.atomic = base + 1)
      (Exit P base (base + 1)) s := by
  unfold secureRead
  split
  · exact ⟨⟨fun _ h => (by cases h), fun _ h => absurd (by assumption) h⟩, hs, ha⟩
  · have S' := S.withCfg c
    have h1 : wp (Machine.onlyIf (!respReady s.cfg.ssr s.ssr) (Machine.notReady opc))
        (fun _ t => (paramsWf t.cfg = true → readyOrError t.cfg.ssr t.ssr = true) ∧ (P t ∧ t.cfg = c)
          ∧ t.atomic = base + 1) (Exit (fun t => P t ∧ t.cfg = c) base (base + 1)) s := by
      refine wp_onlyIf (fun _ => S'.notReady_val ⟨hs, hc⟩ ha) fun h => ⟨fun _ => ?_, ⟨hs, hc⟩, ha⟩
      rw [Bool.not_eq_false'] at h
      simp only [readyOrError, h, Bool.or_true]
    refine wp_bind.2 (wp_get.2 (wp_bind.2 (wp_mono h1 ?_ ?_)))
    · rintro _ t ⟨hr, ⟨hp, hcc⟩, hn⟩
      refine wp_bind.2 (wp_get.2 ?_)
      split
      · refine wp_bind.2 (wp_bind.2 (wp_mono (S.op2_val (k := k) (S.seq t _ hp) hn) ?_ fun _ _ h => h))
        rintro b u ⟨hb, hu⟩
        exact ⟨⟨fun c hc => by cases hc; exact hb, fun h => (by cases h)⟩, hu⟩
      · rename_i hnr
        refine ⟨⟨fun _ h => (by cases h), fun _ _ hw _ => ?_⟩, hp, hn⟩
        have := hr (by rw [hcc]; exact hw)
        rw [← hcc]
        simpa only [readyOrError, hnr, Bool.or_false] using this
    · exact fun _ _ h => h.weaken

theorem chainInitPa (sect : Byte) : Keeps P base (base + 1) (chainInitPa sect) :=
  .bind (S.phase _) fun _ => .look' fun _ => .bind (S.op1) fun _ => .bind (S.setInFlight _) fun _ =>
    .bind S.busyWait fun _ => .bind (S.setInFlight _) fun _ => S.setInSync_false

theorem secureChain (ctag : Word) (wantSsr : Bool) : Keeps P base (base + 1) (secureChain ctag wantSsr) :=
  .look' fun _ => .onlyIf (.bind (.onlyIf (S.chainInitPa _)) fun _ => .onlyIf S.deviceReset)

/-- Only a section-config set makes further exchanges. -/
theorem secureChain_val {ctag : Word} {b : Bool} {s : State} (hs : P s) (ha : s.atomic = base + 1) :
    wp (Machine.secureChain ctag b) (fun _ t => ((ctag = 0 ∨ ctagOpc ctag ≠ s.cfg.wire.setScr) → t.ssr = s.ssr) ∧ P t
      ∧ t.atomic = base + 1) (Exit P base (base + 1)) s := by
  refine wp_bind.2 (wp_get.2 ?_)
  refine wp_onlyIf (fun h => ?_) fun _ => ⟨fun _ => rfl, hs, ha⟩
  refine wp_mono (Keeps.bind (.onlyIf (S.chainInitPa _)) (fun _ => .onlyIf S.deviceReset) s hs ha) ?_ fun _ _ h => h
  intro _ t ht
  refine ⟨fun hn => ?_, ht⟩
  simp only [Bool.and_eq_true, bne_iff_ne, beq_iff_eq] at h
  rcases hn with hn | hn
  · exact absurd hn h.1.1.1
  · exact absurd h.1.1.2 hn

theorem secureSteps_val {ctag : Word} {w : Bytes} {k : Nat} {b : Bool} {c : Config.Params} {s : State} (hs : P s)
    (hc : s.cfg = c) (ha : s.atomic = base + 1) :
    wp (secureSteps ctag w k b) (fun r t => ReadAs c ctag k r t.ssr ∧ P t ∧ t.atomic = base + 1)
      (Exit P base (base + 1)) s := by
  have S' := S.withCfg c
  refine wp_bind.2 (wp_mono (Keeps.onlyIf (S'.secureSend ctag w) s ⟨hs, hc⟩ ha) ?_ fun _ _ h => h.weaken)
  intro _ t ht
  refine wp_bind.2 (wp_mono (Keeps.onlyIf (S'.secureWait _) t ht.1 ht.2) ?_ fun _ _ h => h.weaken)
  intro _ t ht
  refine wp_bind.2 (wp_mono (S'.secureRead_val (ctag := ctag) ht.1 ht.1.2 ht.2) ?_ fun _ _ h => h.weaken)
  intro r t ht
  refine wp_bind.2 (wp_mono (S'.secureChain_val ht.2.1 ht.2.2) ?_ fun _ _ h => h.weaken)
  intro _ u hu
  refine ⟨⟨ht.1.1, fun h1 h2 h3 h4 => ?_⟩, hu.2.1.1, hu.2.2⟩
  rw [hu.1 (by rw [ht.2.1.2]; exact h4)]
  exact ht.1.2 h1 h2 h3 h4

/-- `Secure` never raises; what it reads is as `ReadAs` says. -/
theorem secure_val {ctag : Word} {w : Bytes} {k : Nat} {b : Bool} {c : Config.Params} {s : State} (hs : P s)
    (hc : s.cfg = c) (ha : s.atomic = base) :
    wp (secure ctag w k b) (fun r t => (∀ o, r.1 = .ok o → ReadAs c ctag k o r.2) ∧ P t ∧ t.atomic = base)
      (Exit P base base) s := by
  have hm : wp (Machine.masked (secureSteps ctag w k b))
      (fun r t => ReadAs c ctag k r t.ssr ∧ P t ∧ t.atomic = base) (Exit P base base) s := by
    have h1 := S.secureSteps_val (ctag := ctag) (w := w) (k := k) (b := b)
      (base := base) (s := { s with atomic := s.atomic + 1 }) (S.atomic s _ hs) hc (by simp [ha])
    unfold wp at h1 ⊢
    rw [run_masked]
    rcases hx : (secureSteps ctag w k b).run { s with atomic := s.atomic + 1 } with ⟨a, t⟩ | ⟨e, t⟩ <;>
      simp only [hx] at h1 ⊢
    · exact ⟨h1.1, S.atomic t _ h1.2.1, by simp [h1.2.2]⟩
    · cases e
      · exact ⟨S.atomic t _ h1.1, by simp [h1.2]⟩
      all_goals exact h1
  have tail : ∀ (r : Except Status (Option Bytes)) (t : State), (∀ o, r = .ok o → ReadAs c ctag k o t.ssr) → P t →
      t.atomic = base → wp (do let u ← MonadState.get; Machine.setSsrOut u.ssr; Pure.pure (r, u.ssr))
        (fun r t => (∀ o, r.1 = .ok o → ReadAs c ctag k o r.2) ∧ P t ∧ t.atomic = base) (Exit P base base) t :=
    fun r t hl ht hn => ⟨hl, S.ssrOut t _ ht, hn⟩
  refine wp_bind.2 (wp_get.2 ?_)
  dsimp only
  split
  · refine wp_bind.2 (wp_attempt.2 (wp_mono hm ?_ ?_))
    · rintro r t ⟨h, ht⟩
      exact tail _ t (fun o ho => by cases ho; exact h) ht.1 ht.2
    · intro e t h
      cases e with
      | raise st =>
        dsimp only
        split
        · exact tail _ _ (fun _ h => by cases h) (S.distrust t h.1) h.2
        · exact tail _ _ (fun _ h => by cases h) h.1 h.2
      | _ => exact h
  · exact tail _ _ (fun _ h => by cases h) hs ha

theorem secureOrRaise_val {ctag : Word} {w : Bytes} {k : Nat} {b : Bool} {c : Config.Params} {s : State} (hs : P s)
    (hc : s.cfg = c) (ha : s.atomic = base) :
    wp (secureOrRaise ctag w k b) (fun r t => ReadAs c ctag k r.1 r.2 ∧ P t ∧ t.atomic = base)
      (Exit P base base) s := by
  refine wp_bind.2 (wp_mono (S.secure_val hs hc ha) ?_ fun _ _ h => h)
  rintro ⟨r, sv⟩ t ⟨hl, ht⟩
  cases r with
  | error st => exact ht
  | ok r => exact ⟨hl r rfl, ht⟩

theorem secureOrRaise {ctag : Word} {w : Bytes} {k : Nat} {b : Bool} :
    Keeps P base base (secureOrRaise ctag w k b) := fun _ hs ha =>
  wp_mono (S.secureOrRaise_val hs rfl ha) (fun _ _ h => h.2) fun _ _ h => h

theorem secure {ctag : Word} {w : Bytes} {k : Nat} {b : Bool} : Keeps P base base (secure ctag w k b) :=
  fun _ hs ha => wp_mono (S.secure_val hs rfl ha) (fun _ _ h => h.2) fun _ _ h => h

/-! ### Counter and classification -/

theorem getMc : Keeps P base base getMc := by
  intro s hs ha
  have S' := S.withCfg s.cfg
  refine wp_bind.2 (wp_get.2 (wp_bind.2 (wp_mono (S'.secureOrRaise_val ⟨hs, rfl⟩ rfl ha) ?_ fun _ _ h => h.weaken)))
  rintro ⟨r, sv⟩ t ⟨hr, ht⟩
  dsimp only
  split
  · exact ⟨ht.1.1, ht.2⟩
  · rename_i he
    refine wp_bind.2 (wp_mono (wp_present hr (by decide) ht.1.2 (fun hw => .inr (by simpa using (wire_ne_setScr hw).1))
      (fun _ => by simpa using he) ht.1.1 ht.2) ?_ fun _ _ h => h)
    intro b u hu
    exact hu.2

end Quiet

namespace Stable

variable (S : Stable P)
include S

/-- The parameters stay, whatever else does. -/
theorem withCfg (c : Config.Params) : Stable (fun t => P t ∧ t.cfg = c) where
  toQuiet := S.toQuiet.withCfg c
  rbuf s b h := ⟨S.rbuf s b h.1, h.2⟩
  sigOut s b hb h := ⟨S.sigOut s b hb h.1, h.2⟩
  ctagOut s v h := ⟨S.ctagOut s v h.1, h.2⟩
  begun s h := ⟨S.begun s h.1, h.2⟩
  prng s n h := ⟨S.prng s n h.1, h.2⟩
  counter s _ _ _ hv h := ⟨S.counter s _ _ _ hv h.1, h.2⟩
  tick s hi hl h := ⟨S.tick s hi hl h.1, h.2⟩
  ctxIdx s i h := ⟨S.ctxIdx s i h.1, h.2⟩
  ctx s i c hk hs hc hd h := ⟨S.ctx s i c hk hs hc hd h.1, by cases i <;> exact h.2⟩

theorem setRbuf (b : Bytes) : Keeps P base n (setRbuf b) := .modify (fun s => S.rbuf s b) fun _ => rfl
theorem setSigOut {b : Bytes} (h : b.length = 8) : Keeps P base n (setSigOut b) :=
  .modify (fun s => S.sigOut s b h) fun _ => rfl
theorem setCtagOut (c : Word) : Keeps P base n (setCtagOut c) := .modify (fun s => S.ctagOut s c) fun _ => rfl
theorem unspecifyResults : Keeps P base n unspecifyResults := .modify S.begun fun _ => rfl
theorem setCtxIdx (i : Bool) : Keeps P base n (setCtxIdx i) := .modify (fun s => S.ctxIdx s i) fun _ => rfl
theorem draw (c : Config.CryptoCall) (f : Nat → α) : Keeps P base n (draw c f) :=
  .bind (S.log (by simp)) fun _ => .look fun u hu ha => ⟨S.prng u _ hu, ha⟩

theorem drawAddr (a : Word) : Keeps P base n (drawAddr a) :=
  .bind (S.draw _ _) fun _ => .look' fun _ => .pure _

theorem afterFetch (r : Except Status (Word × Word)) (s : State) (hs : P s) : P (s.afterFetch r) := by
  unfold State.afterFetch
  split
  · split
    · exact S.counter s _ _ _ (by assumption) hs
    · exact S.distrust s hs
  · exact S.distrust s hs

theorem forcedFetch : Keeps P base base forcedFetch :=
  .look' fun _ => .bind (.attempt S.getMc) fun r => .bind (S.setSsrOut _) fun _ =>
    .bind (.modify (S.afterFetch r) fun s => by
      unfold State.afterFetch; split
      · split <;> rfl
      · rfl) fun _ => .onlyIf S.setInSync_false

/-- The classification is of the word given, whatever the fetch does. -/
theorem checkSsrErrors_val {raw mask : Word} {s : State} (hs : P s) (ha : s.atomic = base) :
    wp (Machine.checkSsrErrors raw mask) (fun st t => st = classify s.cfg.ssr raw mask ∧ P t ∧ t.atomic = base)
      (Exit P base base) s := by
  refine wp_bind.2 (wp_bind.2 ?_)
  show wp (do Machine.onlyIf (hasError s.cfg.ssr raw) Machine.forcedFetch; Machine.phase .classify;
              Pure.pure (classify s.cfg.ssr raw mask)) _ _ { s with seq := .classify }
  refine wp_bind.2 (wp_mono (Keeps.onlyIf S.forcedFetch _ (S.seq s _ hs) ha) ?_ fun _ _ h => h)
  intro _ t ht
  exact ⟨rfl, S.seq t _ ht.1, ht.2⟩

theorem checkSsrErrors {raw mask : Word} : Keeps P base base (checkSsrErrors raw mask) := fun _ hs ha =>
  wp_mono (S.checkSsrErrors_val hs ha) (fun _ _ h => h.2) fun _ _ h => h

theorem checkOrRaise {raw mask : Word} : Keeps P base base (checkOrRaise raw mask) :=
  .bind (S.checkSsrErrors) fun _ => .okOrRaise _

/-- The check under which nothing is tolerated goes on only where there is no error bit. -/
theorem checkAllOrRaise_val {sv : Word} {s : State} (hs : P s) (ha : s.atomic = base) :
    wp (Machine.checkAllOrRaise sv) (fun _ t => (paramsWf s.cfg = true → hasError s.cfg.ssr sv = false) ∧ P t
      ∧ t.atomic = base) (Exit P base base) s := by
  refine wp_bind.2 (wp_get.2 (wp_bind.2 (wp_mono (S.checkSsrErrors_val hs ha) ?_ fun _ _ h => h)))
  rintro st t ⟨rfl, ht⟩
  unfold Machine.okOrRaise
  split
  · rename_i hok
    exact ⟨fun hw => by
      by_contra he
      exact classify_all_ne_ok hw (by simpa using he) hok, ht⟩
  · exact ht

theorem checkAllOrRaise {raw : Word} : Keeps P base base (checkAllOrRaise raw) := .look' fun _ => S.checkOrRaise

/-- After `synch_MC` the counter copy is trusted. -/
theorem synchMc_val {s : State} (hs : P s) (ha : s.atomic = base) :
    wp synchMc (fun _ t => t.mc.inSync = true ∧ P t ∧ t.atomic = base) (Exit P base base) s := by
  refine wp_bind.2 ?_
  show wp (if _ then _ else _) _ _ s
  split
  · exact ⟨by assumption, hs, ha⟩
  · refine wp_bind.2 (wp_bind.2 (wp_mono (S.getMc _ (S.seq s _ hs) ha) ?_ fun _ _ h => h))
    rintro ⟨tc, dmc⟩ t ht
    refine wp_bind.2 (wp_require (fun hv => ?_) fun _ => ht)
    exact ⟨rfl, S.counter t _ _ _ hv ht.1, ht.2⟩

theorem synchMc : Keeps P base base synchMc := fun _ hs ha =>
  wp_mono (S.synchMc_val hs ha) (fun _ _ h => h.2) fun _ _ h => h

theorem useMc : Keeps P base base useMc := by
  intro s hs ha
  refine wp_bind.2 (wp_mono (S.synchMc_val hs ha) ?_ fun _ _ h => h)
  rintro _ t ⟨hi, ht⟩
  refine wp_bind.2 (wp_bind.2 (wp_require (fun hv => ?_) fun _ => ht))
  have h1 := S.tick t hi (of_decide_eq_true hv) ht.1
  refine wp_bind.2 (wp_set.2 ?_)
  split <;> exact ⟨h1, ht.2⟩

end Stable

end Sys2Proof.Machine
end

