-- ==== Sys2Proof/Laws/KeepsExec.lean ====
section
/-! SUPPORT. What each operation keeps, whatever the device does: setters, getters, page reads, multi-block
reads, wire and bus commands, sessions, and `exec` as a whole. -/

namespace Sys2Proof.Machine

open Config (Event)

variable {α β : Type} {P : State → Prop} {base n : Nat}

/-- How an operation that keeps `P` ends: it completes, or polls for ever, or is cut off by the reset input; and it
goes on, unless the parameters break their constraints. -/
def Ends (P : State → Prop) (base : Nat) : Host.Outcome State Fault Refusal → Prop
  | .next t =>
    (∃ st u, t = complete st u ∧ P u ∧ u.atomic = base)
      ∨ (P t ∧ t.atomic = base + 1 ∧ (t.seq = .wait ∨ t.seq = .poll))
      ∨ ∃ u, t = u.blockReset ∧ P u
  | .fault _ => ∃ u, P u ∧ paramsWf u.cfg ≠ true
  | .refused _ => False

/-- An operation whose procedure keeps `P` ends as `Ends` says. -/
theorem Keeps.runOp {x : M Unit} (h : Keeps P base base x) {s : State} (hs : P s) (ha : s.atomic = base) :
    Ends P base (runOp x s) := by
  have h1 := h s hs ha
  unfold wp at h1
  rw [runOp_eq]
  rcases hx : x.run s with ⟨a, u⟩ | ⟨e, u⟩ <;> simp only [hx] at h1 ⊢
  · exact .inl ⟨_, _, rfl, h1⟩
  · cases e
    · exact .inl ⟨_, _, rfl, h1⟩
    · exact .inr (.inl h1)
    · exact .inr (.inr ⟨u, rfl, h1⟩)
    · exact ⟨u, h1⟩

theorem Ends.weaken {Q R : State → Prop} {base : Nat} {o : Host.Outcome State Fault Refusal}
    (h : Ends (fun t => Q t ∧ R t) base o) : Ends Q base o := by
  cases o with
  | next t =>
    rcases h with ⟨st, u, e, h, a⟩ | ⟨h, a⟩ | ⟨u, e, h⟩
    · exact .inl ⟨st, u, e, h.1, a⟩
    · exact .inr (.inl ⟨h.1, a⟩)
    · exact .inr (.inr ⟨u, e, h.1⟩)
  | fault f => exact h.elim fun u h => ⟨u, h.1.1, h.2⟩
  | refused r => exact h

theorem length_cipherPage {ck b : Bytes} (h : b.length = 32) : (cipherPage ck b).length = 32 := by
  unfold cipherPage; dsimp only; split
  · exact length_fit _ _
  · exact h

theorem length_pageOf {r : Bytes} (h : 36 ≤ r.length) : (pageOf r).length = 32 := by
  simp only [pageOf, List.length_take, List.length_drop, Config.pageSize]; omega

theorem atomic_prepared {s : State} {ctag : Word} {data : Bytes} {encData encAddr : Bool} :
    (s.prepared ctag data encData encAddr).atomic = s.atomic := by
  unfold State.prepared; dsimp only; split <;> simp [State.signed]

namespace Stable

variable (S : Stable P)
include S

theorem called {s : State} (cs : List Config.CryptoCall) (hs : P s) : P (s.called cs) := by
  induction cs generalizing s with
  | nil => exact hs
  | cons c cs ih =>
    have h := ih (s := s.called [c]) (S.logEvent s _ (by simp) hs)
    have e : (s.called [c]).called cs = s.called (c :: cs) := by simp [State.called]
    rwa [e] at h

theorem signed {s : State} {ctag : Word} {data : Bytes} {refresh : Bool} (hs : P s) :
    P (s.signed ctag data refresh) := by
  refine S.called _ (S.ctx _ _ _ ?_ ?_ ?_ ?_ hs)
  · cases refresh <;> rfl
  · cases refresh
    · exact id
    · exact fun _ => length_fit _ _
  · cases refresh <;> exact id
  · exact fun _ => length_fit _ _

theorem prepared {s : State} {ctag : Word} {data : Bytes} {encData encAddr : Bool} (hs : P s) :
    P (s.prepared ctag data encData encAddr) := by
  unfold State.prepared
  dsimp only
  split
  · refine S.called _ (S.ctx _ _ _ ?_ ?_ ?_ ?_ (S.signed hs))
    · rfl
    · exact id
    · intro _
      simp [setterCipherKey, cipherKeyOf, State.signed]
    · exact id
  · exact S.signed hs

theorem signData_val {ctag : Word} {data : Bytes} {refresh : Bool} {s : State} (hs : P s) (ha : s.atomic = n) :
    wp (signData ctag data refresh) (fun b t => b.length = 8 ∧ P t ∧ t.atomic = n) (Exit P base n) s := by
  rw [wp_ok (run_signData ..)]
  exact ⟨length_fit _ _, S.seq _ _ (S.signed hs), by simp [State.signed, ha]⟩

theorem prepareSetter_val {ctag : Word} {data : Bytes} {encData encAddr : Bool} {s : State} (hs : P s)
    (ha : s.atomic = n) :
    wp (prepareSetter ctag data encData encAddr) (fun b t => b.2.1.length = 8 ∧ P t ∧ t.atomic = n)
      (Exit P base n) s := by
  rw [wp_ok (run_prepareSetter ..)]
  exact ⟨length_fit _ _, S.seq _ _ (S.prepared hs), by show (s.prepared ..).atomic = n; rw [atomic_prepared, ha]⟩

theorem runSetter {ctag : Word} {data : Bytes} {encData encAddr : Bool} {mask : Word} :
    Keeps P base base (runSetter ctag data encData encAddr mask) :=
  .bind S.useMc fun _ => .bind
    (fun _ hs ha => wp_mono (S.prepareSetter_val hs ha) (fun _ _ h => h.2) fun _ _ h => h) fun _ =>
    .bind S.secureOrRaise fun _ => S.checkOrRaise

theorem runCalcSig {dtype sect : Byte} {size : Nat} : Keeps P base base (runCalcSig dtype sect size) := by
  intro s hs ha
  have S' := S.withCfg s.cfg
  refine wp_bind.2 (wp_get.2 (wp_bind.2 (wp_mono (S'.useMc s ⟨hs, rfl⟩ ha) ?_ fun _ _ h => h.weaken)))
  intro _ t ht
  refine wp_bind.2 (wp_mono (S'.secureOrRaise_val ht.1 ht.1.2 ht.2) ?_ fun _ _ h => h.weaken)
  rintro ⟨r, sv⟩ t ⟨hr, ht⟩
  refine wp_bind.2 (wp_mono (S'.checkAllOrRaise_val ht.1 ht.2) ?_ fun _ _ h => h.weaken)
  rintro _ u ⟨he, hu⟩
  rw [ht.1.2] at he
  refine wp_bind.2 (wp_mono (wp_present (P := fun t => P t ∧ t.cfg = s.cfg) hr (by decide) hu.1.2
    (fun hw => .inr (by rw [ctagOpc_calcSigCtag]; exact (wire_ne_setScr hw).2.1)) he hu.1 hu.2) ?_ fun _ _ h => h.weaken)
  rintro b v ⟨hb, hv⟩
  refine Keeps.bind (S.phase _) (fun _ => ?_) v hv.1.1 hv.2
  refine .bind_val (V := fun r => r.length = 8) (fun s hs ha => S.signData_val hs ha) fun b _ => ?_
  exact .bind .require fun _ => .look' fun _ => .bind .require fun _ => .bind (S.setRbuf _) fun _ =>
    S.setSigOut (by simp [hb])

/-- The prepared context holds a CTAG of the opcode. -/
theorem prepRead_val {opc : Byte} {a : Word} {slot : Bool} {s : State} (hs : P s) (ha : s.atomic = base) :
    wp (Machine.prepRead opc a slot) (fun _ t => ctagOpc (t.ctx slot).ctagW = opc ∧ P t ∧ t.atomic = base)
      (Exit P base base) s := by
  refine wp_bind.2 (wp_mono (S.phase .derive s hs ha) ?_ fun _ _ h => h)
  intro _ s hs
  refine wp_bind.2 (wp_mono (S.drawAddr a s hs.1 hs.2) ?_ fun _ _ h => h)
  intro ar s hs
  refine wp_bind.2 (wp_mono (S.useMc s hs.1 hs.2) ?_ fun _ _ h => h)
  intro tc s hs
  refine wp_bind.2 (wp_mono (S.phase .derive s hs.1 hs.2) ?_ fun _ _ h => h)
  rintro _ s ⟨hs, ha⟩
  refine wp_bind.2 (wp_get.2 ?_)
  have h1 : P ((s.called [.refreshSsk, .buildCipherKey, .addressKey]).withCtx slot { s.ctx slot with
      tc := tc.1
      ssk := sskOf s.cfg (s.ctx slot).key tc.1
      cipherKey := cipherKeyOf s.cfg (sskOf s.cfg (s.ctx slot).key tc.1) s.kid .decrypt
      ctagW := mkCtagAddr opc (encryptAddr s.cfg (addr24 ar)
        (cipherKeyOf s.cfg (sskOf s.cfg (s.ctx slot).key tc.1) s.kid .decrypt)) }) :=
    S.ctx _ _ _ rfl (fun _ => length_fit _ _) (fun _ => length_fit _ _) id (S.called _ hs)
  refine ⟨?_, h1, by cases slot <;> exact ha⟩
  cases slot <;> exact ctagOpc_mkCtagAddr _ _

theorem prepRead {opc : Byte} {a : Word} {slot : Bool} : Keeps P base base (prepRead opc a slot) := fun _ hs ha =>
  wp_mono (S.prepRead_val hs ha) (fun _ _ h => h.2) fun _ _ h => h

theorem pageSigned {opc : Byte} {a : Word} {slot : Bool} {p r : Bytes} (hp : p.length = 32) :
    Keeps P base n (pageSigned opc a slot p r) := by
  refine .bind (.modify (fun s hs => S.ctx s _ _ rfl id id (fun _ => hp) hs) fun s => by simp) fun _ => ?_
  exact .look' fun _ => .bind (S.cryptoCall _ _) fun _ => .pure _

theorem readPage_val {opc : Byte} {a : Word} {slot : Bool} {len : Nat} (hlen : 36 ≤ len) {s : State}
    (ho : paramsWf s.cfg = true → opc ≠ s.cfg.wire.setScr) (hs : P s) (ha : s.atomic = base) :
    wp (readPage opc a slot len) (fun r t => r.2.length = 32 ∧ P t ∧ t.atomic = base) (Exit P base base) s := by
  have S' := S.withCfg s.cfg
  refine wp_bind.2 (wp_mono (S'.prepRead_val ⟨hs, rfl⟩ ha) ?_ fun _ _ h => h.weaken)
  rintro _ t ⟨hctag, ht⟩
  refine wp_bind.2 (wp_get.2 (wp_bind.2 (wp_mono (S'.secureOrRaise_val ht.1 ht.1.2 ht.2) ?_ fun _ _ h => h.weaken)))
  rintro ⟨r, sv⟩ u ⟨hr, hu⟩
  refine wp_bind.2 (wp_mono (S'.checkAllOrRaise_val hu.1 hu.2) ?_ fun _ _ h => h.weaken)
  rintro _ v ⟨he, hv⟩
  rw [hu.1.2] at he
  refine wp_bind.2 (wp_mono (wp_present (P := fun t => P t ∧ t.cfg = s.cfg) hr (by omega) hv.1.2 (fun hw => .inr (by rw [hctag]; exact ho hw))
    he hv.1 hv.2) ?_ fun _ _ h => h.weaken)
  rintro b v ⟨hb, hv⟩
  refine wp_bind.2 (wp_bind.2 (wp_get.2 (wp_bind.2 (wp_require (fun _ => ?_) fun _ => ?_))))
  · refine wp_bind.2 ?_
    exact ⟨length_cipherPage (length_pageOf (by omega)), S.called [.cipher] (S.seq v _ hv.1.1), hv.2⟩
  · exact ⟨S.seq v _ hv.1.1, hv.2⟩

/-! ### Multi-block reads -/

theorem drain : Keeps P base base drain := by
  refine .look' fun u => .onlyIf ?_
  intro s hs ha
  refine wp_bind.2 (wp_bind.2 (wp_attempt.2 (wp_mono (S.busyWait (base := base) { s with atomic := s.atomic + 1 }
    (S.atomic s _ hs) (by simp [ha])) ?_ ?_)))
  · intro _ t ht
    exact ⟨S.atomic _ _ (S.inFlight t _ ht.1), by simp [ht.2]⟩
  · intro e t h
    cases e with
    | raise st => exact ⟨S.atomic _ _ (S.inFlight t _ h.1), by simp [h.2]⟩
    | _ => exact h

/-- `Fail` never returns. -/
theorem failMulti_val {st : Status} {done : Bytes} {size : Nat} {Q : α → State → Prop} {s : State} (hs : P s)
    (ha : s.atomic = base) : wp (failMulti st done size : M α) Q (Exit P base base) s := by
  refine wp_bind.2 (wp_mono (S.drain s hs ha) ?_ fun _ _ h => h)
  intro _ t ht
  refine wp_bind.2 (wp_get.2 (wp_bind.2 (wp_mono (Keeps.onlyIf (S.setRbuf _) t ht.1 ht.2) ?_ fun _ _ h => h)))
  intro _ u hu
  exact hu

theorem orFailMulti_val {x : M α} {done : Bytes} {size : Nat} {V : α → Prop} {s : State}
    (h : wp x (fun a t => V a ∧ P t ∧ t.atomic = base) (Exit P base base) s) :
    wp (orFailMulti x done size) (fun a t => V a ∧ P t ∧ t.atomic = base) (Exit P base base) s := by
  refine wp_bind.2 (wp_attempt.2 (wp_mono h (fun _ _ h => h) ?_))
  intro e t h
  cases e with
  | raise st => exact S.failMulti_val h.1 h.2
  | _ => exact h

theorem orFailMulti {x : M α} {done : Bytes} {size : Nat} (h : Keeps P base base x) :
    Keeps P base base (orFailMulti x done size) := fun s hs ha =>
  wp_mono (S.orFailMulti_val (V := fun _ => True) (wp_mono (h s hs ha) (fun _ _ h => ⟨trivial, h⟩) fun _ _ h => h))
    (fun _ _ h => h.2) fun _ _ h => h

theorem startRead {slot : Bool} : Keeps P base base (startRead slot) :=
  .look' fun _ => .bind S.secureOrRaise fun _ => .pure _

/-- The error check after step 4 goes on only where there is no error bit. -/
theorem checkPage_val {sv : Word} {done : Bytes} {size : Nat} {s : State} (hs : P s) (ha : s.atomic = base) :
    wp (checkPage sv done size) (fun _ t => hasError s.cfg.ssr sv = false ∧ P t ∧ t.atomic = base)
      (Exit P base base) s := by
  refine wp_bind.2 (wp_get.2 (wp_onlyIf (fun _ => ?_) fun h => ⟨h, hs, ha⟩))
  refine wp_bind.2 (wp_mono (S.drain s hs ha) ?_ fun _ _ h => h)
  intro _ t ht
  refine wp_bind.2 (wp_mono (S.checkSsrErrors t ht.1 ht.2) ?_ fun _ _ h => h)
  intro _ u hu
  exact S.failMulti_val hu.1 hu.2

theorem verifyPage {m : MultiRead} {a : Word} {old : Bool} {r : Bytes} (hr : 36 ≤ r.length) :
    Keeps P base base (verifyPage m a old r) := by
  refine .bind (S.phase _) fun _ => .look' fun u => .bind .require fun _ => ?_
  refine .bind_val (V := fun p => p.length = 32) (fun s hs ha => ?_) fun p hp => ?_
  · exact ⟨length_cipherPage (length_pageOf hr), S.called [.cipher] hs, ha⟩
  · exact .bind (.onlyIf (.bind (S.pageSigned hp) fun _ => .require)) fun _ => .pure _

theorem pagesLoop {m : MultiRead} (hm : 36 ≤ m.len) (rest : Nat) (a : Word) (old : Bool) (done : Bytes) :
    Keeps P base base (pagesLoop m rest a old done) := by
  induction rest generalizing a old done with
  | zero => exact .pure _
  | succ rest ih =>
    intro s hs ha
    have S' := S.withCfg s.cfg
    refine wp_bind.2 (wp_mono (Keeps.onlyIf (Keeps.bind (S'.setCtxIdx _) fun _ => orFailMulti S' (prepRead S'))
      s ⟨hs, rfl⟩ ha) ?_ fun _ _ h => h.weaken)
    intro _ t ht
    refine wp_bind.2 (wp_mono (orFailMulti_val S' (V := fun r => ReadAs s.cfg 0 m.len r.1 r.2)
      (S'.secureOrRaise_val ht.1 ht.1.2 ht.2)) ?_ fun _ _ h => h.weaken)
    rintro ⟨r, sv⟩ t ⟨hr, ht⟩
    refine wp_bind.2 (wp_mono (Keeps.onlyIf (orFailMulti S' (startRead S')) t ht.1 ht.2) ?_ fun _ _ h => h.weaken)
    intro _ t ht
    refine wp_bind.2 (wp_mono (checkPage_val S' ht.1 ht.2) ?_ fun _ _ h => h.weaken)
    rintro _ u ⟨he, hu⟩
    rw [ht.1.2] at he
    refine wp_bind.2 (wp_mono (wp_present (P := fun t => P t ∧ t.cfg = s.cfg) hr (by omega) hu.1.2 (fun _ => .inl rfl) (fun _ => he) hu.1 hu.2) ?_
      fun _ _ h => h.weaken)
    rintro b v ⟨hb, hv⟩
    exact Keeps.bind (orFailMulti S (verifyPage S (by omega))) (fun p => ih _ _ _) v hv.1.1 hv.2

theorem readMulti {m : MultiRead} (hm : 36 ≤ m.len) {a : Word} : Keeps P base base (readMulti m a) :=
  .look' fun _ => .bind S.prepRead fun _ => .bind (S.orFailMulti S.startRead) fun _ =>
    .bind (S.pagesLoop hm _ _ _ _) fun _ => S.setRbuf _

/-! ### Sessions -/

/-- A handshake keeps what lets `kid` be written; the session key has its width. -/
theorem handshake_val {k : Byte} {key : Bytes} {w g : Bool} {len : Nat} (hk : ∀ t, P t → P { t with kid := k })
    (hlen : ∀ t, P t → t.cfg.keyBytes = len) {s : State} (hs : P s) (ha : s.atomic = base) :
    wp (handshake k key w g) (fun r t => r.1.length = len ∧ P t ∧ t.atomic = base) (Exit P base base) s := by
  refine wp_bind.2 (wp_mono (S.phase .derive s hs ha) ?_ fun _ _ h => h)
  rintro _ t ht
  refine wp_bind.2 (wp_mono (S.draw _ _ t ht.1 ht.2) ?_ fun _ _ h => h)
  rintro nonce t ht
  refine wp_bind.2 (wp_get.2 (wp_bind.2 (wp_mono (S.useMc t ht.1 ht.2) ?_ fun _ _ h => h)))
  rintro ⟨tc, dmc⟩ u hu
  have hu' := S.seq u .derive hu.1
  have tail : ∀ v : State, P v → v.atomic = base → ∀ (ctag : Word) (b sk : Bytes), sk.length = len →
      wp (do let (_, sv) ← Machine.secureOrRaise ctag b 0 true; pure (sk, sv))
        (fun r t => r.1.length = len ∧ P t ∧ t.atomic = base) (Exit P base base) v := by
    intro v hv hn ctag b sk hl
    refine wp_bind.2 (wp_mono (S.secureOrRaise v hv hn) ?_ fun _ _ h => h)
    intro r x hx
    exact ⟨hl, hx⟩
  refine wp_bind.2 (wp_bind.2 (wp_bind.2 ?_))
  exact tail _ (hk _ (S.called [.deriveSession] hu')) hu.2 _ _ _
    ((length_fit _ _).trans (hlen _ (S.called [.deriveSession] hu')))

theorem openSession {k : Byte} {key : Bytes} {w g : Bool} {len : Nat} (hk : ∀ t, P t → P { t with kid := k })
    (hlen : ∀ t, P t → t.cfg.keyBytes = len) (hkeys : ∀ t b, b.length = len → P t → P (t.withKeys b)) :
    Keeps P base base (openSession k key w g) := by
  refine .bind_val (V := fun r => ∀ b, r = .ok b → b.length = len) (fun s hs ha => ?_) fun r hr => ?_
  · refine wp_attempt.2 ?_
    refine wp_bind.2 (wp_mono (S.handshake_val hk hlen hs ha) ?_ ?_)
    · rintro ⟨sk, sv⟩ t ⟨hl, ht⟩
      refine wp_bind.2 (wp_get.2 (wp_bind.2 (wp_mono (S.checkOrRaise t ht.1 ht.2) ?_ ?_)))
      · rintro _ u hu
        refine wp_bind.2 (wp_require (fun _ => ⟨fun b hb => by cases hb; exact hl, hu⟩)
          fun _ => ⟨fun b hb => (by cases hb), hu⟩)
      · intro e u hu
        cases e with
        | raise st => exact ⟨fun b hb => (by cases hb), hu⟩
        | _ => exact hu
    · intro e u hu
      cases e with
      | raise st => exact ⟨fun b hb => (by cases hb), hu⟩
      | _ => exact hu
  · cases r with
    | ok sk => exact .modify (fun t => hkeys t sk (hr sk rfl)) fun _ => rfl
    | error st => exact .bind (S.phase _) fun _ => .bind S.closeSession fun _ => .raise _

theorem initPa {sect : Byte} : Keeps P base base (initPa sect) :=
  .bind S.useMc fun _ => .look' fun _ => .bind S.secureOrRaise fun _ => S.checkAllOrRaise

theorem closeHandshake {k : Byte} {len : Nat} (hk : ∀ t, P t → P { t with kid := k })
    (hlen : ∀ t, P t → t.cfg.keyBytes = len) : Keeps P base base (closeHandshake k) :=
  .look' fun _ => .bind (fun _ hs ha => wp_mono (S.handshake_val hk hlen hs ha) (fun _ _ h => h.2) fun _ _ h => h)
    fun _ => .bind S.checkOrRaise fun _ => .look' fun _ => .require

/-! ### Whole operations -/

theorem standard {op : Byte} {addr : Option Word} {sz : Byte} {w : Bytes} {k : Nat} {d : Byte} {we wb : Bool} :
    Keeps P base base (standard op addr sz w k d we wb) :=
  S.masked (.bind (S.phase _) fun _ => .look' fun _ => .bind (.onlyIf (S.bareExchange _)) fun _ =>
    .bind S.exchange fun _ => .bind (.onlyIf S.busyWait) fun _ => .pure _)

theorem wireCommand {ctag : Word} {w : Bytes} {k : Nat} {s : State} (hs : P s)
    (ha : s.atomic = base) : Ends P base (Machine.wireCommand ctag w k s) := by
  refine Keeps.runOp (.bind S.unspecifyResults fun _ => .bind S.secureOrRaise fun r => ?_) hs ha
  rcases r with ⟨r, sv⟩
  cases r
  · exact .pure _
  · exact S.setRbuf _

theorem busCommand {x : M Unit} (hx : Keeps P base (base + 1) x) {s : State} (hs : P s)
    (ha : s.atomic = base) : Ends P base (Machine.busCommand x s) :=
  Keeps.runOp (.bind .require fun _ => .bind S.unspecifyResults fun _ => S.masked hx) hs ha

theorem namedSetter {opc param : Byte} {mode size : BitVec 16} {mask : Word} {ok : Bool} {s : State} (hs : P s)
    (ha : s.atomic = base) : Ends P base (Machine.namedSetter opc param mode size mask ok s) :=
  Keeps.runOp (.bind .require fun _ => .bind .require fun _ => .bind S.unspecifyResults fun _ => S.runSetter) hs ha

theorem signedGetter {dtype sect : Byte} {size : BitVec 16} {s : State} (hs : P s)
    (ha : s.atomic = base) : Ends P base (Machine.signedGetter dtype sect size s) :=
  Keeps.runOp (.bind .require fun _ => .bind .require fun _ => .bind S.unspecifyResults fun _ => S.runCalcSig) hs ha

theorem addressErase {opc : Byte} {a : Word} {s : State} (hs : P s)
    (ha : s.atomic = base) : Ends P base (Machine.addressErase opc a s) :=
  Keeps.runOp (.bind .require fun _ => .bind .require fun _ => .bind S.unspecifyResults fun _ =>
    .bind (S.drawAddr _) fun _ => S.runSetter) hs ha

theorem multiRead {m : MultiRead} (hm : 36 ≤ m.len) {a size : Word} {s : State} (hs : P s)
    (ha : s.atomic = base) : Ends P base (Machine.multiRead m a size s) :=
  Keeps.runOp (.bind .require fun _ => .bind .require fun _ => .bind S.unspecifyResults fun _ => S.readMulti hm) hs ha

theorem execSessionOpen {k : Byte} {hasKey w g : Bool} {len : Nat} {s : State}
    (hk : kidOk s k = true → ∀ t, P t → P { t with kid := k })
    (hlen : ∀ t, P t → t.cfg.keyBytes = len) (hkeys : ∀ t b, b.length = len → P t → P (t.withKeys b)) (hs : P s)
    (ha : s.atomic = base) : Ends P base (Machine.execSessionOpen k hasKey w g s) := by
  refine Keeps.runOp (.bind .require fun _ => ?_) hs ha
  cases hv : kidOk s k
  · exact fun s hs ha => ⟨hs, ha⟩
  · refine .bind (.pure _) fun _ => ?_
    split
    · exact .raise _
    · exact .bind S.unspecifyResults fun _ => S.openSession (hk hv) hlen hkeys

theorem execSessionClose {k : Byte} {len : Nat} {s : State} (hk : kidOk s k = true → ∀ t, P t → P { t with kid := k })
    (hlen : ∀ t, P t → t.cfg.keyBytes = len) (hs : P s)
    (ha : s.atomic = base) : Ends P base (Machine.execSessionClose k s) := by
  refine Keeps.runOp (.bind .require fun _ => ?_) hs ha
  cases hv : kidOk s k
  · exact fun s hs ha => ⟨hs, ha⟩
  · exact .bind (.pure _) fun _ => .bind S.unspecifyResults fun _ => .bind (.attempt (S.closeHandshake (hk hv) hlen))
      fun _ => .bind (S.phase _) fun _ => .bind S.closeSession fun _ => .orRaise _

theorem execSessionCloseRevoke {k : Byte} {s : State} (hk : ∀ t, P t → P { t with kid := Config.kidInvalid })
    (hpa : ∀ t i, P t → P { t with conf := { t.conf with
      paEnabled := t.conf.paEnabled &&& ~~~(BitVec.twoPow 16 i) } }) (hs : P s)
    (ha : s.atomic = base) : Ends P base (Machine.execSessionCloseRevoke k s) :=
  Keeps.runOp (.bind .require fun _ => .bind .require fun _ => .bind S.unspecifyResults fun _ => .bind S.initPa fun _ =>
    .bind (.modify (fun t => hpa t _) fun _ => rfl) fun _ => .modify hk fun _ => rfl) hs ha

omit S in
theorem setBusIsLocked (hb : ∀ t b, P t → P { t with busIsLocked := b }) (b : Bool) :
    Keeps P base n (setBusIsLocked b) := .modify (fun t => hb t b) fun _ => rfl

theorem execTmConnect (hb : ∀ t b, P t → P { t with busIsLocked := b }) {s : State} (hs : P s)
    (ha : s.atomic = base) : Ends P base (Machine.execTmConnect s) :=
  Keeps.runOp (.bind (S.masked (.look' fun _ => .bind .require fun _ => setBusIsLocked hb _))
    fun _ => S.unspecifyResults) hs ha

theorem execTmDisconnect (hb : ∀ t b, P t → P { t with busIsLocked := b }) {s : State} (hs : P s)
    (ha : s.atomic = base) : Ends P base (Machine.execTmDisconnect s) :=
  Keeps.runOp (.bind (S.masked (.look' fun _ => .bind .require fun _ => setBusIsLocked hb _))
    fun _ => S.unspecifyResults) hs ha

end Stable

/-- The instructions that change more than `Stable` allows. -/
def touchesSession : Instr → Bool
  | .tmConnect | .tmDisconnect | .sessionOpen _ _ _ _ | .sessionCloseRevoke _ | .sessionClose _ => true
  | _ => false

/-- Every other instruction keeps what is stable. -/
theorem Stable.exec (S : Stable P) {i : Instr} (hi : touchesSession i = false) {s : State} (hs : P s)
    (ha : s.atomic = base) : Ends P base (Machine.exec i s) := by
  have deliver : ∀ r : Option Bytes, Keeps P base base (deliver r) := fun r => by
    cases r
    · exact .pure _
    · exact S.setRbuf _
  cases i
  case tmConnect | tmDisconnect | sessionOpen | sessionCloseRevoke | sessionClose => cases hi
  case tmSecure =>
    exact Keeps.runOp (.bind S.unspecifyResults fun _ => .bind S.secureOrRaise fun r => deliver r.1) hs ha
  case tmStandard =>
    exact Keeps.runOp (.bind .require fun _ => .bind .require fun _ => .bind S.unspecifyResults fun _ =>
      .bind S.standard fun r => S.setRbuf r) hs ha
  case getLastSsr => exact Keeps.runOp (.bind S.unspecifyResults fun _ => S.setSsrOut _) hs ha
  case synchMc => exact Keeps.runOp (.bind S.unspecifyResults fun _ => S.synchMc) hs ha
  case getMcUnsigned => exact Keeps.runOp (.bind S.unspecifyResults fun _ => .bind S.getMc fun _ => S.setRbuf _) hs ha
  case checkLastSsrErrors =>
    exact Keeps.runOp (.bind S.unspecifyResults fun _ => .bind (S.setSsrOut _) fun _ => S.checkOrRaise) hs ha
  case signData =>
    refine Keeps.runOp (.bind .require fun _ => .bind S.unspecifyResults fun _ =>
      .bind_val (V := fun b => b.length = 8) (fun s hs ha => S.signData_val hs ha) fun b hb => S.setSigOut hb) hs ha
  case prepareSignedSetter =>
    refine Keeps.runOp (.bind .require fun _ => .bind S.unspecifyResults fun _ =>
      .bind_val (V := fun b => b.2.1.length = 8) (fun s hs ha => S.prepareSetter_val hs ha) fun b hb =>
        .bind (S.setCtagOut _) fun _ => .bind (S.setSigOut hb) fun _ => S.setRbuf _) hs ha
  case executeSignedSetter =>
    exact Keeps.runOp (.bind .require fun _ => .bind .require fun _ => .bind S.unspecifyResults fun _ => S.runSetter)
      hs ha
  case srd =>
    have S' := S.withCfg s.cfg
    refine (Keeps.runOp (P := fun t => P t ∧ t.cfg = s.cfg) (.bind .require fun _ => .bind .require fun _ =>
      .bind S'.unspecifyResults fun _ => .bind (fun u hs ha => wp_mono (S'.readPage_val (by decide) ?_ hs ha)
        (fun _ _ h => h.2) fun _ _ h => h) fun _ => S'.setRbuf _) ⟨hs, rfl⟩ ha).weaken
    intro hw
    rw [hs.2] at hw ⊢
    exact (wire_ne_setScr hw).2.2.1
  case sard =>
    have S' := S.withCfg s.cfg
    refine (Keeps.runOp (P := fun t => P t ∧ t.cfg = s.cfg) (.bind .require fun _ => .bind .require fun _ =>
      .bind S'.unspecifyResults fun _ => .bind_val (V := fun r => r.2.length = 32)
        (fun u hs ha => S'.readPage_val (by decide) ?_ hs ha) fun r hr => .bind (S'.pageSigned hr) fun good => ?_)
      ⟨hs, rfl⟩ ha).weaken
    · intro hw
      rw [hs.2] at hw ⊢
      exact (wire_ne_setScr hw).2.2.2
    · split
      · exact S'.setRbuf _
      · exact .bind (S'.setRbuf _) fun _ => .raise _
  case srdMulti => exact S.multiRead (Nat.le_refl 36) hs ha
  case sardMulti => exact S.multiRead (Nat.le_add_right 36 8) hs ha
  case sawr =>
    exact Keeps.runOp (.bind .require fun _ => .bind .require fun _ => .bind S.unspecifyResults fun _ =>
      .bind (S.drawAddr _) fun _ => S.runSetter) hs ha
  case seraseSection =>
    exact Keeps.runOp (.bind .require fun _ => .bind .require fun _ => .bind S.unspecifyResults fun _ => S.runSetter)
      hs ha
  case seraseChip =>
    exact Keeps.runOp (.bind .require fun _ => .bind S.unspecifyResults fun _ => S.runSetter) hs ha
  case op0 => exact S.busCommand (.bind (S.phase _) fun _ => S.op0) hs ha
  case op1 => exact S.busCommand (.bind (S.phase _) fun _ => S.op1) hs ha
  case op2 =>
    refine S.busCommand (.bind (S.phase _) fun _ => .bind ?_ fun _ => S.setRbuf _) hs ha
    exact fun s hs ha => wp_mono (S.op2_val hs ha) (fun _ _ h => h.2) fun _ _ h => h
  case stdWren => exact S.busCommand (.bind (S.phase _) fun _ => S.bareExchange _) hs ha
  case stdRsten => exact S.busCommand S.resetEnable hs ha
  case stdRst => exact S.busCommand S.resetDevice hs ha
  case setKey | setSuid | setGmc | setGmt | setAwdt | setScr | setRstResp | setAclr => exact S.namedSetter hs ha
  case getWid | getSuid | getSsrSigned | getGmc | getGmt | getAwdt | getScr | getHwVer | getMcSigned | calcSig =>
    exact S.signedGetter hs ha
  case serase4k | serase32k | serase64k => exact S.addressErase hs ha
  all_goals exact S.wireCommand hs ha

/-- What a property must allow to be kept by every operation begun in state `s`. -/
structure StableAll (P : State → Prop) (s : State) (len : Nat) : Prop where
  stable : Stable P
  lock : ∀ t b, P t → P { t with busIsLocked := b }
  kid : ∀ k, kidOk s k = true → ∀ t, P t → P { t with kid := k }
  noKid : ∀ t, P t → P { t with kid := Config.kidInvalid }
  pa : ∀ t i, P t → P { t with conf := { t.conf with paEnabled := t.conf.paEnabled &&& ~~~(BitVec.twoPow 16 i) } }
  width : ∀ t, P t → t.cfg.keyBytes = len
  keys : ∀ t b, b.length = len → P t → P (t.withKeys b)

/-- Every instruction keeps what all of that allows. -/
theorem StableAll.exec {s : State} {len : Nat} (A : StableAll P s len) {i : Instr} (hs : P s) :
    Ends P s.atomic (Machine.exec i s) := by
  by_cases hi : touchesSession i = false
  · exact A.stable.exec hi hs rfl
  · cases i
    case tmConnect => exact A.stable.execTmConnect A.lock hs rfl
    case tmDisconnect => exact A.stable.execTmDisconnect A.lock hs rfl
    case sessionOpen k _ _ _ => exact A.stable.execSessionOpen (A.kid k) A.width A.keys hs rfl
    case sessionClose k => exact A.stable.execSessionClose (A.kid k) A.width hs rfl
    case sessionCloseRevoke k => exact A.stable.execSessionCloseRevoke A.noKid A.pa hs rfl
    all_goals exact absurd rfl hi

/-- So does every request, whatever its code. -/
theorem StableAll.serve {s : State} {len : Nat} (A : StableAll P s len) {sp : Space} (hs : P s) :
    Ends P s.atomic (Machine.serve sp s) := by
  have S := A.stable
  unfold Machine.serve
  split
  · exact A.exec hs
  · unfold execUnassigned
    split
    · exact .inl ⟨_, _, rfl, hs, rfl⟩
    · exact S.wireCommand hs rfl
    · exact S.busCommand (.bind (S.phase _) fun _ => .look' fun _ => .bind S.exchange fun _ => S.setRbuf _) hs rfl
    · exact .inl ⟨_, _, rfl, hs, rfl⟩

end Sys2Proof.Machine
end

