-- ==== Sys2Proof/Laws/Operands.lean ====
section
/-! SUPPORT. The operand checks (rules R66, R98, R220, R251) in the terms of the claims. -/

namespace Sys2Proof

theorem toNat_kidType (k : Byte) : (kidType k).toNat = k.toNat / 16 := by
  simp [kidType, BitVec.extractLsb'_toNat, Nat.shiftRight_eq_div_pow]; omega

theorem toNat_kidSection (k : Byte) : (kidSection k).toNat = k.toNat % 16 := by simp [kidSection]

theorem kidType_beq (k : Byte) (c : BitVec 4) : (kidType k == c) = decide (k.toNat / 16 = c.toNat) := by
  rw [← toNat_kidType, Bool.eq_iff_iff]; simp [BitVec.toNat_inj]

theorem kidIsSection_eq (k : Byte) : kidIsSection k = decide (k.toNat / 16 ≤ 1) := by
  rw [kidIsSection, kidType_beq, kidType_beq, Bool.eq_iff_iff]; simp; omega

theorem kidIsFull_eq (k : Byte) : kidIsFull k = (k.toNat / 16 == 1) := by
  rw [kidIsFull, kidType_beq, Bool.eq_iff_iff]; simp

end Sys2Proof

namespace Sys2Proof.Machine

theorem kidValid_iff (n : Nat) (k : Byte) : kidValid n k = true ↔ ¬ badKid n k := by
  have hs : (kidSection k == 0) = decide (k.toNat % 16 = 0) := by
    rw [← toNat_kidSection, Bool.eq_iff_iff]; simp [← BitVec.toNat_inj]
  rw [kidValid, kidIsSection_eq, kidType_beq, kidType_beq, hs, toNat_kidSection]
  unfold badKid
  by_cases h : k.toNat / 16 ≤ 1
  · simp [h]; omega
  · simp [h]; omega

theorem addrOk_iff (a : Word) : addrOk a = true ↔ ¬ badAddr a := by
  simp only [addrOk, badAddr, decide_eq_true_eq]
  rw [show Config.pageSize = 32 from rfl]; omega

theorem multiOk_iff (a size : Word) : multiOk a size = true ↔ ¬ badRange a size := by
  simp only [multiOk, badRange, Bool.and_eq_true, addrOk_iff, decide_eq_true_eq]
  rw [show Config.pageSize = 32 from rfl]
  by_cases h : badAddr a
  · simp [h]
  · simp [h]

theorem dataFits_iff (size : BitVec 16) : dataFits size = true ↔ ¬ tooLong size := by
  simp only [dataFits, tooLong, decide_eq_true_eq]
  rw [show Config.pageSize = 32 from rfl]; omega

theorem encryptable_iff (encData : Bool) (size : BitVec 16) :
    encryptable encData size = true ↔ (encData = true → size.toNat = 32) := by
  simp only [encryptable, Bool.or_eq_true, Bool.not_eq_true', decide_eq_true_eq]
  rw [show Config.pageSize = 32 from rfl]
  cases encData <;> simp

theorem standardAddrOk_iff (hasAddr : Bool) (a : Word) :
    standardAddrOk hasAddr a = true ↔ (hasAddr = true → a.toNat < 2 ^ 24) := by
  simp only [standardAddrOk, Bool.or_eq_true, Bool.not_eq_true', decide_eq_true_eq]
  cases hasAddr <;> simp

theorem sectionOk_iff (s : State) (sect : Byte) : sectionOk s sect = true ↔ sect.toNat < s.cfg.numSections := by
  simp [sectionOk]

theorem isDataType_iff (dtype : Byte) : isDataType dtype = true ↔ 1 ≤ dtype.toNat ∧ dtype.toNat ≤ 9 := by
  simp [isDataType]

end Sys2Proof.Machine
end

