-- ==== Sys2Proof/Laws/Pages.lean ====
section
/-! SUPPORT. What the counter read, the handshake, the chained sub-commands, the signed getter and the page reads
do when the device answers in order. -/

namespace Sys2Proof.Machine

open Config (Answer Event)

/-! ## Counter read, handshake -/

/-- The unsigned counter read (rule R318). -/
theorem run_getMc {s : State} {x : Transaction} {tc dmc : Word} {rest : List Answer} (hb : s.busIsLocked = true)
    (h1 : x.ctag = mkCtag s.cfg.wire.getMc 0 0) (h2 : x.payload = []) (h3 : x.response = le32 tc ++ le32 dmc)
    (h4 : x.clean s.cfg = true) (ha : s.env.answers = x.answers s.cfg ++ rest) :
    getMc.run s = .ok (tc, dmc) { s.transacted x rest with seq := .read } := by
  simp only [Transaction.clean, Bool.and_eq_true, Bool.not_eq_true'] at h4
  have h0 := run_secureOrRaise_good (s := s) (x := x) (rest := rest) hb h4.1 ha
  rw [h1, h2, h3] at h0
  simp only [getMc, M.bind_get]
  refine Eq.trans (bind_ok h0) ?_
  have he : ¬ (le32 tc ++ le32 dmc = []) := by simp [le32]
  simp only [h4.2, Bool.false_eq_true, if_false, if_neg he, present_some, M.bind_pure, rd32_le32_append, drop_le32_append, rd32_le32]
  rfl

/-- The synchronisation of an untrusted counter (rule R315). -/
theorem run_synchMc_first {s : State} {y : Transaction} {tc dmc : Word} {rest : List Answer} (hb : s.busIsLocked = true)
    (hs : s.mc.inSync = false) (h1 : y.ctag = mkCtag s.cfg.wire.getMc 0 0) (h2 : y.payload = [])
    (h3 : y.response = le32 tc ++ le32 dmc) (h4 : y.clean s.cfg = true) (hv : mcValid tc dmc = true)
    (ha : s.env.answers = y.answers s.cfg ++ rest) :
    synchMc.run s = .ok () { s.synced y tc dmc rest with seq := .read } := by
  simp only [synchMc, M.bind_get, hs, Bool.false_eq_true, if_false, bind_phase]
  refine Eq.trans (bind_ok (run_getMc (s := { s with seq := .sync }) hb h1 h2 h3 h4 ha)) ?_
  simp only [hv, require_true, M.bind_pure, M.run_modify]
  rfl

/-- The first tick of an untrusted counter: the unsigned read, then the tick (rules R315, R316). -/
theorem run_useMc_first {s : State} {y : Transaction} {tc dmc : Word} {rest : List Answer} (hb : s.busIsLocked = true)
    (hs : s.mc.inSync = false) (h1 : y.ctag = mkCtag s.cfg.wire.getMc 0 0) (h2 : y.payload = [])
    (h3 : y.response = le32 tc ++ le32 dmc) (h4 : y.clean s.cfg = true) (hv : mcValid tc dmc = true)
    (ht : tc.toNat + 1 < Config.tcLim) (ha : s.env.answers = y.answers s.cfg ++ rest) :
    useMc.run s = .ok (tickValue (s.synced y tc dmc rest), dmc)
      { (s.synced y tc dmc rest).ticked with seq := .read } := by
  refine Eq.trans (bind_ok (run_synchMc_first hb hs h1 h2 h3 h4 hv ha)) ?_
  have e : decide ((s.synced y tc dmc rest).mc.tc.toNat + 1 < Config.tcLim) = true := decide_eq_true ht
  simp only [M.bind_get]
  show (require (decide ((s.synced y tc dmc rest).mc.tc.toNat + 1 < Config.tcLim)) _ >>= _).run _ = _
  rw [e, require_true, M.bind_pure, M.bind_set]
  show (match s.cfg.mcUseOrder with | .incrementThenFetch => _ | .fetchThenIncrement => _ : M (Word × Word)).run _ = _
  have ec : (s.synced y tc dmc rest).cfg = s.cfg := rfl
  cases ho : s.cfg.mcUseOrder <;> simp only [tickValue, ec, ho, M.run_pure] <;> rfl

/-- The classification of a word with an error bit, when the forced fetch reads a valid counter (rules R310, R311). -/
theorem run_checkSsrErrors_fetch {s : State} {v mask : Word} {y : Transaction} {tc dmc : Word} {rest : List Answer}
    (hb : s.busIsLocked = true) (he : hasError s.cfg.ssr v = true) (h1 : y.ctag = mkCtag s.cfg.wire.getMc 0 0)
    (h2 : y.payload = []) (h3 : y.response = le32 tc ++ le32 dmc) (h4 : y.clean s.cfg = true)
    (hv : mcValid tc dmc = true) (ha : s.env.answers = y.answers s.cfg ++ rest) :
    (checkSsrErrors v mask).run s =
      .ok (classify s.cfg.ssr v mask) { s.refetched y tc dmc rest with seq := .classify } := by
  simp only [checkSsrErrors, bind_phase, M.bind_get]
  show ((onlyIf (hasError s.cfg.ssr v) forcedFetch) >>= _).run { s with seq := .classify } = _
  rw [he, onlyIf_true]
  have h : forcedFetch.run { s with seq := .classify } = .ok () { s.refetched y tc dmc rest with seq := .read } := by
    simp only [forcedFetch, M.bind_get]
    refine Eq.trans (bind_ok (attempt_ok (run_getMc (s := { s with seq := .classify }) hb h1 h2 h3 h4 ha))) ?_
    simp only [bind_setSsrOut, M.bind_modify, State.afterFetch, hv, if_true]
    cases hc : s.cfg.errorClearsInSync <;> simp [State.refetched, State.transacted, hc] <;> rfl
  exact Eq.trans (bind_ok h) rfl

/-- The handshake of a session command: nonce, tick, derivation, `kid`, frame (rule R142). -/
theorem run_handshake {s : State} {k : Byte} {key : Bytes} {iw is : Bool} {x : Transaction} {rest : List Answer}
    (hb : s.busIsLocked = true) (ht : canTick s = true)
    (h1 : x.ctag = mkCtag s.cfg.wire.sessionOpen k (modeFlags iw is))
    (h2 : x.payload = nonceOf s.env.prng ++ (sessionOf s.cfg key x.ctag (tickValue s) s.mc.dmc (nonceOf s.env.prng) (if iw then some s.conf.wid else none)).2)
    (h3 : x.response = []) (h4 : x.clean s.cfg = true) (ha : s.env.answers = x.answers s.cfg ++ rest) :
    (handshake k key iw is).run s = .ok ((sessionOf s.cfg key x.ctag (tickValue s) s.mc.dmc (nonceOf s.env.prng) (if iw then some s.conf.wid else none)).1, x.final s.cfg)
      { ((s.drawn .nonce).ticked.called [.deriveSession]).transacted x rest with kid := k, seq := .wait } := by
  simp only [Transaction.clean, Bool.and_eq_true, Bool.not_eq_true'] at h4
  simp only [handshake, bind_phase, drawNonce, bind_draw, M.bind_get]
  refine Eq.trans (bind_ok (run_useMc (s := ({ s with seq := .derive } : State).drawn .nonce) ht)) ?_
  simp only [bind_phase, bind_cryptoCall, bind_setKid]
  let u : State := { ({ s with seq := .derive } : State).drawn .nonce |>.ticked.called [.deriveSession] with seq := .derive, kid := k }
  have h0 := run_secureOrRaise_good (s := u) (x := x) (rest := rest) hb h4.1 ha
  rw [h3, if_pos rfl, if_pos rfl, h2, h1] at h0
  refine Eq.trans (bind_ok h0) ?_
  rw [h1]
  rfl

/-! ## Chained sub-commands (rules R296, R297) -/

/-- A bare standard command the device answers. -/
theorem run_bareExchange {t : State} {c : Byte} {rest : List Answer} (h : t.env.answers = .bytes [] :: rest) (h2 : t.atomic ≠ 0) : (bareExchange c).run t = .ok () { t with env := { t.env with answers := rest, trace := bareEvent t c :: t.env.trace } } := by
  simp only [bareExchange]
  refine Eq.trans (bind_ok (run_exchange_bytes (s := t) h h2)) ?_
  simp [bareEvent, request]

/-- The chained init plain access. -/
theorem run_chainInitPa {s : State} {sect : Byte} {v : Wait} {rest : List Answer} (h : s.env.answers = .bytes [] :: (statusAnswers v.words ++ rest)) (hv : v.good s.cfg.ssr = true) (ha : s.atomic ≠ 0) :
   (chainInitPa sect).run s = .ok () { s with seq := .wait, ssr := v.last, inFlight := false, mc := { s.mc with inSync := false }, env := { s.env with answers := rest, trace := (v.words.map (op0Event s)).reverse ++ (op1Event s (mkCtag s.cfg.wire.initPa sect 0) [] :: s.env.trace) } } := by
  simp only [chainInitPa, bind_phase, M.bind_get]
  refine Eq.trans (bind_ok (run_op1_ack (rest := statusAnswers v.words ++ rest) (by exact h) (by exact ha))) ?_
  simp only [bind_setInFlight]
  refine Eq.trans (bind_ok (run_busyWait (w := v) (rest := rest) (by rfl) (by exact hv) (by exact ha))) ?_
  simp [State.polled, op0Event, op1Event, request]

/-- The device reset. -/
theorem run_deviceReset {s : State} {rest : List Answer} (h : s.env.answers = .bytes [] :: .bytes [] :: rest) (ha : s.atomic ≠ 0) :
   deviceReset.run s = .ok () { (if s.cfg.resetInvalidatesSession then { s.wipeKeys with kid := 0xFF } else s) with seq := .chain, inFlight := false, mc := { s.mc with inSync := false }, env := { s.env with answers := rest, trace := bareEvent s s.cfg.stdRst :: bareEvent s s.cfg.stdRsten :: s.env.trace } } := by
  have h1 : resetEnable.run s = .ok () { s with seq := .chain, env := { s.env with answers := .bytes [] :: rest, trace := bareEvent s s.cfg.stdRsten :: s.env.trace } } := by
    simp only [resetEnable, bind_phase, M.bind_get]
    refine Eq.trans (run_bareExchange (by exact h) (by exact ha)) ?_
    simp [bareEvent, request]
  simp only [deviceReset]
  refine Eq.trans (bind_ok h1) ?_
  simp only [resetDevice, bind_phase, M.bind_get]
  refine Eq.trans (bind_ok (run_bareExchange (rest := rest) (by rfl) (by exact ha))) ?_
  simp only [bind_setInSync]
  cases hr : s.cfg.resetInvalidatesSession <;> simp [bareEvent, request, Config.kidInvalid, State.wipeKeys, State.withKeys]

/-- Step 4 of a transaction that chains sub-commands which nothing disturbs (rules R295 to R297). -/
theorem run_secureChain_chains {s : State} {x : Transaction} {v : Wait} {rest : List Answer} (ha : s.atomic ≠ 0)
    (hc : x.ctag ≠ 0) (hx : x.chains s.cfg = true) (hv : v.good s.cfg.ssr = true) :
    ∃ p, (secureChain x.ctag true).run (s.beforeChain x (x.chainAnswers v ++ rest)) = .ok ()
      { s.transactedChain x v rest with seq := p, out := s.out } := by
  have hcond : (x.ctag != 0 && ctagOpc x.ctag == s.cfg.wire.setScr && true && !hasError s.cfg.ssr (x.final s.cfg))
      = true := by
    simp only [Transaction.chains, Bool.and_eq_true] at hx
    simp only [bne_iff_ne.mpr hc, hx.1.1, hx.2, Bool.and_self]
  simp only [secureChain, M.bind_get]
  show ∃ p, (onlyIf (x.ctag != 0 && ctagOpc x.ctag == s.cfg.wire.setScr && true && !hasError s.cfg.ssr (x.final s.cfg)) _).run _ = _
  rw [hcond]
  simp only [onlyIf_true]
  simp only [Transaction.chainAnswers, State.transactedChain]
  generalize x.ctag.getLsbD 16 = f16
  generalize x.ctag.getLsbD 17 = f17
  have h1 : ∀ A, ∃ p, (onlyIf f16 (chainInitPa (ctagParam x.ctag))).run
      (s.beforeChain x ((if f16 = true then .bytes [] :: statusAnswers v.words else []) ++ A)) = .ok ()
        { (if f16 = true then (s.transacted x A).initPaChained (ctagParam x.ctag) v else s.transacted x A) with
          seq := p, out := s.out } := by
    intro A
    cases f16
    · exact ⟨_, rfl⟩
    · exact ⟨.wait, run_chainInitPa (v := v) (rest := A) rfl hv ha⟩
  obtain ⟨p, h1⟩ := h1 ((if f17 = true then [.bytes [], .bytes []] else []) ++ rest)
  rw [← List.append_assoc] at h1
  cases f17
  · refine ⟨p, Eq.trans (bind_ok h1) ?_⟩
    cases f16 <;> rfl
  · refine ⟨.chain, Eq.trans (bind_ok h1) ?_⟩
    refine Eq.trans (run_deviceReset (rest := rest) ?_ ?_) ?_
    · cases f16 <;> rfl
    · cases f16 <;> exact ha
    · cases f16 <;> simp only [State.resetChained, if_true, if_false, Bool.false_eq_true, State.initPaChained, State.transacted] <;>
        cases s.cfg.resetInvalidatesSession <;> rfl

/-- `Secure` of a transaction that chains sub-commands (rules R295 to R300). -/
theorem run_secureOrRaise_chains {s : State} {x : Transaction} {v : Wait} {rest : List Answer}
    (hb : s.busIsLocked = true) (hx : x.sound s.cfg = true) (hch : x.chains s.cfg = true) (hv : v.good s.cfg.ssr = true)
    (h : s.env.answers = x.answers s.cfg ++ x.chainAnswers v ++ rest) :
    ∃ p, (secureOrRaise x.ctag x.payload x.response.length true).run s =
      .ok (if x.response = [] then none else some x.response, (s.transactedChain x v rest).ssr)
        { s.transactedChain x v rest with seq := p } := by
  have hc : x.ctag ≠ 0 := by
    simp only [Transaction.sound, Bool.and_eq_true, decide_eq_true_eq] at hx
    exact hx.1.1.1
  obtain ⟨p, hp⟩ := run_secureChain_chains (s := { s with atomic := s.atomic + 1 }) (v := v) (rest := rest) (by simp)
    hc hch hv
  have h0 := run_secureSteps_sound (s := { s with atomic := s.atomic + 1 }) (by simp) hx
    (by rw [← List.append_assoc]; exact h) hp
  refine ⟨p, Eq.trans (run_secureOrRaise_ok hb h0) ?_⟩
  simp only [State.transactedChain]
  cases x.ctag.getLsbD 16 <;> cases x.ctag.getLsbD 17 <;> simp only [if_true, if_false, Bool.false_eq_true, State.resetChained, State.initPaChained, State.transacted] <;>
    first | rfl | (cases s.cfg.resetInvalidatesSession <;> rfl)

/-- What the chained device reset leaves of the configuration, the status and the results. -/
theorem resetChained_frame (s : State) :
    s.resetChained.cfg = s.cfg ∧ s.resetChained.ssr = s.ssr ∧ s.resetChained.status = s.status
      ∧ s.resetChained.out = s.out := by
  unfold State.resetChained; cases s.cfg.resetInvalidatesSession <;> exact ⟨rfl, rfl, rfl, rfl⟩

/-- The chained device reset does not read the phase. -/
theorem resetChained_seq (s : State) (p : Phase) :
    ({ s with seq := p } : State).resetChained = { s.resetChained with seq := p } := by
  simp only [State.resetChained]
  cases s.cfg.resetInvalidatesSession <;> rfl

/-- What a transaction and its chain leave of the configuration, the status and the results, and the word it ends
with. -/
theorem transactedChain_frame (s : State) (x : Transaction) (v : Wait) (rest : List Answer) :
    (s.transactedChain x v rest).cfg = s.cfg ∧ (s.transactedChain x v rest).status = s.status ∧
    (s.transactedChain x v rest).out.rbuf = s.out.rbuf ∧
    (s.transactedChain x v rest).ssr = if x.ctag.getLsbD 16 then v.last else x.final s.cfg := by
  unfold State.transactedChain
  generalize x.ctag.getLsbD 16 = f
  generalize x.ctag.getLsbD 17 = g
  cases f <;> cases g <;> simp only [if_true, if_false, Bool.false_eq_true, resetChained_frame] <;>
    exact ⟨rfl, rfl, rfl, rfl⟩

/-- A transaction and its chain do not read the phase. -/
theorem transactedChain_seq (s : State) (p : Phase) (x : Transaction) (v : Wait) (rest : List Answer) :
    ({ s with seq := p } : State).transactedChain x v rest = { s.transactedChain x v rest with seq := p } := by
  unfold State.transactedChain
  have h1 : ({ s with seq := p } : State).transacted x rest = { s.transacted x rest with seq := p } := rfl
  have h2 : ∀ t : State, ({ t with seq := p } : State).initPaChained (ctagParam x.ctag) v
      = { t.initPaChained (ctagParam x.ctag) v with seq := p } := fun _ => rfl
  generalize x.ctag.getLsbD 16 = f
  generalize x.ctag.getLsbD 17 = g
  cases f <;> cases g <;> simp only [if_true, if_false, Bool.false_eq_true, h1, h2, resetChained_seq]

/-! ## The signed getter -/

/-- A signed getter up to its signature check (rule R180). -/
theorem run_runCalcSig {s : State} {sect dtype : Byte} {x : Transaction} {rest : List Answer} {size : Nat}
    (hb : s.busIsLocked = true) (ht : canTick s = true)
    (h1 : x.ctag = calcSigCtag s.cfg dtype sect) (h2 : x.payload = [])
    (h3 : x.response.length = 44) (h4 : x.clean s.cfg = true) (ha : s.env.answers = x.answers s.cfg ++ rest) :
    (runCalcSig dtype sect size).run s = (do
      let sigExp ← signData x.ctag ((x.response.drop 4).take size) true
      require (sigExp == x.response.drop 36) .securityErr
      let t ← get
      require (echoedTc x.response == t.mc.tc - 1) .systemInIncorrectState
      setRbuf ((x.response.drop 4).take size)
      setSigOut (x.response.drop 36) : M Unit).run { s.ticked.transacted x rest with seq := .verify } := by
  simp only [Transaction.clean, Bool.and_eq_true, Bool.not_eq_true'] at h4
  have h0 := run_secureOrRaise_good (s := s.ticked) (x := x) (rest := rest) hb h4.1 ha
  have hne : ¬ x.response = [] := by intro h; rw [h] at h3; cases h3
  rw [h2, h3, if_neg hne, if_neg hne] at h0
  simp only [runCalcSig, M.bind_get]
  refine Eq.trans (bind_ok (run_useMc ht)) ?_
  rw [← h1]
  refine Eq.trans (bind_ok h0) ?_
  refine Eq.trans (bind_ok (run_checkAllOrRaise (by exact h4.2) (by exact waitOver_final h4.1))) ?_
  simp only [present_some, M.bind_pure, bind_phase]

/-! ## Page reads -/

/-- `RandomiseAddr` makes one draw (rule R94). -/
theorem run_drawAddr (s : State) (a : Word) : (drawAddr a).run s = .ok (randomAddr s a) (s.drawn .randomBits) := by
  simp [drawAddr, randomAddr]

/-- Everything `PrepRead` does while a tick is left (rule R221). -/
theorem run_prepRead {s : State} {opc : Byte} {a : Word} {slot : Bool} (ht : canTick s = true) :
    (prepRead opc a slot).run s = .ok () { s.readPrepared opc a slot with seq := .derive } := by
  simp only [prepRead, bind_phase]
  refine Eq.trans (bind_ok (run_drawAddr _ a)) ?_
  refine Eq.trans (bind_ok (run_useMc (s := ({ s with seq := .derive } : State).drawn .randomBits) ht)) ?_
  simp [refreshSsk, buildCipherKey, encryptAddress, State.readPrepared, State.called, State.drawn, readCtag, readKey, readSsk, addr24, State.ticked, tickValue, randomAddr]
  cases slot <;> simp [State.withCtx, State.ctx]

/-- Everything `PrepRead` does when its tick is the first of an untrusted counter (rules R221, R315). -/
theorem run_prepRead_first {s : State} {y : Transaction} {tc dmc : Word} {rest : List Answer} {opc : Byte} {a : Word}
    {slot : Bool} (hb : s.busIsLocked = true) (hs : s.mc.inSync = false) (h1 : y.ctag = mkCtag s.cfg.wire.getMc 0 0)
    (h2 : y.payload = []) (h3 : y.response = le32 tc ++ le32 dmc) (h4 : y.clean s.cfg = true)
    (hv : mcValid tc dmc = true) (ht : tc.toNat + 1 < Config.tcLim) (ha : s.env.answers = y.answers s.cfg ++ rest) :
    (prepRead opc a slot).run s = .ok () { s.readPreparedFirst y tc dmc rest opc a slot with seq := .derive } := by
  simp only [prepRead, bind_phase]
  refine Eq.trans (bind_ok (run_drawAddr _ a)) ?_
  refine Eq.trans (bind_ok (run_useMc_first (s := ({ s with seq := .derive } : State).drawn .randomBits) hb hs h1 h2 h3
    h4 hv ht ha)) ?_
  simp [refreshSsk, buildCipherKey, encryptAddress, State.readPreparedFirst, State.called, State.drawn, readCtag, readKey,
    readSsk, addr24, State.ticked, tickValue, randomAddr, State.synced]
  cases slot <;> simp [State.withCtx, State.ctx, Transaction.events, op0Event, op1Event, op2Event,
    request]

/-- What `PrepRead` leaves alone, and the context it fills. -/
theorem readPrepared_frame (s : State) (opc : Byte) (a : Word) (slot : Bool) :
    (s.readPrepared opc a slot).cfg = s.cfg ∧ (s.readPrepared opc a slot).busIsLocked = s.busIsLocked
      ∧ (s.readPrepared opc a slot).env.answers = s.env.answers
      ∧ (s.readPrepared opc a slot).ctx slot = { s.ctx slot with
          tc := tickValue s, ssk := readSsk s slot, cipherKey := readKey s slot, ctagW := readCtag s opc a slot }
      ∧ (s.readPrepared opc a slot).kid = s.kid ∧ (s.readPrepared opc a slot).ctxIdx = s.ctxIdx
      ∧ (s.readPrepared opc a slot).out = s.out := by
  cases slot <;> simp [State.readPrepared, State.withCtx, State.ctx]

/-- The rest of what `PrepRead` leaves alone, its tick, its draw and its events. -/
theorem readPrepared_keeps (s : State) (opc : Byte) (a : Word) (slot : Bool) :
    let t := s.readPrepared opc a slot
    t.mc = s.ticked.mc ∧ t.env.prng = s.env.prng + 1 ∧ t.env.trace = prepEvents.reverse ++ s.env.trace
      ∧ t.ctx (!slot) = s.ctx (!slot) ∧ t.ctx0.key = s.ctx0.key ∧ t.ctx1.key = s.ctx1.key
      ∧ t.sessionKey = s.sessionKey ∧ t.conf = s.conf ∧ t.inp = s.inp ∧ t.latch = s.latch ∧ t.atomic = s.atomic := by
  cases slot <;> simp [State.readPrepared, State.withCtx, State.ctx, prepEvents]

/-- What `PrepRead` leaves when its tick is the first of an untrusted counter: the unsigned read stands after the draw. -/
theorem readPreparedFirst_frame (s : State) (y : Transaction) (tc dmc : Word) (rest : List Answer) (opc : Byte) (a : Word)
    (slot : Bool) :
    let t := s.readPreparedFirst y tc dmc rest opc a slot
    let u := s.synced y tc dmc rest
    t.cfg = s.cfg ∧ t.busIsLocked = s.busIsLocked ∧ t.env.answers = rest
      ∧ t.ctx slot = { s.ctx slot with
          tc := tickValue u, ssk := readSsk u slot, cipherKey := readKey u slot, ctagW := readCtag u opc a slot }
      ∧ t.kid = s.kid ∧ t.ctxIdx = s.ctxIdx ∧ t.mc = u.ticked.mc ∧ t.env.prng = s.env.prng + 1
      ∧ t.env.trace = (prepEvents.take 1 ++ y.events s ++ prepEvents.drop 1).reverse ++ s.env.trace
      ∧ t.ctx (!slot) = s.ctx (!slot) ∧ t.ctx0.key = s.ctx0.key ∧ t.ctx1.key = s.ctx1.key
      ∧ t.sessionKey = s.sessionKey ∧ t.conf = s.conf ∧ t.inp = s.inp ∧ t.latch = s.latch ∧ t.atomic = s.atomic := by
  have h : y.events (s.drawn .randomBits) = y.events s := rfl
  cases slot <;> simp [State.readPreparedFirst, State.synced, State.withCtx, State.ctx, prepEvents, h]

/-- A single page read up to decryption: fresh or refused (rules R222, R223). -/
theorem run_readPage {s : State} {opc : Byte} {a : Word} {len : Nat} {x : Transaction} {rest : List Answer} (hl : 0 < len)
    (hb : s.busIsLocked = true) (ht : canTick s = true) (h1 : x.ctag = readCtag s opc a s.ctxIdx) (h2 : x.payload = [])
    (h3 : x.response.length = len) (h4 : x.clean s.cfg = true) (ha : s.env.answers = x.answers s.cfg ++ rest) :
    (readPage opc a s.ctxIdx len).run s =
      if rd32 x.response = tickValue s - 1 then .ok (x.response, plaintext s s.ctxIdx x.response) { ((s.readPrepared opc a s.ctxIdx).transacted x rest).called [.cipher] with seq := .verify }
      else .error (.raise .systemInIncorrectState) { (s.readPrepared opc a s.ctxIdx).transacted x rest with seq := .verify } := by
  obtain ⟨f1, f2, f3, f4, -, -, -⟩ := readPrepared_frame s opc a s.ctxIdx
  simp only [Transaction.clean, Bool.and_eq_true, Bool.not_eq_true'] at h4
  let u : State := { s.readPrepared opc a s.ctxIdx with seq := .derive }
  have fc : u.cfg = s.cfg := f1
  have h0 := run_secureOrRaise_good (s := u) (x := x) (rest := rest) (by exact f2.trans hb) (by rw [fc]; exact h4.1) (by rw [fc]; exact f3.trans ha)
  have hne : ¬ x.response = [] := by intro h; rw [h] at h3; simp at h3; omega
  rw [h2, h3, if_neg hne, if_neg hne, fc] at h0
  simp only [readPage]
  refine Eq.trans (bind_ok (run_prepRead ht)) ?_
  simp only [M.bind_get]
  have hcw : (u.ctx s.ctxIdx).ctagW = x.ctag := by
    have : u.ctx s.ctxIdx = (s.readPrepared opc a s.ctxIdx).ctx s.ctxIdx := rfl
    rw [this, f4, h1]
  rw [show ({ s.readPrepared opc a s.ctxIdx with seq := .derive } : State) = u from rfl, hcw]
  refine Eq.trans (bind_ok h0) ?_
  refine Eq.trans (bind_ok (run_checkAllOrRaise (by show hasError u.cfg.ssr _ = _; rw [fc]; exact h4.2) (by show waitOver u.cfg.ssr _ = _; rw [fc]; exact waitOver_final h4.1))) ?_
  simp only [present_some, M.bind_pure, bind_phase, M.bind_get, checkFresh]
  let v : State := { u.transacted x rest with seq := .verify }
  have hv : (v.ctx s.ctxIdx) = { s.ctx s.ctxIdx with
    tc := tickValue s, ssk := readSsk s s.ctxIdx, cipherKey := readKey s s.ctxIdx, ctagW := readCtag s opc a s.ctxIdx } := f4
  show ((require (echoedTc x.response == (v.ctx s.ctxIdx).tc - 1) .systemInIncorrectState) >>= _).run v = _
  rw [hv]
  by_cases hfr : rd32 x.response = tickValue s - 1
  · rw [if_pos hfr, show (echoedTc x.response == tickValue s - 1) = true from beq_iff_eq.mpr hfr, require_true, M.bind_pure]
    simp only [cipher, bind_cryptoCall, M.run_pure]
    rfl
  · rw [if_neg hfr, show (echoedTc x.response == tickValue s - 1) = false from beq_eq_false_iff_ne.mpr hfr, require_false, bind_raise]
    rfl

/-- Everything the signature check of a page does (rules R223, R253). -/
theorem run_pageSigned (s : State) (opc : Byte) (a : Word) (slot : Bool) (p r : Bytes) :
    (pageSigned opc a slot p r).run s =
      .ok (signatureOf (s.ctx slot).ssk s.kid (mkCtagAddr opc (a.setWidth 24)) p == r.drop 36)
        ((s.withCtx slot { s.ctx slot with sctag := mkCtagAddr opc (a.setWidth 24), sdata := p }).called
          [.calcAuthSignature]) := by
  cases slot <;> rfl

/-! ## The pipeline -/

/-- Starting a prepared command without waiting (steps 1 and 4 of rule R253). -/
theorem run_startRead {u : State} {slot : Bool} {rest : List Answer} (hb : u.busIsLocked = true) (hc : (u.ctx slot).ctagW ≠ 0)
    (ha : u.env.answers = .bytes [] :: rest) :
    (startRead slot).run u = .ok () { u with
      seq := .send, inFlight := true, out := { u.out with ssrOut := u.ssr }
      env := { u.env with
        answers := rest, trace := (startEvents u (u.ctx slot).ctagW).reverse ++ u.env.trace } } := by
  let x : Transaction := ⟨(u.ctx slot).ctagW, [], ⟨[], 0⟩, ⟨[], 0⟩, []⟩
  have he : (startEvents u (u.ctx slot).ctagW).reverse = (if flips u.cfg x.ctag then [.busModeReenter] else [])
      ++ [op1Event u x.ctag x.payload] ++ (if flips u.cfg x.ctag then [.busModeExit] else []) := by
    show (startEvents u x.ctag).reverse = _
    unfold startEvents
    cases flips u.cfg x.ctag <;> rfl
  rw [he]
  simp only [startRead, M.bind_get]
  have h : (secureSteps (u.ctx slot).ctagW [] 0 false).run { u with atomic := u.atomic + 1 } = .ok none { u with atomic := u.atomic + 1, seq := .send, inFlight := true, env := { u.env with answers := rest, trace := ((if flips u.cfg x.ctag then [.busModeReenter] else []) ++ [op1Event u x.ctag x.payload]
          ++ (if flips u.cfg x.ctag then [.busModeExit] else [])) ++ u.env.trace } } := by
    simp only [secureSteps, bne_iff_ne.mpr hc, onlyIf_true, onlyIf_false]
    refine Eq.trans (bind_ok (run_secureSend (x := x) (s := { u with atomic := u.atomic + 1 }) (rest := rest) ha (by simp))) ?_
    simp [secureRead, secureChain]
    rfl
  refine Eq.trans (bind_ok (run_secureOrRaise_ok hb h)) ?_
  rfl

/-- The wait and the read of a command already in flight (step 3 of rule R253). -/
theorem run_secure_nocmd {u : State} {w : Wait} {r : Bytes} {rest : List Answer} (hd : (0 : Byte) ∉ u.cfg.doubleWait) (hb : u.busIsLocked = true)
    (hw : w.good u.cfg.ssr = true) (hr : respReady u.cfg.ssr w.last = true) (hl : r ≠ [])
    (ha : u.env.answers = statusAnswers w.words ++ .bytes r :: rest) :
    (secureOrRaise 0 [] r.length true).run u = .ok (some r, w.last) { u with
      seq := .read, ssr := w.last, inFlight := false, out := { u.out with ssrOut := w.last }
      env := { u.env with answers := rest, trace := op2Event u r :: ((w.words.map (op0Event u)).reverse ++ u.env.trace) } } := by
  have h : (secureSteps 0 [] r.length true).run { u with atomic := u.atomic + 1 } = .ok (some r) { u with
      atomic := u.atomic + 1
      seq := .read, ssr := w.last, inFlight := false
      env := { u.env with answers := rest, trace := op2Event u r :: ((w.words.map (op0Event u)).reverse ++ u.env.trace) } } := by
    simp only [secureSteps, bne_self_eq_false, onlyIf_false, M.bind_pure, onlyIf_true]
    have hwait : (secureWait (ctagOpc 0)).run { u with atomic := u.atomic + 1 } = .ok () { ({ u with atomic := u.atomic + 1 } : State).polled w.words w.last (.bytes r :: rest) with seq := .wait, inFlight := false } := by
      simp only [secureWait]
      refine Eq.trans (bind_ok (run_busyWait (s := { u with atomic := u.atomic + 1 }) ha hw (by simp))) ?_
      have : u.cfg.doubleWait.contains (ctagOpc 0) = false := by
        rw [show ctagOpc 0 = 0 from by decide]; simpa using hd
      simp only [M.bind_get, State.polled, this, onlyIf_false, M.bind_pure, run_setInFlight]
    refine Eq.trans (bind_ok hwait) ?_
    have hread : (secureRead (ctagOpc 0) r.length).run { ({ u with atomic := u.atomic + 1 } : State).polled w.words w.last (.bytes r :: rest) with seq := .wait, inFlight := false } = .ok (some r) { u with
      atomic := u.atomic + 1
      seq := .read, ssr := w.last, inFlight := false
      env := { u.env with answers := rest, trace := op2Event u r :: ((w.words.map (op0Event u)).reverse ++ u.env.trace) } } := by
      have : ¬ r.length = 0 := by simpa using hl
      simp only [secureRead, if_neg this, M.bind_get, State.polled, hr, Bool.not_true, onlyIf_false, M.bind_pure, if_true, bind_phase]
      refine Eq.trans (bind_ok (run_op2_bytes (rest := rest) (by rfl) (by simp))) ?_
      rfl
    refine Eq.trans (bind_ok hread) ?_
    simp [secureChain]
  exact run_secureOrRaise_ok hb h

/-- A step of the pipeline that succeeds. -/
theorem run_orFailMulti {α} {x : M α} {done size} {s t : State} {a : α} (h : x.run s = .ok a t) : (orFailMulti x done size).run s = .ok a t := by
  simp only [orFailMulti]
  exact Eq.trans (bind_ok (attempt_ok h)) rfl

/-- Everything `Drain` does when the device answers its wait, or when no command is in flight (rule R252). -/
theorem run_drain {s : State} {w : Wait} {rest : List Answer} (hw : w.good s.cfg.ssr = true)
    (ha : s.env.answers = (if s.inFlight then statusAnswers w.words else []) ++ rest) :
    drain.run s = .ok () (if s.inFlight then
      { s with
        seq := .wait
        ssr := w.last
        inFlight := false
        env := { s.env with answers := rest, trace := (w.words.map (op0Event s)).reverse ++ s.env.trace } }
      else s) := by
  simp only [drain, M.bind_get]
  cases hf : s.inFlight
  · simp
  · simp only [hf, if_true] at ha
    simp only [onlyIf_true, bind_intMask, if_true]
    refine Eq.trans (bind_ok (attempt_ok (run_busyWait (s := { s with atomic := s.atomic + 1 }) ha hw (by simp)))) ?_
    simp [State.polled, op0Event, request]

/-- `Fail` from a state in which nothing is in flight any more (rule R257). -/
theorem run_failMulti {α : Type} {s t : State} {st : Status} {done : Bytes} {size : Nat} (h : drain.run s = .ok () t) :
    (failMulti st done size : M α).run s = .error (.raise st) (if st = .securityErr then
      { t with out := { t.out with rbuf := zeroedOutput t.cfg.multiZero done size } } else t) := by
  simp only [failMulti, bind_ok h, M.bind_get]
  by_cases hs : st = .securityErr
  · simp [hs]
  · simp only [beq_eq_false_iff_ne.mpr hs, onlyIf_false, M.bind_pure, run_raise, if_neg hs]

/-- A step of the pipeline that fails. -/
theorem run_orFailMulti_raise {α} {x : M α} {done : Bytes} {size : Nat} {s t : State} {st : Status}
    (h : x.run s = .error (.raise st) t) : (orFailMulti x done size).run s = (failMulti st done size : M α).run t := by
  simp only [orFailMulti]
  exact Eq.trans (bind_ok (attempt_raise h)) rfl

/-- Verification of a page in order (step 5 of rule R253). -/
theorem run_verifyPage {σ u : State} {m : MultiRead} {a : Word} {old : Bool} {p : PageAnswer}
    (e1 : (u.ctx old).tc = tickValue σ) (e2 : (u.ctx old).ssk = readSsk σ old)
    (e3 : (u.ctx old).cipherKey = readKey σ old) (e4 : u.kid = σ.kid) (hg : pageGood σ m a old p) :
    (verifyPage m a old p.response).run u =
      .ok (plaintext σ old p.response) (u.pageVerified m a old (plaintext σ old p.response)) := by
  obtain ⟨-, -, -, -, hf, hs⟩ := hg
  have hfr : (echoedTc p.response == (u.ctx old).tc - 1) = true := by rw [e1]; exact beq_iff_eq.mpr hf
  simp only [verifyPage, bind_phase, M.bind_get, checkFresh]
  rw [show ({ u with seq := .verify } : State).ctx old = u.ctx old from rfl, hfr, require_true, M.bind_pure]
  simp only [cipher, bind_cryptoCall, e3]
  rw [show cipherPage (readKey σ old) (pageOf p.response) = plaintext σ old p.response from rfl]
  cases hm : m.signed
  · simp only [onlyIf_false, M.bind_pure, M.run_pure, State.pageVerified, checkEvents, hm, Bool.false_eq_true, if_false]
    rfl
  · let v : State := ({ u with seq := .verify } : State).called [.cipher]
    have hp := run_pageSigned v m.opc a old (plaintext σ old p.response) p.response
    have hgood : (signatureOf (v.ctx old).ssk v.kid (mkCtagAddr m.opc (a.setWidth 24)) (plaintext σ old p.response)
        == p.response.drop 36) = true := by
      show (signatureOf (u.ctx old).ssk u.kid _ _ == _) = true
      rw [e2, e4, beq_iff_eq, hs hm]
      rfl
    rw [hgood] at hp
    simp only [onlyIf_true]
    refine Eq.trans (bind_ok (bind_ok hp)) ?_
    simp only [State.pageVerified, checkEvents, hm, if_true]
    cases old <;> rfl

/-- What the check of a page leaves alone, and the events it leaves. -/
theorem pageVerified_frame (u : State) (m : MultiRead) (a : Word) (slot : Bool) (p : Bytes) :
    let t := u.pageVerified m a slot p
    t.cfg = u.cfg ∧ t.busIsLocked = u.busIsLocked ∧ t.mc = u.mc ∧ t.kid = u.kid ∧ t.ctx0.key = u.ctx0.key
      ∧ t.ctx1.key = u.ctx1.key ∧ t.sessionKey = u.sessionKey ∧ t.conf = u.conf ∧ t.inp = u.inp ∧ t.latch = u.latch
      ∧ t.atomic = u.atomic ∧ t.ctxIdx = u.ctxIdx ∧ t.ctx (!slot) = u.ctx (!slot) ∧ t.env.answers = u.env.answers
      ∧ t.env.prng = u.env.prng ∧ t.inFlight = u.inFlight ∧ t.ssr = u.ssr ∧ t.out = u.out
      ∧ t.env.trace = (checkEvents m).reverse ++ u.env.trace := by
  unfold State.pageVerified
  cases m.signed <;> cases slot <;>
    exact ⟨rfl, rfl, rfl, rfl, rfl, rfl, rfl, rfl, rfl, rfl, rfl, rfl, rfl, rfl, rfl, rfl, rfl, rfl, rfl⟩

end Sys2Proof.Machine
end

