-- ==== Sys2Proof/Laws/PerInstr.lean ====
section
/-! SUPPORT. Statements about every instruction as syntax, constructor by constructor. -/

namespace Sys2Proof.Laws

/-- The encoding of an instruction has the bytes its space gives it: 16 for a descriptor (rule R90), 4 for a
CTAG (rule R92), 1 for a bus code (rule R103). -/
def EncodeLength.Statement (i : Instr) : Prop := (encode i).length = i.space.bytes

theorem EncodeLength.tmConnect : EncodeLength.Statement (.tmConnect) := rfl
theorem EncodeLength.tmDisconnect : EncodeLength.Statement (.tmDisconnect) := rfl
theorem EncodeLength.tmSecure (wantSsr : Bool) (ctag : Word) (size : BitVec 16) (readLen : Word) : EncodeLength.Statement (.tmSecure wantSsr ctag size readLen) := rfl
theorem EncodeLength.tmStandard (writeEnable : Bool) (waitBusy : Bool) (hasAddr : Bool) (addr : Word) (size : BitVec 16) (addrSize : Byte) (dummy : Byte) (opcode : Byte) (readLen : BitVec 16) : EncodeLength.Statement (.tmStandard writeEnable waitBusy hasAddr addr size addrSize dummy opcode readLen) := rfl
theorem EncodeLength.getLastSsr : EncodeLength.Statement (.getLastSsr) := rfl
theorem EncodeLength.synchMc : EncodeLength.Statement (.synchMc) := rfl
theorem EncodeLength.getMcUnsigned : EncodeLength.Statement (.getMcUnsigned) := rfl
theorem EncodeLength.checkLastSsrErrors (mask : Word) : EncodeLength.Statement (.checkLastSsrErrors mask) := rfl
theorem EncodeLength.sessionOpen (kid : Byte) (hasKey : Bool) (includeWid : Bool) (ignoreScr : Bool) : EncodeLength.Statement (.sessionOpen kid hasKey includeWid ignoreScr) := rfl
theorem EncodeLength.sessionCloseRevoke (kid : Byte) : EncodeLength.Statement (.sessionCloseRevoke kid) := rfl
theorem EncodeLength.sessionClose (kid : Byte) : EncodeLength.Statement (.sessionClose kid) := rfl
theorem EncodeLength.signData (refresh : Bool) (ctag : Word) (size : BitVec 16) : EncodeLength.Statement (.signData refresh ctag size) := rfl
theorem EncodeLength.prepareSignedSetter (encData : Bool) (encAddr : Bool) (ctag : Word) (size : BitVec 16) : EncodeLength.Statement (.prepareSignedSetter encData encAddr ctag size) := rfl
theorem EncodeLength.executeSignedSetter (encData : Bool) (encAddr : Bool) (ctag : Word) (size : BitVec 16) (mask : Word) : EncodeLength.Statement (.executeSignedSetter encData encAddr ctag size mask) := rfl
theorem EncodeLength.setKey (kid : Byte) (size : BitVec 16) : EncodeLength.Statement (.setKey kid size) := rfl
theorem EncodeLength.setSuid (size : BitVec 16) : EncodeLength.Statement (.setSuid size) := rfl
theorem EncodeLength.setGmc (size : BitVec 16) : EncodeLength.Statement (.setGmc size) := rfl
theorem EncodeLength.setGmt (size : BitVec 16) : EncodeLength.Statement (.setGmt size) := rfl
theorem EncodeLength.setAwdt (size : BitVec 16) : EncodeLength.Statement (.setAwdt size) := rfl
theorem EncodeLength.setScr (chainInitPa : Bool) (chainReset : Bool) (size : BitVec 16) (sect : Byte) : EncodeLength.Statement (.setScr chainInitPa chainReset size sect) := rfl
theorem EncodeLength.setRstResp (size : BitVec 16) : EncodeLength.Statement (.setRstResp size) := rfl
theorem EncodeLength.setAclr (size : BitVec 16) : EncodeLength.Statement (.setAclr size) := rfl
theorem EncodeLength.getWid (size : BitVec 16) : EncodeLength.Statement (.getWid size) := rfl
theorem EncodeLength.getSuid (size : BitVec 16) : EncodeLength.Statement (.getSuid size) := rfl
theorem EncodeLength.getSsrSigned (size : BitVec 16) : EncodeLength.Statement (.getSsrSigned size) := rfl
theorem EncodeLength.getGmc (size : BitVec 16) : EncodeLength.Statement (.getGmc size) := rfl
theorem EncodeLength.getGmt (size : BitVec 16) : EncodeLength.Statement (.getGmt size) := rfl
theorem EncodeLength.getAwdt (size : BitVec 16) : EncodeLength.Statement (.getAwdt size) := rfl
theorem EncodeLength.getScr (size : BitVec 16) (sect : Byte) : EncodeLength.Statement (.getScr size sect) := rfl
theorem EncodeLength.getHwVer (size : BitVec 16) : EncodeLength.Statement (.getHwVer size) := rfl
theorem EncodeLength.getMcSigned (size : BitVec 16) : EncodeLength.Statement (.getMcSigned size) := rfl
theorem EncodeLength.calcSig (size : BitVec 16) (sect : Byte) (dtype : Byte) : EncodeLength.Statement (.calcSig size sect dtype) := rfl
theorem EncodeLength.srd (addr : Word) : EncodeLength.Statement (.srd addr) := rfl
theorem EncodeLength.sard (addr : Word) : EncodeLength.Statement (.sard addr) := rfl
theorem EncodeLength.srdMulti (addr : Word) (size : Word) : EncodeLength.Statement (.srdMulti addr size) := rfl
theorem EncodeLength.sardMulti (addr : Word) (size : Word) : EncodeLength.Statement (.sardMulti addr size) := rfl
theorem EncodeLength.sawr (addr : Word) (size : BitVec 16) : EncodeLength.Statement (.sawr addr size) := rfl
theorem EncodeLength.serase4k (addr : Word) : EncodeLength.Statement (.serase4k addr) := rfl
theorem EncodeLength.serase32k (addr : Word) : EncodeLength.Statement (.serase32k addr) := rfl
theorem EncodeLength.serase64k (addr : Word) : EncodeLength.Statement (.serase64k addr) := rfl
theorem EncodeLength.seraseSection (sect : Byte) : EncodeLength.Statement (.seraseSection sect) := rfl
theorem EncodeLength.seraseChip : EncodeLength.Statement (.seraseChip) := rfl
theorem EncodeLength.opcGetMc (param : Byte) (mode : BitVec 16) : EncodeLength.Statement (.opcGetMc param mode) := rfl
theorem EncodeLength.opcSessionOpen (param : Byte) (mode : BitVec 16) : EncodeLength.Statement (.opcSessionOpen param mode) := rfl
theorem EncodeLength.opcInitPa (param : Byte) (mode : BitVec 16) : EncodeLength.Statement (.opcInitPa param mode) := rfl
theorem EncodeLength.opcCalcSig (param : Byte) (mode : BitVec 16) : EncodeLength.Statement (.opcCalcSig param mode) := rfl
theorem EncodeLength.opcSrd (addr24 : BitVec 24) : EncodeLength.Statement (.opcSrd addr24) := rfl
theorem EncodeLength.opcSard (addr24 : BitVec 24) : EncodeLength.Statement (.opcSard addr24) := rfl
theorem EncodeLength.opcSawr (addr24 : BitVec 24) : EncodeLength.Statement (.opcSawr addr24) := rfl
theorem EncodeLength.opcSetKey (param : Byte) (mode : BitVec 16) : EncodeLength.Statement (.opcSetKey param mode) := rfl
theorem EncodeLength.opcSetSuid (param : Byte) (mode : BitVec 16) : EncodeLength.Statement (.opcSetSuid param mode) := rfl
theorem EncodeLength.opcSetGmc (param : Byte) (mode : BitVec 16) : EncodeLength.Statement (.opcSetGmc param mode) := rfl
theorem EncodeLength.opcSetGmt (param : Byte) (mode : BitVec 16) : EncodeLength.Statement (.opcSetGmt param mode) := rfl
theorem EncodeLength.opcSetAwdt (param : Byte) (mode : BitVec 16) : EncodeLength.Statement (.opcSetAwdt param mode) := rfl
theorem EncodeLength.opcSetScr (param : Byte) (mode : BitVec 16) : EncodeLength.Statement (.opcSetScr param mode) := rfl
theorem EncodeLength.opcSetRstResp (param : Byte) (mode : BitVec 16) : EncodeLength.Statement (.opcSetRstResp param mode) := rfl
theorem EncodeLength.opcSetAclr (param : Byte) (mode : BitVec 16) : EncodeLength.Statement (.opcSetAclr param mode) := rfl
theorem EncodeLength.opcErase4k (addr24 : BitVec 24) : EncodeLength.Statement (.opcErase4k addr24) := rfl
theorem EncodeLength.opcErase32k (addr24 : BitVec 24) : EncodeLength.Statement (.opcErase32k addr24) := rfl
theorem EncodeLength.opcErase64k (addr24 : BitVec 24) : EncodeLength.Statement (.opcErase64k addr24) := rfl
theorem EncodeLength.opcEraseSection (param : Byte) (mode : BitVec 16) : EncodeLength.Statement (.opcEraseSection param mode) := rfl
theorem EncodeLength.opcEraseChip (param : Byte) (mode : BitVec 16) : EncodeLength.Statement (.opcEraseChip param mode) := rfl
theorem EncodeLength.opcCalcSigDtWid (mode : BitVec 16) : EncodeLength.Statement (.opcCalcSigDtWid mode) := rfl
theorem EncodeLength.opcCalcSigDtSuid (mode : BitVec 16) : EncodeLength.Statement (.opcCalcSigDtSuid mode) := rfl
theorem EncodeLength.opcCalcSigDtSsr (mode : BitVec 16) : EncodeLength.Statement (.opcCalcSigDtSsr mode) := rfl
theorem EncodeLength.opcCalcSigDtGmc (mode : BitVec 16) : EncodeLength.Statement (.opcCalcSigDtGmc mode) := rfl
theorem EncodeLength.opcCalcSigDtGmt (mode : BitVec 16) : EncodeLength.Statement (.opcCalcSigDtGmt mode) := rfl
theorem EncodeLength.opcCalcSigDtAwdt (mode : BitVec 16) : EncodeLength.Statement (.opcCalcSigDtAwdt mode) := rfl
theorem EncodeLength.opcCalcSigDtScr (mode : BitVec 16) : EncodeLength.Statement (.opcCalcSigDtScr mode) := rfl
theorem EncodeLength.opcCalcSigDtHwVer (mode : BitVec 16) : EncodeLength.Statement (.opcCalcSigDtHwVer mode) := rfl
theorem EncodeLength.opcCalcSigDtMc (mode : BitVec 16) : EncodeLength.Statement (.opcCalcSigDtMc mode) := rfl
theorem EncodeLength.op0 : EncodeLength.Statement (.op0) := rfl
theorem EncodeLength.op1 : EncodeLength.Statement (.op1) := rfl
theorem EncodeLength.op2 : EncodeLength.Statement (.op2) := rfl
theorem EncodeLength.stdWren : EncodeLength.Statement (.stdWren) := rfl
theorem EncodeLength.stdRsten : EncodeLength.Statement (.stdRsten) := rfl
theorem EncodeLength.stdRst : EncodeLength.Statement (.stdRst) := rfl

end Sys2Proof.Laws
end

