-- ==== Sys2Proof/Laws/Raises.lean ====
section
/-! SUPPORT. Which statuses a procedure can raise: `Raises A x` says that whatever `x` raises satisfies `A`. -/

namespace Sys2Proof.Machine

variable {α β : Type} {A : Status → Prop}

/-- A stop is a status allowed by `A`, or no status. -/
def Allowed (A : Status → Prop) : Stop → State → Prop
  | .raise st, _ => A st
  | _, _ => True

/-- Whatever `x` raises satisfies `A`. -/
def Raises (A : Status → Prop) (x : M α) : Prop := ∀ s, wp x (fun _ _ => True) (Allowed A) s

theorem Raises.bind {x : M α} {f : α → M β} (hx : Raises A x) (hf : ∀ a, Raises A (f a)) : Raises A (x >>= f) :=
  fun s => wp_bind.2 (wp_mono (hx s) (fun a t _ => hf a t) fun _ _ h => h)

theorem Raises.look {f : State → M α} (hf : ∀ u, Raises A (f u)) : Raises A (get >>= f) := fun s => wp_bind.2 (hf s s)
theorem Raises.pure (a : α) : Raises A (pure a : M α) := fun _ => trivial
theorem Raises.modify (f : State → State) : Raises A (modify f) := fun _ => trivial
theorem Raises.raise {st : Status} (h : A st) : Raises A (raise st : M α) := fun _ => h
theorem Raises.stop {e : Stop} (h : ∀ st, e ≠ .raise st) : Raises A (throw e : M α) := fun _ => by
  cases e with
  | raise st => exact absurd rfl (h st)
  | _ => trivial

theorem Raises.require {c : Bool} {st : Status} (h : A st) : Raises A (require c st) := by
  cases c
  · exact .raise h
  · exact .pure _

theorem Raises.onlyIf {c : Bool} {x : M Unit} (h : Raises A x) : Raises A (onlyIf c x) := by
  cases c
  · exact .pure _
  · exact h

theorem Raises.orRaise {r : Except Status α} (h : ∀ st, r = .error st → A st) : Raises A (orRaise r) := by
  cases r with
  | error st => exact .raise (h st rfl)
  | ok a => exact .pure _

/-- What is attempted raises nothing; a status it returns is one that it raised. -/
theorem Raises.attempt_val {x : M α} (h : Raises A x) (s : State) :
    wp (attempt x) (fun r _ => ∀ st, r = .error st → A st) (Allowed fun _ => False) s := by
  refine wp_attempt.2 (wp_mono (h s) (fun _ _ _ _ h => by cases h) ?_)
  intro e t h
  cases e with
  | raise st => exact fun st' e => by cases e; exact h
  | _ => trivial

theorem Raises.attempt {x : M α} : Raises A (attempt x) := fun s => by
  refine wp_mono (Raises.attempt_val (A := fun _ => True) (x := x) (fun s => ?_) s) (fun _ _ _ => trivial) ?_
  · unfold wp; split
    · trivial
    · rename_i e _ _; cases e <;> trivial
  · intro e t h
    cases e with
    | raise st => exact h.elim
    | _ => trivial

theorem Raises.masked {x : M α} (h : Raises A x) : Raises A (masked x) := fun s => by
  have h1 := h { s with atomic := s.atomic + 1 }
  unfold wp at h1 ⊢
  rw [run_masked]
  rcases hx : x.run { s with atomic := s.atomic + 1 } with ⟨a, t⟩ | ⟨e, t⟩ <;> simp only [hx] at h1 ⊢
  cases e
  · exact h1
  all_goals trivial

theorem Raises.present {r : Option Bytes} : Raises A (present r) := by
  cases r
  · exact .stop (by simp)
  · exact .pure _

/-! ## The transport raises `CONNECTIVITY_ERR` only (rule R342) -/

section
variable (h : A .connectivityErr)
include h

theorem raises_exchange {op : Byte} {addr : Option Word} {sz : Byte} {w : Bytes} {d : Byte} {n : Nat} :
    Raises A (exchange op addr sz w d n) := fun s => by
  unfold wp
  rw [run_exchange]
  cases s.nextAnswer
  · trivial
  · exact h
  · trivial

theorem raises_op0 : Raises A op0 :=
  .look fun _ => .bind (raises_exchange h) fun _ => .bind (.modify _) fun _ => .require h

theorem raises_op1 {ctag : Word} {w : Bytes} : Raises A (op1 ctag w) :=
  .look fun _ => .bind (raises_exchange h) fun _ => .pure _

theorem raises_op2 {n : Nat} : Raises A (op2 n) := .look fun _ => raises_exchange h

theorem raises_bareExchange {c : Byte} : Raises A (bareExchange c) := .bind (raises_exchange h) fun _ => .pure _

theorem raises_pollUntil (stop : Config.SsrLayout → Word → Bool) (fuel : Nat) : Raises A (pollUntil stop fuel) := by
  induction fuel with
  | zero => exact .stop (by simp)
  | succ fuel ih =>
    refine .bind (raises_op0 h) fun _ => .look fun _ => ?_
    split
    · exact .pure _
    · exact ih

theorem raises_busyWait : Raises A busyWait := .bind (.modify _) fun _ => .look fun _ => raises_pollUntil h _ _

theorem raises_pollReady : Raises A pollReady := by
  refine .bind (.modify _) fun _ => .look fun _ => ?_
  split
  · exact .pure _
  · exact raises_pollUntil h _ _

theorem raises_deviceReset : Raises A deviceReset :=
  .bind (.bind (.modify _) fun _ => .look fun _ => raises_bareExchange h) fun _ => .bind (.modify _) fun _ =>
    .look fun _ => .bind (raises_bareExchange h) fun _ => .bind (.modify _) fun _ =>
      .bind (.onlyIf (.modify _)) fun _ => .modify _

theorem raises_secureSend {ctag : Word} {w : Bytes} : Raises A (secureSend ctag w) := by
  refine .bind (.modify _) fun _ => .look fun _ => .bind (.onlyIf (.modify _)) fun _ => fun s => ?_
  refine wp_bind.2 (wp_mono ((raises_op1 h).attempt_val s) ?_ ?_)
  · exact fun r t hr => Raises.bind (.onlyIf (.modify _)) (fun _ => .bind (.orRaise hr) fun _ => .modify _) t
  · intro e t h
    cases e with
    | raise st => exact h.elim
    | _ => trivial

theorem raises_secureSteps {ctag : Word} {w : Bytes} {n : Nat} {b : Bool} : Raises A (secureSteps ctag w n b) := by
  refine .bind (.onlyIf (raises_secureSend h)) fun _ => .bind (.onlyIf ?_) fun _ => .bind ?_ fun _ => .bind ?_ fun _ =>
    .pure _
  · exact .bind (raises_busyWait h) fun _ => .look fun _ => .bind (.onlyIf (raises_busyWait h)) fun _ => .modify _
  · unfold secureRead
    split
    · exact .pure _
    · refine .look fun _ => .bind (.onlyIf (.look fun _ => ?_)) fun _ => .look fun _ => ?_
      · split
        · exact raises_pollReady h
        · exact .modify _
      · split
        · exact .bind (.modify _) fun _ => .bind (raises_op2 h) fun _ => .pure _
        · exact .pure _
  · refine .look fun _ => .onlyIf (.bind (.onlyIf ?_) fun _ => .onlyIf (raises_deviceReset h))
    exact .bind (.modify _) fun _ => .look fun _ => .bind (raises_op1 h) fun _ => .bind (.modify _) fun _ =>
      .bind (raises_busyWait h) fun _ => .bind (.modify _) fun _ => .modify _

end

/-- `Secure` itself raises nothing: it returns `CONNECTIVITY_ERR` or `NOT_CONNECTED` (rules R281, R287). -/
theorem secure_returns {ctag : Word} {w : Bytes} {n : Nat} {b : Bool} (s : State) :
    wp (secure ctag w n b) (fun r _ => ∀ st, r.1 = .error st → st = .connectivityErr ∨ st = .notConnected)
      (Allowed fun _ => False) s := by
  have tail : ∀ (r : Except Status (Option Bytes)) (t : State),
      (∀ st, r = .error st → st = .connectivityErr ∨ st = .notConnected) →
      wp (do let u ← get; setSsrOut u.ssr; pure (r, u.ssr))
        (fun r _ => ∀ st, r.1 = .error st → st = .connectivityErr ∨ st = .notConnected)
        (Allowed fun _ => False) t := fun r t h => h
  refine wp_bind.2 (wp_get.2 ?_)
  dsimp only
  split
  · refine wp_bind.2 (wp_mono (Raises.attempt_val (A := (· = .connectivityErr)) (.masked
      (raises_secureSteps (A := (· = .connectivityErr)) rfl)) s) ?_
      fun _ _ h => h)
    intro r t hr
    split
    · exact tail _ _ fun st h => .inl (hr st h)
    · exact tail _ _ fun st h => .inl (hr st h)
  · exact tail _ _ fun st h => by cases h; exact .inr rfl

theorem raises_secureOrRaise (h1 : A .connectivityErr) (h2 : A .notConnected) {ctag : Word} {w : Bytes} {n : Nat}
    {b : Bool} : Raises A (secureOrRaise ctag w n b) := fun s => by
  refine wp_bind.2 (wp_mono (secure_returns s) ?_ ?_)
  · rintro ⟨r, sv⟩ t hr
    refine Raises.bind (.orRaise fun st e => ?_) (fun _ => .pure _) t
    rcases hr st e with rfl | rfl <;> assumption
  · intro e t h
    cases e with
    | raise st => exact h.elim
    | _ => trivial

/-! ## The counter and the classifier (rules R312, R315, R316) -/

/-- A status of the classifier: `OK` or one of the device's (rule R312). -/
def Status.ofDevice : Status → Bool
  | .ok | .deviceBusy | .deviceErr | .deviceMcErr | .deviceFlashErr | .deviceSystemErr | .commandIgnored
  | .devicePrivilegeErr | .deviceAuthenticationErr | .deviceIntegrityErr | .deviceSessionErr => true
  | _ => false

theorem ofDevice_ite {c : Prop} [Decidable c] {a b : Status} (ha : a.ofDevice = true) (hb : b.ofDevice = true) :
    (if c then a else b).ofDevice = true := by split <;> assumption

theorem ofDevice_classify (L : Config.SsrLayout) (raw mask : Word) : (classify L raw mask).ofDevice = true := by
  unfold classify
  dsimp only
  generalize (if respReady L raw then _ else _) = m
  unfold firstError
  repeat refine ofDevice_ite rfl ?_
  rfl

theorem raises_checkSsrErrors {raw mask : Word} : Raises A (checkSsrErrors raw mask) :=
  .bind (.modify _) fun _ => .look fun _ => .bind (.onlyIf (.look fun _ => .bind .attempt fun _ => .bind (.modify _)
    fun _ => .bind (.modify _) fun _ => .onlyIf (.modify _))) fun _ => .bind (.modify _) fun _ => .pure _

theorem raises_checkOrRaise (hd : ∀ st : Status, st.ofDevice = true → A st) {raw mask : Word} : Raises A (checkOrRaise raw mask) := by
  intro s
  refine wp_bind.2 (wp_mono (Q := fun st _ => ∃ L, st = classify L raw mask) ?_ ?_ fun _ _ h => h)
  · have h0 : wp (checkSsrErrors raw mask) (fun st _ => ∃ L, st = classify L raw mask) (Allowed A) s := by
      refine wp_bind.2 (wp_bind.2 ?_)
      show wp (do onlyIf (hasError s.cfg.ssr raw) forcedFetch; phase .classify; pure (classify s.cfg.ssr raw mask)) _ _
        { s with seq := .classify }
      refine wp_bind.2 (wp_mono (Raises.onlyIf (A := A) (x := forcedFetch) (.look fun _ => .bind .attempt fun _ =>
        .bind (.modify _) fun _ => .bind (.modify _) fun _ => .onlyIf (.modify _)) _) ?_ fun _ _ h => h)
      exact fun _ _ _ => ⟨_, rfl⟩
    exact h0
  · rintro st t ⟨L, rfl⟩
    unfold okOrRaise
    split
    · trivial
    · exact hd _ (ofDevice_classify _ _ _)

theorem raises_checkAllOrRaise (hd : ∀ st : Status, st.ofDevice = true → A st) {raw : Word} :
    Raises A (checkAllOrRaise raw) := .look fun _ => raises_checkOrRaise hd

section
variable (h1 : A .connectivityErr) (h2 : A .notConnected) (hd : ∀ st : Status, st.ofDevice = true → A st)
include h1 h2 hd

theorem raises_getMc : Raises A getMc := by
  refine .look fun _ => .bind (raises_secureOrRaise h1 h2) fun _ => ?_
  dsimp only
  split
  · exact .raise (hd _ (ofDevice_classify _ _ _))
  · exact .bind .present fun _ => .pure _

theorem raises_synchMc : Raises A synchMc := by
  refine .look fun _ => ?_
  split
  · exact .pure _
  · exact .bind (.modify _) fun _ => .bind (raises_getMc h1 h2 hd) fun _ => .bind (.require (hd _ rfl)) fun _ => .modify _

theorem raises_useMc : Raises A useMc := by
  refine .bind (raises_synchMc h1 h2 hd) fun _ => .look fun u => .bind (.require (hd _ rfl)) fun _ => ?_
  refine .bind (fun s => trivial) fun _ => ?_
  split <;> exact .pure _

end

theorem raises_signData {ctag : Word} {data : Bytes} {refresh : Bool} : Raises A (signData ctag data refresh) := fun s =>
  (wp_ok (run_signData s ctag data refresh)).2 trivial

end Sys2Proof.Machine
end

