-- ==== Sys2Proof/Laws/Swizzle.lean ====
section
/-! SUPPORT. `AddrSwizzle` (rule R96) as a parameter: its values are the bijections on 24-bit values, each one. -/

namespace Sys2Proof

theorem reverseBytes_reverseBytes (a : BitVec 24) : reverseBytes (reverseBytes a) = a := by
  apply BitVec.eq_of_getLsbD_eq
  intro i hi
  simp only [reverseBytes, BitVec.getLsbD_append, BitVec.getLsbD_extractLsb']
  interval_cases i <;> simp

theorem reverseBytes_involutive : Function.Involutive reverseBytes := reverseBytes_reverseBytes

theorem exchangeValues_eq_swap (p q : BitVec 24) : exchangeValues p q = Equiv.swap p q := by
  funext a
  rw [exchangeValues, Equiv.swap_apply_def]

/-- The exchanges of a list, one after the other, as a bijection. -/
def exchanges : List (BitVec 24 × BitVec 24) → Equiv.Perm (BitVec 24)
  | [] => 1
  | pq :: rest => exchanges rest * Equiv.swap pq.1 pq.2

theorem foldl_exchangeValues (swaps : List (BitVec 24 × BitVec 24)) (a : BitVec 24) :
    swaps.foldl (fun b pq => exchangeValues pq.1 pq.2 b) a = exchanges swaps a := by
  induction swaps generalizing a with
  | nil => rfl
  | cons pq rest ih => rw [List.foldl_cons, ih, exchangeValues_eq_swap, exchanges, Equiv.Perm.mul_apply]

theorem addrSwizzle_eq (swaps : List (BitVec 24 × BitVec 24)) :
    addrSwizzle swaps = exchanges swaps ∘ reverseBytes :=
  funext fun _ => foldl_exchangeValues _ _

/-- The default: the reversal of the three bytes. -/
theorem addrSwizzle_nil : addrSwizzle [] = reverseBytes := rfl

/-- Every value of the parameter is a bijection. -/
theorem addrSwizzle_bijective (swaps : List (BitVec 24 × BitVec 24)) : Function.Bijective (addrSwizzle swaps) := by
  rw [addrSwizzle_eq]
  exact (exchanges swaps).bijective.comp reverseBytes_involutive.bijective

theorem exists_exchanges (e : Equiv.Perm (BitVec 24)) : ∃ swaps, exchanges swaps = e := by
  induction e using Equiv.Perm.swap_induction_on' with
  | one => exact ⟨[], rfl⟩
  | mul_swap f x y _ ih =>
    obtain ⟨swaps, rfl⟩ := ih
    exact ⟨(x, y) :: swaps, rfl⟩

/-- Every bijection is a value of the parameter. -/
theorem exists_addrSwizzle (f : BitVec 24 → BitVec 24) (h : Function.Bijective f) :
    ∃ swaps, addrSwizzle swaps = f := by
  obtain ⟨swaps, hs⟩ := exists_exchanges
    (Equiv.ofBijective (f ∘ reverseBytes) (h.comp reverseBytes_involutive.bijective))
  refine ⟨swaps, ?_⟩
  rw [addrSwizzle_eq, hs]
  funext a
  simp only [Function.comp_apply, Equiv.ofBijective_apply, reverseBytes_reverseBytes]

end Sys2Proof
end

