-- ==== Sys2Proof/Tests/Slice0.lean ====
section
/-! SUPPORT. Tests: refusals of ill-formed terms, words written out from the spec's encodings, the spec's own
vectors (spec/95_test_vectors.md), single steps, and for each statement with hypotheses a concrete state
and operands that meet them (`meets_…`). -/

namespace Sys2Proof.Tests

open Sys2Proof.Machine
open Sys2Proof.Config (Answer Event)

/-! ## Well-formedness: the only ill-formed terms are the general `OPC_CALC_SIG` with a data-type code -/

theorem test_illFormed_lowest : WellFormed (.opcCalcSig 1 0) = false := by decide
theorem test_illFormed_highest : WellFormed (.opcCalcSig 9 0xFFFF) = false := by decide
theorem test_wellFormed_below : WellFormed (.opcCalcSig 0 0) = true := by decide
theorem test_wellFormed_above : WellFormed (.opcCalcSig 10 0) = true := by decide

/-! ## Decoding. Host words: rows of V-CMD, else composed from the bit positions of R90 and R113. Wire words: R92, R93
and the opcodes of R110, R111. Bus words: R103, R109. -/

theorem test_decode_tmConnect : decodeTableWord 128 0x00000000000000000000000000000001 = some (.tmConnect) := by decide
theorem test_decode_tmDisconnect : decodeTableWord 128 0x00000000000000000000000000000002 = some (.tmDisconnect) := by decide
theorem test_decode_tmSecure : decodeTableWord 128 0x00000008000000000000004000800003 = some (.tmSecure true 0x40 0 8) := by decide
theorem test_decode_tmStandard : decodeTableWord 128 0x00000020000300000000100013000004 = some (.tmStandard true true true 0x1000 0 3 0 0x20 0) := by decide
theorem test_decode_getLastSsr : decodeTableWord 128 0x00000000000000000000000000000005 = some (.getLastSsr) := by decide
theorem test_decode_synchMc : decodeTableWord 128 0x00000000000000000000000000000008 = some (.synchMc) := by decide
theorem test_decode_getMcUnsigned : decodeTableWord 128 0x00000000000000000000000000000009 = some (.getMcUnsigned) := by decide
theorem test_decode_checkLastSsrErrors : decodeTableWord 128 0x000000000000000000000FF90000000A = some (.checkLastSsrErrors 0xFF9) := by decide
theorem test_decode_sessionOpen : decodeTableWord 128 0x00000000000000000000000000061110 = some (.sessionOpen 0x11 false true true) := by decide
theorem test_decode_sessionOpen_key : decodeTableWord 128 0x00000000000000000000000000011110 = some (.sessionOpen 0x11 true false false) := by decide
theorem test_decode_sessionClose : decodeTableWord 128 0x00000000000000000000000000001111 = some (.sessionClose 0x11) := by decide
theorem test_decode_sessionCloseRevoke : decodeTableWord 128 0x00000000000000000000000000081111 = some (.sessionCloseRevoke 0x11) := by decide
theorem test_decode_signData : decodeTableWord 128 0x00000000000000200002055200100018 = some (.signData true 0x20552 32) := by decide
theorem test_decode_prepareSignedSetter : decodeTableWord 128 0x00000000000000200002055200600019 = some (.prepareSignedSetter true true 0x20552 32) := by decide
theorem test_decode_executeSignedSetter : decodeTableWord 128 0x00000FF900000020000100520060001A = some (.executeSignedSetter true true 0x10052 32 0xFF9) := by decide
theorem test_decode_setKey : decodeTableWord 128 0x00000000000000100000000000000220 = some (.setKey 2 16) := by decide
theorem test_decode_setScr : decodeTableWord 128 0x0000000000010014000000000C000025 = some (.setScr true true 20 1) := by decide
theorem test_decode_getSuid : decodeTableWord 128 0x00000000000000100000000000000031 = some (.getSuid 16) := by decide
theorem test_decode_getScr : decodeTableWord 128 0x00000000000300140000000000000036 = some (.getScr 20 3) := by decide
theorem test_decode_calcSig : decodeTableWord 128 0x0000000002000010000000000000003F = some (.calcSig 16 0 2) := by decide
theorem test_decode_srd : decodeTableWord 128 0x00000000000000000000010000000040 = some (.srd 0x100) := by decide
theorem test_decode_sard : decodeTableWord 128 0x00000000000000000000010000000041 = some (.sard 0x100) := by decide
theorem test_decode_srdMulti : decodeTableWord 128 0x00000040000000000000010000000042 = some (.srdMulti 0x100 64) := by decide
theorem test_decode_sardMulti : decodeTableWord 128 0x00000060000000000000010000000043 = some (.sardMulti 0x100 96) := by decide
theorem test_decode_sawr : decodeTableWord 128 0x00000000000000200000010000000044 = some (.sawr 0x100 32) := by decide
theorem test_decode_serase4k : decodeTableWord 128 0x00000000000000000000100000000048 = some (.serase4k 0x1000) := by decide
theorem test_decode_seraseSection : decodeTableWord 128 0x0000000000020000000000000000004B = some (.seraseSection 2) := by decide
theorem test_decode_tmStandard_fields : decodeTableWord 128 0x5678FF9A0302BEEFA1B2C3D402000004 = some (.tmStandard false true false 0xA1B2C3D4 0xBEEF 2 3 0x9A 0x5678) := by decide
theorem test_decode_sessionOpen_wid : decodeTableWord 128 0x00000000000000000000000000023010 = some (.sessionOpen 0x30 false true false) := by decide
theorem test_decode_prepareSignedSetter_data : decodeTableWord 128 0x00000000000000201234567800200019 = some (.prepareSignedSetter true false 0x12345678 32) := by decide
theorem test_decode_executeSignedSetter_addr : decodeTableWord 128 0x9ABCDEF00000FFFF123456780040001A = some (.executeSignedSetter false true 0x12345678 0xFFFF 0x9ABCDEF0) := by decide
theorem test_decode_setScr_initPa : decodeTableWord 128 0x00000000000700200000000004000025 = some (.setScr true false 32 7) := by decide
theorem test_decode_setSuid : decodeTableWord 128 0x000000000000BE210000000000000021 = some (.setSuid 0xBE21) := by decide
theorem test_decode_setGmc : decodeTableWord 128 0x000000000000BE220000000000000022 = some (.setGmc 0xBE22) := by decide
theorem test_decode_setGmt : decodeTableWord 128 0x000000000000BE230000000000000023 = some (.setGmt 0xBE23) := by decide
theorem test_decode_setAwdt : decodeTableWord 128 0x000000000000BE240000000000000024 = some (.setAwdt 0xBE24) := by decide
theorem test_decode_setRstResp : decodeTableWord 128 0x000000000000BE260000000000000026 = some (.setRstResp 0xBE26) := by decide
theorem test_decode_setAclr : decodeTableWord 128 0x000000000000BE270000000000000027 = some (.setAclr 0xBE27) := by decide
theorem test_decode_getWid : decodeTableWord 128 0x000000000000BE300000000000000030 = some (.getWid 0xBE30) := by decide
theorem test_decode_getSsrSigned : decodeTableWord 128 0x000000000000BE320000000000000032 = some (.getSsrSigned 0xBE32) := by decide
theorem test_decode_getGmc : decodeTableWord 128 0x000000000000BE330000000000000033 = some (.getGmc 0xBE33) := by decide
theorem test_decode_getGmt : decodeTableWord 128 0x000000000000BE340000000000000034 = some (.getGmt 0xBE34) := by decide
theorem test_decode_getAwdt : decodeTableWord 128 0x000000000000BE350000000000000035 = some (.getAwdt 0xBE35) := by decide
theorem test_decode_getHwVer : decodeTableWord 128 0x000000000000BE370000000000000037 = some (.getHwVer 0xBE37) := by decide
theorem test_decode_getMcSigned : decodeTableWord 128 0x000000000000BE380000000000000038 = some (.getMcSigned 0xBE38) := by decide
theorem test_decode_serase32k : decodeTableWord 128 0x000000000000000000ABCDE000000049 = some (.serase32k 0xABCDE0) := by decide
theorem test_decode_serase64k : decodeTableWord 128 0x000000000000000000ABCDE00000004A = some (.serase64k 0xABCDE0) := by decide
theorem test_decode_seraseChip : decodeTableWord 128 0x0000000000000000000000000000004C = some (.seraseChip) := by decide

theorem test_decode_opcGetMc : decodeTableWord 32 0xBEEFA740 = some (.opcGetMc 0xA7 0xBEEF) := by decide
theorem test_decode_opcSessionOpen : decodeTableWord 32 0xBEEFA744 = some (.opcSessionOpen 0xA7 0xBEEF) := by decide
theorem test_decode_opcInitPa : decodeTableWord 32 0xBEEFA745 = some (.opcInitPa 0xA7 0xBEEF) := by decide
theorem test_decode_opcCalcSig : decodeTableWord 32 0xBEEFA746 = some (.opcCalcSig 0xA7 0xBEEF) := by decide
theorem test_decode_opcSrd : decodeTableWord 32 0x12345650 = some (.opcSrd 0x123456) := by decide
theorem test_decode_opcSard : decodeTableWord 32 0x12345651 = some (.opcSard 0x123456) := by decide
theorem test_decode_opcSawr : decodeTableWord 32 0x12345652 = some (.opcSawr 0x123456) := by decide
theorem test_decode_opcSetKey : decodeTableWord 32 0xBEEFA760 = some (.opcSetKey 0xA7 0xBEEF) := by decide
theorem test_decode_opcSetSuid : decodeTableWord 32 0xBEEFA761 = some (.opcSetSuid 0xA7 0xBEEF) := by decide
theorem test_decode_opcSetGmc : decodeTableWord 32 0xBEEFA762 = some (.opcSetGmc 0xA7 0xBEEF) := by decide
theorem test_decode_opcSetGmt : decodeTableWord 32 0xBEEFA763 = some (.opcSetGmt 0xA7 0xBEEF) := by decide
theorem test_decode_opcSetAwdt : decodeTableWord 32 0xBEEFA764 = some (.opcSetAwdt 0xA7 0xBEEF) := by decide
theorem test_decode_opcSetScr : decodeTableWord 32 0xBEEFA765 = some (.opcSetScr 0xA7 0xBEEF) := by decide
theorem test_decode_opcSetRstResp : decodeTableWord 32 0xBEEFA766 = some (.opcSetRstResp 0xA7 0xBEEF) := by decide
theorem test_decode_opcSetAclr : decodeTableWord 32 0xBEEFA767 = some (.opcSetAclr 0xA7 0xBEEF) := by decide
theorem test_decode_opcErase4k : decodeTableWord 32 0x12345670 = some (.opcErase4k 0x123456) := by decide
theorem test_decode_opcErase32k : decodeTableWord 32 0x12345671 = some (.opcErase32k 0x123456) := by decide
theorem test_decode_opcErase64k : decodeTableWord 32 0x12345672 = some (.opcErase64k 0x123456) := by decide
theorem test_decode_opcEraseSection : decodeTableWord 32 0xBEEFA773 = some (.opcEraseSection 0xA7 0xBEEF) := by decide
theorem test_decode_opcEraseChip : decodeTableWord 32 0xBEEFA774 = some (.opcEraseChip 0xA7 0xBEEF) := by decide
theorem test_decode_opcCalcSigDtWid : decodeTableWord 32 0x00050146 = some (.opcCalcSigDtWid 5) := by decide
theorem test_decode_opcCalcSigDtSuid : decodeTableWord 32 0x00050246 = some (.opcCalcSigDtSuid 5) := by decide
theorem test_decode_opcCalcSigDtSsr : decodeTableWord 32 0x00050346 = some (.opcCalcSigDtSsr 5) := by decide
theorem test_decode_opcCalcSigDtGmc : decodeTableWord 32 0x00050446 = some (.opcCalcSigDtGmc 5) := by decide
theorem test_decode_opcCalcSigDtGmt : decodeTableWord 32 0x00050546 = some (.opcCalcSigDtGmt 5) := by decide
theorem test_decode_opcCalcSigDtAwdt : decodeTableWord 32 0x00050646 = some (.opcCalcSigDtAwdt 5) := by decide
theorem test_decode_opcCalcSigDtScr : decodeTableWord 32 0x00050746 = some (.opcCalcSigDtScr 5) := by decide
theorem test_decode_opcCalcSigDtHwVer : decodeTableWord 32 0x00050846 = some (.opcCalcSigDtHwVer 5) := by decide
theorem test_decode_opcCalcSigDtMc : decodeTableWord 32 0x00050946 = some (.opcCalcSigDtMc 5) := by decide

theorem test_decode_op0 : decodeTableWord 8 0xA0 = some .op0 := by decide
theorem test_decode_op1 : decodeTableWord 8 0xA1 = some .op1 := by decide
theorem test_decode_op2 : decodeTableWord 8 0xA2 = some .op2 := by decide
theorem test_decode_stdWren : decodeTableWord 8 0x06 = some .stdWren := by decide
theorem test_decode_stdRsten : decodeTableWord 8 0x66 = some .stdRsten := by decide
theorem test_decode_stdRst : decodeTableWord 8 0x99 = some .stdRst := by decide

theorem test_decode_reserved : decodeTableWord 128 0x07 = none := by decide
theorem test_decode_host_rejects : decode .host (7 :: List.replicate 15 0) = .error (.reservedHostOp 7) := by decide
theorem test_decode_wire_rejects : decode .wire [0x41, 0, 0, 0] = .error (.unassignedWireOpcode 0x41) := by decide
theorem test_decode_bus_rejects : decode .bus [0xA3] = .error (.unassignedBusOpcode 0xA3) := by decide
theorem test_decode_short : decode .wire [0x40, 0, 0] = .error (.wrongLength 3) := by decide
theorem test_encode_host : encode (.setScr true true 20 1)
    = [0x25, 0, 0, 0x0C, 0, 0, 0, 0, 0x14, 0, 0x01, 0, 0, 0, 0, 0] := by decide
theorem test_encode_wire : encode (.opcSard 0x012340) = [0x51, 0x40, 0x23, 0x01] := by decide

/-! ## V-ENC, V-KID, V-SSR, V-MC -/

theorem test_ctag : mkCtag 0x44 0x11 1 = 0x00011144 ∧ le32 (mkCtag 0x44 0x11 1) = [0x44, 0x11, 0x01, 0x00] := by decide
theorem test_ctagAddr : mkCtagAddr 0x51 0x012340 = 0x01234051
    ∧ le32 (mkCtagAddr 0x51 0x012340) = [0x51, 0x40, 0x23, 0x01] := by decide
theorem test_swizzle : addrSwizzle ({} : Config.Params).addrSwizzle (0x012345 ^^^ 0xA1B2C3) = 0x8691A0
    ∧ addrSwizzle ({} : Config.Params).addrSwizzle (0xFFFFE0 ^^^ 0) = 0xE0FFFF := by decide
/-- Another value of the parameter: the byte reversal, then an exchange of two values. -/
theorem test_swizzle_exchange : addrSwizzle [(0xE0FFFF, 0x000001)] 0xFFFFE0 = 0x000001
    ∧ addrSwizzle [(0xE0FFFF, 0x000001)] 0x010000 = 0xE0FFFF
    ∧ addrSwizzle [(0xE0FFFF, 0x000001)] 0x012345 = 0x452301 := by decide
theorem test_randomise : randomiseAddr 5 0x100 7 = 0x107 ∧ randomiseAddr 5 0x100 0x1F = 0x11F
    ∧ randomiseAddr 5 0x100 0xFF = 0x11F ∧ randomiseAddr 5 0xFFFFE0 0x1F = 0xFFFFFF := by decide
theorem test_kid : [0x00, 0x07, 0x11, 0x20, 0x30].all (kidValid 8) = true
    ∧ [0x08, 0x18, 0x21, 0x3F, 0x40, 0xFF].any (kidValid 8) = false := by decide
theorem test_classify_first :
    classify {} 0x00111004 0xFF9 = .ok ∧ classify {} 0x00FF1048 0xFF9 = .deviceAuthenticationErr
    ∧ classify {} 0x00111028 0xFD9 = .deviceErr ∧ classify {} 0x00111068 0xFD9 = .deviceAuthenticationErr
    ∧ classify {} 0x00FF1108 0xEF9 = .deviceErr ∧ classify {} 0x00FF1FF9 0xFF9 = .deviceSessionErr := by decide
theorem test_classify_second :
    classify {} 0x00FF1008 0xFF9 = .deviceErr ∧ classify {} 0x00FF1001 0xFF9 = .deviceBusy
    ∧ classify {} 0x00FF1003 0xFF9 = .ok ∧ classify {} 0x00FF1FF8 0 = .ok
    ∧ classify {} 0x00FF1C08 0xFF9 = .deviceFlashErr ∧ classify {} 0x00FF1A08 0xFF9 = .deviceSystemErr := by decide
theorem test_masks : maskAllErrors {} = 0xFF9 ∧ maskIgnoreIntg {} = 0xFD9 ∧ maskIgnoreIgnore {} = 0xEF9 := by decide
theorem test_mcValid : mcValid 0x10 0 = true ∧ mcValid 0xF 0 = false ∧ mcValid 0xFFFFFFFE 0 = true
    ∧ mcValid 0xFFFFFFFF 0 = false ∧ mcValid 0x20 0x3FFFFFFE = true ∧ mcValid 0x20 0x3FFFFFFF = false := by decide

/-! ## States and answers for the tests -/

/-- Connected, the counter trusted, a session of KID 11H, with scripted answers. -/
def live (answers : List Answer) : State :=
  { State.reset with
    busIsLocked := true, mc := { tc := 0x20, dmc := 5, inSync := true }, kid := 0x11, env := { answers := answers } }

/-- Connected right after reset. -/
def fresh (answers : List Answer) : State := { State.reset with busIsLocked := true, env := { answers := answers } }

/-- A state in which the host is about to do something. -/
def queued (e : HostEvent) : State := { State.reset with env := { host := [e] } }

/-- SSR values as the vectors' device shows them: busy, idle, response ready. -/
def busy : Word := 0x00111005
def quiet : Word := 0x00111004
def ready : Word := 0x00111006

/-- A wait of one busy poll. -/
def waitFor (v : Word) : Wait := ⟨[busy], v⟩

/-- A transaction that ends with a response, or without one. -/
def tx (c : Word) (p r : Bytes) : Transaction := ⟨c, p, waitFor ready, waitFor ready, r⟩

/-- The outcome's next state. -/
def after : Host.Outcome State Fault Refusal → Option State
  | .next t => some t
  | _ => none

/-! ## Single steps -/

/-- P10. -/
theorem test_connect : ((after (exec .tmConnect State.reset)).map fun t => (t.status, t.busIsLocked)) = some (.ok, true)
    ∧ (after (exec .tmConnect (fresh []))).map (·.status) = some .deviceBusy := by decide
theorem test_disconnect :
    ((after (exec .tmDisconnect (fresh []))).map fun t => (t.status, t.busIsLocked)) = some (.ok, false)
    ∧ (after (exec .tmDisconnect State.reset)).map (·.status) = some .notConnected := by decide
theorem test_srd_disconnected :
    ((after (exec (.srd 0x100) State.reset)).map fun t => (t.status, t.env.trace)) = some (.notConnected, []) := by decide
/-- R99, R180: the section index is in the CTAG of every data type, unless the parameter says otherwise. -/
theorem test_calcSig_section : calcSigCtag {} 7 5 = 0x00050746 ∧ calcSigCtag {} 2 5 = 0x00050246
    ∧ calcSigCtag { unusedSection := .sentAsZero } 2 5 = 0x00000246 := by decide
/-- R340: the default codes, in the order of the table; the codes are parameters. -/
theorem test_statusCodes : allStatuses.map (statusCode {}) = [0, 1, 2, 3, 4, 5, 6, 7, 8, 9, 10, 11, 12, 13, 14, 15]
    ∧ readStatus { State.reset with status := .parameterErr, cfg := { status := { parameterErr := 0x80 } } } = 0x80 := by
  decide
/-- The bus code of an event that is an exchange. -/
def exchangeCode : Event → Option Byte
  | .exchange x _ => some x.opcode
  | _ => none

/-- P16: three exchanges, the polled word in the snapshot. -/
theorem test_standard :
    ((after (exec (.tmStandard true true true 0x1000 0 3 0 0x20 0)
        (fresh [.bytes [], .bytes [], .bytes [0x00, 0x10, 0xFF, 0x00]]))).map
      fun t => (t.status, t.ssr, t.env.trace.reverse.filterMap exchangeCode)) = some (.ok, 0x00FF1000, [0x06, 0x20, 0xA0]) := by
  decide
/-- R90, R112, R114: an address of more than 24 bits is refused; without `HAS_ADDR` the field is not read. -/
theorem test_standard_address :
    after (exec (.tmStandard false false true 0x01001000 0 3 0 0x20 0) (live [])) =
      some { live [] with status := .parameterErr }
    ∧ ((after (exec (.tmStandard false false false 0x01001000 0 3 0 0x20 0) (live [.bytes []]))).map
      fun t => t.status) = some .ok := by decide
/-- P18: sixteen requests refused at the boundary, in an order of their own. -/
theorem test_rejected :
    ([.srd 0x101, .srd 0x1000000, .sawr 0x100 31, .srdMulti 0x100 48, .srdMulti 0xFFFFE0 64, .srdMulti 0x100 0,
        .calcSig 4 0 0, .calcSig 4 8 7, .calcSig 33 0 1, .seraseSection 8, .sessionOpen 0x40 false false false,
        .sessionOpen 0x21 false false false, .sessionOpen 0x20 false false false, .sessionCloseRevoke 0x30,
        .setScr false false 0 9, .signData true 0 33] : List Instr).all
      (fun i => after (exec i (live [])) == some { live [] with status := .parameterErr }) = true := by decide
/-- P13: the range checks of the synchroniser. -/
def synchWith (tc dmc : Word) : Option (Status × Mc) :=
  (after (exec .synchMc (fresh ((tx 0x40 [] (le32 tc ++ le32 dmc)).answers {})))).map fun t => (t.status, t.mc)
theorem test_synch_low : synchWith 0x0F 5 = some (.deviceMcErr, {}) := by decide
theorem test_synch_dmc : synchWith 0x20 0x3FFFFFFF = some (.deviceMcErr, {}) := by decide
theorem test_synch_edge : synchWith 0x10 0x3FFFFFFE = some (.ok, ⟨0x10, 0x3FFFFFFE, true⟩) := by decide
theorem test_useMc_end :
    (after (exec .seraseChip { live [] with mc := ⟨0xFFFFFFFE, 5, true⟩ })).map (fun t => (t.status, t.mc))
      = some (.deviceMcErr, ⟨0xFFFFFFFE, 5, true⟩) := by decide
/-- P5, P15: an error bit forces the fetch; here the device then reports 22H. -/
theorem test_forced_fetch :
    (after (exec (.checkLastSsrErrors 0xFF9)
        { live ((tx 0x40 [] (le32 0x22 ++ le32 5)).answers {}) with ssr := 0x00111048 })).map
      (fun t => (t.status, t.mc.tc, t.out.ssrOut, t.ssr)) = some (.deviceAuthenticationErr, 0x22, 0x00111048, ready) := by
  decide
/-- The frame of a wire command: CTAG, then the payload (R105, R108). -/
theorem test_wire_frame :
    (after (exec (.opcErase4k 0x123456)
        { live [.bytes [], .bytes (le32 quiet)] with latch := { wbuf := [1, 2, 3, 4, 5, 6, 7, 8] } })).map
      (fun t => (t.status, t.env.trace.getLast?)) = some (.ok, some (.exchange
        { busMode := 0, dtr := false, opcode := 0xA1, addr := none, addrSize := 0,
          write := [0x70, 0x56, 0x34, 0x12, 1, 2, 3, 4, 5, 6, 7, 8], dummy := 0, readLen := 0, masked := true }
        (.bytes []))) := by decide
/-- The device reset ends the local session (R297). -/
theorem test_reset_device :
    (after (exec .stdRst { live [.bytes []] with sessionKey := List.replicate 16 1 })).map
      (fun t => (t.status, t.kid, t.sessionKey, t.mc.inSync))
      = some (.ok, 0xFF, List.replicate 16 0xFF, false) := by decide
/-- A poll that finds the dead-link word ends with a link failure (R290), and `Secure` then distrusts the counter. -/
theorem test_dead_link :
    (after (exec .getMcUnsigned (live [.bytes [], .bytes (le32 0)]))).map (fun t => (t.status, t.mc.inSync, t.ssr))
      = some (.connectivityErr, false, 0) := by decide
/-- Configuration registers (R91): bits 7:0 and bit 8; sections beyond the eighth are not there. -/
theorem test_cfg_bus : (after (step (queued (.writeCfgBus 0x1A5)))).map (fun t => (t.conf.busMode, t.conf.dtr, readCfgBus t))
    = some (0xA5, true, 0x1A5) := by decide
theorem test_cfg_pa : (after (step (queued (.writeCfgPa 0xFFFF)))).map readCfgPa = some 0xFF := by decide
/-- The operand buffers (R75; log 17): a short write to `wbuf` overlays it, one to `kbuf` replaces it. -/
theorem test_buffer_writes : ∀ e ∈ [HostEvent.writeWbuf [9], .writeKbuf [9]],
    (after (step { queued e with inp := { wbuf := [1, 2], kbuf := [3, 4] } })).map (fun t => (t.inp.wbuf, t.inp.kbuf))
      = some (if e = .writeWbuf [9] then ([9, 2], [3, 4]) else ([1, 2], [9])) := by decide
/-- A word of the table as the first instruction after reset. -/
theorem test_step_connect :
    (after (step (State.reset.withFetchWord 128 1))).map (fun t => (t.status, t.busIsLocked)) = some (.ok, true) := by decide
theorem test_step_wire :
    (after (step (State.reset.withFetchWord 32 0x40))).map (fun t => t.status) = some .notConnected := by decide
theorem test_step_bus :
    (after (step (State.reset.withFetchWord 8 0xA0))).map (fun t => t.status) = some .notConnected := by decide

/-! ## Hypotheses of the statements, met -/

theorem test_meets_BlockResetValues : (queued .reset).env.host = [.reset] := rfl

theorem test_meets_StepRunsDecodedInstruction :
    let s : State := { queued (.request .wire) with inp := { cmd := { w0 := 0x00000140 } } }
    s.env.host = [.request .wire] ∧ s.seq = .idle
      ∧ decode .wire ((le32 s.inp.cmd.w0 ++ le32 s.inp.cmd.w1 ++ le32 s.inp.cmd.w2 ++ le32 s.inp.cmd.w3).take
          Space.wire.bytes) = .ok (.opcGetMc 1 0) := by decide +kernel

theorem test_meets_RequestIgnoredWhileBusy :
    let s : State := { queued (.request .host) with seq := .wait, atomic := 1 }
    s.env.host = [.request .host] ∧ s.seq ≠ .idle := by decide

/-- Parameters with other status numbers than the defaults. -/
def otherCodes : Config.Params := { status := { parameterErr := 0x80, deviceSessionErr := 1 } }

/-- The writes, each first in the queue; an operation that completes, and one that the reset of the block cuts off;
the idle block with other status numbers. -/
theorem test_meets_HostWritesAndReads :
    ((∀ e ∈ [HostEvent.writeCfgBus 0x1FF, .writeCfgPa 0x80, .writeCfgWid (List.replicate 8 0xFF), .writeCmd { w0 := 1 },
        .writeWbuf [], .writeKbuf (List.replicate 16 7)], (queued e).env.host = [e])
      ∧ (List.replicate 8 (0xFF : Byte)).length = State.reset.cfg.widBytes)
    ∧ (∃ t, exec .getLastSsr (live []) = .next t)
    ∧ (∃ t u : State, exec .getMcUnsigned (live [.reset]) = .next t ∧ t = u.blockReset)
    ∧ ∀ st ∈ [Status.ok, .deviceSessionErr],
      let s : State := { State.reset with status := st, cfg := otherCodes }
      paramsWf s.cfg = true ∧ s.seq = .idle :=
  ⟨⟨fun _ _ => rfl, rfl⟩, ⟨_, rfl⟩, ⟨_, _, rfl, rfl⟩, fun _ _ => ⟨(by decide : paramsWf otherCodes = true), rfl⟩⟩

/-- Codes beside those of the tables, in each of the three encodings; a bus opcode that is answered, and one that is
not. -/
theorem test_meets_UnlistedCodesHandled :
    (∀ op ∈ ([0x00, 0x06, 0x07, 0x3E, 0x4D, 0xFF] : List Word),
      let s : State := { queued (.request .host) with inp := { cmd := { w0 := op } } }
      s.env.host = [.request .host] ∧ s.seq = .idle ∧ (s.inp.cmd.w0.toNat % 256) ∉
        [0x01, 0x02, 0x03, 0x04, 0x05, 0x08, 0x09, 0x0A, 0x10, 0x11, 0x18, 0x19, 0x1A, 0x20, 0x21, 0x22, 0x23, 0x24,
          0x25, 0x26, 0x27, 0x30, 0x31, 0x32, 0x33, 0x34, 0x35, 0x36, 0x37, 0x38, 0x3F, 0x40, 0x41, 0x42, 0x43, 0x44,
          0x48, 0x49, 0x4A, 0x4B, 0x4C])
    ∧ (∀ c ∈ ([0x00, 0x41, 0x53, 0x68, 0x75, 0xFFFFFFFF] : List Word),
      let s : State := { queued (.request .wire) with inp := { cmd := { w0 := c } } }
      s.env.host = [.request .wire] ∧ s.seq = .idle ∧ (s.inp.cmd.w0.toNat % 256) ∉
        [0x40, 0x44, 0x45, 0x46, 0x50, 0x51, 0x52, 0x60, 0x61, 0x62, 0x63, 0x64, 0x65, 0x66, 0x67, 0x70, 0x71, 0x72,
          0x73, 0x74])
    ∧ ∀ c ∈ ([0x00, 0x05, 0x9F, 0xA3, 0xFF] : List Word),
      let s : State := { queued (.request .bus) with inp := { cmd := { w0 := c, w3 := 3 } } }
      s.env.host = [.request .bus] ∧ s.seq = .idle
      ∧ (s.inp.cmd.w0.toNat % 256) ∉ [0xA0, 0xA1, 0xA2, 0x06, 0x66, 0x99] ∧ s.busIsLocked = false
      ∧ (let u : State := { s with busIsLocked := true, env := { s.env with answers := [.bytes [1, 2, 3]] } }
        u.busIsLocked = true ∧ [(1 : Byte), 2, 3].length = u.inp.cmd.w3.toNat ∧ u.env.answers = .bytes [1, 2, 3] :: [])
      ∧ (let u : State := { s with busIsLocked := true, env := { s.env with answers := [.linkError] } }
        u.busIsLocked = true ∧ u.env.answers = .linkError :: []) := by
  refine ⟨fun op h => ⟨rfl, rfl, ?_⟩, fun c h => ⟨rfl, rfl, ?_⟩, fun c h => ⟨rfl, rfl, ?_, rfl,
    ⟨rfl, (by decide : [(1 : Byte), 2, 3].length = (3 : Word).toNat), rfl⟩, rfl, rfl⟩⟩
  all_goals simp only [List.mem_cons, List.not_mem_nil, or_false] at h
  · rcases h with rfl | rfl | rfl | rfl | rfl | rfl <;> decide
  · rcases h with rfl | rfl | rfl | rfl | rfl | rfl <;> decide
  · rcases h with rfl | rfl | rfl | rfl | rfl <;> decide

theorem test_meets_DecodeInvertsEncode :
    WellFormed (.opcCalcSig 0xFF 0xFFFF) = true ∧ WellFormed (.srdMulti 0xFFFFFFFF 0) = true := by decide

theorem test_meets_EncodeInvertsDecode :
    decode .wire [0x46, 0x0A, 0xFF, 0xFF] = .ok (.opcCalcSig 10 0xFFFF) ∧ decode .bus [0x99] = .ok .stdRst
    ∧ decode .host (0x4C :: List.replicate 15 0xFF) = .ok .seraseChip := by decide

theorem test_meets_ConnectionFramingMachine :
    State.reset.busIsLocked = false ∧ (live []).busIsLocked = true
    ∧ checksConnection (.srd 0) = true ∧ reachesSecure .getMcUnsigned = true
    ∧ (∃ t, exec .getLastSsr (live []) = .next t) ∧ ∃ t, exec .getMcUnsigned (live [.reset]) = .next t :=
  ⟨rfl, rfl, rfl, rfl, ⟨_, rfl⟩, _, rfl⟩

theorem test_meets_DisconnectedOperationsRefused :
    ([.srd 0, .tmStandard true true true 0 0 0 0 0 0, .sessionOpen 0xFF true true true, .op0, .seraseChip] : List Instr).all
      checksConnection = true
    ∧ ([.tmSecure true 0 0 0, .getMcUnsigned, .opcEraseChip 0 0] : List Instr).all reachesSecure = true
    ∧ State.reset.busIsLocked = false ∧ State.reset.mc.inSync = false := by decide

theorem test_meets_BadOperandsRefused :
    badOperands (live []) (.tmStandard false false true 0x1000000 0 3 0 0x20 0)
    ∧ badOperands (live []) (.sessionOpen 0x08 true false false) ∧ badOperands (live []) (.sessionOpen 0x20 false false false)
    ∧ badOperands (live []) (.sessionOpen 0x17 false false false) ∧ badOperands (live []) (.sessionCloseRevoke 0x20)
    ∧ badOperands (live []) (.sessionClose 0x31) ∧ badOperands (live []) (.signData true 0 33)
    ∧ badOperands (live []) (.prepareSignedSetter true false 0 31)
    ∧ badOperands (live []) (.executeSignedSetter true false 0 31 0) ∧ badOperands (live []) (.setKey 0x40 0)
    ∧ badOperands (live []) (.setSuid 33) ∧ badOperands (live []) (.setScr false false 0 8)
    ∧ badOperands (live []) (.getWid 0xFFFF) ∧ badOperands (live []) (.getScr 0 8)
    ∧ badOperands (live []) (.calcSig 0 0 10) ∧ badOperands (live []) (.calcSig 0 0 0)
    ∧ badOperands (live []) (.srd 0x1000000) ∧ badOperands (live []) (.sard 1)
    ∧ badOperands (live []) (.srdMulti 0xFFFFE0 64) ∧ badOperands (live []) (.sardMulti 0 0)
    ∧ badOperands (live []) (.sawr 0 31) ∧ badOperands (live []) (.serase64k 31)
    ∧ badOperands (live []) (.seraseSection 8) ∧ (live []).busIsLocked = true := by
  repeat' apply And.intro
  all_goals first | rfl | (simp only [badOperands, badKid, badAddr, badRange, tooLong]; decide)

theorem test_meets_TmSecureRuns :
    (let x := tx 0x40 [] (le32 0x20 ++ le32 5);
      (live (x.answers {})).busIsLocked = true ∧ x.good (live (x.answers {})).cfg = true
      ∧ x.payload = dataOperand (live (x.answers {})) 0 ∧ x.response.length = (8 : Word).toNat
      ∧ (live (x.answers {})).env.answers = x.answers (live (x.answers {})).cfg ++ [])
    ∧ (let x := tx 0x52 [1, 2] [];
      let s : State := { live (x.answers {}) with latch := { wbuf := [1, 2] } }
      s.busIsLocked = true ∧ x.good s.cfg = true ∧ x.payload = dataOperand s 2 ∧ x.response.length = (0 : Word).toNat
      ∧ s.env.answers = x.answers s.cfg ++ []) := by decide

/-- Each clause without a wait, with a command and without one, with a flip of the bus sub-mode, over a stale snapshot
that is ready, has an error, or has neither; then the clause with a wait, with and without a response. -/
theorem test_meets_TmSecureWithoutWaitOrCommand :
    (∀ c ∈ ([0, 0x40] : List Word),
      let s : State := { live (commandAnswers c ++ []) with cfg := { capQpiExitReenter := true, modeFlip := [0x40] } }
      s.busIsLocked = true ∧ s.env.answers = commandAnswers c ++ [])
    ∧ (let s : State := { live [.bytes []] with ssr := 0x00111008 };
      respReady s.cfg.ssr s.ssr = false ∧ s.cfg.pollForReady.contains (ctagOpc 0x00000146) = true
      ∧ hasError s.cfg.ssr s.ssr = true ∧ s.env.answers = commandAnswers 0x00000146 ++ [])
    ∧ (∀ c ∈ ([0, 0x40] : List Word),
      let s : State := { live (commandAnswers c ++ [.bytes [7]]) with ssr := ready };
      [(7 : Byte)] ≠ [] ∧ [(7 : Byte)].length = (1 : Word).toNat ∧ respReady s.cfg.ssr s.ssr = true
      ∧ s.env.answers = commandAnswers c ++ (.bytes [7] :: []))
    ∧ (let s : State := { live [.bytes []] with ssr := quiet };
      (36 : Word) ≠ 0 ∧ respReady s.cfg.ssr s.ssr = false ∧ s.cfg.pollForReady.contains (ctagOpc 0x50) = false
      ∧ s.cfg.ssr.err ≠ s.cfg.ssr.respReady ∧ s.env.answers = commandAnswers 0x50 ++ [])
    ∧ (∀ v ∈ ([ready, 0x00111008] : List Word),
      let later : List Answer := statusAnswers ([busy] ++ [v]) ++ (if respReady {} v then [.bytes [7]] else []) ++ []
      let s : State := { live (commandAnswers 0x00000146 ++ later) with ssr := quiet };
      s.cfg.pollForReady.contains (ctagOpc 0x00000146) = true
      ∧ (∀ u ∈ s.ssr :: [busy], hasError s.cfg.ssr u = false ∧ respReady s.cfg.ssr u = false)
      ∧ (∀ u ∈ [busy] ++ [v], deadLink u = false) ∧ (hasError s.cfg.ssr v || respReady s.cfg.ssr v) = true
      ∧ s.env.answers = commandAnswers 0x00000146 ++ later)
    ∧ ∀ p ∈ ([(quiet, []), (ready, [7, 8])] : List (Word × Bytes)),
      let s := live (statusAnswers (waitFor p.1).words ++ (if p.2 = [] then [] else [.bytes p.2]) ++ [])
      s.busIsLocked = true ∧ (waitFor p.1).good s.cfg.ssr = true ∧ s.cfg.doubleWait.contains 0 = false
      ∧ p.2.length = (BitVec.ofNat 32 p.2.length).toNat ∧ (p.2 ≠ [] → respReady s.cfg.ssr (waitFor p.1).last = true)
      ∧ s.env.answers = statusAnswers (waitFor p.1).words ++ (if p.2 = [] then [] else [.bytes p.2]) ++ [] := by
  refine ⟨fun _ _ => ⟨rfl, rfl⟩, by decide, fun _ _ => ⟨by decide, by decide, (by decide : respReady {} ready = true), rfl⟩,
    by decide, fun v h => ⟨(by decide : [(0x46 : Byte)].contains 0x46 = true), ?_, ?_, ?_, rfl⟩, fun p h => ?_⟩
  · exact List.forall_mem_cons.2 ⟨(by decide : hasError {} quiet = false ∧ respReady {} quiet = false),
      List.forall_mem_singleton.2 (by decide : hasError {} busy = false ∧ respReady {} busy = false)⟩
  · refine List.forall_mem_cons.2 ⟨by decide, List.forall_mem_singleton.2 ?_⟩
    simp only [List.mem_cons, List.not_mem_nil, or_false] at h
    rcases h with rfl | rfl <;> decide
  · show (hasError {} v || respReady {} v) = true
    simp only [List.mem_cons, List.not_mem_nil, or_false] at h
    rcases h with rfl | rfl <;> decide
  · simp only [List.mem_cons, List.not_mem_nil, or_false] at h
    rcases h with rfl | rfl <;> decide

theorem test_meets_TmStandardRuns : ∀ we wb : Bool,
    let s := live ((if we then [.bytes []] else []) ++ [.bytes [7, 8]]
      ++ (if wb then statusAnswers (waitFor quiet).words else []))
    s.busIsLocked = true ∧ 2 ^ 24 ≤ (0x1000000 : Word).toNat ∧ (0xFFFFFF : Word).toNat < 2 ^ 24
    ∧ [(7 : Byte), 8].length = (2 : BitVec 16).toNat ∧ (waitFor quiet).good s.cfg.ssr = true
    ∧ s.env.answers = (if we then [.bytes []] else []) ++ [.bytes [7, 8]]
      ++ (if wb then statusAnswers (waitFor quiet).words else []) ++ [] := by
  intro we wb
  refine ⟨rfl, by decide, by decide, by decide, (by decide : (waitFor quiet).good {} = true), ?_⟩
  cases we <;> cases wb <;> rfl

theorem test_meets_StatusPollLaw :
    (let s : State := { live [.linkError] with atomic := 1 }; s.atomic ≠ 0 ∧ s.env.answers = .linkError :: [])
    ∧ ∀ v ∈ ([0, 0xFFFFFFFF, 1, ready] : List Word),
      let s : State := { live [.bytes (le32 v)] with atomic := 1 }
      s.atomic ≠ 0 ∧ s.env.answers = .bytes (le32 v) :: [] :=
  ⟨⟨Nat.one_ne_zero, rfl⟩, fun _ _ => ⟨Nat.one_ne_zero, rfl⟩⟩

theorem test_meets_LinkFailureDistrustsCounter :
    (∃ t sv, (secure 0x40 [] 8 true).run (live [.linkError]) = .ok (.error .connectivityErr, sv) t)
    ∧ (∃ t sv, (secure 0x40 [] 8 true).run State.reset = .ok (.error .notConnected, sv) t) :=
  ⟨⟨_, _, rfl⟩, ⟨_, _, rfl⟩⟩

/-- A CTAG whose address was encrypted still carries its opcode. -/
theorem sentCtag_opc (s : State) (b : Bool) (c : Word) : ctagOpc (sentCtag s b c) = ctagOpc c := by
  unfold sentCtag
  split
  · exact ctagOpc_mkCtagAddr _ _
  · rfl

theorem ctag_ne_zero {c : Word} (h : ctagOpc c ≠ 0) : c ≠ 0 := by
  rintro rfl
  exact h (by decide)

theorem test_meets_SetterLinkFailure : ∀ encData encAddr : Bool,
    let s := live [.linkError]
    s.busIsLocked = true ∧ canTick s = true ∧ (32 : BitVec 16).toNat ≤ 32
    ∧ (encData = true → (32 : BitVec 16).toNat = 32) ∧ s.env.answers = .linkError :: []
    ∧ s.cfg.capQpiExitReenter = false ∧ sentCtag s.begun.ticked encAddr 0x00010052 ≠ 0 := by
  intro encData encAddr s
  refine ⟨rfl, by decide, by decide, fun _ => by decide, rfl, rfl, ctag_ne_zero ?_⟩
  rw [sentCtag_opc]
  decide

theorem test_meets_MissingResponseIsSyntheticError :
    let x : Transaction := ⟨0x50, [], waitFor quiet, waitFor quiet, []⟩
    let s := live (x.answers {})
    s.busIsLocked = true ∧ x.good s.cfg = true ∧ x.response = [] ∧ x.payload = dataOperand s 0
    ∧ 0 < (36 : Word).toNat ∧ respReady s.cfg.ssr (x.final s.cfg) = false
    ∧ s.cfg.pollForReady.contains (ctagOpc x.ctag) = false ∧ ctagOpc x.ctag ≠ s.cfg.wire.setScr
    ∧ s.cfg.ssr.err ≠ s.cfg.ssr.respReady ∧ s.env.answers = x.answers s.cfg ++ [] := by decide

theorem test_meets_ReadinessIsPolled : ∀ v ∈ ([ready, 0x00111008] : List Word),
    let x : Transaction := ⟨0x00000146, [], waitFor quiet, waitFor quiet, []⟩
    let r : Bytes := List.replicate 44 7
    let s := live (x.answers {} ++ statusAnswers ([busy] ++ [v]) ++ (if respReady {} v then [.bytes r] else []))
    s.busIsLocked = true ∧ x.good s.cfg = true ∧ x.response = [] ∧ x.payload = dataOperand s 0
    ∧ r.length = (44 : Word).toNat ∧ r ≠ [] ∧ s.cfg.pollForReady.contains (ctagOpc x.ctag) = true
    ∧ ctagOpc x.ctag ≠ s.cfg.wire.setScr
    ∧ (∀ u ∈ x.final s.cfg :: [busy],
        deadLink u = false ∧ hasError s.cfg.ssr u = false ∧ respReady s.cfg.ssr u = false)
    ∧ deadLink v = false ∧ (hasError s.cfg.ssr v || respReady s.cfg.ssr v) = true
    ∧ s.env.answers = x.answers s.cfg ++ statusAnswers ([busy] ++ [v])
      ++ (if respReady s.cfg.ssr v then [.bytes r] else []) ++ [] := by
  intro v h
  have hv : deadLink v = false ∧ (hasError {} v || respReady {} v) = true := by
    simp only [List.mem_cons, List.not_mem_nil, or_false] at h
    rcases h with rfl | rfl <;> decide
  exact ⟨rfl, (by decide : Transaction.good {} ⟨0x00000146, [], waitFor quiet, waitFor quiet, []⟩ = true), rfl, rfl, rfl,
    fun h => absurd (congrArg List.length h) (by decide), rfl,
    (by decide : ctagOpc 0x00000146 ≠ ({} : Config.Params).wire.setScr),
    List.forall_mem_cons.2 ⟨(by decide : deadLink quiet = false ∧ hasError {} quiet = false ∧ respReady {} quiet = false),
      List.forall_mem_singleton.2 (by decide : deadLink busy = false ∧ hasError {} busy = false ∧ respReady {} busy = false)⟩,
    hv.1, hv.2, (List.append_nil _).symm⟩

/-- A transaction of the tests is undisturbed and ends without an error, whatever it carries. -/
theorem tx_clean {c : Word} (h0 : ctagOpc c ≠ 0) (h1 : ctagOpc c ≠ 0x65) (p r : Bytes) : (tx c p r).clean {} = true := by
  have e1 : (waitFor ready).good {} = true := by decide
  have e2 : (tx c p r).final {} = ready := by unfold Transaction.final; split <;> rfl
  have e3 : respReady {} ready = true ∧ hasError {} ready = false := by decide
  have e4 : (tx c p r).chains {} = false := by
    simp only [Transaction.chains, tx, show (ctagOpc c == ({} : Config.Params).wire.setScr) = false from
      beq_eq_false_iff_ne.mpr h1, Bool.false_and]
  simp only [Transaction.clean, Transaction.good, Transaction.sound, e2, e3.1, e3.2, e4]
  have e5 : decide (c ≠ 0) = true := decide_eq_true (ctag_ne_zero h0)
  have e6 : decide ((tx c p r).ctag ≠ 0) = true := e5
  rw [e6]
  simp [tx, e1]

/-- The counter read with given words. -/
def counterTx (tc dmc : Word) : Transaction := tx 0x40 [] (le32 tc ++ le32 dmc)

theorem counterTx_reads {s : State} (h : s.cfg = {}) (tc dmc : Word) : readsCounter s (counterTx tc dmc) tc dmc := by
  refine ⟨?_, rfl, rfl, ?_⟩
  · rw [h]; rfl
  · rw [h]; exact tx_clean (by decide) (by decide) _ _

theorem test_meets_SynchroniseCounter :
    (live []).mc.inSync = true
    ∧ (∀ p ∈ ([(0x0F, 0), (0x10, 0x3FFFFFFE), (0xFFFFFFFE, 0), (0xFFFFFFFF, 0), (0x20, 0x3FFFFFFF)] : List (Word × Word)),
      let s := fresh ((counterTx p.1 p.2).answers {})
      s.mc.inSync = false ∧ s.busIsLocked = true ∧ readsCounter s (counterTx p.1 p.2) p.1 p.2
        ∧ s.env.answers = (counterTx p.1 p.2).answers s.cfg ++ [])
    ∧ ∃ t, getMc.run { State.reset with seq := .sync } = .error (.raise .notConnected) t := by
  refine ⟨rfl, fun p _ => ⟨rfl, rfl, counterTx_reads rfl _ _, (List.append_nil _).symm⟩, _, rfl⟩

theorem test_meets_UseCounter :
    State.reset.cfg.mcUseOrder = .incrementThenFetch
    ∧ (∃ t, synchMc.run State.reset = .error (.raise .notConnected) t)
    ∧ (∃ t, synchMc.run (live []) = .ok () t ∧ t.mc.tc.toNat + 1 < 0xFFFFFFFF)
    ∧ (∃ t, synchMc.run { live [] with mc := ⟨0xFFFFFFFE, 0, true⟩ } = .ok () t ∧ ¬ t.mc.tc.toNat + 1 < 0xFFFFFFFF) :=
  ⟨rfl, ⟨_, rfl⟩, ⟨_, rfl, by decide⟩, ⟨_, rfl, by decide⟩⟩

theorem test_meets_UnsignedCounterRead :
    let s := live ((counterTx 0 0xFFFFFFFF).answers {})
    s.busIsLocked = true ∧ readsCounter s (counterTx 0 0xFFFFFFFF) 0 0xFFFFFFFF
    ∧ s.env.answers = (counterTx 0 0xFFFFFFFF).answers s.cfg ++ [] :=
  ⟨rfl, counterTx_reads rfl _ _, by decide⟩

theorem test_meets_ClassifyByPriority : (ssrPositions {}).Nodup := by decide

theorem test_meets_CheckLastStatusRuns :
    hasError (live []).cfg.ssr (live []).ssr = false
    ∧ (∀ p ∈ ([(0x10, 0), (0x0F, 0), (0xFFFFFFFF, 0)] : List (Word × Word)),
      let s : State := { live ((counterTx p.1 p.2).answers {}) with ssr := 8 }
      hasError s.cfg.ssr s.ssr = true ∧ s.busIsLocked = true ∧ readsCounter s (counterTx p.1 p.2) p.1 p.2
        ∧ s.env.answers = (counterTx p.1 p.2).answers s.cfg ++ [])
    ∧ let s : State := { State.reset with ssr := 0x800 }
      hasError s.cfg.ssr s.ssr = true ∧ s.busIsLocked = false :=
  ⟨by decide, fun _ _ => ⟨(by decide : hasError {} 8 = true), rfl, counterTx_reads rfl _ _, (List.append_nil _).symm⟩,
    by decide⟩

theorem test_meets_ForcedFetchResynchronises :
    (∀ p ∈ ([(0x10, 0), (0x0F, 0), (0xFFFFFFFF, 0), (0x20, 0x3FFFFFFF)] : List (Word × Word)),
      ∃ t, getMc.run (live ((counterTx p.1 p.2).answers {})) = .ok p t)
    ∧ ∃ t, getMc.run State.reset = .error (.raise .notConnected) t := by
  refine ⟨fun p _ => ?_, _, rfl⟩
  obtain ⟨h1, h2, h3, h4⟩ := counterTx_reads (s := live ((counterTx p.1 p.2).answers {})) rfl p.1 p.2
  exact ⟨_, run_getMc rfl h1 h2 h3 h4 (List.append_nil _).symm⟩

/-- The session reply: the crypto of the open with the long-term key `key`, KID 11H. -/
def openTx (key : Bytes) (includeWid ignoreScr : Bool) : Transaction :=
  let c := mkCtag 0x44 0x11 (modeFlags includeWid ignoreScr)
  tx c (nonceOf 0 ++ (sessionOf {} key c (tickValue (live [])) 5 (nonceOf 0)
    (if includeWid then some (live []).conf.wid else none)).2) []

theorem test_meets_SessionOpenRuns : ∀ includeWid ignoreScr : Bool,
    (let key := fit 16 [1, 2, 3]
      let x := openTx key includeWid ignoreScr
      let s : State := { live (x.answers {}) with latch := { kbuf := [1, 2, 3] } }
      s.busIsLocked = true ∧ kidOk s 0x11 = true ∧ canTick s = true ∧ key = fit s.cfg.keyBytes s.latch.kbuf
      ∧ x.ctag = mkCtag s.cfg.wire.sessionOpen 0x11 (modeFlags includeWid ignoreScr)
      ∧ x.payload = nonceOf s.env.prng ++ (sessionOf s.cfg key x.ctag (tickValue s) s.mc.dmc (nonceOf s.env.prng)
          (if includeWid then some s.conf.wid else none)).2
      ∧ x.response = [] ∧ x.clean s.cfg = true ∧ sesReady s.cfg.ssr (x.final s.cfg) = true
      ∧ ssrKid s.cfg.ssr (x.final s.cfg) = 0x11 ∧ s.env.answers = x.answers s.cfg ++ [])
    ∧ (let key := fit 16 [9]
      let s : State := { live [] with env := { keys := [⟨1, true, [9]⟩] } }
      (0x11 : Byte).toNat / 16 ≤ 1
      ∧ getKey s ((0x11 : Byte).toNat % 16) ((0x11 : Byte).toNat / 16 == 1) = some key) := by
  intro includeWid ignoreScr
  refine ⟨⟨rfl, rfl, (by decide : canTick (live []) = true), rfl, rfl, rfl, rfl, tx_clean ?_ ?_ _ _, ?_, ?_, (List.append_nil _).symm⟩, by decide⟩ <;>
    (cases includeWid <;> cases ignoreScr <;> decide)

/-- The reply to a forced close: no session left. -/
def closeTx : Transaction :=
  ⟨mkCtag 0x44 0x11 0, nonceOf 0 ++ (sessionOf {} (List.replicate 16 0) (mkCtag 0x44 0x11 0) (tickValue (live [])) 5
    (nonceOf 0) none).2, waitFor 0x00FF1000, waitFor 0x00FF1000, []⟩

theorem test_meets_SessionCloseRuns :
    let x := closeTx
    let s := live (x.answers {})
    s.busIsLocked = true ∧ kidOk s 0x11 = true ∧ canTick s = true
    ∧ x.ctag = mkCtag s.cfg.wire.sessionOpen 0x11 0
    ∧ x.payload = nonceOf s.env.prng ++ (sessionOf s.cfg (List.replicate s.cfg.keyBytes 0) x.ctag (tickValue s) s.mc.dmc
        (nonceOf s.env.prng) none).2
    ∧ x.response = [] ∧ x.clean s.cfg = true ∧ sesReady s.cfg.ssr (x.final s.cfg) = false
    ∧ s.env.answers = x.answers s.cfg ++ [] :=
  ⟨rfl, rfl, by decide, rfl, rfl, rfl, (by decide : closeTx.clean {} = true),
    (by decide : sesReady {} (closeTx.final {}) = false), (List.append_nil _).symm⟩

/-- A transaction without a response that ends with the status word `v`. -/
def ending (v c : Word) (p : Bytes) : Transaction := ⟨c, p, waitFor v, waitFor v, []⟩

theorem ending_final (v c : Word) (p : Bytes) : (ending v c p).final {} = v := by
  unfold Transaction.final
  split <;> rfl

/-- The handshake of the tests' state with the empty key, ending with `v`. -/
def handshakeTx (v : Word) (k : Byte) (mode : BitVec 16) : Transaction :=
  let c := mkCtag 0x44 k mode
  ending v c (nonceOf 0 ++ (sessionOf {} (List.replicate 16 0) c (tickValue (live [])) 5 (nonceOf 0) none).2)

theorem handshakeTx_asks {s : State} (v : Word) (k : Byte) (mode : BitVec 16) (hc : s.cfg = {}) (hm : s.mc = (live []).mc)
    (hp : s.env.prng = 0) : asksSession s k mode (List.replicate 16 0) false (handshakeTx v k mode) := by
  refine ⟨?_, ?_, rfl⟩
  · rw [hc]; rfl
  · unfold sessionSecrets tickValue
    rw [hc, hm, hp]
    rfl

/-- No session left, the session of another KID, and for the close a session still open. -/
theorem test_meets_SessionMismatchRefused :
    (∀ v ∈ ([0x00111000, 0x00121004, 0x00FF1000] : List Word),
      let x := handshakeTx v 0x11 (modeFlags false false)
      let s := live (x.answers {})
      s.busIsLocked = true ∧ kidOk s 0x11 = true ∧ canTick s = true ∧ x.clean s.cfg = true
      ∧ s.env.answers = x.answers s.cfg ++ [] ∧ opensWith s 0x11 true (List.replicate 16 0)
      ∧ asksSession s 0x11 (modeFlags false false) (List.replicate 16 0) false x
      ∧ ¬ (sesReady s.cfg.ssr (x.final s.cfg) = true ∧ ssrKid s.cfg.ssr (x.final s.cfg) = 0x11))
    ∧ let x := handshakeTx quiet 0x11 0
      let s := live (x.answers {})
      x.clean s.cfg = true ∧ s.env.answers = x.answers s.cfg ++ []
      ∧ asksSession s 0x11 0 (List.replicate s.cfg.keyBytes 0) false x ∧ sesReady s.cfg.ssr (x.final s.cfg) = true := by
  refine ⟨fun v h => ⟨rfl, rfl, (by decide : canTick (live []) = true), ?_, (List.append_nil _).symm, rfl,
      handshakeTx_asks _ _ _ rfl rfl rfl, ?_⟩,
    (by decide : (handshakeTx quiet 0x11 0).clean {} = true), (List.append_nil _).symm, handshakeTx_asks _ _ _ rfl rfl rfl,
    (by decide : sesReady {} quiet = true)⟩
  · show (handshakeTx v 0x11 (modeFlags false false)).clean {} = true
    simp only [List.mem_cons, List.not_mem_nil, or_false] at h
    rcases h with rfl | rfl | rfl <;> decide
  · show ¬ (sesReady {} ((handshakeTx v 0x11 (modeFlags false false)).final {}) = true
      ∧ ssrKid {} ((handshakeTx v 0x11 (modeFlags false false)).final {}) = 0x11)
    simp only [handshakeTx]
    simp only [List.mem_cons, List.not_mem_nil, or_false] at h
    rcases h with rfl | rfl | rfl <;> decide

theorem test_meets_RevokePlainAccessRuns : ∀ k ∈ ([0x07, 0x11] : List Byte),
    let x := tx (mkCtag 0x45 (k &&& 0x0F) 0) [] []
    let s := live (x.answers {})
    s.busIsLocked = true ∧ kidOk s k = true ∧ k.toNat / 16 ≤ 1 ∧ canTick s = true
    ∧ x.ctag = mkCtag s.cfg.wire.initPa (k &&& 0x0F) 0 ∧ x.payload = [] ∧ x.response = [] ∧ x.clean s.cfg = true
    ∧ s.env.answers = x.answers s.cfg ++ [] := by
  intro k h
  simp only [List.mem_cons, List.not_mem_nil, or_false] at h
  rcases h with rfl | rfl <;>
    exact ⟨rfl, rfl, by decide, by decide, rfl, rfl, rfl, tx_clean (by decide) (by decide) _ _, (List.append_nil _).symm⟩

theorem test_meets_KeysWipedAfterSessionEnd :
    (∃ t, exec (.sessionOpen 0x11 true false false) (live [.linkError]) = .next t ∧ t.status ≠ .ok ∧ t.seq = .idle)
    ∧ (∃ t, exec (.sessionOpen 0x11 true false false) State.reset = .next t ∧ t.status ≠ .ok ∧ t.seq = .idle)
    ∧ (∃ t, exec (.sessionClose 0x11) (live [.linkError]) = .next t ∧ t.seq = .idle) :=
  ⟨⟨_, rfl, Status.noConfusion, rfl⟩, ⟨_, rfl, Status.noConfusion, rfl⟩, ⟨_, rfl, rfl⟩⟩

theorem test_meets_OnlySessionOpsChangeKid :
    (∃ t, exec (.sessionCloseRevoke 0x11) (live [.linkError]) = .next t)
    ∧ (∀ k a b c, Instr.sessionCloseRevoke 0x11 ≠ .sessionOpen k a b c)
    ∧ ∀ k, Instr.sessionCloseRevoke 0x11 ≠ .sessionClose k :=
  ⟨⟨_, rfl⟩, fun _ _ _ _ => Instr.noConfusion, fun _ => Instr.noConfusion⟩

theorem test_meets_SignDataRuns : (32 : BitVec 16).toNat ≤ 32 := by decide

theorem test_meets_PrepareSetterRuns :
    (32 : BitVec 16).toNat ≤ 32 ∧ (true = true → (32 : BitVec 16).toNat = 32) ∧ (0 : BitVec 16).toNat ≤ 32
    ∧ (false = true → (0 : BitVec 16).toNat = 32) := by decide

/-- The state in which the tests' setters are signed. -/
def signer : State := (live []).begun.ticked

/-- The transaction of a setter. -/
def setterTx (c : Word) (data : Bytes) (encData encAddr : Bool) : Transaction :=
  tx (sentCtag signer encAddr c) (sentData signer encData data ++ signature signer c data true) []

theorem setterTx_sends (answers : List Answer) (c : Word) (data : Bytes) (encData encAddr : Bool) :
    sendsSetter (live answers).begun.ticked c data encData encAddr (setterTx c data encData encAddr) :=
  ⟨rfl, rfl, rfl⟩

theorem setterTx_clean {c : Word} (h0 : ctagOpc c ≠ 0) (h1 : ctagOpc c ≠ 0x65) (data : Bytes) (encData encAddr : Bool) :
    (setterTx c data encData encAddr).clean {} = true :=
  tx_clean (by rw [sentCtag_opc]; exact h0) (by rw [sentCtag_opc]; exact h1) _ _

theorem test_meets_ExecuteSetterRuns : ∀ encData encAddr : Bool,
    let data := dataOperand (live []) 32
    let x := setterTx 0x00010052 data encData encAddr
    let s := live (x.answers {})
    s.busIsLocked = true ∧ canTick s = true ∧ (32 : BitVec 16).toNat ≤ 32
    ∧ (encData = true → (32 : BitVec 16).toNat = 32)
    ∧ sendsSetter s.begun.ticked 0x00010052 (dataOperand s 32) encData encAddr x ∧ x.clean s.cfg = true
    ∧ s.env.answers = x.answers s.cfg ++ [] :=
  fun encData encAddr => ⟨rfl, (by decide : canTick (live []) = true), by decide, fun _ => by decide, setterTx_sends _ _ _ encData encAddr,
    setterTx_clean (by decide) (by decide) _ encData encAddr, (List.append_nil _).symm⟩

theorem test_meets_SetterDeviceError :
    let data := dataOperand (live []) 0
    let x : Transaction := { setterTx 0x60 data false false with first := waitFor 0x00111048 }
    let y := counterTx 0x10 0
    let s := live (x.answers {} ++ y.answers {})
    s.busIsLocked = true ∧ canTick s = true ∧ (0 : BitVec 16).toNat ≤ 32 ∧ (false = true → (0 : BitVec 16).toNat = 32)
    ∧ sendsSetter s.begun.ticked 0x60 (dataOperand s 0) false false x ∧ x.good s.cfg = true
    ∧ hasError s.cfg.ssr (x.final s.cfg) = true ∧ readsCounter s y 0x10 0 ∧ mcValid 0x10 0 = true
    ∧ s.env.answers = x.answers s.cfg ++ y.answers s.cfg ++ [] :=
  ⟨rfl, by decide, by decide, by decide, ⟨rfl, rfl, rfl⟩, by decide, by decide, counterTx_reads rfl _ _, by decide,
    (List.append_nil _).symm⟩

theorem test_meets_NamedSettersRun :
    ∀ c ∈ [mkCtag 0x60 0x11 0, mkCtag 0x61 0 0, mkCtag 0x62 0 0, mkCtag 0x63 0 0, mkCtag 0x64 0 0,
        mkCtag 0x65 7 (modeFlags false false), mkCtag 0x66 0 0, mkCtag 0x67 0 0],
      let x := setterTx c (dataOperand (live []) 32) false false
      let s := live (x.answers {})
      s.busIsLocked = true ∧ canTick s = true ∧ (32 : BitVec 16).toNat ≤ 32 ∧ kidOk s 0x11 = true
      ∧ (7 : Byte).toNat < s.cfg.numSections
      ∧ sendsSetter s.begun.ticked c (dataOperand s 32) false false x ∧ x.clean s.cfg = true
      ∧ s.env.answers = x.answers s.cfg ++ [] := by
  intro c h
  refine ⟨rfl, (by decide : canTick (live []) = true), by decide, rfl, (by decide : (7 : Byte).toNat < 8), setterTx_sends _ _ _ _ _, ?_,
    (List.append_nil _).symm⟩
  simp only [List.mem_cons, List.not_mem_nil, or_false] at h
  rcases h with rfl | rfl | rfl | rfl | rfl | rfl | rfl | rfl <;>
    first | exact setterTx_clean (by decide) (by decide) _ _ _ | decide

/-- The transaction of a setter that the device answers with `IGNORE_ERR` alone. -/
def ignoredTx (c : Word) : Transaction :=
  ending 0x00111104 c (dataOperand (live []) 32 ++ signature signer c (dataOperand (live []) 32) true)

/-- An integrity error alone for a full-access and for a plain KID; two error bits for the close; `IGNORE_ERR` alone
for every named setter. -/
theorem test_meets_ToleratedErrorsPass :
    let y := counterTx 0x10 0x3FFFFFFE
    paramsWf State.reset.cfg = true ∧ mcValid 0x10 0x3FFFFFFE = true
    ∧ (∀ p ∈ ([(0x11, 0x00111024), (0x07, 0x00071024)] : List (Byte × Word)),
      let x := handshakeTx p.2 p.1 (modeFlags false false)
      let s := live (x.answers {} ++ y.answers {})
      s.busIsLocked = true ∧ canTick s = true ∧ x.good s.cfg = true ∧ readsCounter s y 0x10 0x3FFFFFFE
      ∧ s.env.answers = x.answers s.cfg ++ (y.answers s.cfg ++ [])
      ∧ kidOk s p.1 = true ∧ opensWith s p.1 true (List.replicate 16 0)
      ∧ asksSession s p.1 (modeFlags false false) (List.replicate 16 0) false x
      ∧ onlyError s.cfg.ssr (x.final s.cfg) s.cfg.ssr.intgErr ∧ sesReady s.cfg.ssr (x.final s.cfg) = true
      ∧ ssrKid s.cfg.ssr (x.final s.cfg) = p.1)
    ∧ (let x := handshakeTx 0x00FF1808 0x11 0
      let s := live (x.answers {} ++ y.answers {})
      x.good s.cfg = true ∧ s.env.answers = x.answers s.cfg ++ (y.answers s.cfg ++ [])
      ∧ asksSession s 0x11 0 (List.replicate s.cfg.keyBytes 0) false x ∧ hasError s.cfg.ssr (x.final s.cfg) = true
      ∧ sesReady s.cfg.ssr (x.final s.cfg) = false)
    ∧ ∀ c ∈ [mkCtag 0x60 0x11 0, mkCtag 0x61 0 0, mkCtag 0x62 0 0, mkCtag 0x63 0 0, mkCtag 0x64 0 0,
        mkCtag 0x65 7 (modeFlags true true), mkCtag 0x66 0 0, mkCtag 0x67 0 0],
      let x := ignoredTx c
      let s := live (x.answers {} ++ y.answers {})
      x.good s.cfg = true ∧ s.env.answers = x.answers s.cfg ++ (y.answers s.cfg ++ [])
      ∧ (32 : BitVec 16).toNat ≤ 32 ∧ (7 : Byte).toNat < s.cfg.numSections
      ∧ sendsSetter s.begun.ticked c (dataOperand s 32) false false x
      ∧ onlyError s.cfg.ssr (x.final s.cfg) s.cfg.ssr.ignoreErr := by
  have hA : ∀ x : Transaction, x.answers {} ++ (counterTx 0x10 0x3FFFFFFE).answers {}
      = x.answers {} ++ ((counterTx 0x10 0x3FFFFFFE).answers {} ++ []) := fun x => by rw [List.append_nil]
  refine ⟨by decide, by decide, fun p h => ⟨rfl, (by decide : canTick (live []) = true), ?_, counterTx_reads rfl _ _, hA _, ?_,
      rfl, handshakeTx_asks _ _ _ rfl rfl rfl, ?_, ?_, ?_⟩,
    ⟨(by decide : (handshakeTx 0x00FF1808 0x11 0).good {} = true), hA _, handshakeTx_asks _ _ _ rfl rfl rfl,
      (by decide : hasError {} 0x00FF1808 = true), (by decide : sesReady {} 0x00FF1808 = false)⟩,
    fun c h => ⟨?_, hA _, by decide, (by decide : (7 : Byte).toNat < 8), ⟨rfl, rfl, rfl⟩, ?_⟩⟩
  · show (handshakeTx p.2 p.1 (modeFlags false false)).good {} = true
    simp only [List.mem_cons, List.not_mem_nil, or_false] at h
    rcases h with rfl | rfl <;> decide
  · show kidValid 8 p.1 = true
    simp only [List.mem_cons, List.not_mem_nil, or_false] at h
    rcases h with rfl | rfl <;> decide
  · show onlyError {} ((handshakeTx p.2 p.1 (modeFlags false false)).final {}) 5
    simp only [handshakeTx]
    simp only [List.mem_cons, List.not_mem_nil, or_false] at h
    rcases h with rfl | rfl <;> (unfold onlyError; decide)
  · show sesReady {} ((handshakeTx p.2 p.1 (modeFlags false false)).final {}) = true
    simp only [handshakeTx]
    simp only [List.mem_cons, List.not_mem_nil, or_false] at h
    rcases h with rfl | rfl <;> decide
  · show ssrKid {} ((handshakeTx p.2 p.1 (modeFlags false false)).final {}) = p.1
    simp only [handshakeTx]
    simp only [List.mem_cons, List.not_mem_nil, or_false] at h
    rcases h with rfl | rfl <;> decide
  · show (ignoredTx c).good {} = true
    simp only [List.mem_cons, List.not_mem_nil, or_false] at h
    rcases h with rfl | rfl | rfl | rfl | rfl | rfl | rfl | rfl <;> decide
  · show onlyError {} ((ignoredTx c).final {}) 8
    rw [ignoredTx, ending_final]
    unfold onlyError
    decide

/-- A transaction of the section-config set with flags, whatever it carries, is undisturbed and chains. -/
theorem tx_chains (p : Bytes) : ∀ f ∈ ([(true, false), (false, true), (true, true)] : List (Bool × Bool)),
    (tx (mkCtag 0x65 7 (modeFlags f.1 f.2)) p []).sound {} = true
    ∧ (tx (mkCtag 0x65 7 (modeFlags f.1 f.2)) p []).chains {} = true := by
  have h : ∀ f ∈ ([(true, false), (false, true), (true, true)] : List (Bool × Bool)),
      (tx (mkCtag 0x65 7 (modeFlags f.1 f.2)) [] []).sound {} = true
      ∧ (tx (mkCtag 0x65 7 (modeFlags f.1 f.2)) [] []).chains {} = true := by decide
  exact h

/-- The three combinations of the flags that chain, for each of the four operations. -/
theorem test_meets_SetScrChains : ∀ f ∈ ([(true, false), (false, true), (true, true)] : List (Bool × Bool)),
    let c := mkCtag 0x65 7 (modeFlags f.1 f.2)
    let v := waitFor quiet
    v.good {} = true ∧ hasError {} v.last = false
    ∧ (let x := tx c (dataOperand (live []) 0) []
      let s := live (x.answers {} ++ x.chainAnswers v)
      s.busIsLocked = true ∧ x.sound s.cfg = true ∧ x.chains s.cfg = true
      ∧ s.env.answers = x.answers s.cfg ++ x.chainAnswers v ++ []
      ∧ x.payload = dataOperand s 0 ∧ x.response.length = (0 : Word).toNat
      ∧ wireFrame s (.opcSetScr 7 (modeFlags f.1 f.2)) = some (x.ctag, x.payload, x.response.length))
    ∧ ∀ encData : Bool,
      let data := dataOperand (live []) 32
      let x := setterTx c data encData false
      let s := live (x.answers {} ++ x.chainAnswers v)
      x.sound s.cfg = true ∧ x.chains s.cfg = true ∧ s.env.answers = x.answers s.cfg ++ x.chainAnswers v ++ []
      ∧ canTick s = true ∧ (32 : BitVec 16).toNat ≤ 32 ∧ (encData = true → (32 : BitVec 16).toNat = 32)
      ∧ sendsSetter s.begun.ticked c (dataOperand s 32) encData false x
      ∧ (7 : Byte).toNat < s.cfg.numSections ∧ c = mkCtag s.cfg.wire.setScr 7 (modeFlags f.1 f.2) := by
  intro f h
  refine ⟨(by decide : (waitFor quiet).good {} = true), (by decide : hasError {} quiet = false), ?_, fun encData => ?_⟩
  · exact ⟨rfl, (tx_chains _ f h).1, (tx_chains _ f h).2, (List.append_nil _).symm, rfl, rfl, rfl⟩
  · exact ⟨(tx_chains _ f h).1, (tx_chains _ f h).2, (List.append_nil _).symm, (by decide : canTick (live []) = true),
      by decide, fun _ => by decide, setterTx_sends _ _ _ _ _, (by decide : (7 : Byte).toNat < 8), rfl⟩

/-- The last two values of the counter; a consumer of each kind with operands at the ends of their ranges. -/
theorem test_meets_CounterEndRefused :
    (∀ tc ∈ ([0xFFFFFFFE, 0xFFFFFFFF] : List Word),
      let s : State := { live [] with mc := ⟨tc, 0, true⟩ }
      s.busIsLocked = true ∧ s.mc.inSync = true ∧ 0xFFFFFFFF ≤ s.mc.tc.toNat + 1)
    ∧ ([.setKey 0x11 32, .setScr true true 32 7, .calcSig 32 7 9, .getScr 0 7, .executeSignedSetter true true 0 32 0,
      .sessionCloseRevoke 0x07, .seraseChip] : List Instr).all ticksFirst = true
    ∧ ([.srd 0xFFFFE0, .sard 0, .srdMulti 0xFFFFE0 32, .sardMulti 0 32, .sawr 0xFFFFE0 32] : List Instr).all
      drawsAddress = true
    ∧ ([.sessionOpen 0x30 true false false, .sessionClose 0x20] : List Instr).all drawsNonce = true
    ∧ ∀ i ∈ ([.setKey 0x11 32, .setScr true true 32 7, .calcSig 32 7 9, .getScr 0 7, .executeSignedSetter true true 0 32 0,
        .sessionCloseRevoke 0x07, .seraseChip, .srd 0xFFFFE0, .sard 0, .srdMulti 0xFFFFE0 32, .sardMulti 0 32,
        .sawr 0xFFFFE0 32, .sessionOpen 0x30 true false false, .sessionClose 0x20] : List Instr),
      ¬ badOperands (live []) i := by
  refine ⟨fun tc h => ⟨rfl, rfl, ?_⟩, rfl, rfl, rfl, fun i h => ?_⟩
  · simp only [List.mem_cons, List.not_mem_nil, or_false] at h
    rcases h with rfl | rfl <;> decide
  · simp only [List.mem_cons, List.not_mem_nil, or_false] at h
    rcases h with rfl | rfl | rfl | rfl | rfl | rfl | rfl | rfl | rfl | rfl | rfl | rfl | rfl | rfl <;>
      (simp only [badOperands, badKid, badAddr, badRange, tooLong, show (live []).cfg.numSections = 8 from rfl]; decide)

/-- The CTAG of an address command of the tests: page 100H with the random low bits of draw 0. -/
def addrCtag (opc : Byte) : Word := mkCtagAddr opc ((randomAddr (live []) 0x100).setWidth 24)

theorem test_meets_WritesAndErasesRun :
    (∀ opc ∈ ([0x70, 0x71, 0x72] : List Byte),
      let x := setterTx (addrCtag opc) [] false true
      let s := live (x.answers {})
      s.busIsLocked = true ∧ canTick s = true ∧ x.clean s.cfg = true ∧ s.env.answers = x.answers s.cfg ++ []
      ∧ (0x100 : Word).toNat < 2 ^ 24 ∧ (0x100 : Word).toNat % 32 = 0
      ∧ sendsSetter s.begun.ticked (mkCtagAddr opc ((randomAddr s 0x100).setWidth 24)) [] false true x)
    ∧ (let x := setterTx (addrCtag 0x52) (dataOperand (live []) 32) true true
      let s := live (x.answers {})
      s.busIsLocked = true ∧ canTick s = true ∧ x.clean s.cfg = true ∧ s.env.answers = x.answers s.cfg ++ []
      ∧ (32 : BitVec 16).toNat = 32
      ∧ sendsSetter s.begun.ticked (mkCtagAddr s.cfg.wire.sawr ((randomAddr s 0x100).setWidth 24)) (dataOperand s 32)
          true true x)
    ∧ ∀ c ∈ [mkCtag 0x73 7 0, mkCtag 0x74 0 0],
      let x := setterTx c [] false false
      let s := live (x.answers {})
      s.busIsLocked = true ∧ canTick s = true ∧ x.clean s.cfg = true ∧ s.env.answers = x.answers s.cfg ++ []
      ∧ (7 : Byte).toNat < s.cfg.numSections ∧ sendsSetter s.begun.ticked c [] false false x := by
  refine ⟨fun opc h => ⟨rfl, (by decide : canTick (live []) = true), setterTx_clean ?_ ?_ _ _ _,
      (List.append_nil _).symm, by decide, by decide, rfl, rfl, rfl⟩,
    ⟨rfl, (by decide : canTick (live []) = true), setterTx_clean ?_ ?_ _ _ _, (List.append_nil _).symm, by decide,
      rfl, rfl, rfl⟩,
    fun c h => ⟨rfl, (by decide : canTick (live []) = true), setterTx_clean ?_ ?_ _ _ _, (List.append_nil _).symm,
      (by decide : (7 : Byte).toNat < 8), setterTx_sends _ _ _ _ _⟩⟩
  · rw [addrCtag, ctagOpc_mkCtagAddr]
    rintro rfl
    exact absurd h (by decide)
  · rw [addrCtag, ctagOpc_mkCtagAddr]
    rintro rfl
    exact absurd h (by decide)
  · rw [addrCtag, ctagOpc_mkCtagAddr]; decide
  · rw [addrCtag, ctagOpc_mkCtagAddr]; decide
  · simp only [List.mem_cons, List.not_mem_nil, or_false] at h
    rcases h with rfl | rfl <;> decide
  · simp only [List.mem_cons, List.not_mem_nil, or_false] at h
    rcases h with rfl | rfl <;> decide

/-! ## Responses of the tests: echoed counter, a page of data, signature -/

/-- A response with an envelope: echoed `TC`, 32 bytes, a signature (rule R107). -/
def envelope (tc : Word) (d sig : Bytes) : Bytes := le32 tc ++ (d ++ sig)

/-- A page of data. -/
def pageData : Bytes := List.replicate 32 0x5A

theorem envelope_length (tc : Word) (sig : Bytes) : (envelope tc pageData sig).length = 36 + sig.length := by
  simp [envelope, pageData, le32]; omega

theorem envelope_sig (tc : Word) (sig : Bytes) : (envelope tc pageData sig).drop 36 = sig := by
  simp [envelope, pageData, le32]

theorem envelope_page (tc : Word) (sig : Bytes) : pageOf (envelope tc pageData sig) = pageData := by
  simp [pageOf, envelope, pageData, le32, Config.pageSize]

theorem envelope_data (tc : Word) (sig : Bytes) {n : Nat} (h : n ≤ 32) :
    envelopeData (envelope tc pageData sig) n = pageData.take n := by
  show (pageData ++ sig).take n = pageData.take n
  exact List.take_append_of_le_length h

theorem envelope_tc (tc : Word) (sig : Bytes) : rd32 (envelope tc pageData sig) = tc := rd32_le32_append _ _

/-- Bytes that differ from the given ones in every place. -/
def tampered (b : Bytes) : Bytes := b.map (· + 1)

theorem tampered_ne {b : Bytes} (h : b ≠ []) : tampered b ≠ b := by
  cases b with
  | nil => exact absurd rfl h
  | cons x xs =>
    intro e
    have : x + 1 = x := (List.cons.inj e).1
    bv_omega

theorem signature_length (s : State) (c : Word) (d : Bytes) (r : Bool) : (signature s c d r).length = 8 := by
  simp [signature, signatureOf, Config.sigBytes]

theorem signature_ne (s : State) (c : Word) (d : Bytes) (r : Bool) : signature s c d r ≠ [] := by
  intro h
  have := signature_length s c d r
  rw [h] at this
  exact absurd this (by decide)

/-- The signature a getter's envelope must carry in the tests' state. -/
def getterSig (dtype sect : Byte) (size : Nat) : Bytes :=
  signature signer (calcSigCtag {} dtype sect) (pageData.take size) true

/-- The transaction of a signed getter. -/
def getterTx (dtype sect : Byte) (tc : Word) (sig : Bytes) : Transaction :=
  tx (calcSigCtag {} dtype sect) [] (envelope tc pageData sig)

theorem ctagOpc_calcSig (dtype sect : Byte) : ctagOpc (calcSigCtag {} dtype sect) = 0x46 := ctagOpc_calcSigCtag _ _ _

theorem getterTx_asks (answers : List Answer) (dtype sect : Byte) (tc : Word) {sig : Bytes} (h : sig.length = 8) :
    asksSigned (live answers) dtype sect (getterTx dtype sect tc sig) :=
  ⟨rfl, rfl, (envelope_length tc sig).trans (by rw [h]),
    tx_clean (by rw [ctagOpc_calcSig]; decide) (by rw [ctagOpc_calcSig]; decide) _ _⟩

theorem test_meets_SignedGettersRun : ∀ p ∈ ([(1, 0), (7, 7), (9, 0)] : List (Byte × Byte)),
    let x := getterTx p.1 p.2 0x20 (getterSig p.1 p.2 32)
    let s := live (x.answers {})
    s.busIsLocked = true ∧ canTick s = true ∧ (32 : BitVec 16).toNat ≤ 32 ∧ p.2.toNat < s.cfg.numSections
    ∧ 1 ≤ p.1.toNat ∧ p.1.toNat ≤ 9 ∧ asksSigned s p.1 p.2 x ∧ s.env.answers = x.answers s.cfg ++ []
    ∧ x.response.drop 36 = signature s.begun.ticked x.ctag (envelopeData x.response (32 : BitVec 16).toNat) true
    ∧ rd32 x.response = s.mc.tc := by
  intro p h
  refine ⟨rfl, (by decide : canTick (live []) = true), by decide, ?_, ?_, ?_,
    getterTx_asks _ _ _ _ (signature_length _ _ _ _), (List.append_nil _).symm, ?_, envelope_tc _ _⟩
  · show p.2.toNat < 8
    simp only [List.mem_cons, List.not_mem_nil, or_false] at h
    rcases h with rfl | rfl | rfl <;> decide
  · simp only [List.mem_cons, List.not_mem_nil, or_false] at h
    rcases h with rfl | rfl | rfl <;> decide
  · simp only [List.mem_cons, List.not_mem_nil, or_false] at h
    rcases h with rfl | rfl | rfl <;> decide
  · exact (envelope_sig _ _).trans (congrArg (fun d => signature signer (calcSigCtag {} p.1 p.2) d true)
      (envelope_data _ _ (by decide : (32 : BitVec 16).toNat ≤ 32)).symm)

theorem test_meets_GetterRejectsBadEnvelope :
    (let x := getterTx 2 0 0x20 (tampered (getterSig 2 0 4))
      let s := live (x.answers {})
      s.busIsLocked = true ∧ canTick s = true ∧ (4 : BitVec 16).toNat ≤ 32 ∧ (0 : Byte).toNat < s.cfg.numSections
      ∧ ((Instr.getSuid 4, (2 : Byte), (0 : Byte)) ∈
        [(.getWid 4, 1, 0), (.getSuid 4, 2, 0), (.getSsrSigned 4, 3, 0), (.getGmc 4, 4, 0), (.getGmt 4, 5, 0),
          (.getAwdt 4, 6, 0), (.getScr 4 0, 7, 0), (.getHwVer 4, 8, 0), (.getMcSigned 4, 9, 0), (.calcSig 4 0 2, 2, 0)])
      ∧ 1 ≤ (2 : Byte).toNat ∧ (2 : Byte).toNat ≤ 9 ∧ asksSigned s 2 0 x ∧ s.env.answers = x.answers s.cfg ++ []
      ∧ ¬ x.response.drop 36 = signature s.begun.ticked x.ctag (envelopeData x.response (4 : BitVec 16).toNat) true)
    ∧ (let x := getterTx 2 0 0x1F (getterSig 2 0 4)
      let s := live (x.answers {})
      asksSigned s 2 0 x ∧ s.env.answers = x.answers s.cfg ++ []
      ∧ x.response.drop 36 = signature s.begun.ticked x.ctag (envelopeData x.response (4 : BitVec 16).toNat) true
      ∧ rd32 x.response ≠ s.mc.tc) := by
  have hd : ∀ tc sig, envelopeData (envelope tc pageData sig) 4 = pageData.take 4 := fun _ _ => envelope_data _ _ (by decide)
  have hl : (tampered (getterSig 2 0 4)).length = 8 := by rw [tampered, List.length_map]; exact signature_length _ _ _ _
  refine ⟨⟨rfl, (by decide : canTick (live []) = true), by decide, (by decide : (0 : Byte).toNat < 8), by decide, by decide,
      by decide, getterTx_asks _ _ _ _ hl, (List.append_nil _).symm, fun e => ?_⟩,
    getterTx_asks _ _ _ _ (signature_length _ _ _ _), (List.append_nil _).symm, ?_, ?_⟩
  · refine tampered_ne (signature_ne signer (calcSigCtag {} 2 0) (pageData.take 4) true) ?_
    exact ((envelope_sig _ _).symm.trans e).trans
      (congrArg (fun d => signature signer (calcSigCtag {} 2 0) d true) (hd _ _))
  · exact (envelope_sig _ _).trans (congrArg (fun d => signature signer (calcSigCtag {} 2 0) d true) (hd _ _).symm)
  · exact fun e => absurd ((envelope_tc 0x1F (getterSig 2 0 4)).symm.trans e) (by decide : (0x1F : Word) ≠ 0x20)

/-- The signed getter of the tests delivers: the run that the claim about delivered signatures is about. -/
theorem test_meets_GetterOnlyDeliversSigned :
    let s := live ((getterTx 2 0 0x20 (getterSig 2 0 4)).answers {})
    paramsWf s.cfg = true ∧ ∃ t, exec (.calcSig 4 0 2) s = .next t ∧ t.seq = .idle ∧ t.status = .ok
      ∧ t.busIsLocked = true := by
  intro s
  refine ⟨by decide, ?_⟩
  have hl : (getterSig 2 0 4).length = 8 := signature_length _ _ _ _
  have hx := getterTx_asks ((getterTx 2 0 0x20 (getterSig 2 0 4)).answers {}) 2 0 0x20 hl
  have h0 := run_runCalcSig (s := s.begun) (size := 4) (rest := []) rfl (by decide) hx.1 hx.2.1 hx.2.2.1 hx.2.2.2
    (List.append_nil _).symm
  have hd : ((getterTx 2 0 0x20 (getterSig 2 0 4)).response.drop 4).take 4 = pageData.take 4 :=
    envelope_data _ _ (by decide)
  have hs : (getterTx 2 0 0x20 (getterSig 2 0 4)).response.drop 36 = getterSig 2 0 4 := envelope_sig _ _
  have ht : echoedTc (getterTx 2 0 0x20 (getterSig 2 0 4)).response = 0x20 := envelope_tc _ _
  rw [hd, hs, ht] at h0
  let v : State := { (({ s.begun.ticked.transacted (getterTx 2 0 0x20 (getterSig 2 0 4)) [] with seq := .verify } :
    State).signed (calcSigCtag {} 2 0) (pageData.take 4) true) with seq := .derive }
  have hrun : (runCalcSig 2 0 4).run s.begun
      = .ok () { v with out := { v.out with rbuf := pageData.take 4, sigOut := getterSig 2 0 4 } } := by
    refine h0.trans (Eq.trans (bind_ok (run_signData _ _ _ _)) ?_)
    refine Eq.trans (show _ = (require (getterSig 2 0 4 == getterSig 2 0 4) .securityErr >>= _).run v from rfl) ?_
    have e : ((0x20 : Word) == v.mc.tc - 1) = true := (by decide : ((0x20 : Word) == 0x20 + 1 - 1) = true)
    simp only [beq_self_eq_true, require_true, M.bind_pure, M.bind_get, e, bind_setRbuf, run_setSigOut]
  exact ⟨_, runOp_ok hrun, rfl, rfl, rfl⟩

/-! ## Page reads -/

/-- The signature a page response must carry in the tests' state, the page in context `slot`. -/
def pageSig (s : State) (opc : Byte) (a : Word) (slot : Bool) : Bytes :=
  signatureOf (readSsk s slot) s.kid (mkCtagAddr opc (a.setWidth 24)) (cipherPage (readKey s slot) pageData)

theorem pageSig_length (s : State) (opc : Byte) (a : Word) (slot : Bool) : (pageSig s opc a slot).length = 8 := by
  simp [pageSig, signatureOf, Config.sigBytes]

theorem pageSig_eq (s : State) (opc : Byte) (a : Word) (slot : Bool) (tc : Word) (sig : Bytes) :
    pageSignature s opc a slot (envelope tc pageData sig) = pageSig s opc a slot := by
  simp only [pageSignature, plaintext, envelope_page, pageSig]

theorem tampered_page (s : State) (opc : Byte) (a : Word) (slot : Bool) :
    tampered (pageSig s opc a slot) ≠ pageSig s opc a slot := by
  refine tampered_ne fun h => ?_
  have := pageSig_length s opc a slot
  rw [h] at this
  exact absurd this (by decide)

/-- The transaction of a page read of address 100H. -/
def pageTx (opc : Byte) (tc : Word) (sig : Bytes) : Transaction :=
  tx (readCtag (live []) opc 0x100 false) [] (envelope tc pageData sig)

theorem ctagOpc_readCtag (s : State) (opc : Byte) (a : Word) (slot : Bool) : ctagOpc (readCtag s opc a slot) = opc :=
  ctagOpc_mkCtagAddr _ _

theorem pageTx_asks (answers : List Answer) {opc : Byte} (h0 : opc ≠ 0) (h1 : opc ≠ 0x65) (tc : Word) (sig : Bytes) {n : Nat}
    (h : 36 + sig.length = n) : asksPage (live answers) opc 0x100 n (pageTx opc tc sig) :=
  ⟨rfl, rfl, (envelope_length tc sig).trans h,
    tx_clean (by rw [ctagOpc_readCtag]; exact h0) (by rw [ctagOpc_readCtag]; exact h1) _ _⟩

theorem test_meets_SecureReadRuns :
    let x := pageTx 0x50 0x20 []
    let s := live (x.answers {})
    s.busIsLocked = true ∧ canTick s = true ∧ (0x100 : Word).toNat < 2 ^ 24 ∧ (0x100 : Word).toNat % 32 = 0
    ∧ asksPage s s.cfg.wire.srd 0x100 36 x ∧ s.env.answers = x.answers s.cfg ++ []
    ∧ rd32 x.response = tickValue s - 1 :=
  ⟨rfl, (by decide : canTick (live []) = true), by decide, by decide, pageTx_asks _ (by decide) (by decide) _ _ rfl,
    (List.append_nil _).symm, (envelope_tc _ _).trans (by decide : (0x20 : Word) = tickValue (live []) - 1)⟩

theorem test_meets_AuthenticatedReadRuns :
    ∀ sig ∈ [pageSig (live []) 0x51 0x100 false, tampered (pageSig (live []) 0x51 0x100 false)],
      let x := pageTx 0x51 0x20 sig
      let s := live (x.answers {})
      s.busIsLocked = true ∧ canTick s = true ∧ (0x100 : Word).toNat < 2 ^ 24 ∧ (0x100 : Word).toNat % 32 = 0
      ∧ asksPage s s.cfg.wire.sard 0x100 44 x ∧ s.env.answers = x.answers s.cfg ++ []
      ∧ rd32 x.response = tickValue s - 1
      ∧ (x.response.drop 36 = pageSignature s s.cfg.wire.sard 0x100 s.ctxIdx x.response
        ↔ sig = pageSig (live []) 0x51 0x100 false) := by
  intro sig h
  have hl : 36 + sig.length = 44 := by
    simp only [List.mem_cons, List.not_mem_nil, or_false] at h
    rcases h with rfl | rfl <;> simp [tampered, pageSig_length]
  refine ⟨rfl, (by decide : canTick (live []) = true), by decide, by decide, pageTx_asks _ (by decide : (0x51 : Byte) ≠ 0) (by decide) _ _ hl,
    (List.append_nil _).symm, (envelope_tc _ _).trans (by decide : (0x20 : Word) = tickValue (live []) - 1), ?_⟩
  rw [show (pageTx 0x51 0x20 sig).response.drop 36 = sig from envelope_sig _ _]
  exact Eq.congr_right (pageSig_eq (live []) 0x51 0x100 false 0x20 sig)

theorem test_meets_StalePageRefused :
    (let x := pageTx 0x50 0x1F []
      let s := live (x.answers {})
      asksPage s s.cfg.wire.srd 0x100 36 x ∧ s.env.answers = x.answers s.cfg ++ [] ∧ rd32 x.response ≠ tickValue s - 1)
    ∧ (let x := pageTx 0x51 0x21 (pageSig (live []) 0x51 0x100 false)
      let s := live (x.answers {})
      s.busIsLocked = true ∧ canTick s = true ∧ (0x100 : Word).toNat < 2 ^ 24 ∧ (0x100 : Word).toNat % 32 = 0
      ∧ asksPage s s.cfg.wire.sard 0x100 44 x ∧ s.env.answers = x.answers s.cfg ++ []
      ∧ rd32 x.response ≠ tickValue s - 1) :=
  ⟨⟨pageTx_asks _ (by decide) (by decide) _ _ rfl, (List.append_nil _).symm,
      fun e => absurd ((envelope_tc 0x1F []).symm.trans e) (by decide : (0x1F : Word) ≠ tickValue (live []) - 1)⟩,
    rfl, (by decide : canTick (live []) = true), by decide, by decide,
    pageTx_asks _ (by decide) (by decide) _ _ (by rw [pageSig_length]), (List.append_nil _).symm,
    fun e => absurd ((envelope_tc 0x21 _).symm.trans e) (by decide : (0x21 : Word) ≠ tickValue (live []) - 1)⟩

/-- A page answer whose envelope carries `sig`. -/
def pageAnswer (tc : Word) (sig : Bytes) : PageAnswer := ⟨waitFor ready, envelope tc pageData sig⟩

/-- Two pages answered in order, for a read of address 100H. -/
def twoPages (m : MultiRead) : List PageAnswer :=
  if m.signed then [pageAnswer 0x20 (pageSig (live []) m.opc 0x100 false),
    pageAnswer 0x21 (pageSig (live []).ticked m.opc 0x120 true)]
  else [pageAnswer 0x20 [], pageAnswer 0x21 []]

theorem pageAnswer_good {s : State} (hc : s.cfg = {}) (m : MultiRead) (a : Word) (slot : Bool) {tc : Word} {sig : Bytes}
    (hl : 36 + sig.length = m.len) (ht : tc = tickValue s - 1) (hs : m.signed = true → sig = pageSig s m.opc a slot) :
    pageGood s m a slot (pageAnswer tc sig) := by
  refine ⟨?_, ?_, ?_, (envelope_length tc sig).trans hl, (envelope_tc tc sig).trans ht, fun h => ?_⟩
  · rw [hc]; exact (by decide : (waitFor ready).good {} = true)
  · rw [hc]; exact (by decide : respReady {} ready = true)
  · rw [hc]; exact (by decide : hasError {} ready = false)
  · exact (envelope_sig tc sig).trans ((hs h).trans (pageSig_eq s m.opc a slot tc sig).symm)

theorem twoPages_good (m : MultiRead) (hl : m.len = if m.signed then 44 else 36) :
    pagesGood (live []) m 0x100 false (twoPages m) := by
  unfold twoPages
  cases h : m.signed
  · rw [h] at hl
    exact ⟨pageAnswer_good rfl m _ _ hl.symm (by decide) (by rw [h]; exact Bool.noConfusion),
      pageAnswer_good rfl m _ _ hl.symm (by decide) (by rw [h]; exact Bool.noConfusion), trivial⟩
  · rw [h] at hl
    exact ⟨pageAnswer_good rfl m _ _ (by rw [pageSig_length, hl]; rfl) (by decide) fun _ => rfl,
      pageAnswer_good rfl m _ _ (by rw [pageSig_length, hl]; rfl) (by decide) fun _ => rfl, trivial⟩

theorem test_meets_MultiBlockReadsRun :
    ∀ m ∈ [(⟨0x50, 36, false, 64⟩ : MultiRead), ⟨0x51, 44, true, 64⟩],
      let s := live (.bytes [] :: pageAnswers (twoPages m))
      s.busIsLocked = true ∧ (0x100 : Word).toNat % 32 = 0 ∧ (64 : Word).toNat = 32 * (twoPages m).length
      ∧ twoPages m ≠ [] ∧ (0x100 : Word).toNat + (64 : Word).toNat ≤ 2 ^ 24 ∧ s.mc.inSync = true
      ∧ s.mc.tc.toNat + (twoPages m).length < 0xFFFFFFFF ∧ paramsWf s.cfg = true
      ∧ pagesGood s m 0x100 s.ctxIdx (twoPages m)
      ∧ s.env.answers = .bytes [] :: pageAnswers (twoPages m) ++ [] := by
  intro m h
  have h2 : (twoPages m).length = 2 := by unfold twoPages; split <;> rfl
  refine ⟨rfl, by decide, by rw [h2]; rfl, fun e => ?_, by decide, rfl, ?_, (by decide : paramsWf {} = true), ?_,
    (List.append_nil _).symm⟩
  · rw [e] at h2; exact absurd h2 (by decide)
  · rw [h2]; exact (by decide : (0x20 : Word).toNat + 2 < 0xFFFFFFFF)
  · simp only [List.mem_cons, List.not_mem_nil, or_false] at h
    rcases h with rfl | rfl
    · exact twoPages_good ⟨0x50, 36, false, 64⟩ rfl
    · exact twoPages_good ⟨0x51, 44, true, 64⟩ rfl

/-- The tests' state before the counter is read. -/
def unsynced (answers : List Answer) : State := { live answers with mc := {} }

/-- The first consumer: a counter that reads 20H, then the operation as in the tests of a trusted counter. -/
theorem test_meets_FirstConsumerSynchronises :
    let y := counterTx 0x20 5
    let s := fun rest => unsynced (y.answers {} ++ rest)
    let u := fun rest => (s rest).synced y 0x20 5 rest
    (∀ rest, (s rest).busIsLocked = true ∧ (s rest).mc.inSync = false ∧ readsCounter (s rest) y 0x20 5
      ∧ (s rest).env.answers = y.answers (s rest).cfg ++ rest)
    ∧ (∀ p ∈ ([(0x10, 0), (0xFFFFFFFD, 0x3FFFFFFE), (0x20, 5)] : List (Word × Word)),
      mcValid p.1 p.2 = true ∧ p.1.toNat + 1 < 0xFFFFFFFF)
    ∧ (ticksFirst .seraseChip = true ∧ ¬ badOperands (s [.linkError]) .seraseChip
      ∧ ∃ t, exec .seraseChip (u [.linkError]) = .next t ∧ t.seq = .idle)
    ∧ (let x := handshakeTx quiet 0x11 (modeFlags false false)
      x.clean {} = true ∧ kidOk (s (x.answers {})) 0x11 = true
      ∧ opensWith (s (x.answers {})) 0x11 true (List.replicate 16 0)
      ∧ asksSession (u (x.answers {})) 0x11 (modeFlags false false) (List.replicate 16 0) false x
      ∧ sesReady {} (x.final {}) = true ∧ ssrKid {} (x.final {}) = 0x11)
    ∧ (let x := handshakeTx 0x00FF1000 0x11 0
      x.clean {} = true ∧ asksSession (u (x.answers {})) 0x11 0 (List.replicate 16 0) false x
      ∧ sesReady {} (x.final {}) = false)
    ∧ (∀ opc ∈ ([0x70, 0x71, 0x72] : List Byte),
      let x := setterTx (addrCtag opc) [] false true
      x.clean {} = true ∧ sendsSetter (u (x.answers {})).ticked
        (mkCtagAddr opc ((randomAddr (s (x.answers {})) 0x100).setWidth 24)) [] false true x)
    ∧ (let x := setterTx (addrCtag 0x52) (dataOperand (live []) 32) true true
      x.clean {} = true ∧ sendsSetter (u (x.answers {})).ticked
        (mkCtagAddr 0x52 ((randomAddr (s (x.answers {})) 0x100).setWidth 24)) (dataOperand (s (x.answers {})) 32) true true x)
    ∧ (let x := pageTx 0x50 0x20 []
      asksPage (u (x.answers {})) 0x50 0x100 36 x ∧ rd32 x.response = tickValue (u (x.answers {})) - 1)
    ∧ (let x := pageTx 0x51 0x20 (pageSig (live []) 0x51 0x100 false)
      asksPage (u (x.answers {})) 0x51 0x100 44 x ∧ rd32 x.response = tickValue (u (x.answers {})) - 1
      ∧ x.response.drop 36 = pageSignature (u (x.answers {})) 0x51 0x100 false x.response)
    ∧ ∀ m ∈ [(⟨0x50, 36, false, 64⟩ : MultiRead), ⟨0x51, 44, true, 64⟩],
      pagesGood (u (.bytes [] :: pageAnswers (twoPages m))) m 0x100 false (twoPages m)
      ∧ (64 : Word).toNat = 32 * (twoPages m).length ∧ twoPages m ≠ [] := by
  have ht : ∀ {rest}, tickValue ((unsynced ((counterTx 0x20 5).answers {} ++ rest)).synced (counterTx 0x20 5) 0x20 5 rest)
      = 0x21 := rfl
  refine ⟨fun rest => ⟨rfl, rfl, counterTx_reads rfl _ _, rfl⟩, ?_, ⟨rfl, id, _, rfl, rfl⟩,
    ⟨(by decide : (handshakeTx quiet 0x11 (modeFlags false false)).clean {} = true), rfl, rfl,
      handshakeTx_asks _ _ _ rfl rfl rfl, (by decide : sesReady {} quiet = true), (by decide : ssrKid {} quiet = 0x11)⟩,
    ⟨(by decide : (handshakeTx 0x00FF1000 0x11 0).clean {} = true), handshakeTx_asks _ _ _ rfl rfl rfl,
      (by decide : sesReady {} 0x00FF1000 = false)⟩,
    fun opc h => ⟨setterTx_clean ?_ ?_ _ _ _, rfl, rfl, rfl⟩, ⟨setterTx_clean ?_ ?_ _ _ _, rfl, rfl, rfl⟩,
    ⟨pageTx_asks [] (by decide : (0x50 : Byte) ≠ 0) (by decide) 0x20 [] rfl, (envelope_tc _ _).trans ?_⟩,
    ⟨pageTx_asks [] (by decide : (0x51 : Byte) ≠ 0) (by decide) 0x20 _ (by rw [pageSig_length]),
      (envelope_tc _ _).trans ?_, (envelope_sig _ _).trans (pageSig_eq (live []) 0x51 0x100 false 0x20 _).symm⟩,
    fun m h => ⟨?_, by unfold twoPages; split <;> rfl, by unfold twoPages; split <;> exact List.cons_ne_nil _ _⟩⟩
  · intro p h
    simp only [List.mem_cons, List.not_mem_nil, or_false] at h
    rcases h with rfl | rfl | rfl <;> exact ⟨by decide, by decide⟩
  · rw [addrCtag, ctagOpc_mkCtagAddr]
    rintro rfl
    exact absurd h (by decide)
  · rw [addrCtag, ctagOpc_mkCtagAddr]
    rintro rfl
    exact absurd h (by decide)
  · rw [addrCtag, ctagOpc_mkCtagAddr]; decide
  · rw [addrCtag, ctagOpc_mkCtagAddr]; decide
  · rw [ht]; decide
  · rw [ht]; decide
  · simp only [List.mem_cons, List.not_mem_nil, or_false] at h
    rcases h with rfl | rfl
    · exact twoPages_good ⟨0x50, 36, false, 64⟩ rfl
    · exact twoPages_good ⟨0x51, 44, true, 64⟩ rfl

/-! ### Aborted multi-block reads: page `k` of a read from 100H, page 0 of one and page 1 of three -/

/-- Page `k` with the right signature and an echoed counter `d` away from the right one. -/
def pageAt (m : MultiRead) (k : Nat) (d : Word) (v : Word) (wrong : Bool) : PageAnswer :=
  let s := (live []).tickedBy k
  let sig := pageSig s m.opc (pageAddr 0x100 k) ((live []).pageSlot k)
  ⟨waitFor v, envelope (tickValue s - 1 + d) pageData (if m.signed then (if wrong then tampered sig else sig) else [])⟩

theorem pageAt_length (m : MultiRead) (hl : m.len = if m.signed then 44 else 36) (k : Nat) (d v : Word) (wrong : Bool) :
    (pageAt m k d v wrong).response.length = m.len := by
  refine (envelope_length _ _).trans ?_
  rw [hl]
  cases m.signed <;> cases wrong <;> simp [tampered, pageSig_length]

/-- The pages before page `k`. -/
def pagesBefore (m : MultiRead) (k : Nat) : List PageAnswer := if k = 0 then [] else [pageAt m 0 0 ready false]

theorem pagesBefore_good (answers : List Answer) (m : MultiRead) (hl : m.len = if m.signed then 44 else 36) (k : Nat) :
    pagesGood (live answers) m 0x100 false (pagesBefore m k) := by
  unfold pagesBefore
  split
  · exact trivial
  · refine ⟨⟨(by decide : (waitFor ready).good {} = true), (by decide : respReady {} ready = true),
      (by decide : hasError {} ready = false), pageAt_length m hl _ _ _ _, (envelope_tc _ _).trans ?_, fun h => ?_⟩, trivial⟩
    · exact (by decide : tickValue ((live []).tickedBy 0) - 1 + 0 = tickValue (live []) - 1)
    · refine (envelope_sig _ _).trans ?_
      rw [h]
      refine Eq.trans ?_ (pageSig_eq (live []) m.opc 0x100 false _ _).symm
      exact (rfl : pageSig ((live []).tickedBy 0) m.opc (pageAddr 0x100 0) ((live []).pageSlot 0)
        = pageSig (live []) m.opc 0x100 false)

/-- The read that refuses its first of one page, or its second of three. -/
def abortCases : List (Nat × Word) := [(0, 32), (1, 96)]

theorem readsPages_abort (answers : List Answer) {q : Nat × Word} (h : q ∈ abortCases) :
    readsPages (live answers) 0x100 q.2 (pagesBefore ⟨0x51, 44, true, q.2.toNat⟩ q.1).length
      ∧ readsPages (live answers) 0x100 q.2 (pagesBefore ⟨0x50, 36, false, q.2.toNat⟩ q.1).length
      ∧ ∀ m : MultiRead, (pagesBefore m q.1).length = q.1 := by
  have hw : paramsWf {} = true := by decide
  simp only [abortCases, List.mem_cons, List.not_mem_nil, or_false] at h
  rcases h with rfl | rfl
  · exact ⟨⟨hw, rfl, by decide, by decide, by decide, by decide, rfl, (by decide : (0x20 : Word).toNat + 0 + 2 < 0xFFFFFFFF)⟩,
      ⟨hw, rfl, by decide, by decide, by decide, by decide, rfl, (by decide : (0x20 : Word).toNat + 0 + 2 < 0xFFFFFFFF)⟩,
      fun _ => rfl⟩
  · exact ⟨⟨hw, rfl, by decide, by decide, by decide, by decide, rfl, (by decide : (0x20 : Word).toNat + 1 + 2 < 0xFFFFFFFF)⟩,
      ⟨hw, rfl, by decide, by decide, by decide, by decide, rfl, (by decide : (0x20 : Word).toNat + 1 + 2 < 0xFFFFFFFF)⟩,
      fun _ => rfl⟩

/-- A page response with a signature that is not the expected one. -/
def forged : Bytes := tampered (pageSig (live []) 0x51 0x100 false)

theorem forged_length : forged.length = 8 := by rw [forged, tampered, List.length_map, pageSig_length]

theorem forged_refused : (pageSig (live []) 0x51 0x100 false == forged) = false :=
  beq_eq_false_iff_ne.mpr fun e => tampered_page (live []) 0x51 0x100 false e.symm

theorem genuine_accepted :
    (pageSig (live []) 0x51 0x100 false == pageSig (live []) 0x51 0x100 false) = true := beq_self_eq_true _

/-- `SARD` of a page whose response carries `sig`: the signature decides. -/
theorem sard_run {sig : Bytes} {g : Bool} (hl : sig.length = 8) (hs : (pageSig (live []) 0x51 0x100 false == sig) = g) :
    ∃ t, exec (.sard 0x100) (live ((pageTx 0x51 0x20 sig).answers {})) = .next t
      ∧ t.seq = .idle ∧ t.status = (if g then .ok else .securityErr) ∧ t.busIsLocked = true := by
  let x := pageTx 0x51 0x20 sig
  let s := live (x.answers {})
  have hx := pageTx_asks (x.answers {}) (opc := 0x51) (by decide) (by decide) 0x20 sig (n := 44) (by rw [hl])
  have hr := run_readPage (s := s.begun) (opc := 0x51) (a := 0x100) (len := 44) (rest := []) (by decide) rfl
    (by exact (by decide : canTick (live []) = true)) hx.1 hx.2.1 hx.2.2.1 hx.2.2.2 (List.append_nil _).symm
  rw [if_pos (show rd32 x.response = tickValue s.begun - 1 from
    (envelope_tc _ _).trans (by decide : (0x20 : Word) = tickValue (live []) - 1))] at hr
  have hg : ∀ u : State, (u.ctx false).ssk = readSsk (live []) false → u.kid = 0x11 → u.busIsLocked = true →
      ∃ v, (pageSigned 0x51 0x100 false (plaintext (live []) false x.response) x.response).run u = .ok g v
        ∧ v.busIsLocked = true := by
    intro u h1 h2 h3
    have e := run_pageSigned u 0x51 0x100 false (plaintext (live []) false x.response) x.response
    have hb : (signatureOf (u.ctx false).ssk u.kid (mkCtagAddr 0x51 ((0x100 : Word).setWidth 24))
        (plaintext (live []) false x.response) == x.response.drop 36) = g := by
      rw [h1, h2, show x.response.drop 36 = sig from envelope_sig _ _, plaintext,
        show pageOf x.response = pageData from envelope_page _ _]
      exact hs
    rw [hb] at e
    exact ⟨_, e, h3⟩
  let y : State := { ((s.begun.readPrepared 0x51 0x100 false).transacted x []).called [.cipher] with seq := .verify }
  obtain ⟨v, hv, hb⟩ := hg y (by rfl) (by rfl) (by rfl)
  cases g
  · refine ⟨_, runOp_raise (st := .securityErr) (t := { v with out := { v.out with rbuf := List.replicate 32 0 } }) ?_,
      rfl, rfl, hb⟩
    exact Eq.trans (bind_ok (t := s) (a := ()) rfl) (Eq.trans (bind_ok (t := s) (a := ()) rfl)
      (Eq.trans (bind_ok (t := s.begun) (a := ()) rfl) (Eq.trans (bind_ok hr) (Eq.trans (bind_ok hv) rfl))))
  · refine ⟨_, runOp_ok (t := { v with out := { v.out with rbuf := plaintext s.begun s.begun.ctxIdx x.response } }) ?_,
      rfl, rfl, hb⟩
    exact Eq.trans (bind_ok (t := s) (a := ()) rfl) (Eq.trans (bind_ok (t := s) (a := ()) rfl)
      (Eq.trans (bind_ok (t := s.begun) (a := ()) rfl) (Eq.trans (bind_ok hr) (Eq.trans (bind_ok hv) rfl))))

/-- The tests' state with the answers of an authenticated read of one page whose response carries `sig`. -/
def onePage (sig : Bytes) : State := live (.bytes [] :: pageAnswers [pageAnswer 0x20 sig])

/-- That read after its command was started. -/
def onePageStarted (sig : Bytes) : State :=
  let u : State := (onePage sig).begun.readPrepared 0x51 0x100 false
  { u with
    seq := .send, inFlight := true, out := { u.out with ssrOut := u.ssr }
    env := { u.env with
      answers := pageAnswers [pageAnswer 0x20 sig]
      trace := (startEvents u (u.ctx false).ctagW).reverse ++ u.env.trace } }

/-- That read after its response arrived. -/
def onePageArrived (sig : Bytes) : State :=
  let v := onePageStarted sig
  { v with
    seq := .read, ssr := ready, inFlight := false, out := { v.out with ssrOut := ready }
    env := { v.env with
      answers := []
      trace := op2Event v (envelope 0x20 pageData sig)
        :: (((waitFor ready).words.map (op0Event v)).reverse ++ v.env.trace) } }

/-- The check of that page and what follows it. -/
def onePageChecked (sig : Bytes) : M Unit := do
  let p ← orFailMulti (verifyPage ⟨0x51, 44, true, 32⟩ 0x100 false (envelope 0x20 pageData sig)) [] 32
  setRbuf p

theorem onePage_run {sig : Bytes} (hl : sig.length = 8) :
    (readMulti ⟨0x51, 44, true, 32⟩ 0x100).run (onePage sig).begun = (onePageChecked sig).run (onePageArrived sig) := by
  let s := onePage sig
  let u : State := { s.begun.readPrepared 0x51 0x100 false with seq := .derive }
  let v := onePageStarted sig
  let y := onePageArrived sig
  have hp : (prepRead 0x51 0x100 false).run s.begun = .ok () u := run_prepRead (by exact (by decide : canTick (live []) = true))
  have hc : (u.ctx false).ctagW = readCtag s.begun 0x51 0x100 false := rfl
  have hst : (startRead false).run u = .ok () v := run_startRead rfl
    (ctag_ne_zero (by rw [hc, ctagOpc_readCtag]; decide)) rfl
  have hr : (secureOrRaise 0 [] (envelope 0x20 pageData sig).length true).run v
      = .ok (some (envelope 0x20 pageData sig), ready) y :=
    run_secure_nocmd (w := waitFor ready) (rest := []) (by exact (by decide : (0 : Byte) ∉ [(0x52 : Byte), 0x46])) rfl
      (by exact (by decide : (waitFor ready).good {} = true)) (by exact (by decide : respReady {} ready = true))
      (fun e => absurd (congrArg List.length e) (by rw [envelope_length]; simp)) rfl
  rw [show (envelope 0x20 pageData sig).length = 44 by rw [envelope_length, hl]] at hr
  have hcheck : (checkPage ready [] 32).run y = .ok () y := by
    simp only [checkPage, M.bind_get, show hasError y.cfg.ssr ready = false from (by decide : hasError {} ready = false),
      onlyIf_false, M.run_pure]
  have hloop : (pagesLoop ⟨0x51, 44, true, 32⟩ 1 0x100 false []).run v
      = (orFailMulti (verifyPage ⟨0x51, 44, true, 32⟩ 0x100 false (envelope 0x20 pageData sig)) [] 32).run y := by
    refine Eq.trans (M.bind_pure _ _ _) (Eq.trans (bind_ok (run_orFailMulti hr)) (Eq.trans (M.bind_pure _ _ _)
      (Eq.trans (bind_ok hcheck) (Eq.trans (M.bind_pure _ _ _) ?_))))
    generalize orFailMulti (verifyPage ⟨0x51, 44, true, 32⟩ 0x100 false (envelope 0x20 pageData sig)) [] 32 = z
    rcases h : z.run y with ⟨a, t⟩ | ⟨e, t⟩
    · exact (bind_ok h).trans rfl
    · exact bind_error h
  refine Eq.trans (M.bind_get _ _) (Eq.trans (bind_ok hp) (Eq.trans (bind_ok (run_orFailMulti hst)) ?_))
  unfold onePageChecked
  rcases h : (orFailMulti (verifyPage ⟨0x51, 44, true, 32⟩ 0x100 false (envelope 0x20 pageData sig)) [] 32).run y
    with ⟨a, t⟩ | ⟨e, t⟩
  · exact (bind_ok (hloop.trans h)).trans (bind_ok h).symm
  · exact (bind_error (hloop.trans h)).trans (bind_error h).symm

/-- A read of one page in order delivers it. -/
theorem onePage_delivered :
    ∃ t, exec (.sardMulti 0x100 32) (onePage (pageSig (live []) 0x51 0x100 false)) = .next t
      ∧ t.seq = .idle ∧ t.status = .ok ∧ t.busIsLocked = true := by
  let sig := pageSig (live []) 0x51 0x100 false
  let m : MultiRead := ⟨0x51, 44, true, 32⟩
  have hg : pageGood (live []) m 0x100 false (pageAnswer 0x20 sig) :=
    pageAnswer_good rfl m _ _ (by rw [pageSig_length]) (by decide) fun _ => rfl
  have hv := run_verifyPage (σ := live []) (u := onePageArrived sig) rfl rfl rfl rfl hg
  refine ⟨_, runOp_ok (Eq.trans (bind_ok (t := onePage sig) (a := ()) rfl) (Eq.trans (bind_ok (t := onePage sig) (a := ()) rfl)
    (Eq.trans (bind_ok (t := (onePage sig).begun) (a := ()) rfl) (Eq.trans (onePage_run (pageSig_length _ _ _ _))
      (Eq.trans (bind_ok (run_orFailMulti hv)) rfl))))), rfl, rfl, rfl⟩

/-- A forged page and a genuine one, read alone; a genuine one read by `SARD_MULTI`. -/
theorem test_meets_ForgedPageNeverDelivered :
    paramsWf {} = true
    ∧ (∃ t, exec (.sard 0x100) (live ((pageTx 0x51 0x20 forged).answers {})) = .next t
      ∧ t.seq = .idle ∧ t.status = .securityErr)
    ∧ (∃ t, exec (.sard 0x100) (live ((pageTx 0x51 0x20 (pageSig (live []) 0x51 0x100 false)).answers {})) = .next t
      ∧ t.seq = .idle ∧ t.status = .ok ∧ t.busIsLocked = true)
    ∧ ∃ t, exec (.sardMulti 0x100 32) (onePage (pageSig (live []) 0x51 0x100 false)) = .next t
      ∧ t.seq = .idle ∧ t.status = .ok ∧ t.busIsLocked = true := by
  obtain ⟨t, h1, h2, h3, -⟩ := sard_run forged_length forged_refused
  exact ⟨by decide, ⟨t, h1, h2, h3⟩, sard_run (pageSig_length _ _ _ _) genuine_accepted, onePage_delivered⟩

/-- Step 5 of the pipeline ends a read of one forged page: nothing is in flight, the page is zeroed. -/
theorem test_meets_ForgedPagesZeroed_first :
    ∃ t, exec (.sardMulti 0x100 32) (onePage forged) = .next t ∧ t.seq = .idle ∧ t.status = .securityErr := by
  let m : MultiRead := ⟨0x51, 44, true, 32⟩
  let y := onePageArrived forged
  have hv : ∀ w : State, (w.ctx false).tc = 0x21 → (w.ctx false).cipherKey = readKey (live []) false →
      (w.ctx false).ssk = readSsk (live []) false → w.kid = 0x11 →
      ∃ w', (verifyPage m 0x100 false (envelope 0x20 pageData forged)).run w = .error (.raise .securityErr) w'
        ∧ w'.inFlight = w.inFlight := by
    intro w h1 h2 h3 h4
    have hf : (echoedTc (envelope 0x20 pageData forged) == (w.ctx false).tc - 1) = true := by
      rw [echoedTc, envelope_tc, h1]; decide
    simp only [verifyPage, bind_phase, M.bind_get, checkFresh]
    rw [show ({ w with seq := .verify } : State).ctx false = w.ctx false from rfl, hf, require_true, M.bind_pure, h2]
    simp only [cipher, bind_cryptoCall]
    rw [show pageOf (envelope 0x20 pageData forged) = pageData from envelope_page _ _]
    have hs := run_pageSigned (({ w with seq := .verify } : State).called [.cipher]) 0x51 0x100 false
      (cipherPage (readKey (live []) false) pageData) (envelope 0x20 pageData forged)
    have hbad : (signatureOf ((({ w with seq := .verify } : State).called [.cipher]).ctx false).ssk
        (({ w with seq := .verify } : State).called [.cipher]).kid (mkCtagAddr 0x51 ((0x100 : Word).setWidth 24))
        (cipherPage (readKey (live []) false) pageData) == (envelope 0x20 pageData forged).drop 36) = false := by
      rw [envelope_sig]
      show (signatureOf (w.ctx false).ssk w.kid _ _ == _) = false
      rw [h3, h4]
      exact forged_refused
    rw [hbad] at hs
    obtain ⟨z, hz, hi⟩ : ∃ z, (pageSigned 0x51 0x100 false (cipherPage (readKey (live []) false) pageData)
        (envelope 0x20 pageData forged)).run (({ w with seq := .verify } : State).called [.cipher]) = .ok false z
        ∧ z.inFlight = w.inFlight := ⟨_, hs, rfl⟩
    exact ⟨z, bind_error (Eq.trans (bind_ok hz) rfl), hi⟩
  obtain ⟨w, hw, hf⟩ := hv y (by rfl) (by rfl) (by rfl) (by rfl)
  have hfail : (orFailMulti (verifyPage m 0x100 false (envelope 0x20 pageData forged)) [] 32).run y
      = .error (.raise .securityErr) { w with out := { w.out with rbuf := zeroedOutput w.cfg.multiZero [] 32 } } := by
    refine Eq.trans (bind_ok (attempt_raise hw)) ?_
    have hd : drain.run w = .ok () w := by
      simp only [drain, M.bind_get, hf, show y.inFlight = false from rfl, onlyIf_false, M.run_pure]
    refine Eq.trans (bind_ok hd) ?_
    simp only [M.bind_get, beq_self_eq_true, onlyIf_true, bind_setRbuf, run_raise]
  refine ⟨_, runOp_raise (st := .securityErr)
    (t := { w with out := { w.out with rbuf := zeroedOutput w.cfg.multiZero [] 32 } }) ?_, rfl, rfl⟩
  exact Eq.trans (bind_ok (t := onePage forged) (a := ()) rfl) (Eq.trans (bind_ok (t := onePage forged) (a := ()) rfl)
    (Eq.trans (bind_ok (t := (onePage forged).begun) (a := ()) rfl)
      (Eq.trans (onePage_run forged_length) (bind_error hfail))))

theorem test_meets_ForgedPagesZeroed_second : ∀ q ∈ abortCases,
    let m : MultiRead := ⟨0x51, 44, true, q.2.toNat⟩
    let pages := pagesBefore m q.1
    let p := pageAt m q.1 0 ready true
    let more := decide (32 * (q.1 + 1) < q.2.toNat)
    let s := live (.bytes [] :: passedAnswers pages ++ statusAnswers p.wait.words ++ [.bytes p.response]
      ++ (if more then .bytes [] :: statusAnswers (waitFor quiet).words else []) ++ [])
    pages.length = q.1 ∧ readsPages s 0x100 q.2 pages.length ∧ pagesGood s m 0x100 s.ctxIdx pages
    ∧ pageArrives s m p ∧ hasError s.cfg.ssr p.wait.last = false
    ∧ echoedTc p.response = tickValue (s.tickedBy q.1) - 1
    ∧ p.response.drop 36 ≠ pageSignature (s.tickedBy q.1) m.opc (pageAddr 0x100 q.1) (s.pageSlot q.1) p.response
    ∧ (waitFor quiet).good s.cfg.ssr = true := by
  intro q h m pages p more s
  have hr := readsPages_abort s.env.answers h
  refine ⟨hr.2.2 m, hr.1, pagesBefore_good _ m rfl _, ⟨(by decide : (waitFor ready).good {} = true),
    (by decide : respReady {} ready = true), pageAt_length m rfl _ _ _ _⟩, (by decide : hasError {} ready = false),
    (envelope_tc _ _).trans (BitVec.add_zero _), fun e => ?_, (by decide : (waitFor quiet).good {} = true)⟩
  refine tampered_page ((live []).tickedBy q.1) 0x51 (pageAddr 0x100 q.1) ((live []).pageSlot q.1) ?_
  exact (envelope_sig _ _).symm.trans (e.trans (pageSig_eq _ _ _ _ _ _))

theorem test_meets_MultiBlockAbortsDrain :
    (let s := live (.bytes [] :: pageAnswers [pageAnswer 0x20 forged]);
      s.mc.inSync = true ∧ s.inFlight = false ∧ (∃ t, exec (.sardMulti 0x100 32) s = .next t ∧ t.seq = .idle))
    ∧ (waitFor quiet).good {} = true
    ∧ ∀ q ∈ abortCases, ∀ m ∈ [(⟨0x50, 36, false, q.2.toNat⟩ : MultiRead), ⟨0x51, 44, true, q.2.toNat⟩], ∀ answers,
      let s := live answers
      let pages := pagesBefore m q.1
      pages.length = q.1 ∧ readsPages s 0x100 q.2 pages.length ∧ pagesGood s m 0x100 s.ctxIdx pages
      ∧ (∀ d ∈ ([1, 0xFFFFFFFF] : List Word),
        let p := pageAt m q.1 d ready false
        pageArrives s m p ∧ hasError s.cfg.ssr p.wait.last = false
        ∧ echoedTc p.response ≠ tickValue (s.tickedBy q.1) - 1)
      ∧ (∀ v ∈ ([0x0011100E, 0x00111804, quiet] : List Word),
        let p := pageAt m q.1 0 v false
        p.wait.good s.cfg.ssr = true ∧ p.response.length = m.len
        ∧ hasError s.cfg.ssr (if respReady s.cfg.ssr p.wait.last then p.wait.last
          else withSyntheticError s.cfg.ssr p.wait.last) = true
        ∧ readsCounter s (counterTx 0x10 0) 0x10 0 ∧ mcValid 0x10 0 = true)
      ∧ ∀ w ∈ [busy], deadLink w = false ∧ waitOver s.cfg.ssr w = false := by
  obtain ⟨t, ht, hs, -⟩ := test_meets_ForgedPagesZeroed_first
  refine ⟨⟨rfl, rfl, t, ht, hs⟩, by decide, fun q hq m hm answers => ?_⟩
  have hr := readsPages_abort answers hq
  have hl : m.len = if m.signed then 44 else 36 := by
    simp only [List.mem_cons, List.not_mem_nil, or_false] at hm
    rcases hm with rfl | rfl <;> rfl
  refine ⟨hr.2.2 m, ?_, pagesBefore_good _ m hl _, fun d hd => ⟨⟨(by decide : (waitFor ready).good {} = true),
      (by decide : respReady {} ready = true), pageAt_length m hl _ _ _ _⟩, (by decide : hasError {} ready = false), fun e => ?_⟩,
    fun v hv => ⟨?_, pageAt_length m hl _ _ _ _, ?_, counterTx_reads rfl _ _, by decide⟩,
    List.forall_mem_singleton.2 (by decide : deadLink busy = false ∧ waitOver {} busy = false)⟩
  · simp only [List.mem_cons, List.not_mem_nil, or_false] at hm
    rcases hm with rfl | rfl
    · exact hr.2.1
    · exact hr.1
  · have e' : tickValue ((live []).tickedBy q.1) - 1 + d = tickValue ((live []).tickedBy q.1) - 1 :=
      (envelope_tc _ _).symm.trans e
    have h0 : d = 0 := by bv_omega
    rw [h0] at hd
    exact absurd hd (by decide)
  · show (waitFor v).good {} = true
    simp only [List.mem_cons, List.not_mem_nil, or_false] at hv
    rcases hv with rfl | rfl | rfl <;> decide
  · show hasError {} (if respReady {} v then v else withSyntheticError {} v) = true
    simp only [List.mem_cons, List.not_mem_nil, or_false] at hv
    rcases hv with rfl | rfl | rfl <;> decide

/-! ## Wire and bus commands -/

/-- The latches of the tests' wire commands: a payload of 40 bytes. -/
def wireLatch : Inputs := { cmd := { w2 := 40 }, wbuf := List.replicate 40 3 }

/-- One row of the wire table with operands at the ends of their ranges. -/
def wireRows : List Instr :=
  [.opcGetMc 0xFF 0xFFFF, .opcSessionOpen 0xFF 3, .opcInitPa 15 0, .opcCalcSig 0 0, .opcSrd 0xFFFFFF, .opcSard 0,
    .opcSawr 0xFFFFFF, .opcSetKey 0x11 0, .opcSetSuid 0 0, .opcSetGmc 0 0, .opcSetGmt 0 0, .opcSetAwdt 0 0,
    .opcSetScr 7 0, .opcSetRstResp 0 0, .opcSetAclr 0 0, .opcErase4k 0, .opcErase32k 0, .opcErase64k 0,
    .opcEraseSection 7 0, .opcEraseChip 0 0, .opcCalcSigDtWid 0, .opcCalcSigDtSuid 0, .opcCalcSigDtSsr 0,
    .opcCalcSigDtGmc 0, .opcCalcSigDtGmt 0, .opcCalcSigDtAwdt 0, .opcCalcSigDtScr 7, .opcCalcSigDtHwVer 0,
    .opcCalcSigDtMc 0xFFFF]

/-- The transaction of a wire row in the tests. -/
def wireTx (i : Instr) : Option Transaction :=
  (wireFrame { live [] with latch := wireLatch } i).map fun f => tx f.1 f.2.1 (List.replicate f.2.2 7)

/-- The hypotheses of the statement on the wire commands for one row. -/
def wireMet (i : Instr) : Bool :=
  match wireTx i with
  | none => false
  | some x =>
    let s : State := { live (x.answers {}) with latch := wireLatch }
    wireFrame s i == some (x.ctag, x.payload, x.response.length) && s.busIsLocked && x.good s.cfg
      && s.env.answers == x.answers s.cfg ++ []

theorem test_meets_WireCommandsRun : wireRows.all wireMet = true := by decide +kernel

theorem test_meets_BusCommandsRun :
    (let s := live [.bytes (le32 quiet)];
      s.busIsLocked = true ∧ deadLink quiet = false ∧ s.env.answers = .bytes (le32 quiet) :: [])
    ∧ (let s : State := { live [.bytes [1, 2]] with latch := { cmd := { w3 := 2 } } };
      s.busIsLocked = true ∧ [(1 : Byte), 2].length = s.latch.cmd.w3.toNat ∧ s.env.answers = .bytes [1, 2] :: [])
    ∧ (live [.bytes []]).busIsLocked = true ∧ (live [.bytes []]).env.answers = .bytes [] :: [] := by decide

/-! ## Invariants -/

theorem test_meets_StepKeepsInvariant :
    let s : State := { queued (.request .host) with inp := { cmd := { w0 := 1 } } }
    Inv s ∧ ∃ t, step s = .next t ∧ t.busIsLocked = true := by
  refine ⟨⟨by decide, by decide, Or.inl rfl, Or.inl ⟨rfl, rfl⟩, fun _ _ h => (by cases h), ⟨rfl, ?_, ?_⟩, ⟨rfl, rfl⟩, by decide⟩,
    _, rfl, rfl⟩
  · exact ⟨rfl, rfl, rfl, rfl⟩
  · exact ⟨rfl, rfl, rfl, rfl⟩

theorem test_meets_EveryInstructionGoesOn : paramsWf State.reset.cfg = true := by decide

theorem test_meets_ParametersAndHistoryStay : ∃ t, step (queued (.request .bus)) = .next t := ⟨_, rfl⟩

theorem test_meets_ErrorLeavesCounterSound :
    hasError State.reset.cfg.ssr 0x800 = true ∧ ∃ st t, (checkSsrErrors 0x800 0).run State.reset = .ok st t :=
  ⟨by decide, _, _, rfl⟩

end Sys2Proof.Tests
end

/-! # Session state after a session operation (rule R30)

A session operation runs its fallible part under `attempt` and then wipes the keys, so only four ends are left: a
refusal by a boundary check, the wiped state, the reset input, and a poll that never ends, in which `seq` is not
`IDLE`. -/

namespace Sys2Proof.Machine

variable {Q : Unit → State → Prop} {s t : State}

theorem exec_sessionOpen (k : Byte) (hasKey includeWid ignoreScr : Bool) (s : State) :
    exec (.sessionOpen k hasKey includeWid ignoreScr) s = execSessionOpen k hasKey includeWid ignoreScr s := rfl

theorem exec_sessionClose (k : Byte) (s : State) : exec (.sessionClose k) s = execSessionClose k s := rfl

/-! ## The wiped state -/

theorem wiped_closeSession (s : State) : Wiped { s.wipeKeys with kid := Config.kidInvalid } := ⟨rfl, rfl, rfl, rfl⟩

theorem wiped_blockReset (s : State) : Wiped s.blockReset := ⟨rfl, rfl, rfl, rfl⟩

@[simp] theorem wiped_complete (st : Status) (s : State) : Wiped (complete st s) ↔ Wiped s := Iff.rfl

/-! ## How a session operation ends -/

/-- A session operation begun in `s` has ended in `t` as R30 allows where it did not succeed: wiped, or refused by
a parameter or connection check with nothing but `status` and `seq` changed. -/
def WipedOrRefused (s t : State) : Prop :=
  Wiped t ∨ ((t.status = .notConnected ∨ t.status = .parameterErr) ∧ t = { s with status := t.status, seq := .idle })

/-- How the procedure of a session operation begun in `s` may stop for `WipedOrRefused`: a status is raised by a
boundary check or past the wipe, and an endless poll is in its waiting phase. -/
def SessionStop (s : State) : Stop → State → Prop
  | .raise st, t => Wiped t ∨ ((st = .notConnected ∨ st = .parameterErr) ∧ t = s)
  | .stuck, t => t.seq = .wait ∨ t.seq = .poll
  | .reset, _ => True
  | .fault _, _ => True

/-- A session operation that is not left polling returns as its procedure does, or is wiped or refused. -/
theorem runOp_wipedOrRefused {x : M Unit} (h : wp x Q (SessionStop s) s) (hr : runOp x s = .next t)
    (hq : t.seq = .idle) : (∃ u, Q () u ∧ t = complete .ok u) ∨ WipedOrRefused s t := by
  unfold wp at h
  rw [runOp_eq] at hr
  rcases hx : x.run s with ⟨_, u⟩ | ⟨e, u⟩ <;> simp only [hx] at h hr
  · cases hr
    exact .inl ⟨u, h, rfl⟩
  · right
    cases e with
    | raise st =>
      cases hr
      rcases h with hw | ⟨hst, rfl⟩
      · exact .inl ((wiped_complete st u).2 hw)
      · exact .inr ⟨hst, rfl⟩
    | stuck =>
      cases hr
      rcases h with h | h <;> rw [h] at hq <;> cases hq
    | reset =>
      cases hr
      exact .inl (wiped_blockReset u)
    | fault f => cases hr

/-! ## The fallible part -/

/-- The width of the keys is a property that every operation keeps. -/
theorem stable_keyBytes (len : Nat) : Stable (fun t => t.cfg.keyBytes = len) where
  seq _ _ h := h
  ssrOut _ _ h := h
  ssr _ _ h := h
  inFlight _ _ h := h
  atomic _ _ h := h
  exchanged _ _ _ _ _ _ _ h _ := h
  logEvent _ _ _ h := h
  distrust _ h := h
  close _ h := h
  rbuf _ _ h := h
  sigOut _ _ _ h := h
  ctagOut _ _ h := h
  begun _ h := h
  prng _ _ h := h
  counter _ _ _ _ _ h := h
  tick _ _ _ h := h
  ctxIdx _ _ h := h
  ctx _ i _ _ _ _ _ h := by cases i <;> exact h

/-- Whatever the device does, a handshake stops only as `Exit` says: it writes `kid`, which the width of the keys
does not depend on. -/
theorem keeps_handshake (k : Byte) (key : Bytes) (includeWid ignoreScr : Bool) (len base : Nat) :
    Keeps (fun t => t.cfg.keyBytes = len) base base (handshake k key includeWid ignoreScr) := fun _ hs ha =>
  wp_mono ((stable_keyBytes len).handshake_val (fun _ h => h) (fun _ h => h) hs ha) (fun _ _ h => h.2) fun _ _ h => h

/-- An attempted procedure raises nothing, and an endless poll of it is in its waiting phase. -/
theorem wp_attempt_sessionStop {α : Type} {P : State → Prop} {base : Nat} {x : M α} {u : State}
    (hx : Keeps P base base x) (hu : P u) (ha : u.atomic = base) :
    wp (attempt x) (fun _ _ => True) (SessionStop s) u := by
  refine wp_attempt.2 (wp_mono (hx u hu ha) (fun _ _ _ => trivial) fun e v h => ?_)
  cases e with
  | raise st => trivial
  | stuck => exact h.2.2
  | reset => trivial
  | fault f => trivial

/-! ## The two operations -/

/-- An open past its checks returns with a session key, or raises a status past the wipe. -/
theorem openSession_sessionStop (k : Byte) (key : Bytes) (includeWid ignoreScr : Bool) (s u : State) :
    wp (openSession k key includeWid ignoreScr) (fun _ _ => True) (SessionStop s) u := by
  have S := stable_keyBytes u.cfg.keyBytes
  refine wp_bind.2 (wp_mono (wp_attempt_sessionStop (.bind (keeps_handshake _ _ _ _ _ _) fun _ =>
    .look' fun _ => .bind S.checkOrRaise fun _ => .bind .require fun _ => .pure _) rfl rfl) ?_ fun _ _ h => h)
  intro r v _
  cases r with
  | ok sk => trivial
  | error st => exact .inl (wiped_closeSession _)

/-- A close past its checks leaves the wiped state, whatever the status of the handshake. -/
theorem closeTail_sessionStop (k : Byte) (s u : State) :
    wp (do
      let r ← attempt (closeHandshake k)
      phase .cleanup
      closeSession
      orRaise r) (fun _ t => Wiped t) (SessionStop s) u := by
  have hk := (stable_keyBytes u.cfg.keyBytes).closeHandshake (base := u.atomic) (k := k) (fun _ h => h) fun _ h => h
  refine wp_bind.2 (wp_mono (wp_attempt_sessionStop hk rfl rfl) ?_ fun _ _ h => h)
  intro r v _
  cases r with
  | ok _ => exact wiped_closeSession _
  | error st => exact .inl (wiped_closeSession _)

/-- A boundary check of a session operation begun in `s` refuses it, or lets it go on in `s`. -/
theorem wp_require_sessionStop {c : Bool} {st : Status} {f : Unit → M Unit}
    (hst : st = .notConnected ∨ st = .parameterErr) (hf : wp (f ()) Q (SessionStop s) s) :
    wp (require c st >>= f) Q (SessionStop s) s :=
  wp_bind.2 (wp_require (fun _ => hf) fun _ => .inr ⟨hst, rfl⟩)

theorem execSessionOpen_wipedOrRefused {k : Byte} {hasKey includeWid ignoreScr : Bool}
    (h : execSessionOpen k hasKey includeWid ignoreScr s = .next t) (hq : t.seq = .idle) (hst : t.status ≠ .ok) :
    WipedOrRefused s t := by
  refine (runOp_wipedOrRefused (Q := fun _ _ => True) ?_ h hq).resolve_left fun ⟨u, _, hu⟩ => hst (by rw [hu]; rfl)
  refine wp_require_sessionStop (.inl rfl) (wp_require_sessionStop (.inr rfl) ?_)
  cases openKey s k hasKey with
  | none => exact .inr ⟨.inr rfl, rfl⟩
  | some key => exact wp_bind.2 (openSession_sessionStop ..)

theorem execSessionClose_wipedOrRefused {k : Byte} (h : execSessionClose k s = .next t) (hq : t.seq = .idle) :
    WipedOrRefused s t := by
  have hend : (∃ u, Wiped u ∧ t = complete .ok u) ∨ WipedOrRefused s t := by
    refine runOp_wipedOrRefused (Q := fun _ u => Wiped u) ?_ h hq
    exact wp_require_sessionStop (.inl rfl) (wp_require_sessionStop (.inr rfl)
      (wp_bind.2 (closeTail_sessionStop k s s.begun)))
  rcases hend with ⟨u, hu, rfl⟩ | hend
  · exact .inl ((wiped_complete _ u).2 hu)
  · exact hend

/-- Settles O32: both operations end wiped or refused, since the handshake and its checks run under `attempt` and
the wipe follows. -/
theorem keysWipedAfterSessionEnd : Obligations.KeysWipedAfterSessionEnd := by
  unfold Obligations.KeysWipedAfterSessionEnd
  intro s t k hq
  constructor
  · intro hasKey includeWid ignoreScr h hst
    rw [exec_sessionOpen] at h
    exact execSessionOpen_wipedOrRefused h hq hst
  · intro h
    rw [exec_sessionClose] at h
    exact execSessionClose_wipedOrRefused h hq

end Sys2Proof.Machine

/-! # The forced counter fetch (rule R311)

The fetch runs the unsigned read under `attempt`, so a returned pair and a raised status take the same path: they
differ only in what `afterFetch` makes of the counter copy. The run is said once for both. -/

namespace Sys2Proof.Machine

/-- R314 with its bounds written out. -/
theorem mcValid_iff (tc dmc : Word) :
    mcValid tc dmc = true ↔ 0x10 ≤ tc.toNat ∧ tc.toNat < 0xFFFFFFFF ∧ dmc.toNat < 0x3FFFFFFF :=
  decide_eq_true_iff

/-! ## What `afterFetch` does to the counter copy -/

theorem afterFetch_of_valid {tc dmc : Word} (h : mcValid tc dmc = true) (s : State) :
    s.afterFetch (.ok (tc, dmc)) = { s with mc := { s.mc with tc := tc, dmc := dmc } } := if_pos h

theorem afterFetch_of_invalid {tc dmc : Word} (h : ¬ mcValid tc dmc = true) (s : State) :
    s.afterFetch (.ok (tc, dmc)) = { s with mc := { s.mc with inSync := false } } := if_neg h

theorem afterFetch_error (st : Status) (s : State) :
    s.afterFetch (.error st) = { s with mc := { s.mc with inSync := false } } := rfl

/-- The counter copy is all that `afterFetch` touches. -/
theorem afterFetch_eq_withMc (r : Except Status (Word × Word)) (s : State) :
    s.afterFetch r = { s with mc := (s.afterFetch r).mc } := by
  rcases r with st | ⟨tc, dmc⟩
  · rfl
  · by_cases hv : mcValid tc dmc = true
    · rw [afterFetch_of_valid hv]
    · rw [afterFetch_of_invalid hv]

theorem afterFetch_setOut (r : Except Status (Word × Word)) (s : State) (o : Results) :
    ({ s with out := o } : State).afterFetch r = { s.afterFetch r with out := o } := by
  rcases r with st | ⟨tc, dmc⟩
  · rfl
  · by_cases hv : mcValid tc dmc = true
    · rw [afterFetch_of_valid hv, afterFetch_of_valid hv]
    · rw [afterFetch_of_invalid hv, afterFetch_of_invalid hv]

/-! ## The run -/

theorem run_onlyIf_setInSync_false (c : Bool) (s : State) :
    (onlyIf c (setInSync false)).run s = .ok () { s with mc := { s.mc with inSync := s.mc.inSync && !c } } := by
  cases c with
  | true => simp
  | false => simp

/-- The fetch returns whenever the unsigned read returns or raises, and writes only the counter copy and `ssrOut`. -/
theorem run_forcedFetch {s t : State} {r : Except Status (Word × Word)} (h : (attempt getMc).run s = .ok r t) :
    forcedFetch.run s = .ok () { t with
      mc := { (t.afterFetch r).mc with inSync := (t.afterFetch r).mc.inSync && !s.cfg.errorClearsInSync }
      out := { t.out with ssrOut := s.out.ssrOut } } := by
  simp only [forcedFetch, M.bind_get]
  rw [bind_ok h, bind_setSsrOut, M.bind_modify, run_onlyIf_setInSync_false, afterFetch_setOut, afterFetch_eq_withMc]

/-- Settles O25, by the one run of the fetch at each outcome of the read. -/
theorem forcedFetchResynchronises : Obligations.ForcedFetchResynchronises := by
  unfold Obligations.ForcedFetchResynchronises
  intro s
  constructor
  · intro tc dmc t h
    refine ⟨_, run_forcedFetch (attempt_ok h), rfl, ?_⟩
    by_cases hv : mcValid tc dmc = true
    · rw [if_pos ((mcValid_iff tc dmc).1 hv), afterFetch_of_valid hv]
    · rw [if_neg (mt (mcValid_iff tc dmc).2 hv), afterFetch_of_invalid hv, Bool.false_and]
  · intro st t h
    refine ⟨_, run_forcedFetch (attempt_raise h), rfl, ?_⟩
    rw [afterFetch_error, Bool.false_and]

end Sys2Proof.Machine

/-! # The command port (rules R75, R384) -/

namespace Sys2Proof.Machine

/-- The port takes a request exactly in `IDLE`. -/
theorem portReady_iff (s : State) : portReady s = true ↔ s.seq = .idle := beq_iff_eq

/-- With an event queued, the step takes it from the queue and does what it asks. -/
theorem step_of_queued {s : State} {e : HostEvent} {rest : List HostEvent} (h : s.env.host = e :: rest) :
    step s = hostStep e (s.dequeue rest) := by
  simp only [step, h]

/-- R384: a port that is not ready drops the request. -/
theorem hostStep_request_of_busy {s : State} (sp : Space) (h : s.seq ≠ .idle) :
    hostStep (.request sp) s = .next s :=
  if_neg (mt (portReady_iff s).1 h)

/-- Settles O3: taking the event from the queue leaves `seq` busy, and a busy port drops the request. -/
theorem requestIgnoredWhileBusy : Obligations.RequestIgnoredWhileBusy := by
  unfold Obligations.RequestIgnoredWhileBusy
  intro s sp rest hreq hbusy
  have hbusy' : (s.dequeue rest).seq ≠ .idle := by rwa [dequeue_seq]
  rw [step_of_queued hreq, hostStep_request_of_busy sp hbusy']

end Sys2Proof.Machine

/-! # The encodings (rules R90, R92, R93, R103) -/

namespace Sys2Proof

-- One proof at a time: proofs elaborated in parallel take a thread each, and the check bounds their memory.
set_option Elab.async false

open Machine

/-! ## Fields of a descriptor word -/

section Fields
variable (hi : BitVec 16) (mid lo : Byte)

theorem word_low : (hi ++ mid ++ lo).extractLsb' 0 8 = lo := ctagOpc_mkCtag lo mid hi
theorem word_mid : (hi ++ mid ++ lo).extractLsb' 8 8 = mid := ctagParam_mkCtag lo mid hi

theorem getLsbD_word_high (i : Nat) : (hi ++ mid ++ lo).getLsbD (i + 16) = hi.getLsbD i := by
  rw [BitVec.getLsbD_append, if_neg (by omega), BitVec.getLsbD_append, if_neg (by omega)]
  rfl

theorem word_high : (hi ++ mid ++ lo).extractLsb' 16 16 = hi := by
  apply BitVec.eq_of_getLsbD_eq
  intro i h
  rw [BitVec.getLsbD_extractLsb', decide_eq_true h, Bool.true_and]
  exact (congrArg _ (Nat.add_comm 16 i)).trans (getLsbD_word_high hi mid lo i)

theorem ctagMode_mkCtag : ctagMode (mkCtag lo mid hi) = hi := word_high hi mid lo

end Fields

/-! ## Words of a descriptor -/

section Descriptor
variable (op kid sect dtype : Byte) (hf size : BitVec 16) (arg0 arg1 : Word)

theorem length_descriptor : (descriptor op kid hf arg0 size sect dtype arg1).length = 16 := rfl

theorem rd32_descriptor :
    rd32 (descriptor op kid hf arg0 size sect dtype arg1) = hf ++ kid ++ op := by
  simp only [descriptor, List.append_assoc, rd32_le32_append]

theorem rd32_descriptor_arg0 :
    rd32 ((descriptor op kid hf arg0 size sect dtype arg1).drop 4) = arg0 := by
  simp only [descriptor, List.append_assoc, drop_le32_append, rd32_le32_append]

theorem rd32_descriptor_sizes :
    rd32 ((descriptor op kid hf arg0 size sect dtype arg1).drop 8) = dtype ++ sect ++ size :=
  rd32_le32_append (dtype ++ sect ++ size) (le32 arg1)

theorem rd32_descriptor_arg1 :
    rd32 ((descriptor op kid hf arg0 size sect dtype arg1).drop 12) = arg1 := rd32_le32 arg1

theorem sizes_size : (dtype ++ sect ++ size).extractLsb' 0 16 = size := BitVec.extractLsb'_append_eq_right

theorem sizes_sect : (dtype ++ sect ++ size).extractLsb' 16 8 = sect := by
  apply BitVec.eq_of_getLsbD_eq
  intro i h
  rw [BitVec.getLsbD_extractLsb', BitVec.getLsbD_append, if_neg (by omega), BitVec.getLsbD_append,
    if_pos (by omega), decide_eq_true h, Bool.true_and, Nat.add_sub_cancel_left]

theorem sizes_dtype : (dtype ++ sect ++ size).extractLsb' 24 8 = dtype := by
  apply BitVec.eq_of_getLsbD_eq
  intro i h
  rw [BitVec.getLsbD_extractLsb', BitVec.getLsbD_append, if_neg (by omega), BitVec.getLsbD_append,
    if_neg (by omega), decide_eq_true h, Bool.true_and, show 24 + i - 16 - 8 = i by omega]

end Descriptor

/-- One bit of `hflags` (rule R113). -/
theorem getLsbD_hflag (bit i : Nat) (b : Bool) :
    (hflag bit b).getLsbD i = (b && decide (bit < 16) && decide (bit = i)) := by
  cases b <;> simp [hflag, BitVec.getLsbD_twoPow]




theorem decode_descriptor (op kid sect dtype : Byte) (hf size : BitVec 16) (arg0 arg1 : Word) :
    decode .host (descriptor op kid hf arg0 size sect dtype arg1)
      = decodeHost (descriptor op kid hf arg0 size sect dtype arg1) := by
  rw [decode, if_pos (length_descriptor ..)]

theorem decode_encode_host (i : Instr) (h : i.space = .host) : decode .host (encode i) = .ok i := by
  cases i
  all_goals first | exact Space.noConfusion h | skip
  all_goals rw [encode, decode_descriptor]
  all_goals rw [decodeHost]
  all_goals rw [rd32_descriptor, rd32_descriptor_arg0, rd32_descriptor_sizes, rd32_descriptor_arg1]
  all_goals rw [word_low, word_mid, sizes_size, sizes_sect, sizes_dtype]
  case tmSecure | tmStandard | sessionOpen | sessionCloseRevoke | sessionClose | signData | prepareSignedSetter
      | executeSignedSetter | setScr =>
    simp only [BitVec.reduceToNat, getLsbD_word_high, BitVec.getLsbD_or, getLsbD_hflag]
    simp [word_low, word_high]
  all_goals rfl

/-! ## CTAGs and bus opcodes -/

theorem ctagAddr_mkCtagAddr (opc : Byte) (a : BitVec 24) : ctagAddr (mkCtagAddr opc a) = a :=
  BitVec.extractLsb'_append_eq_left

theorem decode_le32 (c : Word) : decode .wire (le32 c) = decodeWire (le32 c) := by
  rw [decode, if_pos (length_le32 c)]

/-- The word of the general `OPC_CALC_SIG` row is read as that row: its parameter is none of the nine data types. -/
theorem decode_opcCalcSig {param : Byte} (h : isDataType param = false) (mode : BitVec 16) :
    decode .wire (encode (.opcCalcSig param mode)) = .ok (.opcCalcSig param mode) := by
  have hp : ¬ (1 ≤ param.toNat ∧ param.toNat ≤ 9) := by rwa [← isDataType_iff, Bool.not_eq_true]
  rw [encode, decode_le32, decodeWire, rd32_le32, ctagOpc_mkCtag, ctagParam_mkCtag, ctagMode_mkCtag]
  show (match param.toNat with
    | 1 => _ | 2 => _ | 3 => _ | 4 => _ | 5 => _ | 6 => _ | 7 => _ | 8 => _ | 9 => _
    | _ => Except.ok (Instr.opcCalcSig param mode)) = _
  split
  all_goals first | rfl | omega

theorem decode_encode_wire (i : Instr) (h : i.space = .wire) (hw : WellFormed i = true) :
    decode .wire (encode i) = .ok i := by
  cases i
  case opcCalcSig => exact decode_opcCalcSig (Bool.not_eq_true' _ ▸ hw) _
  case opcSrd | opcSard | opcSawr | opcErase4k | opcErase32k | opcErase64k =>
    rw [encode, decode_le32, decodeWire, rd32_le32, ctagOpc_mkCtagAddr, ctagAddr_mkCtagAddr]
    rfl
  all_goals first | exact Space.noConfusion h | skip
  all_goals
    rw [encode, decode_le32, decodeWire, rd32_le32, ctagOpc_mkCtag, ctagParam_mkCtag, ctagMode_mkCtag]
    rfl

theorem decode_encode_bus (i : Instr) (h : i.space = .bus) : decode .bus (encode i) = .ok i := by
  cases i
  all_goals first | exact Space.noConfusion h | rfl

/-- Settles O7: each field of a word reads back, space by space. -/
theorem decodeInvertsEncode : Obligations.DecodeInvertsEncode := by
  unfold Obligations.DecodeInvertsEncode
  intro i hw
  cases h : i.space with
  | host => exact decode_encode_host i h
  | wire => exact decode_encode_wire i h hw
  | bus => exact decode_encode_bus i h

/-! ## From bytes to instructions and back -/

theorem mkCtag_fields (c : Word) : mkCtag (ctagOpc c) (ctagParam c) (ctagMode c) = c := by
  apply BitVec.eq_of_getLsbD_eq
  intro i hi
  simp only [mkCtag, ctagOpc, ctagParam, ctagMode, BitVec.getLsbD_append, BitVec.getLsbD_extractLsb']
  by_cases h1 : i < 8
  · simp [h1]
  · by_cases h2 : i < 16
    · simp [h1, show i - 8 < 8 by omega, show 8 + (i - 8) = i by omega]
    · simp [h1, show ¬ i - 8 < 8 by omega, show i - 8 - 8 < 16 by omega, show 16 + (i - 8 - 8) = i by omega]

theorem mkCtagAddr_fields (c : Word) : mkCtagAddr (ctagOpc c) (ctagAddr c) = c := by
  apply BitVec.eq_of_getLsbD_eq
  intro i hi
  simp only [mkCtagAddr, ctagOpc, ctagAddr, BitVec.getLsbD_append, BitVec.getLsbD_extractLsb']
  by_cases h1 : i < 8
  · simp [h1]
  · simp [h1, show i - 8 < 24 by omega, show 8 + (i - 8) = i by omega]

theorem byte_eq_ofNat {b : Byte} {n : Nat} (h : b.toNat = n) : b = BitVec.ofNat 8 n := by
  rw [← h, BitVec.ofNat_toNat, BitVec.setWidth_eq]

/-- A descriptor that decodes is a host operation. -/
theorem decodeHost_ok {bs : Bytes} {i : Instr} (h : decodeHost bs = .ok i) :
    WellFormed i = true ∧ i.space = .host := by
  unfold decodeHost at h
  extract_lets at h
  split at h
  case h_10 =>
    split at h
    all_goals (cases h; exact ⟨rfl, rfl⟩)
  all_goals (cases h; try exact ⟨rfl, rfl⟩)

/-- A CTAG that decodes is a wire command, and the command has this CTAG. -/
theorem decodeWire_ok {bs : Bytes} {i : Instr} (h : decodeWire bs = .ok i) :
    WellFormed i = true ∧ i.space = .wire ∧ encode i = le32 (rd32 bs) := by
  unfold decodeWire at h
  extract_lets c opcode param mode addr24 at h
  have hc : mkCtag opcode param mode = c := mkCtag_fields c
  have hca : mkCtagAddr opcode addr24 = c := mkCtagAddr_fields c
  split at h
  case h_4 e =>
    rw [byte_eq_ofNat e] at hc
    split at h
    case h_10 =>
      cases h
      refine ⟨?_, rfl, congrArg le32 hc⟩
      simp only [WellFormed, Bool.not_eq_true', ← Bool.not_eq_true, isDataType_iff]
      simp only [imp_false] at *
      omega
    all_goals
      rename_i e'
      rw [byte_eq_ofNat e'] at hc
      cases h
      exact ⟨rfl, rfl, congrArg le32 hc⟩
  case h_5 e | h_6 e | h_7 e | h_16 e | h_17 e | h_18 e =>
    rw [byte_eq_ofNat e] at hca
    cases h
    exact ⟨rfl, rfl, congrArg le32 hca⟩
  case h_21 => cases h
  all_goals
    rename_i e
    rw [byte_eq_ofNat e] at hc
    cases h
    exact ⟨rfl, rfl, congrArg le32 hc⟩

/-- A bus opcode that decodes is the code of its command. -/
theorem decodeBus_ok {v : Byte} {i : Instr} (h : decodeBus v = .ok i) :
    WellFormed i = true ∧ i.space = .bus ∧ encode i = [v] := by
  unfold decodeBus at h
  split at h
  case h_7 => cases h
  all_goals
    rename_i e
    cases h
    exact ⟨rfl, rfl, congrArg (fun b => [b]) (BitVec.eq_of_toNat_eq e.symm)⟩

/-- What decodes is well-formed and of its space; a CTAG or bus opcode is the encoding of what it decodes to. -/
theorem decode_ok {sp : Space} {bs : Bytes} {i : Instr} (h : decode sp bs = .ok i) :
    WellFormed i = true ∧ i.space = sp ∧ (sp ≠ .host → encode i = bs) := by
  cases sp with
  | host =>
    simp only [decode] at h
    split at h
    · obtain ⟨hw, hs⟩ := decodeHost_ok h
      exact ⟨hw, hs, fun hne => absurd rfl hne⟩
    · cases h
  | wire =>
    simp only [decode] at h
    split at h
    · rename_i hlen
      obtain ⟨hw, hs, he⟩ := decodeWire_ok h
      obtain ⟨a, b, c, d, rfl⟩ := List.length_eq_four.1 hlen
      exact ⟨hw, hs, fun _ => he.trans (le32_rd32 a b c d)⟩
    · cases h
  | bus =>
    simp only [decode] at h
    split at h
    · obtain ⟨hw, hs, he⟩ := decodeBus_ok h
      exact ⟨hw, hs, fun _ => he⟩
    · cases h

/-- Settles O8, from what each decoder accepts. -/
theorem encodeInvertsDecode : Obligations.EncodeInvertsDecode := by
  unfold Obligations.EncodeInvertsDecode
  refine ⟨fun sp bs i h => ?_, fun bs i h => ?_⟩
  · obtain ⟨hw, hs, _⟩ := decode_ok h
    exact ⟨hw, hs⟩
  · rcases h with h | h
    · exact (decode_ok h).2.2 (by decide)
    · exact (decode_ok h).2.2 (by decide)

end Sys2Proof

/-! # The invariant of the block, and other properties that every operation keeps

`Stable` and `StableAll` say what a property must allow for every operation to keep it. The clauses of the invariant
without the one on `seq` and `atomic` are such a property, and so is whatever reads only registers that the operations
leave alone. -/

namespace Sys2Proof.Machine

-- One proof at a time: proofs elaborated in parallel take a thread each, and the check bounds their memory.
set_option Elab.async false

open Config (Params Event)

/-! ## The invariant while an operation runs -/

/-- The clauses of the invariant that hold also while an operation runs, of a block with the parameters `cfg`. -/
structure Sound (cfg : Params) (s : State) : Prop where
  params : s.cfg = cfg
  counter : s.mc.inSync = true → mcValid s.mc.tc s.mc.dmc = true
  kid : s.kid = Config.kidInvalid ∨ kidValid cfg.numSections s.kid = true
  masked : ∀ x a, Event.exchange x a ∈ s.env.trace → x.masked = true
  sessionKey : s.sessionKey.length = cfg.keyBytes
  ctx : ∀ i, (s.ctx i).sized cfg
  wid : s.conf.wid.length = cfg.widBytes
  sigOut : s.out.sigOut.length = Config.sigBytes
  sections : s.conf.paEnabled.toNat < 2 ^ cfg.numSections

theorem inv_iff (s : State) : Inv s ↔ paramsWf s.cfg = true ∧ Sound s.cfg s
    ∧ ((s.seq = .idle ∧ s.atomic = 0) ∨ ((s.seq = .wait ∨ s.seq = .poll) ∧ s.atomic = 1)) := by
  constructor
  · intro h
    refine ⟨h.params, ⟨rfl, h.counter, h.kid, h.masked, h.keys.1, ?_, h.widths.1, h.widths.2, h.sections⟩, h.port⟩
    intro i
    cases i
    · exact h.keys.2.1
    · exact h.keys.2.2
  · rintro ⟨hp, h, hport⟩
    exact ⟨hp, h.counter, h.kid, hport, h.masked, ⟨h.sessionKey, h.ctx false, h.ctx true⟩, ⟨h.wid, h.sigOut⟩, h.sections⟩

theorem mcValid_tick {tc dmc : Word} (h : mcValid tc dmc = true) (ht : tc.toNat + 1 < Config.tcLim) :
    mcValid (tc + 1) dmc = true := by
  rw [mcValid_iff] at h ⊢
  have hlim : Config.tcLim = 0xFFFFFFFF := rfl
  have h1 : (tc + 1).toNat = tc.toNat + 1 := by
    rw [BitVec.toNat_add]
    exact Nat.mod_eq_of_lt (by simp; omega)
  omega

theorem sized_key {cfg : Params} {c : Ctx} (h : c.sized cfg) {k : Bytes} (hk : k.length = cfg.keyBytes) :
    ({ c with key := k } : Ctx).sized cfg := ⟨hk, h.2⟩

theorem Sound.withKeys {cfg : Params} {s : State} (h : Sound cfg s) {k : Bytes} (hk : k.length = cfg.keyBytes) :
    Sound cfg (s.withKeys k) :=
  { h with
    sessionKey := hk
    ctx := fun i => by
      cases i
      · exact sized_key (h.ctx false) hk
      · exact sized_key (h.ctx true) hk }

theorem sound_stable (cfg : Params) : Stable (Sound cfg) where
  seq _ _ h := { h with }
  ssrOut _ _ h := { h with }
  ssr _ _ h := { h with }
  inFlight _ _ h := { h with }
  atomic _ _ h := { h with }
  exchanged s op addr sz w d n h ha := { h with
    masked := fun x a hx => by
      rcases List.mem_cons.1 hx with e | hx
      · cases e
        exact bne_iff_ne.2 ha
      · exact h.masked x a hx }
  logEvent s e he h := { h with
    masked := fun x a hx => by
      rcases List.mem_cons.1 hx with e' | hx
      · exact absurd e'.symm (he x a)
      · exact h.masked x a hx }
  distrust _ h := { h with counter := fun hf => Bool.noConfusion hf }
  close s h := { h.withKeys (k := wiped s.cfg) (by rw [wiped, List.length_replicate, h.params]) with kid := .inl rfl }
  rbuf _ _ h := { h with }
  sigOut _ _ hb h := { h with sigOut := hb }
  ctagOut _ _ h := { h with }
  begun _ h := { h with sigOut := length_fit _ _ }
  prng _ _ h := { h with }
  counter _ _ _ _ hv h := { h with counter := fun _ => hv }
  tick _ hi hl h := { h with counter := fun _ => mcValid_tick (h.counter hi) hl }
  ctxIdx _ _ h := { h with }
  ctx s i c hk hs hc hd h := by
    have hold := h.ctx i
    rw [← h.params] at hold
    have hnew : c.sized s.cfg := ⟨hk ▸ hold.1, hs hold.2.1, hc hold.2.2.1, hd hold.2.2.2⟩
    rw [h.params] at hnew
    cases i
    · exact { h with ctx := fun j => by cases j; exacts [hnew, h.ctx true] }
    · exact { h with ctx := fun j => by cases j; exacts [h.ctx false, hnew] }

theorem toNat_and_lt {a b : BitVec 16} {n : Nat} (h : a.toNat < n) : (a &&& b).toNat < n := by
  rw [BitVec.toNat_and]
  exact Nat.lt_of_le_of_lt Nat.and_le_left h

theorem sound_stableAll (s : State) : StableAll (Sound s.cfg) s s.cfg.keyBytes where
  stable := sound_stable s.cfg
  lock _ _ h := { h with }
  kid k hk _ h := { h with kid := .inr hk }
  noKid _ h := { h with kid := .inl rfl }
  pa _ _ h := { h with sections := toNat_and_lt h.sections }
  width _ h := by rw [h.params]
  keys _ _ hb h := h.withKeys hb

/-! ## The invariant after a step -/

/-- After the reset input the invariant holds, if the record of the ports was in order. -/
theorem inv_resetWith {cfg : Params} {env : Env} (hp : paramsWf cfg = true)
    (hm : ∀ x a, Event.exchange x a ∈ env.trace → x.masked = true) : Inv (State.resetWith cfg env) := by
  have hctx : (Ctx.reset cfg).sized cfg := by
    simp [Ctx.sized, Ctx.reset, wiped]
  refine ⟨hp, fun h => Bool.noConfusion h, .inl rfl, .inl ⟨rfl, rfl⟩, hm, ⟨?_, hctx, hctx⟩, ⟨?_, rfl⟩, ?_⟩
  · exact List.length_replicate
  · exact List.length_replicate
  · exact Nat.two_pow_pos _

theorem inv_blockReset {s : State} (hp : paramsWf s.cfg = true) (h : Sound s.cfg s) : Inv s.blockReset :=
  inv_resetWith hp h.masked

/-- However a request to the idle block ends, the invariant holds. -/
theorem inv_of_ends {cfg : Params} {t : State} (hp : paramsWf cfg = true) (h : Ends (Sound cfg) 0 (.next t)) : Inv t := by
  rcases h with ⟨st, u, rfl, hu, ha⟩ | ⟨ht, ha, hq⟩ | ⟨u, rfl, hu⟩
  · have hc := hu.params
    subst hc
    exact (inv_iff _).2 ⟨hp, { hu with }, .inl ⟨rfl, ha⟩⟩
  · have hc := ht.params
    subst hc
    exact (inv_iff _).2 ⟨hp, ht, .inr ⟨hq, ha⟩⟩
  · have hc := hu.params
    subst hc
    exact inv_blockReset hp hu

/-- A write of `CFG_PA` has no bit beyond the sections (rule R91). -/
theorem paEnabled_writeCfgPa_lt (v : BitVec 16) {n : Nat} (h : n ≤ 16) :
    (v &&& BitVec.ofNat 16 (2 ^ n - 1)).toNat < 2 ^ n := by
  have hpos := Nat.two_pow_pos n
  have hle : 2 ^ n ≤ 2 ^ 16 := Nat.pow_le_pow_right (by decide) h
  rw [BitVec.toNat_and, BitVec.toNat_ofNat, Nat.mod_eq_of_lt (by omega)]
  exact Nat.lt_of_le_of_lt Nat.and_le_right (by omega)

theorem numSections_le {p : Params} (h : paramsWf p = true) : p.numSections ≤ 16 :=
  ((paramsWf_iff p).1 h).2.2.2.2.2.2.2.2.2.2.1

theorem whenIdle_cases {C : State → Prop} {f : State → State} {s : State} (hf : C (f s)) (hs : C s) :
    C (whenIdle f s) := by
  unfold whenIdle
  split
  · exact hf
  · exact hs

/-- What one host event does keeps the invariant. -/
theorem inv_hostStep {e : HostEvent} {s t : State} (h : Inv s) (hr : hostStep e s = .next t) : Inv t := by
  obtain ⟨hp, hs, hport⟩ := (inv_iff s).1 h
  cases e
  case writeCmd | writeWbuf | writeKbuf | storeKey =>
    cases hr
    exact (inv_iff _).2 ⟨hp, { hs with }, hport⟩
  case writeCfgBus v =>
    cases hr
    exact whenIdle_cases ((inv_iff _).2 ⟨hp, { hs with }, hport⟩) h
  case writeCfgPa v =>
    cases hr
    exact whenIdle_cases ((inv_iff _).2
      ⟨hp, { hs with sections := paEnabled_writeCfgPa_lt _ (numSections_le hp) }, hport⟩) h
  case writeCfgWid b =>
    cases hr
    exact whenIdle_cases ((inv_iff _).2 ⟨hp, { hs with wid := length_fit _ _ }, hport⟩) h
  case reset =>
    cases hr
    exact inv_blockReset hp hs
  case request sp =>
    unfold hostStep at hr
    dsimp only at hr
    split at hr
    · rename_i hready
      have ha : s.atomic = 0 := by
        rcases hport with ⟨_, ha⟩ | ⟨hq | hq, _⟩
        · exact ha
        all_goals exact absurd ((portReady_iff s).1 hready) (by rw [hq]; exact Phase.noConfusion)
      have hl : Sound (latchOperands s).cfg (latchOperands s) := { hs with }
      have hends := (sound_stableAll (latchOperands s)).serve (sp := sp) hl
      rw [hr, show (latchOperands s).atomic = 0 from ha] at hends
      exact inv_of_ends hp hends
    · cases hr
      exact h

/-- Settles O56: between operations by the event, within one because `Sound` is stable. -/
theorem stepKeepsInvariant : Obligations.StepKeepsInvariant := by
  unfold Obligations.StepKeepsInvariant
  intro s t h hr
  cases hh : s.env.host with
  | nil =>
    simp only [step, hh] at hr
    cases hr
    exact h
  | cons e rest =>
    rw [step_of_queued hh] at hr
    obtain ⟨hp, hs, hport⟩ := (inv_iff s).1 h
    exact inv_hostStep ((inv_iff (s.dequeue rest)).2 ⟨hp, { hs with }, hport⟩) hr

/-- Settles O57: nothing is on record at reset. -/
theorem resetMeetsInvariant : Obligations.ResetMeetsInvariant :=
  inv_resetWith (by decide) fun _ _ h => absurd h List.not_mem_nil

end Sys2Proof.Machine

/-! # What no operation changes: parameters, the record of the ports, the bus lock, `kid` -/

namespace Sys2Proof.Machine

-- One proof at a time: proofs elaborated in parallel take a thread each, and the check bounds their memory.
set_option Elab.async false

open Config (Event)

/-! ## Properties of registers that the operations leave alone -/

/-- A property that only the parameters, the bus lock and the configuration registers decide is stable: no procedure
writes them but those of the session and of the connection. -/
theorem stable_of_frame {P : State → Prop}
    (h : ∀ s t : State, t.cfg = s.cfg → t.busIsLocked = s.busIsLocked → t.conf = s.conf → P s → P t) : Stable P where
  seq s _ := h s _ rfl rfl rfl
  ssrOut s _ := h s _ rfl rfl rfl
  ssr s _ := h s _ rfl rfl rfl
  inFlight s _ := h s _ rfl rfl rfl
  atomic s _ := h s _ rfl rfl rfl
  exchanged s _ _ _ _ _ _ hs _ := h s _ rfl rfl rfl hs
  logEvent s _ _ := h s _ rfl rfl rfl
  distrust s := h s _ rfl rfl rfl
  close s := h s _ rfl rfl rfl
  rbuf s _ := h s _ rfl rfl rfl
  sigOut s _ _ := h s _ rfl rfl rfl
  ctagOut s _ := h s _ rfl rfl rfl
  begun s := h s _ rfl rfl rfl
  prng s _ := h s _ rfl rfl rfl
  counter s _ _ _ _ := h s _ rfl rfl rfl
  tick s _ _ := h s _ rfl rfl rfl
  ctxIdx s _ := h s _ rfl rfl rfl
  ctx s i c _ _ _ _ := h s _ (withCtx_cfg s i c) (withCtx_busIsLocked s i c) (withCtx_conf s i c)

/-- Every operation keeps the parameters. -/
theorem cfg_stableAll (s : State) : StableAll (fun t => t.cfg = s.cfg) s s.cfg.keyBytes where
  stable := stable_of_frame fun _ _ hc _ _ h => hc.trans h
  lock _ _ h := h
  kid _ _ _ h := h
  noKid _ h := h
  pa _ _ h := h
  width _ h := by rw [h]
  keys _ _ _ h := h

/-- Settles O58: an operation could only fault under parameters that break their constraints. -/
theorem everyInstructionGoesOn : Obligations.EveryInstructionGoesOn := by
  unfold Obligations.EveryInstructionGoesOn
  intro i s hp
  have h := (cfg_stableAll s).exec (i := i) rfl
  cases hr : exec i s with
  | next t => exact ⟨t, rfl⟩
  | fault f =>
    rw [hr] at h
    obtain ⟨u, hu, hn⟩ := h
    exact absurd (hu ▸ hp) hn
  | refused r =>
    rw [hr] at h
    exact h.elim

/-! ## The record of the ports -/

/-- The parameters are `cfg`, and what was on record before still is, under what came after it. -/
structure Extends (cfg : Config.Params) (tr : List Event) (t : State) : Prop where
  cfg : t.cfg = cfg
  trace : ∃ new, t.env.trace = new ++ tr

theorem Extends.cons {cfg : Config.Params} {tr : List Event} {s t : State} (h : Extends cfg tr s) (hc : t.cfg = s.cfg)
    {e : Event} (ht : t.env.trace = e :: s.env.trace) : Extends cfg tr t := by
  obtain ⟨new, hn⟩ := h.trace
  exact ⟨hc.trans h.cfg, e :: new, by rw [ht, hn, List.cons_append]⟩

theorem extends_stable (cfg : Config.Params) (tr : List Event) : Stable (Extends cfg tr) where
  seq _ _ h := { h with }
  ssrOut _ _ h := { h with }
  ssr _ _ h := { h with }
  inFlight _ _ h := { h with }
  atomic _ _ h := { h with }
  exchanged _ _ _ _ _ _ _ h _ := h.cons rfl rfl
  logEvent _ _ _ h := h.cons rfl rfl
  distrust _ h := { h with }
  close _ h := { h with }
  rbuf _ _ h := { h with }
  sigOut _ _ _ h := { h with }
  ctagOut _ _ h := { h with }
  begun _ h := { h with }
  prng _ _ h := { h with }
  counter _ _ _ _ _ h := { h with }
  tick _ _ _ h := { h with }
  ctxIdx _ _ h := { h with }
  ctx _ i _ _ _ _ _ h := by cases i <;> exact { h with }

theorem extends_stableAll (s : State) : StableAll (Extends s.cfg s.env.trace) s s.cfg.keyBytes where
  stable := extends_stable s.cfg s.env.trace
  lock _ _ h := { h with }
  kid _ _ _ h := { h with }
  noKid _ h := { h with }
  pa _ _ h := { h with }
  width _ h := by rw [h.cfg]
  keys _ _ _ h := { h with }

/-- However an operation ends, it ends in a state that extends the one it began in. -/
theorem extends_of_ends {cfg : Config.Params} {tr : List Event} {base : Nat} {t : State}
    (h : Ends (Extends cfg tr) base (.next t)) : Extends cfg tr t := by
  rcases h with ⟨st, u, rfl, hu, _⟩ | ⟨ht, _⟩ | ⟨u, rfl, hu⟩
  · exact { hu with }
  · exact ht
  · exact { hu with }

theorem extends_self (s : State) : Extends s.cfg s.env.trace s := ⟨rfl, [], rfl⟩

theorem extends_hostStep {e : HostEvent} {s t : State} (h : hostStep e s = .next t) : Extends s.cfg s.env.trace t := by
  have hs := extends_self s
  cases e
  case writeCmd | writeWbuf | writeKbuf | storeKey | reset =>
    cases h
    exact { hs with }
  case writeCfgBus | writeCfgPa | writeCfgWid =>
    cases h
    exact whenIdle_cases { hs with } hs
  case request sp =>
    unfold hostStep at h
    dsimp only at h
    split at h
    · have hl : Extends s.cfg s.env.trace (latchOperands s) := { hs with }
      exact extends_of_ends (h ▸ (extends_stableAll (latchOperands s)).serve (sp := sp) hl)
    · cases h
      exact hs

/-- Settles O59, by what each host event does. -/
theorem parametersAndHistoryStay : Obligations.ParametersAndHistoryStay := by
  unfold Obligations.ParametersAndHistoryStay
  intro s t h
  cases hh : s.env.host with
  | nil =>
    simp only [step, hh] at h
    cases h
    exact ⟨rfl, [], rfl⟩
  | cons e rest =>
    rw [step_of_queued hh] at h
    obtain ⟨hc, ht⟩ := extends_hostStep h
    exact ⟨hc, ht⟩

/-! ## `kid` (rule R25) -/

/-- `kid` is `k`, or no session is open. -/
def KidOrClosed (k : Byte) (t : State) : Prop := t.kid = k ∨ t.kid = Config.kidInvalid

theorem kidOrClosed_of_kid {k : Byte} {s t : State} (h : t.kid = s.kid) (hs : KidOrClosed k s) : KidOrClosed k t := by
  rwa [KidOrClosed, h]

theorem kidOrClosed_stable (k : Byte) : Stable (KidOrClosed k) where
  seq _ _ h := h
  ssrOut _ _ h := h
  ssr _ _ h := h
  inFlight _ _ h := h
  atomic _ _ h := h
  exchanged _ _ _ _ _ _ _ h _ := h
  logEvent _ _ _ h := h
  distrust _ h := h
  close _ _ := .inr rfl
  rbuf _ _ h := h
  sigOut _ _ _ h := h
  ctagOut _ _ h := h
  begun _ h := h
  prng _ _ h := h
  counter _ _ _ _ _ h := h
  tick _ _ _ h := h
  ctxIdx _ _ h := h
  ctx s i c _ _ _ _ := kidOrClosed_of_kid (withCtx_kid s i c)

theorem kidOrClosed_of_ends {k : Byte} {base : Nat} {t : State} (h : Ends (KidOrClosed k) base (.next t)) :
    KidOrClosed k t := by
  rcases h with ⟨st, u, rfl, hu, _⟩ | ⟨ht, _⟩ | ⟨u, rfl, _⟩
  · exact hu
  · exact ht
  · exact .inr rfl

/-- Settles O33: no operation but the two session operations has a procedure that writes another KID. -/
theorem onlySessionOpsChangeKid : Obligations.OnlySessionOpsChangeKid := by
  unfold Obligations.OnlySessionOpsChangeKid
  intro i s t h hopen hclose
  have S := kidOrClosed_stable s.kid
  have hs : KidOrClosed s.kid s := .inl rfl
  refine kidOrClosed_of_ends (base := s.atomic) (h ▸ ?_)
  by_cases hi : touchesSession i = false
  · exact S.exec hi hs rfl
  · cases i
    case tmConnect => exact S.execTmConnect (fun _ _ h => h) hs rfl
    case tmDisconnect => exact S.execTmDisconnect (fun _ _ h => h) hs rfl
    case sessionCloseRevoke => exact S.execSessionCloseRevoke (fun _ _ => .inr rfl) (fun _ _ h => h) hs rfl
    case sessionOpen => exact absurd rfl (hopen _ _ _ _)
    case sessionClose => exact absurd rfl (hclose _)
    all_goals exact absurd rfl hi

/-! ## The bus lock (rule R270) -/

/-- Only the two connection operations change the bus lock, but for the reset of the block. -/
theorem busIsLocked_exec {i : Instr} {s t : State} (h : exec i s = .next t) (hc : i ≠ .tmConnect)
    (hd : i ≠ .tmDisconnect) : t.busIsLocked = s.busIsLocked ∨ ∃ u : State, t = u.blockReset := by
  have S : Stable (fun t => t.busIsLocked = s.busIsLocked ∧ t.cfg.keyBytes = s.cfg.keyBytes) :=
    stable_of_frame fun _ _ e1 e2 _ h => ⟨e2.trans h.1, e1 ▸ h.2⟩
  have hs : s.busIsLocked = s.busIsLocked ∧ s.cfg.keyBytes = s.cfg.keyBytes := ⟨rfl, rfl⟩
  have hends : Ends (fun t => t.busIsLocked = s.busIsLocked ∧ t.cfg.keyBytes = s.cfg.keyBytes) s.atomic (exec i s) := by
    by_cases hi : touchesSession i = false
    · exact S.exec hi hs rfl
    · cases i
      case tmConnect => exact absurd rfl hc
      case tmDisconnect => exact absurd rfl hd
      case sessionOpen => exact S.execSessionOpen (fun _ _ h => h) (fun _ h => h.2) (fun _ _ _ h => h) hs rfl
      case sessionClose => exact S.execSessionClose (fun _ _ h => h) (fun _ h => h.2) hs rfl
      case sessionCloseRevoke => exact S.execSessionCloseRevoke (fun _ h => h) (fun _ _ h => h) hs rfl
      all_goals exact absurd rfl hi
  rw [h] at hends
  rcases hends with ⟨st, u, rfl, hu, _⟩ | ⟨ht, _⟩ | ⟨u, rfl, _⟩
  · exact .inl hu.1
  · exact .inl ht.1
  · exact .inr ⟨u, rfl⟩

end Sys2Proof.Machine

/-! # The boundary of an operation: connection check, operand checks (rules R281, R342, R345, R347) -/

namespace Sys2Proof.Machine

-- One proof at a time: proofs elaborated in parallel take a thread each, and the check bounds their memory.
set_option Elab.async false

variable {α : Type}

/-! ## Going through the checks -/

/-- A check that holds is passed. -/
theorem runOp_passes {c : Bool} {st : Status} {f : Unit → M Unit} {s : State} (h : c = true) :
    runOp (require c st >>= f) s = runOp (f ()) s := by
  subst h
  rfl

/-- A check that fails refuses the operation. -/
theorem runOp_refused {c : Bool} {st : Status} {f : Unit → M Unit} {s : State} (h : c = false) :
    runOp (require c st >>= f) s = .next { s with status := st, seq := .idle } := by
  subst h
  rfl

/-- An operation whose first procedure returns goes on. -/
theorem runOp_bind {x : M α} {f : α → M Unit} {s t : State} {a : α} (h : x.run s = .ok a t) :
    runOp (x >>= f) s = runOp (f a) t := by
  rw [runOp_eq, runOp_eq, bind_ok h]

/-- An operation whose first procedure raises a status completes with it. -/
theorem runOp_bind_raise {x : M α} {f : α → M Unit} {s t : State} {st : Status} (h : x.run s = .error (.raise st) t) :
    runOp (x >>= f) s = .next (complete st t) := runOp_raise (bind_error h)

/-- Past its checks an operation begins. -/
theorem runOp_begins {f : Unit → M Unit} {s : State} : runOp (unspecifyResults >>= f) s = runOp (f ()) s.begun := rfl

/-! ## Connection -/

theorem run_testAndSet (s : State) :
    (masked (do
      let t ← get
      require (!t.busIsLocked) .deviceBusy
      setBusIsLocked true)).run s =
      if s.busIsLocked then .error (.raise .deviceBusy) s else .ok () { s with busIsLocked := true } := by
  rw [run_masked]
  rcases Bool.eq_false_or_eq_true s.busIsLocked with hb | hb
  · simp [hb]
    rw [← hb]
  · simp [hb, setBusIsLocked]

theorem run_testAndClear (s : State) :
    (masked (do
      let t ← get
      require t.busIsLocked .notConnected
      setBusIsLocked false)).run s =
      if s.busIsLocked then .ok () { s with busIsLocked := false } else .error (.raise .notConnected) s := by
  rw [run_masked]
  rcases Bool.eq_false_or_eq_true s.busIsLocked with hb | hb
  · simp [hb, setBusIsLocked]
  · simp [hb]
    rw [← hb]

/-- Settles O9: the lock decides the test in the masked section. -/
theorem connectAndDisconnectRun : Obligations.ConnectAndDisconnectRun := by
  unfold Obligations.ConnectAndDisconnectRun
  intro s
  have hset := run_testAndSet s
  have hclear := run_testAndClear s
  by_cases hb : s.busIsLocked = true
  · rw [if_pos hb] at hset hclear ⊢
    rw [if_pos hb]
    exact ⟨runOp_bind_raise hset, runOp_bind hclear⟩
  · rw [if_neg hb] at hset hclear ⊢
    rw [if_neg hb]
    exact ⟨runOp_bind hset, runOp_bind_raise hclear⟩

/-- Settles O13. -/
theorem lastStatusIsSnapshot : Obligations.LastStatusIsSnapshot := fun s => runOp_ok (x := do
  unspecifyResults
  setSsrOut s.ssr) rfl

/-- A connection check of the operation's own refuses it. -/
theorem exec_unlocked_refused {i : Instr} {s : State} (hb : s.busIsLocked = false) (hi : checksConnection i = true) :
    exec i s = .next { s with status := .notConnected, seq := .idle } := by
  cases i
  all_goals first
    | exact runOp_refused hb
    | exact Bool.noConfusion hi

/-- An operation that has begun in `s` met the connection check inside `Secure` (rule R281; log 9). -/
def State.unconnected (s : State) : State :=
  { s.begun with out := { s.begun.out with ssrOut := s.ssr }, status := .notConnected, seq := .idle }

/-- A transaction of an operation that has begun is refused while the bus is not locked. -/
theorem runOp_secureOrRaise_unlocked {s : State} {ctag : Word} {w : Bytes} {n : Nat} {b : Bool}
    {f : Option Bytes × Word → M Unit} (hb : s.busIsLocked = false) :
    runOp (unspecifyResults >>= fun _ => secureOrRaise ctag w n b >>= f) s = .next s.unconnected :=
  runOp_bind_raise (run_secureOrRaise_disconnected (s := s.begun) ctag w n b hb)

/-- The unsigned counter read while the bus is not locked. -/
theorem run_getMc_unlocked {s : State} (hb : s.busIsLocked = false) :
    getMc.run s = .error (.raise .notConnected) { s with out := { s.out with ssrOut := s.ssr } } := by
  simp only [getMc, M.bind_get]
  exact bind_error (run_secureOrRaise_disconnected _ _ _ _ hb)

theorem exec_getMcUnsigned_unlocked {s : State} (hb : s.busIsLocked = false) :
    exec .getMcUnsigned s = .next s.unconnected :=
  runOp_bind_raise (run_getMc_unlocked (s := s.begun) hb)

theorem exec_synchMc_unlocked {s : State} (hb : s.busIsLocked = false) (hm : s.mc.inSync = false) :
    exec .synchMc s = .next s.unconnected := by
  refine runOp_raise (t := { s.begun with seq := .sync, out := { s.begun.out with ssrOut := s.ssr } }) ?_
  simp only [bind_unspecifyResults, synchMc, M.bind_get, begun_mc, hm, Bool.false_eq_true, if_false, bind_phase]
  exact bind_error (run_getMc_unlocked (s := { s.begun with seq := .sync }) hb)

/-- The connection check inside `Secure` refuses the operation. -/
theorem exec_unlocked_unconnected {i : Instr} {s : State} (hb : s.busIsLocked = false) (hi : reachesSecure i = true) :
    exec i s = .next s.unconnected := by
  cases i
  case getMcUnsigned => exact exec_getMcUnsigned_unlocked hb
  all_goals first
    | exact runOp_secureOrRaise_unlocked hb
    | exact Bool.noConfusion hi

/-- Settles O11. -/
theorem disconnectedOperationsRefused : Obligations.DisconnectedOperationsRefused := by
  unfold Obligations.DisconnectedOperationsRefused
  intro i s hb
  refine ⟨exec_unlocked_refused hb, ?_⟩
  rintro (hi | ⟨rfl, hm⟩)
  · exact exec_unlocked_unconnected hb hi
  · exact exec_synchMc_unlocked hb hm

/-- Settles O10: the start, the two transitions and the refusals, and `busIsLocked_exec` for everything else. -/
theorem connectionFramingMachine : Obligations.ConnectionFramingMachine := by
  unfold Obligations.ConnectionFramingMachine
  refine ⟨rfl, fun s hb => ?_, fun s hb => ?_, fun i s hi hb => ?_, fun i s t => busIsLocked_exec⟩
  · obtain ⟨hc, _⟩ := connectAndDisconnectRun s
    rw [hb] at hc
    exact ⟨_, hc, rfl, rfl⟩
  · obtain ⟨_, hd⟩ := connectAndDisconnectRun s
    rw [hb] at hd
    exact ⟨_, hd, rfl, rfl⟩
  · rcases hi with hi | hi
    · exact ⟨_, exec_unlocked_refused hb hi, rfl, hb⟩
    · exact ⟨_, exec_unlocked_unconnected hb hi, rfl, hb⟩

/-! ## Operands -/

/-- The operand checks of each operation, as it makes them (rules R114, R345). -/
def operandsPass (s : State) : Instr → Bool
  | .tmStandard _ _ hasAddr addr _ _ _ _ _ => standardAddrOk hasAddr addr
  | .sessionOpen kid hasKey _ _ => kidOk s kid && (openKey s kid hasKey).isSome
  | .sessionCloseRevoke kid => kidOk s kid && kidIsSection kid
  | .sessionClose kid => kidOk s kid
  | .signData _ _ size => dataFits size
  | .prepareSignedSetter encData _ _ size => dataFits size && encryptable encData size
  | .executeSignedSetter encData _ _ size _ => dataFits size && encryptable encData size
  | .setKey kid size => kidOk s kid && dataFits size
  | .setSuid size | .setGmc size | .setGmt size | .setAwdt size | .setRstResp size | .setAclr size =>
    true && dataFits size
  | .setScr _ _ size sect => sectionOk s sect && dataFits size
  | .getWid size => dataFits size && isDataType 1 && sectionOk s 0
  | .getSuid size => dataFits size && isDataType 2 && sectionOk s 0
  | .getSsrSigned size => dataFits size && isDataType 3 && sectionOk s 0
  | .getGmc size => dataFits size && isDataType 4 && sectionOk s 0
  | .getGmt size => dataFits size && isDataType 5 && sectionOk s 0
  | .getAwdt size => dataFits size && isDataType 6 && sectionOk s 0
  | .getHwVer size => dataFits size && isDataType 8 && sectionOk s 0
  | .getMcSigned size => dataFits size && isDataType 9 && sectionOk s 0
  | .getScr size sect => dataFits size && isDataType 7 && sectionOk s sect
  | .calcSig size sect dtype => dataFits size && isDataType dtype && sectionOk s sect
  | .srd addr | .sard addr | .serase4k addr | .serase32k addr | .serase64k addr => addrOk addr
  | .srdMulti addr size | .sardMulti addr size => multiOk addr size
  | .sawr addr size => addrOk addr && decide (size.toNat = Config.pageSize)
  | .seraseSection sect => sectionOk s sect
  | _ => true

/-- An open finds a key: the explicit one, or one of the key manager for a section KID (rules R141, R143). -/
theorem openKey_isSome_iff (s : State) (k : Byte) (hasKey : Bool) : (openKey s k hasKey).isSome = true ↔
    ¬ (hasKey = false ∧ (2 ≤ k.toNat / 16 ∨ getKey s (k.toNat % 16) (k.toNat / 16 == 1) = none)) := by
  unfold openKey
  rw [kidIsSection_eq, kidIsFull_eq, toNat_kidSection]
  cases hasKey
  · by_cases h : k.toNat / 16 ≤ 1
    · simp [h, show ¬ 2 ≤ k.toNat / 16 by omega, Option.ne_none_iff_isSome]
    · simp [h, show 2 ≤ k.toNat / 16 by omega]
  · simp

/-- The checks pass exactly where no parameter rule is broken. -/
theorem operandsPass_iff (s : State) (i : Instr) : operandsPass s i = true ↔ ¬ badOperands s i := by
  cases i
  case sessionOpen =>
    rw [operandsPass, Bool.and_eq_true, kidOk, kidValid_iff, openKey_isSome_iff, ← not_or]
    rfl
  case calcSig size sect dtype =>
    have h0 : dtype = 0 ↔ dtype.toNat = 0 := by simp [← BitVec.toNat_inj]
    simp only [operandsPass, badOperands, Bool.and_eq_true, dataFits_iff, isDataType_iff, sectionOk_iff, h0, not_or]
    constructor
    · rintro ⟨⟨hl, hd⟩, hs⟩
      exact ⟨hl, by omega⟩
    · rintro ⟨hl, hs⟩
      exact ⟨⟨hl, by omega⟩, by omega⟩
  case sawr size =>
    simp only [operandsPass, badOperands, Bool.and_eq_true, addrOk_iff, not_or, not_not]
    exact and_congr_right fun _ => decide_eq_true_iff
  case getWid | getSuid | getSsrSigned | getGmc | getGmt | getAwdt | getHwVer | getMcSigned =>
    simp [operandsPass, badOperands, dataFits_iff, isDataType_iff, sectionOk_iff, Nat.pos_iff_ne_zero]
  all_goals
    simp [operandsPass, badOperands, dataFits_iff, isDataType_iff, sectionOk_iff, encryptable_iff,
      standardAddrOk_iff, addrOk_iff, multiOk_iff, kidOk, kidValid_iff, kidIsSection_eq, not_or]

/-- Past the connection check, operands that break a rule refuse the operation. -/
theorem exec_refused_operands {i : Instr} {s : State} (hp : operandsPass s i = false)
    (hc : checksConnection i = true → s.busIsLocked = true) :
    exec i s = .next { s with status := .parameterErr, seq := .idle } := by
  cases i
  case sessionOpen kid hasKey _ _ =>
    refine (runOp_passes (hc rfl)).trans ?_
    cases hk : kidOk s kid
    · exact runOp_refused rfl
    · have ho : openKey s kid hasKey = none := by simpa [operandsPass, hk] using hp
      rw [ho]
      rfl
  case signData | prepareSignedSetter => exact runOp_refused hp
  all_goals first
    | exact (runOp_passes (hc rfl)).trans (runOp_refused hp)
    | exact Bool.noConfusion hp

/-- Settles O12. -/
theorem badOperandsRefused : Obligations.BadOperandsRefused := by
  unfold Obligations.BadOperandsRefused
  intro i s hbad hc
  exact exec_refused_operands (Bool.eq_false_iff.2 (mt (operandsPass_iff s i).1 (not_not.2 hbad))) hc

end Sys2Proof.Machine

/-! # The command port (rules R75, R91, R114, R340, R380) -/

namespace Sys2Proof.Machine

-- One proof at a time: proofs elaborated in parallel take a thread each, and the check bounds their memory.
set_option Elab.async false

open Config (Answer)

/-! ## Reset and issue -/

/-- Settles O1: the reset event resets the registers and leaves the environment. -/
theorem blockResetValues : Obligations.BlockResetValues := by
  unfold Obligations.BlockResetValues
  intro s rest h
  refine ⟨_, step_of_queued h, rfl, ?_⟩
  simp only [List.mem_cons, List.not_mem_nil, or_false, forall_eq_or_imp, forall_eq]
  exact ⟨⟨rfl, rfl, rfl, rfl, rfl, rfl, rfl, rfl, rfl, rfl, rfl, rfl, rfl⟩,
    ⟨rfl, rfl, rfl, rfl, rfl, rfl, rfl, rfl, rfl, rfl, rfl, rfl, rfl⟩⟩

/-- A request to the idle block is served on the latched operands. -/
theorem step_request {s : State} {sp : Space} {rest : List HostEvent} (h : s.env.host = .request sp :: rest)
    (hq : s.seq = .idle) : step s = serve sp (latchOperands (s.dequeue rest)) := by
  rw [step_of_queued h]
  exact if_pos ((portReady_iff (s.dequeue rest)).2 hq)

/-- Settles O2. -/
theorem stepRunsDecodedInstruction : Obligations.StepRunsDecodedInstruction := by
  unfold Obligations.StepRunsDecodedInstruction
  intro s sp rest i h hq hd
  have hf : decode sp (fetch sp (latchOperands (s.dequeue rest))) = .ok i := hd
  rw [step_request h hq, serve, hf]
  rfl

/-- Settles O6. -/
theorem specWordsDecode : Obligations.SpecWordsDecode := by
  unfold Obligations.SpecWordsDecode
  decide

/-! ## Writes and reads -/

/-- `CFG_PA` takes one bit for each section there is (rule R91). -/
theorem getLsbD_writeCfgPa (v : Word) (n : Nat) {i : Nat} (hi : i < 16) :
    (v.extractLsb' 0 16 &&& BitVec.ofNat 16 (2 ^ n - 1)).getLsbD i = (v.getLsbD i && decide (i < n)) := by
  rw [BitVec.getLsbD_and, BitVec.getLsbD_extractLsb', BitVec.getLsbD_ofNat, Nat.testBit_two_pow_sub_one]
  simp [hi]

theorem readCfgBus_busMode (s : State) : (readCfgBus s).extractLsb' 0 8 = s.conf.busMode := by
  apply BitVec.eq_of_getLsbD_eq
  intro i hi
  rw [readCfgBus, BitVec.getLsbD_extractLsb', BitVec.getLsbD_setWidth, BitVec.getLsbD_append]
  simp [hi, show i < 32 by omega]

theorem readCfgBus_dtr (s : State) : (readCfgBus s).getLsbD 8 = s.conf.dtr := by
  rw [readCfgBus, BitVec.getLsbD_setWidth, BitVec.getLsbD_append]
  simp

theorem readCfgPa_bit (s : State) {i : Nat} (hi : i < 16) : (readCfgPa s).getLsbD i = s.conf.paEnabled.getLsbD i := by
  rw [readCfgPa, BitVec.getLsbD_setWidth, decide_eq_true (by omega), Bool.true_and]

theorem readStatus_of_idle {s : State} (h : s.seq = .idle) : readStatus s = statusCode s.cfg.status s.status :=
  if_pos ((portReady_iff s).2 h)

/-! ## The operand registers are not seen by any operation (rule R75) -/

section
variable {a : Inputs → Inputs}

theorem commutes_unspecifyResults : Commutes a id unspecifyResults := .modify fun _ => rfl

theorem commutes_deliver (r : Option Bytes) : Commutes a id (deliver r) := by
  cases r
  · exact .pure _
  · exact .modify fun _ => rfl

theorem commutes_transaction (ctag : Word) (w : Bytes) (n : Nat) (b : Bool) : Commutes a id (do
    unspecifyResults
    let (r, _) ← secureOrRaise ctag w n b
    deliver r) :=
  .bind commutes_unspecifyResults fun _ => .bind (.secureOrRaise _ _ _ _) fun _ => commutes_deliver _

theorem commutes_standard (op : Byte) (addr : Option Word) (sz : Byte) (w : Bytes) (n : Nat) (d : Byte) (we wb : Bool) :
    Commutes a id (standard op addr sz w n d we wb) :=
  .masked (.bind (.modify fun _ => rfl) fun _ => .look (fun _ => rfl) fun _ => .bind (.onlyIf (.bareExchange _))
    fun _ => .bind (.exchange _ _ _ _ _ _) fun _ => .bind (.onlyIf .busyWait) fun _ => .pure _)

/-- What a change of the operand registers makes of the outcome of an operation: nothing but that they are changed at
the end, unless the reset input cut it off. -/
def SameOutcome (a : Inputs → Inputs) (o o' : Host.Outcome State Fault Refusal) : Prop :=
  (∃ t, o = .next t ∧ o' = .next (t.mapPort a id))
    ∨ (∃ u : State, o = .next u.blockReset ∧ o' = .next u.blockReset) ∨ ∃ f, o = .fault f ∧ o' = .fault f

theorem sameOutcome_of {o o' : Host.Outcome State Fault Refusal} {x : M Unit} {s : State} (h : o = runOp x s)
    (h' : o' = runOp x (s.mapPort a id)) (hx : Commutes a id x) : SameOutcome a o o' := by
  subst h h'
  exact hx.runOp s

/-- Two checks, then a procedure that commutes. -/
theorem commutes_checked {c d : Bool} {st st' : Status} {x : M Unit} (hx : Commutes a id x) : Commutes a id (do
    require c st
    require d st'
    unspecifyResults
    x) :=
  .bind (.require _ _) fun _ => .bind (.require _ _) fun _ => .bind commutes_unspecifyResults fun _ => hx

theorem commutes_busCommand {c : Bool} {st : Status} {x : M Unit} (hx : Commutes a id x) : Commutes a id (do
    require c st
    unspecifyResults
    masked x) :=
  .bind (.require _ _) fun _ => .bind commutes_unspecifyResults fun _ => .masked hx

theorem commutes_revoke (k : Byte) : Commutes a id (do
    initPa ((kidSection k).setWidth 8)
    clearPaEnabled (kidSection k).toNat
    setKid Config.kidInvalid) :=
  .bind (.bind .useMc fun _ => .look (fun _ => rfl) fun _ => .bind (.secureOrRaise _ _ _ _) fun _ =>
    .checkAllOrRaise _) fun _ => .bind (.modify fun _ => rfl) fun _ => .modify fun _ => rfl

/-- Every operation does the same with other operand registers. -/
theorem sameOutcome_exec (a : Inputs → Inputs) (i : Instr) (s : State) :
    SameOutcome a (exec i s) (exec i (s.mapPort a id)) := by
  cases i
  case tmConnect | tmDisconnect =>
    exact sameOutcome_of rfl rfl (.bind (.masked (.look (fun _ => rfl) fun _ => .bind (.require _ _) fun _ =>
      .modify fun _ => rfl)) fun _ => commutes_unspecifyResults)
  case tmStandard =>
    exact sameOutcome_of rfl rfl (commutes_checked (.bind (commutes_standard _ _ _ _ _ _ _ _) fun _ =>
      .modify fun _ => rfl))
  case getLastSsr =>
    exact sameOutcome_of (x := unspecifyResults >>= fun _ => setSsrOut s.ssr) (s := s) rfl rfl
      (.bind commutes_unspecifyResults fun _ => .modify fun _ => rfl)
  case synchMc => exact sameOutcome_of rfl rfl (.bind commutes_unspecifyResults fun _ => .synchMc)
  case getMcUnsigned =>
    exact sameOutcome_of rfl rfl (.bind commutes_unspecifyResults fun _ => .bind .getMc fun _ => .modify fun _ => rfl)
  case checkLastSsrErrors =>
    exact sameOutcome_of rfl rfl (.bind commutes_unspecifyResults fun _ => .bind (.modify fun _ => rfl) fun _ =>
      .checkOrRaise _ _)
  case sessionOpen k hasKey w g =>
    refine sameOutcome_of rfl rfl (.bind (.require _ _) fun _ => .bind (.require _ _) fun _ => ?_)
    split
    · exact .raise _
    · exact .bind commutes_unspecifyResults fun _ => .openSession _ _ _ _
  case sessionCloseRevoke k => exact sameOutcome_of rfl rfl (commutes_checked (commutes_revoke k))
  case sessionClose =>
    exact sameOutcome_of rfl rfl (commutes_checked (.bind (.attempt (.closeHandshake _)) fun _ =>
      .bind (.modify fun _ => rfl) fun _ => .bind (.modify fun _ => rfl) fun _ => .orRaise _))
  case signData =>
    exact sameOutcome_of rfl rfl (.bind (.require _ _) fun _ => .bind commutes_unspecifyResults fun _ =>
      .bind (.signData _ _ _) fun _ => .modify fun _ => rfl)
  case prepareSignedSetter =>
    exact sameOutcome_of rfl rfl (.bind (.require _ _) fun _ => .bind commutes_unspecifyResults fun _ =>
      .bind (.prepareSetter _ _ _ _) fun _ => .bind (.modify fun _ => rfl) fun _ => .bind (.modify fun _ => rfl)
      fun _ => .modify fun _ => rfl)
  case executeSignedSetter | setKey | setSuid | setGmc | setGmt | setAwdt | setScr | setRstResp | setAclr |
      seraseSection =>
    exact sameOutcome_of rfl rfl (commutes_checked (.runSetter _ _ _ _ _))
  case seraseChip =>
    exact sameOutcome_of rfl rfl (.bind (.require _ _) fun _ => .bind commutes_unspecifyResults fun _ => .runSetter _ _ _ _ _)
  case getWid | getSuid | getSsrSigned | getGmc | getGmt | getAwdt | getScr | getHwVer | getMcSigned | calcSig =>
    exact sameOutcome_of rfl rfl (commutes_checked (.runCalcSig _ _ _))
  case srd =>
    exact sameOutcome_of rfl rfl (commutes_checked (.bind (.readPage _ _ _ _) fun _ => .modify fun _ => rfl))
  case sard =>
    refine sameOutcome_of rfl rfl (commutes_checked (.bind (.readPage _ _ _ _) fun _ => .bind (.pageSigned _ _ _ _ _)
      fun _ => ?_))
    split
    · exact .modify fun _ => rfl
    · exact .bind (.modify fun _ => rfl) fun _ => .raise _
  case srdMulti | sardMulti => exact sameOutcome_of rfl rfl (commutes_checked (.readMulti _ _))
  case sawr | serase4k | serase32k | serase64k =>
    exact sameOutcome_of rfl rfl (commutes_checked (.bind (.drawAddr _) fun _ => .runSetter _ _ _ _ _))
  case op0 => exact sameOutcome_of rfl rfl (commutes_busCommand (.bind (.modify fun _ => rfl) fun _ => .op0))
  case op1 => exact sameOutcome_of rfl rfl (commutes_busCommand (.bind (.modify fun _ => rfl) fun _ => .op1 _ _))
  case op2 =>
    exact sameOutcome_of rfl rfl (commutes_busCommand (.bind (.modify fun _ => rfl) fun _ => .bind (.op2 _) fun _ =>
      .modify fun _ => rfl))
  case stdWren => exact sameOutcome_of rfl rfl (commutes_busCommand (.bind (.modify fun _ => rfl) fun _ => .bareExchange _))
  case stdRsten => exact sameOutcome_of rfl rfl (commutes_busCommand .resetEnable)
  case stdRst => exact sameOutcome_of rfl rfl (commutes_busCommand .resetDevice)
  all_goals exact sameOutcome_of rfl rfl (commutes_transaction _ _ _ _)

end

/-- Settles O4: each event by what it writes, each read by its bits, and no operation sees the operand registers. -/
theorem hostWritesAndReads : Obligations.HostWritesAndReads := by
  unfold Obligations.HostWritesAndReads
  refine ⟨fun s rest => ⟨fun v h => ?_, fun v h => ?_, fun b hb h => ?_, readCfgBus_busMode s, readCfgBus_dtr s,
    fun i hi => readCfgPa_bit s hi, rfl, fun c h => step_of_queued h, fun b h => step_of_queued h,
    fun b h => step_of_queued h⟩, fun i s t other h => ?_, fun s t hp hc hs ht => ?_⟩
  · rw [step_of_queued h]
    rfl
  · refine ⟨_, fun i hi => getLsbD_writeCfgPa v s.cfg.numSections hi, ?_⟩
    rw [step_of_queued h]
    rfl
  · rw [step_of_queued h]
    simp only [hostStep, whenIdle, writeCfgWid, dequeue_cfg, fit_eq hb]
    rfl
  · rcases sameOutcome_exec (fun _ => other) i s with ⟨u, h1, h2⟩ | ⟨u, h1, h2⟩ | ⟨f, h1, _⟩
    · rw [h1] at h
      cases h
      exact .inl h2
    · rw [h1] at h
      cases h
      exact .inr ⟨⟨u, rfl⟩, h2⟩
    · rw [h1] at h
      cases h
  · rw [readStatus_of_idle hs, readStatus_of_idle ht, hc]
    exact ⟨statusCode_eq_zero hp, statusCode_inj hp⟩

end Sys2Proof.Machine

/-! # One exchange: the status poll, the bus commands, and codes that no row of the table has (rules R103 to R109, R114,
R290; logs 14 to 16) -/

namespace Sys2Proof

-- One proof at a time: proofs elaborated in parallel take a thread each, and the check bounds their memory.
set_option Elab.async false

/-! ## Codes of no row -/

theorem decodeHost_unlisted {bs : Bytes}
    (h : ((rd32 bs).extractLsb' 0 8).toNat ∉ [0x01, 0x02, 0x03, 0x04, 0x05, 0x08, 0x09, 0x0A, 0x10, 0x11, 0x18, 0x19,
      0x1A, 0x20, 0x21, 0x22, 0x23, 0x24, 0x25, 0x26, 0x27, 0x30, 0x31, 0x32, 0x33, 0x34, 0x35, 0x36, 0x37, 0x38, 0x3F,
      0x40, 0x41, 0x42, 0x43, 0x44, 0x48, 0x49, 0x4A, 0x4B, 0x4C]) :
    decodeHost bs = .error (.reservedHostOp ((rd32 bs).extractLsb' 0 8)) := by
  unfold decodeHost
  extract_lets
  split
  case h_42 => rfl
  all_goals
    rename_i e
    exact absurd (e ▸ h) (by decide)

theorem decodeWire_unlisted {bs : Bytes}
    (h : (ctagOpc (rd32 bs)).toNat ∉ [0x40, 0x44, 0x45, 0x46, 0x50, 0x51, 0x52, 0x60, 0x61, 0x62, 0x63, 0x64, 0x65, 0x66,
      0x67, 0x70, 0x71, 0x72, 0x73, 0x74]) :
    decodeWire bs = .error (.unassignedWireOpcode (ctagOpc (rd32 bs))) := by
  unfold decodeWire
  extract_lets
  split
  case h_21 => rfl
  all_goals
    rename_i e
    exact absurd (e ▸ h) (by decide)

theorem decodeBus_unlisted {v : Byte} (h : v.toNat ∉ [0xA0, 0xA1, 0xA2, 0x06, 0x66, 0x99]) :
    decodeBus v = .error (.unassignedBusOpcode v) := by
  unfold decodeBus
  split
  case h_7 => rfl
  all_goals
    rename_i e
    exact absurd (e ▸ h) (by decide)

end Sys2Proof

namespace Sys2Proof.Machine

-- One proof at a time: proofs elaborated in parallel take a thread each, and the check bounds their memory.
set_option Elab.async false

open Config (Answer)

/-- A link failure of an exchange. -/
theorem run_exchange_linkError {s : State} {rest : List Answer} (h : s.env.answers = .linkError :: rest)
    (ha : s.atomic ≠ 0) {code : Byte} {addr : Option Word} {sz : Byte} {w : Bytes} {d : Byte} {n : Nat} :
    (exchange code addr sz w d n).run s = .error (.raise .connectivityErr)
      { s with env := { s.env with
          answers := rest
          trace := .exchange { request s code w d n with addr := addr, addrSize := sz } .linkError :: s.env.trace } } := by
  simp [run_exchange, State.nextAnswer, h, State.exchanged, State.exchangeRequest, fitAnswer, request,
    State.interruptsMasked, ha]

theorem deadLink_iff (v : Word) : deadLink v = true ↔ v = 0 ∨ v = 0xFFFFFFFF := by
  simp [deadLink, or_comm]

/-- Settles O17, by the answer and the word. -/
theorem statusPollLaw : Obligations.StatusPollLaw := by
  unfold Obligations.StatusPollLaw
  intro s rest ha
  refine ⟨fun h => ?_, fun v h => ?_⟩
  · simp only [op0, M.bind_get]
    exact bind_error (run_exchange_linkError h ha)
  · split
    · rename_i hv
      simp only [op0, M.bind_get]
      refine Eq.trans (bind_ok (run_exchange_bytes h ha)) ?_
      simp [(deadLink_iff v).2 hv, op0Event, request]
    · rename_i hv
      exact run_op0_word h (Bool.eq_false_iff.2 fun hd => hv ((deadLink_iff v).1 hd)) ha

/-! ## One sub-operation on the host's request -/

/-- The state in which the exchange of a sub-operation is made. -/
def State.onBus (s : State) (p : Phase) : State := { s.begun with seq := p, atomic := s.atomic + 1 }

theorem busCommand_ok {x : M Unit} {s t : State} (hb : s.busIsLocked = true)
    (h : x.run { s.begun with atomic := s.atomic + 1 } = .ok () t) :
    busCommand x s = .next (complete .ok { t with atomic := t.atomic - 1 }) := by
  refine (runOp_passes hb).trans ?_
  exact runOp_ok (Eq.trans (bind_unspecifyResults _ _) (masked_ok (s := s.begun) h))

theorem busCommand_phase_ok {p : Phase} {x : M Unit} {s t : State} (hb : s.busIsLocked = true)
    (h : x.run (s.onBus p) = .ok () t) :
    busCommand (phase p >>= fun _ => x) s = .next (complete .ok { t with atomic := t.atomic - 1 }) :=
  busCommand_ok hb ((bind_phase _ _ _).trans h)

theorem busCommand_phase_raise {p : Phase} {x : M Unit} {s t : State} {st : Status} (hb : s.busIsLocked = true)
    (h : x.run (s.onBus p) = .error (.raise st) t) :
    busCommand (phase p >>= fun _ => x) s = .next (complete st { t with atomic := t.atomic - 1 }) := by
  refine (runOp_passes hb).trans ?_
  exact runOp_raise (Eq.trans (bind_unspecifyResults _ _) (masked_raise (s := s.begun) (Eq.trans (bind_phase _ _ _) h)))

/-- The second exchange of the device reset, and what the block then forgets (rule R297). -/
theorem run_resetDevice {s : State} {rest : List Answer} (h : s.env.answers = .bytes [] :: rest) (ha : s.atomic ≠ 0) :
    resetDevice.run s = .ok () { (if s.cfg.resetInvalidatesSession then s.wipeKeys else s) with
      seq := .chain
      kid := if s.cfg.resetInvalidatesSession then 0xFF else s.kid
      mc := { s.mc with inSync := false }
      inFlight := false
      env := { s.env with answers := rest, trace := bareEvent s s.cfg.stdRst :: s.env.trace } } := by
  simp only [resetDevice, bind_phase, M.bind_get]
  refine Eq.trans (bind_ok (run_bareExchange (by exact h) (by exact ha))) ?_
  simp only [bind_setInSync]
  cases hr : s.cfg.resetInvalidatesSession <;>
    simp [bareEvent, request, Config.kidInvalid, State.wipeKeys, State.withKeys]

/-- Settles O55, command by command. -/
theorem busCommandsRun : Obligations.BusCommandsRun := by
  unfold Obligations.BusCommandsRun
  intro s rest hb
  have ha (p : Phase) : (s.onBus p).atomic ≠ 0 := Nat.succ_ne_zero _
  refine ⟨fun v hv h => ?_, fun r hr h => ?_, fun h => ⟨?_, ?_, ?_, ?_⟩⟩
  · exact busCommand_phase_ok hb (run_op0_word (s := s.onBus .wait) h hv (ha .wait))
  · refine busCommand_phase_ok hb (t := { s.onBus .read with
      out := { s.begun.out with rbuf := r }
      env := { s.begun.env with answers := rest, trace := op2Event s r :: s.env.trace } }) ?_
    rw [readField, ← hr]
    exact bind_ok (run_op2_bytes (s := s.onBus .read) h (ha .read))
  · have hs : (sizeField s).toNat = s.latch.cmd.w2.toNat % 65536 := by simp [sizeField]
    refine (busCommand_phase_ok hb (run_op1_ack (s := s.onBus .send) h (ha .send))).trans ?_
    rw [setterPayload, dataOperand, hs]
    rfl
  · exact busCommand_phase_ok hb (run_bareExchange (t := s.onBus .send) h (ha .send))
  · exact busCommand_phase_ok hb (x := do
      let t ← get
      bareExchange t.cfg.stdRsten) (run_bareExchange (t := s.onBus .chain) h (ha .chain))
  · refine (busCommand_ok hb (run_resetDevice (s := { s.begun with atomic := s.atomic + 1 }) h (ha .chain))).trans ?_
    cases hr : s.cfg.resetInvalidatesSession <;> simp [hr, complete, bareEvent, request, State.wipeKeys, State.withKeys]

/-! ## Requests whose code is of no row -/

theorem serve_of_error {sp : Space} {s : State} {e : DecodeError} (h : decode sp (fetch sp s) = .error e) :
    serve sp s = execUnassigned e s := by
  rw [serve, h]

theorem toNat_low (c : Word) : (c.extractLsb' 0 8).toNat = c.toNat % 256 := by simp

/-- The descriptor that is read in the host's encoding begins with word 0. -/
theorem rd32_fetch_host (s : State) : rd32 (fetch .host s) = s.latch.cmd.w0 :=
  rd32_le32_append s.latch.cmd.w0 (le32 s.latch.cmd.w1 ++ (le32 s.latch.cmd.w2 ++ le32 s.latch.cmd.w3))

theorem fetch_wire (s : State) : fetch .wire s = le32 s.latch.cmd.w0 := rfl

theorem serve_host_unlisted {s : State}
    (h : s.latch.cmd.w0.toNat % 256 ∉ [0x01, 0x02, 0x03, 0x04, 0x05, 0x08, 0x09, 0x0A, 0x10, 0x11, 0x18, 0x19,
      0x1A, 0x20, 0x21, 0x22, 0x23, 0x24, 0x25, 0x26, 0x27, 0x30, 0x31, 0x32, 0x33, 0x34, 0x35, 0x36, 0x37, 0x38, 0x3F,
      0x40, 0x41, 0x42, 0x43, 0x44, 0x48, 0x49, 0x4A, 0x4B, 0x4C]) :
    serve .host s = .next (complete .parameterErr s) := by
  rw [← toNat_low, ← rd32_fetch_host] at h
  have hd : decode .host (fetch .host s) = decodeHost (fetch .host s) := by
    rw [decode, if_pos (show (fetch .host s).length = 16 from rfl)]
  exact serve_of_error (hd.trans (decodeHost_unlisted h))

/-- A CTAG with an unassigned opcode is passed on as `TM_SECURE` does. -/
theorem serve_wire_unlisted {s : State}
    (h : s.latch.cmd.w0.toNat % 256 ∉ [0x40, 0x44, 0x45, 0x46, 0x50, 0x51, 0x52, 0x60, 0x61, 0x62, 0x63, 0x64, 0x65,
      0x66, 0x67, 0x70, 0x71, 0x72, 0x73, 0x74]) :
    serve .wire s = exec (.tmSecure true s.latch.cmd.w0 (sizeField s) s.latch.cmd.w3) s := by
  rw [← toNat_low] at h
  have hd : decode .wire (fetch .wire s) = .error (.unassignedWireOpcode (ctagOpc s.latch.cmd.w0)) := by
    rw [fetch_wire, decode_le32, decodeWire_unlisted (by rwa [rd32_le32]), rd32_le32]
  exact serve_of_error hd

theorem serve_bus_unlisted {s : State} (h : s.latch.cmd.w0.toNat % 256 ∉ [0xA0, 0xA1, 0xA2, 0x06, 0x66, 0x99]) :
    serve .bus s = execOtherBus (s.latch.cmd.w0.extractLsb' 0 8) s := by
  rw [← toNat_low] at h
  exact serve_of_error (sp := .bus) (decodeBus_unlisted h)

/-- The one exchange of an unassigned bus opcode that the device answers. -/
theorem execOtherBus_answered {s : State} {opcode : Byte} {r : Bytes} {later : List Answer} (hb : s.busIsLocked = true)
    (hr : r.length = readField s) (h : s.env.answers = .bytes r :: later) :
    execOtherBus opcode s = .next { s.begun with
      out := { s.begun.out with rbuf := r }
      status := .ok
      seq := .idle
      env := { s.begun.env with
        answers := later
        trace := .exchange (request s opcode (setterPayload s) 0 (readField s)) (.bytes r) :: s.env.trace } } := by
  refine busCommand_phase_ok hb (t := { s.onBus .send with
      out := { s.begun.out with rbuf := r }
      env := { s.begun.env with
        answers := later
        trace := .exchange (request s opcode (setterPayload s) 0 (readField s)) (.bytes r) :: s.env.trace } }) ?_
  refine (bind_ok (run_exchange_bytes (s := s.onBus .send) h (Nat.succ_ne_zero _))).trans ?_
  rw [fit_eq hr]
  rfl

/-- The one exchange of an unassigned bus opcode while the link fails. -/
theorem execOtherBus_linkError {s : State} {opcode : Byte} {later : List Answer} (hb : s.busIsLocked = true)
    (h : s.env.answers = .linkError :: later) :
    execOtherBus opcode s = .next { s.begun with
      status := .connectivityErr
      seq := .idle
      env := { s.begun.env with
        answers := later
        trace := .exchange (request s opcode (setterPayload s) 0 (readField s)) .linkError :: s.env.trace } } :=
  busCommand_phase_raise hb (bind_error (run_exchange_linkError (s := s.onBus .send) h (Nat.succ_ne_zero _)))

/-- Settles O5, space by space. -/
theorem unlistedCodesHandled : Obligations.UnlistedCodesHandled := by
  unfold Obligations.UnlistedCodesHandled
  intro s rest hq latched code
  have hcode : s.inp.cmd.w0.extractLsb' 0 8 = BitVec.ofNat 8 code := BitVec.eq_of_toNat_eq (by simp [code])
  refine ⟨fun h hc => ?_, fun h hc => ?_, fun h hc => ⟨fun hb => ?_, fun hb => ⟨fun r later hr ha => ?_, fun later ha => ?_⟩⟩⟩
  · exact (step_request h hq).trans (serve_host_unlisted (s := latched) hc)
  · exact (step_request h hq).trans (serve_wire_unlisted (s := latched) hc)
  all_goals
    refine (step_request h hq).trans ((serve_bus_unlisted (s := latched) hc).trans ?_)
  · exact runOp_refused hb
  · rw [← hcode]
    exact execOtherBus_answered (s := latched) hb hr ha
  · rw [← hcode]
    exact execOtherBus_linkError (s := latched) hb ha

end Sys2Proof.Machine

/-! # The transaction manager on the host's request (rules R282 to R286, R293, R298) -/

namespace Sys2Proof.Machine

-- One proof at a time: proofs elaborated in parallel take a thread each, and the check bounds their memory.
set_option Elab.async false

open Config (Answer)

/-! ## Delivering a response -/

/-- A response, if one was read, in `rbuf`. -/
def State.delivered (s : State) (r : Option Bytes) : State := { s with out := { s.out with rbuf := r.getD s.out.rbuf } }

theorem run_deliver (r : Option Bytes) (s : State) : (deliver r).run s = .ok () (s.delivered r) := by
  cases r <;> rfl

/-- A transaction as an operation of its own: `TM_SECURE` and the wire commands. -/
theorem runOp_transaction {s t : State} {ctag : Word} {w : Bytes} {n : Nat} {b : Bool} {r : Option Bytes}
    (hb : s.busIsLocked = true) (h : (secureSteps ctag w n b).run { s.begun with atomic := s.atomic + 1 } = .ok r t) :
    (runOp (do
      unspecifyResults
      let (r, _) ← secureOrRaise ctag w n b
      deliver r) s) = .next (complete .ok
        (State.delivered { t with atomic := t.atomic - 1, out := { t.out with ssrOut := t.ssr } } r)) := by
  refine runOp_begins.trans ((runOp_bind (run_secureOrRaise_ok (s := s.begun) hb h)).trans ?_)
  exact runOp_ok (run_deliver _ _)

/-- The transaction nothing disturbs, as an operation of its own. -/
theorem runOp_transaction_good {s : State} {x : Transaction} {rest : List Answer} (hb : s.busIsLocked = true)
    (hx : x.good s.cfg = true) (h : s.env.answers = x.answers s.cfg ++ rest) :
    (runOp (do
      unspecifyResults
      let (r, _) ← secureOrRaise x.ctag x.payload x.response.length true
      deliver r) s) = .next { s.begun.transacted x rest with
      out := { (s.begun.transacted x rest).out with
        rbuf := if x.response = [] then s.begun.out.rbuf else x.response }
      status := .ok
      seq := .idle } := by
  refine runOp_begins.trans ((runOp_bind (run_secureOrRaise_good (s := s.begun) hb hx h)).trans ?_)
  refine (runOp_ok (run_deliver _ _)).trans ?_
  by_cases hr : x.response = []
  · simp only [if_pos hr]
    rfl
  · simp only [if_neg hr]
    rfl

/-- Settles O14. -/
theorem tmSecureRuns : Obligations.TmSecureRuns := by
  unfold Obligations.TmSecureRuns
  intro s x rest size n hb hx hp hn h
  refine Eq.trans ?_ (runOp_transaction_good hb hx h)
  rw [hp, hn]
  rfl

/-- A wire command is the transaction of its frame. -/
theorem exec_of_wireFrame {i : Instr} {s : State} {ctag : Word} {w : Bytes} {n : Nat}
    (h : wireFrame s i = some (ctag, w, n)) : exec i s = wireCommand ctag w n s := by
  cases i <;> cases h
  all_goals rfl

/-- Settles O54, by the frame of the command. -/
theorem wireCommandsRun : Obligations.WireCommandsRun := by
  unfold Obligations.WireCommandsRun
  intro i s x rest hf hb hx h
  exact (exec_of_wireFrame hf).trans (runOp_transaction_good hb hx h)

/-! ## Step 3 of `Secure` (rules R284 to R286) -/

/-- A response that the snapshot shows is read at once. -/
theorem run_secureRead_ready {s : State} {r : Bytes} {rest : List Answer} (opc : Byte) (hr : r ≠ [])
    (hs : respReady s.cfg.ssr s.ssr = true) (ha : s.atomic ≠ 0) (h : s.env.answers = .bytes r :: rest) :
    (secureRead opc r.length).run s = .ok (some r)
      { s with seq := .read, env := { s.env with answers := rest, trace := op2Event s r :: s.env.trace } } := by
  have hl : ¬ r.length = 0 := by simpa using hr
  simp only [secureRead, if_neg hl, M.bind_get, hs, Bool.not_true, onlyIf_false, M.bind_pure, if_true, bind_phase]
  exact (bind_ok (run_op2_bytes (s := { s with seq := .read }) h ha)).trans rfl

/-- A response that is asked for and announced, or none. -/
theorem run_secureRead_announced {s : State} {r : Bytes} {rest : List Answer} (opc : Byte)
    (hs : r ≠ [] → respReady s.cfg.ssr s.ssr = true) (ha : s.atomic ≠ 0)
    (h : s.env.answers = (if r = [] then [] else [.bytes r]) ++ rest) :
    (secureRead opc r.length).run s = .ok (if r = [] then none else some r) { s with
      seq := if r = [] then s.seq else .read
      env := { s.env with
        answers := rest, trace := (if r = [] then [] else [op2Event s r]) ++ s.env.trace } } := by
  by_cases hr : r = []
  · subst hr
    have hrest : s.env.answers = rest := h
    rw [← hrest]
    rfl
  · simp only [if_neg hr] at h ⊢
    exact run_secureRead_ready opc hr (hs hr) ha h

/-- No response and no polling: the synthetic error. -/
theorem run_secureRead_synthetic {s : State} {opc : Byte} {n : Nat} (hn : n ≠ 0)
    (hs : respReady s.cfg.ssr s.ssr = false) (hp : s.cfg.pollForReady.contains opc = false)
    (he : s.cfg.ssr.err ≠ s.cfg.ssr.respReady) :
    (secureRead opc n).run s = .ok none { s with ssr := withSyntheticError s.cfg.ssr s.ssr } := by
  have hr : respReady s.cfg.ssr (withSyntheticError s.cfg.ssr s.ssr) = false := by
    have : s.ssr.getLsbD s.cfg.ssr.respReady = false := hs
    simp [respReady, withSyntheticError, BitVec.getLsbD_twoPow, this, he]
  have hq : (notReady opc).run s = .ok () { s with ssr := withSyntheticError s.cfg.ssr s.ssr } := by
    simp only [notReady, M.bind_get, hp, Bool.false_eq_true, if_false, run_setSsr]
  simp only [secureRead, if_neg hn, M.bind_get, hs, Bool.not_false, onlyIf_true]
  refine (bind_ok hq).trans ?_
  simp only [M.bind_get, hr, Bool.false_eq_true, if_false, M.run_pure]

/-- The polls for readiness, after which the last word decides. -/
theorem run_secureRead_polled {s t : State} {opc : Byte} {n : Nat} (hn : n ≠ 0)
    (hs : respReady s.cfg.ssr s.ssr = false) (hp : s.cfg.pollForReady.contains opc = true)
    (h : pollReady.run s = .ok () t) :
    (secureRead opc n).run s = (do
      if respReady t.cfg.ssr t.ssr then
        phase .read
        let r ← op2 n
        pure (some r)
      else pure none : M (Option Bytes)).run t := by
  have hq : (notReady opc).run s = .ok () t := by
    simp only [notReady, M.bind_get, hp, if_true]
    exact h
  simp only [secureRead, if_neg hn, M.bind_get, hs, Bool.not_false, onlyIf_true]
  exact (bind_ok hq).trans (M.bind_get _ _)

/-- A stale error ends the poll for readiness before it starts. -/
theorem run_pollReady_stale {s : State} (h : readyOrError s.cfg.ssr s.ssr = true) :
    pollReady.run s = .ok () { s with seq := .poll } := by
  simp only [pollReady, bind_phase, M.bind_get, h, if_true, M.run_pure]

/-- The poll for readiness over scripted words. -/
theorem run_pollReady {s : State} {polls : List Word} {v : Word} {rest : List Answer}
    (hs : ∀ u ∈ s.ssr :: polls, readyOrError s.cfg.ssr u = false) (hd : ∀ u ∈ polls ++ [v], deadLink u = false)
    (hv : readyOrError s.cfg.ssr v = true) (ha : s.atomic ≠ 0)
    (h : s.env.answers = statusAnswers (polls ++ [v]) ++ rest) :
    pollReady.run s = .ok () { s.polled (polls ++ [v]) v rest with seq := .poll } := by
  have hl : s.env.answers.length = polls.length + 1 + rest.length := by simp [h, statusAnswers]; omega
  simp only [pollReady, bind_phase, M.bind_get, hs s.ssr (by simp), Bool.false_eq_true, if_false]
  exact run_pollUntil (s := { s with seq := .poll }) polls h
    (fun u hu => ⟨hd u (by simp [hu]), hs u (by simp [hu])⟩) (hd v (by simp)) hv ha (by simp [State.pollFuel, hl]; omega)

/-- The poll for readiness, and the read if a response shows. -/
theorem run_secureRead_polls {s : State} {opc : Byte} {polls : List Word} {v : Word} {r : Bytes} {rest : List Answer}
    (hr : r ≠ []) (hp : s.cfg.pollForReady.contains opc = true)
    (hs : ∀ u ∈ s.ssr :: polls, readyOrError s.cfg.ssr u = false) (hd : ∀ u ∈ polls ++ [v], deadLink u = false)
    (hv : readyOrError s.cfg.ssr v = true) (ha : s.atomic ≠ 0)
    (h : s.env.answers = statusAnswers (polls ++ [v]) ++ (if respReady s.cfg.ssr v then [.bytes r] else []) ++ rest) :
    (secureRead opc r.length).run s = .ok (if respReady s.cfg.ssr v then some r else none) { s with
      seq := if respReady s.cfg.ssr v then .read else .poll
      ssr := v
      env := { s.env with
        answers := rest
        trace := (if respReady s.cfg.ssr v then [op2Event s r] else [])
          ++ ((polls ++ [v]).map (op0Event s)).reverse ++ s.env.trace } } := by
  have hl : r.length ≠ 0 := by simpa using hr
  have hs0 : respReady s.cfg.ssr s.ssr = false := (Bool.or_eq_false_iff.1 (hs s.ssr (by simp))).2
  refine (run_secureRead_polled hl hs0 hp (run_pollReady hs hd hv ha (h.trans (List.append_assoc _ _ _)))).trans ?_
  show (if respReady s.cfg.ssr v = true then _ else _ : M (Option Bytes)).run _ = _
  by_cases hr : respReady s.cfg.ssr v = true
  · simp only [if_pos hr, bind_phase]
    exact (bind_ok (run_op2_bytes (by rfl) (by exact ha))).trans rfl
  · simp only [if_neg hr]
    rfl

/-! ## `TM_SECURE` without a wait, and without a command -/

/-- Inside the masked section of a procedure, in one of its phases. -/
def State.inside (s : State) (p : Phase) : State := { s with seq := p, atomic := s.atomic + 1 }

theorem inside_atomic (s : State) (p : Phase) : (s.inside p).atomic ≠ 0 := Nat.succ_ne_zero _

/-- Step 1 of `Secure`, which CTAG 0 leaves out. -/
theorem run_commanded {s : State} {ctag : Word} {w : Bytes} {rest : List Answer} (p : Phase)
    (h : s.env.answers = commandAnswers ctag ++ rest) :
    ∃ q, (onlyIf (ctag != 0) (secureSend ctag w)).run (s.inside p) = .ok () ((s.commanded ctag w rest).inside q) := by
  by_cases hc : ctag = 0
  · subst hc
    refine ⟨p, ?_⟩
    have hr : s.env.answers = rest := h
    simp [State.commanded, State.inside, ← hr]
  · have h' : s.env.answers = .bytes [] :: rest := by
      simpa only [commandAnswers, if_neg hc, List.singleton_append] using h
    refine ⟨.send, ?_⟩
    rw [bne_iff_ne.2 hc, onlyIf_true]
    refine (run_secureSend (x := ⟨ctag, w, ⟨[], 0⟩, ⟨[], 0⟩, []⟩) (s := s.inside p) h' (inside_atomic s p)).trans ?_
    simp only [State.commanded, if_neg hc, decide_eq_true hc, Bool.or_true]
    rfl

/-- Nothing is chained without a wait. -/
theorem run_secureChain_nowait (ctag : Word) (s : State) : (secureChain ctag false).run s = .ok () s := by
  simp [secureChain]

theorem run_secureChain_zero (b : Bool) (s : State) : (secureChain 0 b).run s = .ok () s := rfl

/-- `TM_SECURE` without a wait: step 3 on the snapshot as it stands decides. -/
theorem exec_tmSecure_nowait {s t : State} {ctag n : Word} {size : BitVec 16} {r : Option Bytes} {rest : List Answer}
    (hb : s.busIsLocked = true) (h : s.env.answers = commandAnswers ctag ++ rest) (_ : t.atomic = s.atomic)
    (hread : ∀ p, ∃ q, (secureRead (ctagOpc ctag) n.toNat).run
      ((s.begun.commanded ctag (dataOperand s size) rest).inside p) = .ok r (t.inside q)) :
    exec (.tmSecure false ctag size n) s =
      .next (complete .ok (State.delivered { t with out := { t.out with ssrOut := t.ssr } } r)) := by
  obtain ⟨p, hp⟩ := run_commanded (s := s.begun) (ctag := ctag) (w := dataOperand s size) s.seq h
  obtain ⟨q, hq⟩ := hread p
  have hsteps : (secureSteps ctag (dataOperand s size) n.toNat false).run (s.begun.inside s.seq) = .ok r (t.inside q) := by
    refine (bind_ok hp).trans ((M.bind_pure _ _ _).trans ((bind_ok hq).trans ?_))
    exact bind_ok (run_secureChain_nowait ctag _)
  exact runOp_transaction hb hsteps

/-- `TM_SECURE` with a wait and without a command: the wait refreshes the snapshot. -/
theorem run_secureSteps_waitOnly {s t : State} {w : Wait} {payload : Bytes} {n : Nat} {r : Option Bytes}
    {rest : List Answer} {p : Phase} (hw : w.good s.cfg.ssr = true) (hd : s.cfg.doubleWait.contains 0 = false)
    (h : s.env.answers = statusAnswers w.words ++ rest)
    (hread : (secureRead 0 n).run ({ s.polled w.words w.last rest with inFlight := false }.inside .wait) = .ok r t) :
    (secureSteps 0 payload n true).run (s.inside p) = .ok r t := by
  have hwait := run_busyWait (s := s.inside p) h hw (inside_atomic s p)
  have hstep : (secureWait (ctagOpc 0)).run (s.inside p)
      = .ok () ({ s.polled w.words w.last rest with inFlight := false }.inside .wait) := by
    have hz : ctagOpc 0 = 0 := rfl
    rw [secureWait, hz]
    refine (bind_ok hwait).trans ?_
    simp only [M.bind_get]
    show (onlyIf (s.cfg.doubleWait.contains 0) busyWait >>= _).run _ = _
    rw [hd]
    rfl
  refine (M.bind_pure _ _ _).trans ((bind_ok hstep).trans ((bind_ok hread).trans ?_))
  exact bind_ok (run_secureChain_zero _ _)

/-- Settles O15: what step 3 finds on the stale snapshot, case by case; then the wait without a command. -/
theorem tmSecureWithoutWaitOrCommand : Obligations.TmSecureWithoutWaitOrCommand := by
  unfold Obligations.TmSecureWithoutWaitOrCommand
  intro s rest size hb
  refine ⟨?_, fun w r n hw hd hn hr h => ?_⟩
  · intro ctag n answered sent polled quiet
    refine ⟨fun hq h => ?_, fun r hr hn hs h => ?_, fun hn hs hp he h => ?_, fun polls v r hr hn hp hu hd hv h => ?_⟩
    · refine exec_tmSecure_nowait (t := sent) (r := none) hb h rfl fun p => ?_
      by_cases hn : n.toNat = 0
      · rw [hn]
        exact ⟨p, rfl⟩
      · obtain ⟨hs, hp, he⟩ := hq.resolve_left fun e => hn (by rw [e]; rfl)
        have hstale : readyOrError s.cfg.ssr s.ssr = true := Bool.or_eq_true_iff.2 (.inl he)
        refine ⟨.poll, (run_secureRead_polled (s := sent.inside p) hn hs hp (run_pollReady_stale hstale)).trans ?_⟩
        show (if respReady s.cfg.ssr s.ssr = true then _ else _ : M (Option Bytes)).run _ = _
        rw [hs]
        rfl
    · refine exec_tmSecure_nowait (t := { sent with env := { sent.env with trace := op2Event s r :: sent.env.trace } })
        (r := some r) hb h rfl fun p => ⟨.read, ?_⟩
      rw [← hn]
      exact run_secureRead_ready _ hr hs (inside_atomic _ p) rfl
    · refine exec_tmSecure_nowait (t := { sent with ssr := withSyntheticError s.cfg.ssr s.ssr }) (r := none) hb h rfl
        fun p => ⟨p, ?_⟩
      exact run_secureRead_synthetic (fun e => hn (BitVec.eq_of_toNat_eq e)) hs hp he
    · have hu' : ∀ u ∈ s.ssr :: polls, readyOrError s.cfg.ssr u = false := fun u hm => by
        obtain ⟨he, hs⟩ := hu u hm
        rw [readyOrError, he, hs]
        rfl
      refine (exec_tmSecure_nowait (t := { sent with
          ssr := v
          env := { sent.env with
            trace := (if respReady s.cfg.ssr v then [op2Event s r] else [])
              ++ ((polls ++ [v]).map (op0Event s)).reverse ++ sent.env.trace } })
        (r := if respReady s.cfg.ssr v then some r else none)
        (rest := statusAnswers (polls ++ [v]) ++ (if respReady s.cfg.ssr v then [.bytes r] else []) ++ rest)
        hb h rfl fun p => ⟨if respReady s.cfg.ssr v then .read else .poll, ?_⟩).trans ?_
      · rw [← hn]
        exact run_secureRead_polls hr hp hu' hd hv (inside_atomic _ p) rfl
      · cases respReady s.cfg.ssr v <;> rfl
  · rw [List.append_assoc] at h
    have hsteps := run_secureSteps_waitOnly (s := s.begun) (payload := dataOperand s size) (p := s.seq) hw hd h
      (run_secureRead_announced 0 hr (inside_atomic _ _) rfl)
    rw [hn] at hsteps
    refine (runOp_transaction hb hsteps).trans ?_
    by_cases he : r = []
    · simp only [if_pos he]
      rfl
    · simp only [if_neg he]
      rfl

/-! ## Reads after a wait that announced no response -/

/-- The steps of a transaction whose waits are good, up to the read that is asked for. -/
theorem run_secureSteps_asked {s t : State} {x : Transaction} {n : Nat} {r : Option Bytes} {rest : List Answer}
    (ha : s.atomic ≠ 0) (hx : x.good s.cfg = true) (hr : x.response = []) (h : s.env.answers = x.answers s.cfg ++ rest)
    (ho : ctagOpc x.ctag ≠ s.cfg.wire.setScr) (ht : t.cfg = s.cfg)
    (hread : (secureRead (ctagOpc x.ctag) n).run (s.beforeChain x rest) = .ok r t) :
    (secureSteps x.ctag x.payload n true).run s = .ok r t := by
  have hx' := hx
  simp only [Transaction.good, Transaction.sound, Bool.and_eq_true, decide_eq_true_eq, Bool.or_eq_true,
    Bool.not_eq_true'] at hx'
  obtain ⟨⟨⟨⟨hc, h1⟩, h2⟩, _⟩, _⟩ := hx'
  have h0 : s.env.answers = .bytes [] :: (statusAnswers (x.words s.cfg) ++ rest) := by
    simpa [Transaction.answers, hr] using h
  have hchain : (secureChain x.ctag true).run t = .ok () t := by
    simp only [secureChain, M.bind_get, ht, beq_eq_false_iff_ne.2 ho, Bool.and_false, Bool.false_and, onlyIf_false,
      M.run_pure]
  have h2' : s.cfg.doubleWait.contains (ctagOpc x.ctag) = true → x.second.good s.cfg.ssr = true := fun hd =>
    h2.resolve_left (by rw [hd]; simp)
  simp only [secureSteps, bne_iff_ne.2 hc, onlyIf_true]
  refine (bind_ok (run_secureSend h0 ha)).trans ?_
  refine (bind_ok (run_secureWait (x := x) (by rfl) (by exact h1) (by exact h2') (by exact ha))).trans ?_
  refine (bind_ok (Eq.trans (congrArg _ ?_) hread)).trans (bind_ok hchain)
  simp only [State.beforeChain, State.polled, Transaction.events, hr, if_true]
  cases flips s.cfg x.ctag <;> simp [op0Event, op1Event, request]

/-- Settles O20. -/
theorem missingResponseIsSyntheticError : Obligations.MissingResponseIsSyntheticError := by
  unfold Obligations.MissingResponseIsSyntheticError
  intro s x rest size n hb hx hr hp hn hs hq ho he h
  have hread := run_secureRead_synthetic (s := (s.begun.inside s.seq).beforeChain x rest) (Nat.pos_iff_ne_zero.1 hn) hs hq
    he
  have hsteps := run_secureSteps_asked (s := s.begun.inside s.seq) (inside_atomic _ _) hx hr h ho (by rfl) hread
  rw [hp] at hsteps
  exact runOp_transaction hb hsteps

/-- Settles O21. -/
theorem readinessIsPolled : Obligations.ReadinessIsPolled := by
  unfold Obligations.ReadinessIsPolled
  intro s x polls v r rest size n hb hx hr hp hn hne hq ho hu hd hv h
  have hu' : ∀ u ∈ x.final s.cfg :: polls, readyOrError s.cfg.ssr u = false := fun u hm => by
    obtain ⟨_, he, hs⟩ := hu u hm
    rw [readyOrError, he, hs]
    rfl
  have hd' : ∀ u ∈ polls ++ [v], deadLink u = false := fun u hm => by
    rcases List.mem_append.1 hm with hm | hm
    · exact (hu u (List.mem_cons_of_mem _ hm)).1
    · rw [List.mem_singleton.1 hm]
      exact hd
  let later := statusAnswers (polls ++ [v]) ++ (if respReady s.cfg.ssr v then [.bytes r] else []) ++ rest
  have h' : s.env.answers = x.answers s.cfg ++ later := by simpa only [later, List.append_assoc] using h
  let read : State := { s.begun.transacted x rest with
    ssr := v
    out := s.begun.out
    env := { s.begun.env with
      answers := rest
      trace := (if respReady s.cfg.ssr v then [op2Event s r] else [])
        ++ ((polls ++ [v]).map (op0Event s)).reverse ++ ((x.events s).reverse ++ s.env.trace) } }
  have hread : (secureRead (ctagOpc x.ctag) r.length).run ((s.begun.inside s.seq).beforeChain x later) =
      .ok (if respReady s.cfg.ssr v then some r else none)
        (read.inside (if respReady s.cfg.ssr v then .read else .poll)) :=
    run_secureRead_polls hne hq hu' hd' hv (inside_atomic s.begun s.seq) (by rfl)
  have hsteps := run_secureSteps_asked (s := s.begun.inside s.seq) (inside_atomic _ _) hx hr h' ho (by rfl) hread
  rw [hp, hn] at hsteps
  refine (runOp_transaction hb hsteps).trans ?_
  simp only [read, List.append_assoc]
  cases respReady s.cfg.ssr v <;> rfl

/-! ## `TM_STANDARD` -/

/-- The write-enable exchange, where it is asked for. -/
theorem run_writeEnable {s : State} {c : Byte} {b : Bool} {rest : List Answer} (ha : s.atomic ≠ 0)
    (h : s.env.answers = (if b then [.bytes []] else []) ++ rest) :
    (onlyIf b (bareExchange c)).run s = .ok () { s with env := { s.env with
      answers := rest, trace := (if b then [bareEvent s c] else []) ++ s.env.trace } } := by
  cases b
  · have hrest : s.env.answers = rest := h
    rw [← hrest]
    rfl
  · exact run_bareExchange h ha

/-- The wait, where it is asked for. -/
theorem run_waitBusy {s : State} {w : Wait} {b : Bool} {rest : List Answer} (ha : s.atomic ≠ 0)
    (hw : w.good s.cfg.ssr = true) (h : s.env.answers = (if b then statusAnswers w.words else []) ++ rest) :
    (onlyIf b busyWait).run s = .ok () { s with
      seq := if b then .wait else s.seq
      ssr := if b then w.last else s.ssr
      env := { s.env with
        answers := rest, trace := (if b then (w.words.map (op0Event s)).reverse else []) ++ s.env.trace } } := by
  cases b
  · have hrest : s.env.answers = rest := h
    rw [← hrest]
    rfl
  · exact run_busyWait h hw ha

/-- `Standard` that nothing disturbs (rule R293). -/
theorem run_standard {s : State} {opcode sz d : Byte} {addr : Option Word} {payload r : Bytes} {we wb : Bool} {w : Wait}
    {rest : List Answer} (hw : w.good s.cfg.ssr = true)
    (h : s.env.answers = (if we then [.bytes []] else []) ++ (.bytes r :: ((if wb then statusAnswers w.words else [])
      ++ rest))) :
    (standard opcode addr sz payload r.length d we wb).run s = .ok r { s with
      seq := if wb then .wait else .send
      ssr := if wb then w.last else s.ssr
      env := { s.env with
        answers := rest
        trace := (if wb then (w.words.map (op0Event s)).reverse else [])
          ++ (.exchange { request s opcode payload d r.length with addr := addr, addrSize := sz } (.bytes r)
            :: ((if we then [bareEvent s s.cfg.stdWren] else []) ++ s.env.trace)) } } := by
  have h1 := run_writeEnable (s := s.inside .send) (c := s.cfg.stdWren) (inside_atomic _ _) h
  rw [standard]
  refine (masked_ok (a := r) (t := ?t) ?run).trans ?eq
  case run =>
    refine (bind_phase _ _ _).trans ((M.bind_get _ _).trans ((bind_ok h1).trans ?_))
    refine (bind_ok (run_exchange_bytes (by rfl) (by exact inside_atomic s .send))).trans ?_
    refine (bind_ok (run_waitBusy (w := w) (by exact inside_atomic s .send) (by exact hw) (by rfl))).trans ?_
    rw [fit_eq rfl]
    rfl
  case eq => rfl

/-- Settles O16: the check of the address, then the three exchanges in order. -/
theorem tmStandardRuns : Obligations.TmStandardRuns := by
  unfold Obligations.TmStandardRuns
  intro s we wb ha addr size addrSize dummy opcode n r w rest hb
  refine ⟨fun h1 h2 => ?_, fun hok hr hw h => ?_⟩
  · refine (runOp_passes hb).trans (runOp_refused ?_)
    rw [← Bool.not_eq_true, standardAddrOk_iff]
    exact fun hlt => absurd (hlt h1) (by omega)
  · refine (runOp_passes hb).trans ((runOp_passes ((standardAddrOk_iff _ _).2 hok)).trans (runOp_begins.trans ?_))
    rw [List.append_assoc, List.append_assoc] at h
    rw [← hr]
    refine (runOp_bind (run_standard (s := s.begun) hw h)).trans ?_
    simp only [List.append_assoc, List.singleton_append]
    rfl

/-! ## Link failures -/

/-- What stops the steps of `Secure` for good stops `Secure`. -/
theorem run_secure_stops {s t : State} {ctag : Word} {w : Bytes} {n : Nat} {b : Bool} {e : Stop}
    (hb : s.busIsLocked = true) (he : ∀ st, e ≠ .raise st)
    (h : (secureSteps ctag w n b).run { s with atomic := s.atomic + 1 } = .error e t) :
    (secure ctag w n b).run s = .error e t := by
  have hm : (masked (secureSteps ctag w n b)).run s = .error e t := by
    rw [run_masked, h]
    cases e with
    | raise st => exact absurd rfl (he st)
    | _ => rfl
  simp only [secure, M.bind_get, if_pos hb]
  refine bind_error ?_
  rw [run_attempt, hm]
  cases e with
  | raise st => exact absurd rfl (he st)
  | _ => rfl

/-- Settles O18: the steps of `Secure` raise a link failure and nothing else. -/
theorem linkFailureDistrustsCounter : Obligations.LinkFailureDistrustsCounter := by
  unfold Obligations.LinkFailureDistrustsCounter
  intro s t ctag w n b sv
  rcases Bool.eq_false_or_eq_true s.busIsLocked with hb | hb
  · have hraise := raises_secureSteps (A := (· = .connectivityErr)) rfl (ctag := ctag) (w := w) (n := n) (b := b)
      { s with atomic := s.atomic + 1 }
    cases hx : (secureSteps ctag w n b).run { s with atomic := s.atomic + 1 } with
    | ok r u =>
      rw [run_secure_ok hb hx]
      exact ⟨nofun, nofun⟩
    | error e u =>
      cases e with
      | raise st =>
        have hst : st = .connectivityErr := (wp_error hx).1 hraise
        subst hst
        rw [run_secure_fails hb hx]
        refine ⟨fun h => ?_, nofun⟩
        cases h
        exact Bool.and_false _
      | _ =>
        have hs := run_secure_stops hb (by simp) hx
        rw [hs]
        exact ⟨nofun, nofun⟩
  · rw [run_secure_disconnected ctag w n b hb]
    refine ⟨nofun, fun h => ?_⟩
    cases h
    rfl

end Sys2Proof.Machine

/-! # The counter and the classifier (rules R310 to R320) -/

namespace Sys2Proof.Machine

-- One proof at a time: proofs elaborated in parallel take a thread each, and the check bounds their memory.
set_option Elab.async false

open Config (Answer)

/-! ## Classification -/

/-- The word whose highest-priority bit the classification of `raw` under `mask` is (rule R312). -/
def classified (L : Config.SsrLayout) (raw mask : Word) : Word :=
  if respReady L raw then (raw &&& mask) &&& ~~~(BitVec.twoPow 32 L.busy) else raw &&& mask

/-- A bit other than the busy bit is classified as the mask has it. -/
theorem getLsbD_classified {L : Config.SsrLayout} {raw mask : Word} {p : Nat} (hp : p ≠ L.busy) :
    (classified L raw mask).getLsbD p = (raw.getLsbD p && mask.getLsbD p) := by
  rw [classified]
  split
  · by_cases h32 : p < 32
    · simp [h32, hp]
    · simp [BitVec.getLsbD_of_ge _ _ (Nat.le_of_not_lt h32)]
  · exact BitVec.getLsbD_and

/-- The busy bit does not count while a response is ready. -/
theorem getLsbD_classified_busy (L : Config.SsrLayout) (raw mask : Word) :
    (classified L raw mask).getLsbD L.busy
      = (raw.getLsbD L.busy && mask.getLsbD L.busy && !raw.getLsbD L.respReady) := by
  rw [classified, respReady]
  split
  · rename_i hr
    by_cases h32 : L.busy < 32 <;> simp [BitVec.getLsbD_twoPow, h32, hr]
  · rename_i hr
    rw [Bool.not_eq_true] at hr
    simp [hr]

/-- Settles O26, bit by bit. -/
theorem classifyByPriority : Obligations.ClassifyByPriority := by
  unfold Obligations.ClassifyByPriority
  intro L raw mask hnd
  extract_lets m
  have hbusy : L.busy ∉ [L.respReady, L.sesReady] ++ errorPositions L := (List.nodup_cons.1 hnd).1
  have hbit : ∀ p ∈ errorPositions L, (classified L raw mask).getLsbD p = m p := fun p hp =>
    getLsbD_classified fun e => hbusy (e ▸ List.mem_append_right _ hp)
  simp only [errorPositions, List.mem_cons, List.not_mem_nil, or_false, forall_eq_or_imp, forall_eq] at hbit
  show firstError L (classified L raw mask) = _
  simp only [firstError, hbit, getLsbD_classified_busy]
  rfl

/-- The classification of a word without an error bit. -/
theorem run_checkSsrErrors_clean {s : State} {v : Word} (h : hasError s.cfg.ssr v = false) (mask : Word) :
    (checkSsrErrors v mask).run s = .ok (classify s.cfg.ssr v mask) { s with seq := .classify } := by
  simp only [checkSsrErrors, bind_phase, M.bind_get, h, onlyIf_false, M.bind_pure, M.run_pure]

/-- The classification of a word with an error bit, after the forced fetch. -/
theorem run_checkSsrErrors_error {s t : State} {v : Word} (h : hasError s.cfg.ssr v = true) (mask : Word)
    (ht : forcedFetch.run { s with seq := .classify } = .ok () t) :
    (checkSsrErrors v mask).run s = .ok (classify s.cfg.ssr v mask) { t with seq := .classify } := by
  simp only [checkSsrErrors, bind_phase, M.bind_get, h, onlyIf_true]
  exact (bind_ok ht).trans (bind_phase _ _ _)

/-- An operation that ends with a classification completes with its status. -/
theorem runOp_checkOrRaise {s t : State} {v mask : Word} {st : Status}
    (h : (checkSsrErrors v mask).run s = .ok st t) : runOp (checkOrRaise v mask) s = .next (complete st t) := by
  refine (runOp_bind h).trans ?_
  by_cases hst : st = .ok
  · subst hst
    rfl
  · rw [okOrRaise, if_neg hst]
    rfl

/-! ## The unsigned counter read -/

/-- The unsigned read that the device answers. -/
theorem run_getMc_of_reads {s : State} {x : Transaction} {tc dmc : Word} {rest : List Answer} (hb : s.busIsLocked = true)
    (hx : readsCounter s x tc dmc) (h : s.env.answers = x.answers s.cfg ++ rest) :
    getMc.run s = .ok (tc, dmc) { s.transacted x rest with seq := .read } := by
  obtain ⟨hc, hp, hr, hcl⟩ := hx
  exact run_getMc hb hc hp hr hcl h

/-- Settles O24. -/
theorem unsignedCounterRead : Obligations.UnsignedCounterRead := by
  unfold Obligations.UnsignedCounterRead
  intro s x tc dmc rest hb hx h
  exact (runOp_begins).trans ((runOp_bind (run_getMc_of_reads (s := s.begun) hb hx h)).trans (runOp_ok (run_setRbuf _ _)))

/-! ## Synchronisation -/

/-- The unsigned read of an untrusted counter leaves the copy, whatever the device does. -/
theorem quiet_untrusted {mc : Mc} (h : mc.inSync = false) : Quiet (fun t => t.mc = mc) where
  seq _ _ h := h
  ssrOut _ _ h := h
  ssr _ _ h := h
  inFlight _ _ h := h
  atomic _ _ h := h
  exchanged _ _ _ _ _ _ _ h _ := h
  logEvent _ _ _ h := h
  distrust s hs := by
    subst hs
    rw [← h]
  close _ h := h

theorem getMc_keeps_untrusted {s t : State} {st : Status} (hm : s.mc.inSync = false)
    (h : getMc.run s = .error (.raise st) t) : t.mc = s.mc :=
  ((wp_error h).1 ((quiet_untrusted hm).getMc s rfl rfl)).1

/-- The synchronisation of an untrusted counter whose unsigned read returns: the range decides. -/
theorem run_synchMc_of_getMc {s t : State} {tc dmc : Word} (hm : s.mc.inSync = false)
    (h : getMc.run { s with seq := .sync } = .ok (tc, dmc) t) :
    synchMc.run s = if mcValid tc dmc then .ok () { t with mc := ⟨tc, dmc, true⟩ } else .error (.raise .deviceMcErr) t := by
  simp only [synchMc, M.bind_get, hm, Bool.false_eq_true, if_false, bind_phase]
  refine (bind_ok h).trans ?_
  cases mcValid tc dmc <;> rfl

/-- The synchronisation of an untrusted counter whose unsigned read raises a status. -/
theorem run_synchMc_raise {s t : State} {st : Status} (hm : s.mc.inSync = false)
    (h : getMc.run { s with seq := .sync } = .error (.raise st) t) : synchMc.run s = .error (.raise st) t := by
  simp only [synchMc, M.bind_get, hm, Bool.false_eq_true, if_false, bind_phase]
  exact bind_error h

/-- Settles O22. -/
theorem synchroniseCounter : Obligations.SynchroniseCounter := by
  unfold Obligations.SynchroniseCounter
  intro s
  refine ⟨fun hm => ?_, fun hm => ⟨fun x tc dmc rest hb hx h => ?_, fun st t h => ?_⟩⟩
  · exact runOp_begins.trans (runOp_ok (run_synchMc_inSync (s := s.begun) hm))
  · refine runOp_begins.trans ?_
    have hsync := run_synchMc_of_getMc (s := s.begun) hm (run_getMc_of_reads (s := { s.begun with seq := .sync }) hb hx h)
    by_cases hv : mcValid tc dmc = true
    · rw [if_pos hv] at hsync
      simp only [if_pos ((mcValid_iff tc dmc).1 hv)]
      exact runOp_ok hsync
    · rw [if_neg hv] at hsync
      simp only [if_neg (mt (mcValid_iff tc dmc).2 hv)]
      exact (runOp_raise hsync).trans rfl
  · exact ⟨run_synchMc_raise hm h, getMc_keeps_untrusted (s := { s with seq := .sync }) hm h⟩

/-- Settles O23. -/
theorem useCounter : Obligations.UseCounter := by
  unfold Obligations.UseCounter
  intro s ho
  refine ⟨fun st t h => bind_error h, fun t h => ?_⟩
  obtain ⟨hcfg, _⟩ := (wp_ok h).1 ((cfg_stableAll s).stable.synchMc s rfl rfl)
  have hlim : decide (t.mc.tc.toNat + 1 < Config.tcLim) = decide (t.mc.tc.toNat + 1 < 0xFFFFFFFF) := rfl
  refine (bind_ok h).trans ?_
  have hto : t.cfg.mcUseOrder = .incrementThenFetch := by rw [hcfg, ho]
  rw [M.bind_get, hlim, hto]
  by_cases hlt : t.mc.tc.toNat + 1 < 0xFFFFFFFF
  · rw [if_pos hlt, decide_eq_true hlt, require_true, M.bind_pure, M.bind_set]
    rfl
  · rw [if_neg hlt, decide_eq_false hlt, require_false, bind_raise]

/-! ## The forced fetch and `CHECK_LAST_SSR_ERRORS` -/

/-- What stops the unsigned read for good stops the classification. -/
theorem run_checkSsrErrors_stops {s t : State} {v : Word} {e : Stop} (h : hasError s.cfg.ssr v = true) (mask : Word)
    (he : ∀ st, e ≠ .raise st) (ht : getMc.run { s with seq := .classify } = .error e t) :
    (checkSsrErrors v mask).run s = .error e t := by
  simp only [checkSsrErrors, bind_phase, M.bind_get, h, onlyIf_true]
  refine bind_error ?_
  simp only [forcedFetch, M.bind_get]
  refine bind_error ?_
  rw [run_attempt, ht]
  cases e with
  | raise st => exact absurd rfl (he st)
  | _ => rfl

/-- An operation that has begun, with the snapshot in `ssrOut`. -/
def State.snapshotOut (s : State) : State := { s.begun with out := { s.begun.out with ssrOut := s.ssr } }

/-- `CHECK_LAST_SSR_ERRORS` is the classification of the snapshot. -/
theorem exec_checkLastSsrErrors {s t : State} {mask : Word} {st : Status}
    (h : (checkSsrErrors s.ssr mask).run s.snapshotOut = .ok st t) :
    exec (.checkLastSsrErrors mask) s = .next (complete st t) :=
  runOp_begins.trans ((runOp_bind (run_setSsrOut s.ssr s.begun)).trans (runOp_checkOrRaise h))

/-- Settles O27: no error bit, the fetch answered, the fetch refused. -/
theorem checkLastStatusRuns : Obligations.CheckLastStatusRuns := by
  unfold Obligations.CheckLastStatusRuns
  intro s mask
  refine ⟨fun he => ?_, fun he hb x tc dmc rest hx h => ?_, fun he hb => ?_⟩
  · exact exec_checkLastSsrErrors (run_checkSsrErrors_clean (s := s.snapshotOut) he mask)
  · have hget := run_getMc_of_reads (s := { s.snapshotOut with seq := .classify }) hb hx h
    refine (exec_checkLastSsrErrors
      (run_checkSsrErrors_error (s := s.snapshotOut) he mask (run_forcedFetch (attempt_ok hget)))).trans ?_
    by_cases hv : mcValid tc dmc = true
    · simp only [if_pos ((mcValid_iff tc dmc).1 hv), afterFetch_of_valid hv]
      rfl
    · simp only [if_neg (mt (mcValid_iff tc dmc).2 hv), afterFetch_of_invalid hv]
      rfl
  · have hget := run_getMc_unlocked (s := { s.snapshotOut with seq := .classify }) hb
    exact (exec_checkLastSsrErrors
      (run_checkSsrErrors_error (s := s.snapshotOut) he mask (run_forcedFetch (attempt_raise hget)))).trans rfl

/-- Settles O60, by the outcome of the unsigned read. -/
theorem errorLeavesCounterSound : Obligations.ErrorLeavesCounterSound := by
  unfold Obligations.ErrorLeavesCounterSound
  intro s t raw mask st he h
  cases hg : getMc.run { s with seq := .classify } with
  | ok r u =>
    obtain ⟨tc, dmc⟩ := r
    have hrun := run_checkSsrErrors_error he mask (run_forcedFetch (attempt_ok hg))
    rw [h] at hrun
    cases hrun
    by_cases hv : mcValid tc dmc = true
    · rw [afterFetch_of_valid hv]
      exact .inr ⟨hv, u, rfl⟩
    · rw [afterFetch_of_invalid hv]
      exact .inl rfl
  | error e u =>
    cases e with
    | raise st' =>
      have hrun := run_checkSsrErrors_error he mask (run_forcedFetch (attempt_raise hg))
      rw [h] at hrun
      cases hrun
      exact .inl rfl
    | _ =>
      have hstop := run_checkSsrErrors_stops he mask (by simp) hg
      rw [h] at hstop
      cases hstop

end Sys2Proof.Machine

/-! # The session operations that the device answers (rules R140 to R148, R313) -/

namespace Sys2Proof.Machine

-- One proof at a time: proofs elaborated in parallel take a thread each, and the check bounds their memory.
set_option Elab.async false

open Config (Answer)

/-! ## The transaction of a frame without a response -/

/-- A frame that nothing disturbs and that asks for no response. -/
theorem run_secureOrRaise_frame {s : State} {x : Transaction} {ctag : Word} {w : Bytes} {rest : List Answer}
    (hb : s.busIsLocked = true) (hx : x.good s.cfg = true) (hc : ctag = x.ctag) (hw : w = x.payload)
    (hr : x.response = []) (h : s.env.answers = x.answers s.cfg ++ rest) :
    (secureOrRaise ctag w 0 true).run s = .ok (none, x.final s.cfg) { s.transacted x rest with seq := .wait } := by
  have hrun := run_secureOrRaise_good hb hx h
  rw [hr, if_pos rfl, if_pos rfl] at hrun
  rw [hc, hw]
  exact hrun

theorem good_of_clean {cfg : Config.Params} {x : Transaction} (h : x.clean cfg = true) : x.good cfg = true :=
  (Bool.and_eq_true_iff.1 h).1

theorem noError_of_clean {cfg : Config.Params} {x : Transaction} (h : x.clean cfg = true) :
    hasError cfg.ssr (x.final cfg) = false := by
  simpa using (Bool.and_eq_true_iff.1 h).2

/-- A clean transaction is classified `OK` under every mask. -/
theorem run_checkSsrErrors_final {s : State} {x : Transaction} (h : x.clean s.cfg = true) (mask : Word) :
    (checkSsrErrors (x.final s.cfg) mask).run s = .ok .ok { s with seq := .classify } := by
  rw [run_checkSsrErrors_clean (noError_of_clean h),
    classify_ok (noError_of_clean h) (waitOver_final (good_of_clean h))]

/-- The forced fetch that the device answers with a valid counter. -/
theorem run_checkSsrErrors_refetch {s : State} {v : Word} {y : Transaction} {tc dmc : Word} {rest : List Answer}
    (hb : s.busIsLocked = true) (he : hasError s.cfg.ssr v = true) (hy : readsCounter s y tc dmc)
    (hv : mcValid tc dmc = true) (h : s.env.answers = y.answers s.cfg ++ rest) (mask : Word) :
    (checkSsrErrors v mask).run s =
      .ok (classify s.cfg.ssr v mask) { s.refetched y tc dmc rest with seq := .classify } := by
  obtain ⟨hc, hp, hr, hcl⟩ := hy
  exact run_checkSsrErrors_fetch hb he hc hp hr hcl hv h

/-! ## The handshake -/

/-- A handshake whose frame nothing disturbs, over whatever tick `use_mc` returned (rule R142). -/
theorem run_handshake_of_useMc {s u : State} {k : Byte} {key : Bytes} {iw is : Bool} {tc dmc : Word} {x : Transaction}
    {rest : List Answer} (hu : useMc.run (State.drawn { s with seq := .derive } .nonce) = .ok (tc, dmc) u)
    (hb : u.busIsLocked = true) (hx : x.good u.cfg = true)
    (hc : x.ctag = mkCtag s.cfg.wire.sessionOpen k (modeFlags iw is))
    (hp : x.payload = nonceOf s.env.prng
      ++ (sessionOf u.cfg key x.ctag tc dmc (nonceOf s.env.prng) (if iw then some u.conf.wid else none)).2)
    (hr : x.response = []) (h : u.env.answers = x.answers u.cfg ++ rest) :
    (handshake k key iw is).run s =
      .ok ((sessionOf u.cfg key x.ctag tc dmc (nonceOf s.env.prng) (if iw then some u.conf.wid else none)).1, x.final u.cfg)
        { (u.called [.deriveSession]).transacted x rest with kid := k, seq := .wait } := by
  have hframe := run_secureOrRaise_frame
    (s := { u.called [.deriveSession] with seq := .derive, kid := k }) (x := x) hb hx rfl rfl hr h
  simp only [handshake, bind_phase, drawNonce, bind_draw, M.bind_get]
  refine (bind_ok hu).trans ?_
  simp only [bind_phase, bind_cryptoCall, bind_setKid]
  rw [hc] at hp hframe ⊢
  rw [hp] at hframe
  exact bind_ok hframe

/-- A handshake whose tick is refused. -/
theorem run_handshake_raise {s u : State} {k : Byte} {key : Bytes} {iw is : Bool} {st : Status}
    (hu : useMc.run (State.drawn { s with seq := .derive } .nonce) = .error (.raise st) u) :
    (handshake k key iw is).run s = .error (.raise st) u := by
  simp only [handshake, bind_phase, drawNonce, bind_draw, M.bind_get]
  exact bind_error hu

/-! ## Open -/

/-- The part of an open that runs under `attempt`: it returns the session key (rule R143). -/
def openAttempt (k : Byte) (key : Bytes) (iw is : Bool) : M Bytes := do
  let (sk, sv) ← handshake k key iw is
  let s ← get
  checkOrRaise sv (openMask s.cfg.ssr k)
  require (sessionReady s.cfg.ssr sv k) .systemInIncorrectState
  pure sk

/-- How an open ends: with the session key, or with a status past the wipe (rules R30, R143). -/
def State.opened (t : State) : Except Status Bytes → State
  | .ok sk => complete .ok (t.withKeys sk)
  | .error st => t.closed st

/-- The classification under the mask of the open, then the readiness (rules R143, R313). -/
theorem run_openAttempt {s t u : State} {k : Byte} {key sk : Bytes} {iw is : Bool} {sv : Word} {st : Status}
    (hh : (handshake k key iw is).run s = .ok (sk, sv) t)
    (hc : (checkSsrErrors sv (openMask t.cfg.ssr k)).run t = .ok st u) :
    (openAttempt k key iw is).run s =
      if st = .ok then
        if sessionReady t.cfg.ssr sv k then .ok sk u else .error (.raise .systemInIncorrectState) u
      else .error (.raise st) u := by
  refine (bind_ok hh).trans ((M.bind_get _ _).trans ?_)
  by_cases hst : st = .ok
  · subst hst
    have hok : (checkOrRaise sv (openMask t.cfg.ssr k)).run t = .ok () u := (bind_ok hc).trans rfl
    refine (bind_ok hok).trans ?_
    cases sessionReady t.cfg.ssr sv k <;> rfl
  · have hraise : (checkOrRaise sv (openMask t.cfg.ssr k)).run t = .error (.raise st) u := by
      refine (bind_ok hc).trans ?_
      rw [okOrRaise, if_neg hst]
      rfl
    rw [if_neg hst]
    exact bind_error hraise

theorem openKey_of_opensWith {s : State} {k : Byte} {hasKey : Bool} {key : Bytes} (h : opensWith s k hasKey key) :
    openKey s k hasKey = some key := by
  unfold opensWith at h
  unfold openKey
  cases hasKey
  · obtain ⟨hk, hg⟩ := h
    rw [kidIsSection_eq, decide_eq_true hk, kidIsFull_eq, toNat_kidSection]
    exact hg
  · exact congrArg some (Eq.symm h)

/-- `SESSION_OPEN` past its checks ends as its attempt does. -/
theorem exec_sessionOpen_of_key {s t : State} {k : Byte} {hasKey iw is : Bool} {key : Bytes} {r : Except Status Bytes}
    (hb : s.busIsLocked = true) (hk : kidOk s k = true) (hkey : openKey s k hasKey = some key)
    (h : (attempt (openAttempt k key iw is)).run s.begun = .ok r t) :
    exec (.sessionOpen k hasKey iw is) s = .next (t.opened r) := by
  refine (runOp_passes hb).trans ((runOp_passes hk).trans ?_)
  rw [hkey]
  refine runOp_begins.trans ((runOp_bind h).trans ?_)
  cases r <;> rfl

theorem exec_sessionOpen_of_attempt {s t : State} {k : Byte} {hasKey iw is : Bool} {key : Bytes} {r : Except Status Bytes}
    (hb : s.busIsLocked = true) (hk : kidOk s k = true) (hkey : opensWith s k hasKey key)
    (h : (attempt (openAttempt k key iw is)).run s.begun = .ok r t) :
    exec (.sessionOpen k hasKey iw is) s = .next (t.opened r) :=
  exec_sessionOpen_of_key hb hk (openKey_of_opensWith hkey) h

/-! ## Close -/

/-- The classification that tolerates everything, then the readiness (rules R147, R313). -/
theorem run_closeHandshake {s t u : State} {k : Byte} {sk : Bytes} {sv : Word} {st : Status}
    (hh : (handshake k (List.replicate s.cfg.keyBytes 0) false false).run s = .ok (sk, sv) t)
    (hc : (checkSsrErrors sv maskNone).run t = .ok st u) :
    (closeHandshake k).run s =
      if st = .ok then
        if sesReady s.cfg.ssr sv then .error (.raise .systemInIncorrectState) u else .ok () u
      else .error (.raise st) u := by
  refine (M.bind_get _ _).trans ((bind_ok hh).trans ?_)
  by_cases hst : st = .ok
  · subst hst
    have hok : (checkOrRaise sv maskNone).run t = .ok () u := (bind_ok hc).trans rfl
    refine (bind_ok hok).trans ?_
    cases sesReady s.cfg.ssr sv <;> rfl
  · have hraise : (checkOrRaise sv maskNone).run t = .error (.raise st) u := by
      refine (bind_ok hc).trans ?_
      rw [okOrRaise, if_neg hst]
      rfl
    rw [if_neg hst]
    exact bind_error hraise

/-- The status of an attempt. -/
def statusOf {α : Type} : Except Status α → Status
  | .ok _ => .ok
  | .error st => st

/-- `SESSION_CLOSE` past its checks ends wiped, with the status of its handshake. -/
theorem exec_sessionClose_of_attempt {s t : State} {k : Byte} {r : Except Status Unit} (hb : s.busIsLocked = true)
    (hk : kidOk s k = true) (h : (attempt (closeHandshake k)).run s.begun = .ok r t) :
    exec (.sessionClose k) s = .next (t.closed (statusOf r)) := by
  refine (runOp_passes hb).trans ((runOp_passes hk).trans ?_)
  refine runOp_begins.trans ((runOp_bind h).trans ?_)
  cases r <;> rfl

/-! ## Over a trusted counter -/

/-- A handshake over a trusted counter whose frame nothing disturbs. -/
theorem run_handshake_sent {s : State} {k : Byte} {key : Bytes} {iw is : Bool} {x : Transaction} {rest : List Answer}
    (hb : s.busIsLocked = true) (ht : canTick s = true) (hx : x.good s.cfg = true)
    (ha : asksSession s k (modeFlags iw is) key iw x) (h : s.env.answers = x.answers s.cfg ++ rest) :
    (handshake k key iw is).run s =
      .ok ((sessionSecrets s key iw x.ctag).1, x.final s.cfg) { s.handshaken x rest with kid := k, seq := .wait } := by
  obtain ⟨hc, hp, hr⟩ := ha
  exact run_handshake_of_useMc (run_useMc (s := State.drawn { s with seq := .derive } .nonce) ht) hb hx hc hp hr h

/-- An open whose handshake meets no error, over whatever tick: the readiness decides. -/
theorem exec_sessionOpen_of_handshake {s t : State} {k : Byte} {hasKey iw is : Bool} {key sk : Bytes} {x : Transaction}
    (hb : s.busIsLocked = true) (hk : kidOk s k = true) (hkey : opensWith s k hasKey key) (hx : x.clean t.cfg = true)
    (hh : (handshake k key iw is).run s.begun = .ok (sk, x.final t.cfg) t) :
    exec (.sessionOpen k hasKey iw is) s = .next (t.opened
      (if sessionReady t.cfg.ssr (x.final t.cfg) k then .ok sk else .error .systemInIncorrectState)) := by
  have hatt := run_openAttempt hh (run_checkSsrErrors_final (s := t) hx _)
  rw [if_pos rfl] at hatt
  cases hr : sessionReady t.cfg.ssr (x.final t.cfg) k
  · rw [hr] at hatt
    exact (exec_sessionOpen_of_attempt hb hk hkey (attempt_raise hatt)).trans rfl
  · rw [hr] at hatt
    exact (exec_sessionOpen_of_attempt hb hk hkey (attempt_ok hatt)).trans rfl

theorem exec_sessionOpen_clean {s : State} {k : Byte} {hasKey iw is : Bool} {key : Bytes} {x : Transaction}
    {rest : List Answer} (hb : s.busIsLocked = true) (hk : kidOk s k = true) (ht : canTick s = true)
    (hx : x.clean s.cfg = true) (hkey : opensWith s k hasKey key) (ha : asksSession s k (modeFlags iw is) key iw x)
    (h : s.env.answers = x.answers s.cfg ++ rest) :
    exec (.sessionOpen k hasKey iw is) s = .next (State.opened { s.begun.handshaken x rest with kid := k, seq := .wait }
      (if sessionReady s.cfg.ssr (x.final s.cfg) k then .ok (sessionSecrets s key iw x.ctag).1
        else .error .systemInIncorrectState)) :=
  exec_sessionOpen_of_handshake (t := { s.begun.handshaken x rest with kid := k, seq := .wait }) hb hk hkey hx
    (run_handshake_sent (s := s.begun) hb ht (good_of_clean hx) ha h)

/-- A close whose handshake meets no error, over whatever tick: the readiness decides. -/
theorem exec_sessionClose_of_handshake {s t : State} {k : Byte} {sk : Bytes} {x : Transaction} (hb : s.busIsLocked = true)
    (hk : kidOk s k = true) (hx : x.clean t.cfg = true)
    (hh : (handshake k (List.replicate s.cfg.keyBytes 0) false false).run s.begun = .ok (sk, x.final t.cfg) t) :
    exec (.sessionClose k) s = .next (t.closed
      (if sesReady s.cfg.ssr (x.final t.cfg) then .systemInIncorrectState else .ok)) := by
  have hatt := run_closeHandshake (s := s.begun) hh (run_checkSsrErrors_final (s := t) hx _)
  rw [if_pos rfl] at hatt
  cases hr : sesReady s.cfg.ssr (x.final t.cfg)
  · exact (exec_sessionClose_of_attempt hb hk (attempt_ok (hatt.trans (if_neg (by
      show ¬ sesReady s.cfg.ssr (x.final t.cfg) = true
      rw [hr]
      decide))))).trans rfl
  · exact (exec_sessionClose_of_attempt hb hk (attempt_raise (hatt.trans (if_pos hr)))).trans rfl

theorem exec_sessionClose_clean {s : State} {k : Byte} {x : Transaction} {rest : List Answer}
    (hb : s.busIsLocked = true) (hk : kidOk s k = true) (ht : canTick s = true) (hx : x.clean s.cfg = true)
    (ha : asksSession s k 0 (List.replicate s.cfg.keyBytes 0) false x)
    (h : s.env.answers = x.answers s.cfg ++ rest) :
    exec (.sessionClose k) s = .next ((s.begun.handshaken x rest).closed
      (if sesReady s.cfg.ssr (x.final s.cfg) then .systemInIncorrectState else .ok)) :=
  (exec_sessionClose_of_handshake (t := { s.begun.handshaken x rest with kid := k, seq := .wait }) hb hk hx
    (run_handshake_sent (s := s.begun) (iw := false) (is := false) hb ht (good_of_clean hx) ha h)).trans rfl

theorem sessionReady_iff (L : Config.SsrLayout) (v : Word) (k : Byte) :
    sessionReady L v k = true ↔ sesReady L v = true ∧ ssrKid L v = k := by
  rw [sessionReady, Bool.and_eq_true, beq_iff_eq]

/-- Settles O28. -/
theorem sessionOpenRuns : Obligations.SessionOpenRuns := by
  unfold Obligations.SessionOpenRuns
  intro s k hasKey iw is key x rest r hb hk ht hkey hc hp hr hx hready hkid h
  refine (exec_sessionOpen_clean hb hk ht hx hkey ⟨hc, hp, hr⟩ h).trans ?_
  rw [(sessionReady_iff _ _ _).2 ⟨hready, hkid⟩]
  rfl

/-- Settles O29. -/
theorem sessionCloseRuns : Obligations.SessionCloseRuns := by
  unfold Obligations.SessionCloseRuns
  intro s k x rest r hb hk ht hc hp hr hx hready h
  refine (exec_sessionClose_clean hb hk ht hx ⟨hc, hp, hr⟩ h).trans ?_
  rw [hready]
  rfl

/-- Settles O30. -/
theorem sessionMismatchRefused : Obligations.SessionMismatchRefused := by
  unfold Obligations.SessionMismatchRefused
  intro s k x rest hb hk ht hx h
  refine ⟨fun hasKey iw is key hkey ha hready => ?_, fun ha hready => ?_⟩
  · refine (exec_sessionOpen_clean hb hk ht hx hkey ha h).trans ?_
    rw [Bool.eq_false_iff.2 (mt (sessionReady_iff _ _ _).1 hready)]
    rfl
  · refine (exec_sessionClose_clean hb hk ht hx ha h).trans ?_
    rw [hready]
    rfl

/-! ## Revocation -/

/-- The section of a KID as the parameter of the init plain access. -/
theorem kidSection_setWidth (k : Byte) : (kidSection k).setWidth 8 = k &&& 0x0F := by
  apply BitVec.eq_of_toNat_eq
  rw [BitVec.toNat_setWidth, toNat_kidSection, BitVec.toNat_and]
  have h := Nat.and_two_pow_sub_one_eq_mod k.toNat 4
  have hlt : k.toNat % 16 < 256 := by omega
  rw [Nat.mod_eq_of_lt hlt]
  exact h.symm

/-- The init plain access that nothing disturbs (rule R148). -/
theorem run_initPa {s : State} {sect : Byte} {x : Transaction} {rest : List Answer} (hb : s.busIsLocked = true)
    (ht : canTick s = true) (hx : x.clean s.cfg = true) (hc : x.ctag = mkCtag s.cfg.wire.initPa sect 0)
    (hp : x.payload = []) (hr : x.response = []) (h : s.env.answers = x.answers s.cfg ++ rest) :
    (initPa sect).run s = .ok () { s.ticked.transacted x rest with seq := .classify } := by
  refine (bind_ok (run_useMc ht)).trans ((M.bind_get _ _).trans ?_)
  refine (bind_ok (run_secureOrRaise_frame (s := s.ticked) hb (good_of_clean hx) hc.symm hp.symm hr h)).trans ?_
  exact run_checkAllOrRaise (s := { s.ticked.transacted x rest with seq := .wait }) (noError_of_clean hx)
    (waitOver_final (good_of_clean hx))

/-- Settles O31. -/
theorem revokePlainAccessRuns : Obligations.RevokePlainAccessRuns := by
  unfold Obligations.RevokePlainAccessRuns
  intro s k x rest hb hk hsect ht hc hp hr hx h
  have hok : (kidOk s k && kidIsSection k) = true := by rw [hk, kidIsSection_eq, decide_eq_true hsect]; rfl
  have hc' : x.ctag = mkCtag s.cfg.wire.initPa ((kidSection k).setWidth 8) 0 := by rw [hc, kidSection_setWidth]
  refine (runOp_passes hb).trans ((runOp_passes hok).trans (runOp_begins.trans ?_))
  refine (runOp_bind (run_initPa (s := s.begun) hb ht hx hc' hp hr h)).trans ?_
  rw [toNat_kidSection]
  rfl

end Sys2Proof.Machine

/-! # Signing and the signed setters (rules R162 to R173, R224 to R230, R295 to R297, R350) -/

namespace Sys2Proof.Machine

-- One proof at a time: proofs elaborated in parallel take a thread each, and the check bounds their memory.
set_option Elab.async false

open Config (Answer)

/-! ## What a preparation leaves as it was -/

theorem prepared_frame (s : State) (ctag : Word) (data : Bytes) (encData encAddr : Bool) :
    let t := s.prepared ctag data encData encAddr
    t.cfg = s.cfg ∧ t.busIsLocked = s.busIsLocked ∧ t.env.answers = s.env.answers ∧ t.mc = s.mc ∧ t.kid = s.kid
      ∧ t.sessionKey = s.sessionKey ∧ t.ssr = s.ssr ∧ t.inFlight = s.inFlight ∧ t.conf = s.conf ∧ t.out = s.out
      ∧ t.ctxIdx = s.ctxIdx ∧ t.ctx (!s.ctxIdx) = s.ctx (!s.ctxIdx) ∧ t.atomic = s.atomic := by
  dsimp only [State.prepared, State.signed]
  split <;> simp

theorem prepared_setSeq (s : State) (p : Phase) (ctag : Word) (data : Bytes) (encData encAddr : Bool) :
    ({ s with seq := p } : State).prepared ctag data encData encAddr
      = { s.prepared ctag data encData encAddr with seq := p } := by
  rcases s with ⟨_, _, _, _, _, _, _, _, _, _, _, ctxIdx, _, _, _, _, _, _⟩
  cases ctxIdx <;> cases encData <;> cases encAddr <;> rfl

theorem signed_out (s : State) (ctag : Word) (data : Bytes) (refresh : Bool) :
    (s.signed ctag data refresh).out = s.out := by
  unfold State.signed
  cases s.ctxIdx <;> rfl

/-! ## Signing and preparing -/

theorem dataFits_of_le {size : BitVec 16} (h : size.toNat ≤ 32) : dataFits size = true :=
  (dataFits_iff size).2 (Nat.not_lt.2 h)

/-- Settles O34. -/
theorem signDataRuns : Obligations.SignDataRuns := by
  unfold Obligations.SignDataRuns
  intro s refresh ctag size hsize
  refine (runOp_passes (dataFits_of_le hsize)).trans (runOp_begins.trans ?_)
  refine (runOp_bind (run_signData s.begun ctag (dataOperand s size) refresh)).trans ((runOp_ok (run_setSigOut _ _)).trans ?_)
  show Host.Outcome.next { s.begun.signed ctag (dataOperand s size) refresh with
    out := { (s.begun.signed ctag (dataOperand s size) refresh).out with
      sigOut := signature s ctag (dataOperand s size) refresh }
    status := .ok
    seq := .idle } = _
  rw [signed_out]

/-- Settles O35. -/
theorem prepareSetterRuns : Obligations.PrepareSetterRuns := by
  unfold Obligations.PrepareSetterRuns
  intro s encData encAddr ctag size hsize hdata
  have hok : (dataFits size && encryptable encData size) = true := by
    rw [dataFits_of_le hsize, (encryptable_iff _ _).2 hdata]
    rfl
  refine (runOp_passes hok).trans (runOp_begins.trans ?_)
  refine (runOp_bind (run_prepareSetter s.begun ctag (dataOperand s size) encData encAddr)).trans ?_
  obtain ⟨_, _, _, _, _, _, _, _, _, hout, _⟩ := prepared_frame s.begun ctag (dataOperand s size) encData encAddr
  show Host.Outcome.next { s.begun.prepared ctag (dataOperand s size) encData encAddr with
    out := { (s.begun.prepared ctag (dataOperand s size) encData encAddr).out with
      ctagOut := sentCtag s encAddr ctag
      sigOut := signature s ctag (dataOperand s size) true
      rbuf := sentData s encData (dataOperand s size) }
    status := .ok
    seq := .idle } = _
  rw [hout]

/-! ## The operations that are the generic setter -/

/-- The operands of `execute_signed_setter` (rule R164). -/
structure SetterCall where
  ctag : Word
  data : Bytes
  encData : Bool
  encAddr : Bool
  mask : Word

/-- `execute_signed_setter` past its boundary checks. -/
def SetterCall.run (c : SetterCall) : M Unit := runSetter c.ctag c.data c.encData c.encAddr c.mask

/-- A call with a CTAG that is sent in plain, and its data. -/
def plainCall (s : State) (opc param : Byte) (mode : BitVec 16) (data : Bytes) (mask : Config.SsrLayout → Word) :
    SetterCall :=
  ⟨mkCtag opc param mode, data, false, false, mask s.cfg.ssr⟩

/-- The operations that call the generic setter without a draw before it (rules R164 to R173, R228, R229). -/
def setterCall (s : State) : Instr → Option SetterCall
  | .executeSignedSetter encData encAddr ctag size mask => some ⟨ctag, dataOperand s size, encData, encAddr, mask⟩
  | .setKey k size => some (plainCall s s.cfg.wire.setKey k 0 (dataOperand s size) maskIgnoreIgnore)
  | .setSuid size => some (plainCall s s.cfg.wire.setSuid 0 0 (dataOperand s size) maskAllErrors)
  | .setGmc size => some (plainCall s s.cfg.wire.setGmc 0 0 (dataOperand s size) maskAllErrors)
  | .setGmt size => some (plainCall s s.cfg.wire.setGmt 0 0 (dataOperand s size) maskAllErrors)
  | .setAwdt size => some (plainCall s s.cfg.wire.setAwdt 0 0 (dataOperand s size) maskAllErrors)
  | .setScr initPa reset size sect =>
    some (plainCall s s.cfg.wire.setScr sect (modeFlags initPa reset) (dataOperand s size) maskAllErrors)
  | .setRstResp size => some (plainCall s s.cfg.wire.setRstResp 0 0 (dataOperand s size) maskAllErrors)
  | .setAclr size => some (plainCall s s.cfg.wire.setAclr 0 0 (dataOperand s size) maskAllErrors)
  | .seraseSection sect => some (plainCall s s.cfg.wire.eraseSection sect 0 [] maskAllErrors)
  | .seraseChip => some (plainCall s s.cfg.wire.eraseChip 0 0 [] maskAllErrors)
  | _ => none

/-- Past its boundary checks such an operation is the generic setter. -/
theorem exec_of_setterCall {s : State} {i : Instr} {c : SetterCall} (hc : setterCall s i = some c)
    (hb : s.busIsLocked = true) (hok : ¬ badOperands s i) : exec i s = runOp c.run s.begun := by
  have hpass := (operandsPass_iff s i).2 hok
  cases i <;> cases hc
  case seraseChip => exact (runOp_passes hb).trans runOp_begins
  all_goals exact (runOp_passes hb).trans ((runOp_passes hpass).trans runOp_begins)

/-! ## One call of the generic setter -/

/-- The setter up to its transaction, over whatever tick `use_mc` returned. -/
theorem run_runSetter_prepared {s u : State} {tick : Word × Word} {ctag mask : Word} {data : Bytes}
    {encData encAddr : Bool} (hu : useMc.run s = .ok tick u) :
    (runSetter ctag data encData encAddr mask).run s = (do
      let (_, sv) ← secureOrRaise (sentCtag u encAddr ctag) (sentData u encData data ++ signature u ctag data true) 0 true
      checkOrRaise sv mask : M Unit).run { u.prepared ctag data encData encAddr with seq := .derive } := by
  simp only [runSetter, bind_ok hu, bind_ok (run_prepareSetter u ctag data encData encAddr)]

theorem run_runSetter_of_useMc {s u : State} {tick : Word × Word} {ctag mask : Word} {data : Bytes}
    {encData encAddr : Bool} {x : Transaction} (hu : useMc.run s = .ok tick u)
    (hs : sendsSetter u ctag data encData encAddr x) :
    (runSetter ctag data encData encAddr mask).run s = (do
      let (_, sv) ← secureOrRaise x.ctag x.payload 0 true
      checkOrRaise sv mask : M Unit).run { u.prepared ctag data encData encAddr with seq := .derive } := by
  obtain ⟨hc, hp, _⟩ := hs
  rw [run_runSetter_prepared hu, hc, hp]

/-- The setter whose transaction nothing disturbs, up to its classification. -/
theorem run_runSetter_sent {s u : State} {tick : Word × Word} {ctag mask : Word} {data : Bytes} {encData encAddr : Bool}
    {x : Transaction} {rest : List Answer} (hu : useMc.run s = .ok tick u) (hb : u.busIsLocked = true)
    (hx : x.good u.cfg = true) (hs : sendsSetter u ctag data encData encAddr x)
    (h : u.env.answers = x.answers u.cfg ++ rest) :
    (runSetter ctag data encData encAddr mask).run s = (checkOrRaise (x.final u.cfg) mask).run
      { (u.prepared ctag data encData encAddr).transacted x rest with seq := .wait } := by
  obtain ⟨hcfg, hlock, hans, _⟩ := prepared_frame u ctag data encData encAddr
  refine (run_runSetter_of_useMc hu hs).trans ?_
  generalize u.prepared ctag data encData encAddr = v at hcfg hlock hans ⊢
  rw [← hcfg] at hx h ⊢
  rw [← hans] at h
  rw [← hlock] at hb
  have hframe := run_secureOrRaise_frame (s := { v with seq := .derive }) (x := x) hb hx rfl rfl hs.2.2 h
  rw [bind_ok hframe]
  rfl

/-- The setter that meets no error, over whatever tick. -/
theorem run_runSetter_clean {s u : State} {tick : Word × Word} {ctag mask : Word} {data : Bytes} {encData encAddr : Bool}
    {x : Transaction} {rest : List Answer} (hu : useMc.run s = .ok tick u) (hb : u.busIsLocked = true)
    (hx : x.clean u.cfg = true) (hs : sendsSetter u ctag data encData encAddr x)
    (h : u.env.answers = x.answers u.cfg ++ rest) :
    (runSetter ctag data encData encAddr mask).run s =
      .ok () { (u.prepared ctag data encData encAddr).transacted x rest with seq := .classify } := by
  obtain ⟨hcfg, _⟩ := prepared_frame u ctag data encData encAddr
  refine (run_runSetter_sent hu hb (good_of_clean hx) hs h).trans ?_
  rw [← hcfg] at hx ⊢
  exact (bind_ok (run_checkSsrErrors_final
    (s := { (u.prepared ctag data encData encAddr).transacted x rest with seq := .wait }) hx mask)).trans rfl

/-- The operation of a setter that meets no error (rule R164). -/
theorem exec_setter_done {s : State} {i : Instr} {c : SetterCall} {x : Transaction} {rest : List Answer}
    (hc : setterCall s i = some c) (hok : ¬ badOperands s i) (hb : s.busIsLocked = true) (ht : canTick s = true)
    (hs : sendsSetter s.begun.ticked c.ctag c.data c.encData c.encAddr x) (hx : x.clean s.cfg = true)
    (h : s.env.answers = x.answers s.cfg ++ rest) :
    exec i s = .next (s.begun.setterDone c.ctag c.data c.encData c.encAddr x rest) := by
  refine (exec_of_setterCall hc hb hok).trans ?_
  exact (runOp_ok (run_runSetter_clean (run_useMc (s := s.begun) ht) hb hx hs h)).trans rfl

theorem executeSetter_ok {s : State} {encData encAddr : Bool} {ctag mask : Word} {size : BitVec 16}
    (hsize : size.toNat ≤ 32) (hdata : encData = true → size.toNat = 32) :
    ¬ badOperands s (.executeSignedSetter encData encAddr ctag size mask) := by
  rintro (hlong | ⟨henc, hne⟩)
  · exact absurd hlong (Nat.not_lt.2 hsize)
  · exact hne (hdata henc)

/-- Settles O36. -/
theorem executeSetterRuns : Obligations.ExecuteSetterRuns := by
  unfold Obligations.ExecuteSetterRuns
  intro s encData encAddr ctag mask size x rest hb ht hsize hdata hs hx h
  exact exec_setter_done (i := .executeSignedSetter encData encAddr ctag size mask) rfl (executeSetter_ok hsize hdata) hb ht
    hs hx h

/-- The named setters with their opcode, parameter and mode, and the status they answer to an ignored command (rules R165
to R173, R313). -/
def namedSetters (s : State) (size : BitVec 16) (k sect : Byte) (initPa reset : Bool) :
    List (Instr × Byte × Byte × BitVec 16 × Status) :=
  [(.setKey k size, s.cfg.wire.setKey, k, 0, .ok), (.setSuid size, s.cfg.wire.setSuid, 0, 0, .commandIgnored),
    (.setGmc size, s.cfg.wire.setGmc, 0, 0, .commandIgnored), (.setGmt size, s.cfg.wire.setGmt, 0, 0, .commandIgnored),
    (.setAwdt size, s.cfg.wire.setAwdt, 0, 0, .commandIgnored),
    (.setScr initPa reset size sect, s.cfg.wire.setScr, sect, modeFlags initPa reset, .commandIgnored),
    (.setRstResp size, s.cfg.wire.setRstResp, 0, 0, .commandIgnored),
    (.setAclr size, s.cfg.wire.setAclr, 0, 0, .commandIgnored)]

/-- A named setter calls the generic one with its own CTAG and nothing encrypted, under the mask that tolerates the
ignored bit for `SET_KEY` only. -/
theorem setterCall_named {s : State} {size : BitVec 16} {k sect : Byte} {initPa reset : Bool} {i : Instr}
    {opc param : Byte} {mode : BitVec 16} {st : Status}
    (hm : (i, opc, param, mode, st) ∈ namedSetters s size k sect initPa reset) (hsize : size.toNat ≤ 32)
    (hk : kidOk s k = true) (hsect : sect.toNat < s.cfg.numSections) :
    setterCall s i = some (plainCall s opc param mode (dataOperand s size)
      (if st = .ok then maskIgnoreIgnore else maskAllErrors)) ∧ ¬ badOperands s i := by
  have hlong : ¬ tooLong size := Nat.not_lt.2 hsize
  simp only [namedSetters, List.mem_cons, List.not_mem_nil, or_false, Prod.mk.injEq] at hm
  rcases hm with h | h | h | h | h | h | h | h <;> obtain ⟨rfl, rfl, rfl, rfl, rfl⟩ := h
  case inl => exact ⟨rfl, fun hbad => hbad.elim ((kidValid_iff _ _).1 hk) hlong⟩
  case inr.inr.inr.inr.inr.inl => exact ⟨rfl, fun hbad => hbad.elim (Nat.not_le.2 hsect) hlong⟩
  all_goals exact ⟨rfl, hlong⟩

/-- Settles O38. -/
theorem namedSettersRun : Obligations.NamedSettersRun := by
  unfold Obligations.NamedSettersRun
  intro s size k sect initPa reset x rest i opc param mode hm hb ht hsize hk hsect hs hx h
  have hm' : (i, opc, param, mode) ∈ (namedSetters s size k sect initPa reset).map
    fun e => (e.1, e.2.1, e.2.2.1, e.2.2.2.1) := hm
  obtain ⟨⟨i', opc', param', mode', st⟩, hmem, heq⟩ := List.mem_map.1 hm'
  cases heq
  obtain ⟨hc, hok⟩ := setterCall_named hmem hsize hk hsect
  exact exec_setter_done hc hok hb ht hs hx h

/-! ## A device error (rules R310, R311, R313) -/

/-- The operation of a setter that the device answers with an error bit, when the forced fetch reads a valid counter. -/
theorem exec_setter_error {s : State} {i : Instr} {c : SetterCall} {x y : Transaction} {tc dmc : Word}
    {rest : List Answer} (hc : setterCall s i = some c) (hok : ¬ badOperands s i) (hb : s.busIsLocked = true)
    (ht : canTick s = true) (hs : sendsSetter s.begun.ticked c.ctag c.data c.encData c.encAddr x)
    (hx : x.good s.cfg = true) (he : hasError s.cfg.ssr (x.final s.cfg) = true) (hy : readsCounter s y tc dmc)
    (hv : mcValid tc dmc = true) (h : s.env.answers = x.answers s.cfg ++ (y.answers s.cfg ++ rest)) :
    exec i s = .next (complete (classify s.cfg.ssr (x.final s.cfg) c.mask)
      (((s.begun.ticked.prepared c.ctag c.data c.encData c.encAddr).transacted x (y.answers s.cfg ++ rest)).refetched
        y tc dmc rest)) := by
  obtain ⟨hcfg, hlock, _⟩ := prepared_frame s.begun.ticked c.ctag c.data c.encData c.encAddr
  have hcfg' : (s.begun.ticked.prepared c.ctag c.data c.encData c.encAddr).cfg = s.cfg := hcfg
  refine (exec_of_setterCall hc hb hok).trans ?_
  refine (runOp_eq _ _).trans ?_
  rw [SetterCall.run, run_runSetter_sent (run_useMc (s := s.begun) ht) hb hx hs h, ← runOp_eq]
  let t : State := { (s.begun.ticked.prepared c.ctag c.data c.encData c.encAddr).transacted x
    (y.answers s.cfg ++ rest) with seq := .wait }
  have hy' : readsCounter t y tc dmc := by
    unfold readsCounter
    rw [show t.cfg = s.cfg from hcfg']
    exact hy
  have hck := run_checkSsrErrors_refetch (s := t) (v := x.final s.cfg) (rest := rest) (hlock.trans hb)
    (by rw [show t.cfg = s.cfg from hcfg']; exact he) hy' hv (by rw [show t.cfg = s.cfg from hcfg']; rfl) c.mask
  rw [show t.cfg = s.cfg from hcfg'] at hck
  exact (runOp_checkOrRaise hck).trans rfl

/-- Settles O37. -/
theorem setterDeviceError : Obligations.SetterDeviceError := by
  unfold Obligations.SetterDeviceError
  intro s encData encAddr ctag mask size x y tc dmc rest hb ht hsize hdata hs hx he hy hv h
  rw [List.append_assoc] at h
  obtain ⟨hcfg, hlock, _, hmc, hkid, hkey, _, _, hconf, _, hidx, hother, _⟩ :=
    prepared_frame s.begun.ticked ctag (dataOperand s size) encData encAddr
  have hsync : s.mc.inSync = true := (Bool.and_eq_true_iff.1 ht).1
  refine ⟨_, exec_setter_error (i := .executeSignedSetter encData encAddr ctag size mask) rfl
    (executeSetter_ok hsize hdata) hb ht hs hx he hy hv h, rfl, rfl, ?_⟩
  generalize s.begun.ticked.prepared ctag (dataOperand s size) encData encAddr = v at *
  refine ⟨congrArg x.final hcfg, congrArg y.final hcfg, ?_, hkid, hkey, hconf, hlock.trans hb, hidx, hother, rfl⟩
  show Mc.mk tc dmc (v.mc.inSync && !v.cfg.errorClearsInSync) = _
  rw [hmc, hcfg, ticked_mc, begun_mc, hsync]
  rfl

end Sys2Proof.Machine

/-! # The masks of the sessions and setters (rules R101, R143, R147, R165, R313) -/

namespace Sys2Proof.Machine

-- One proof at a time: proofs elaborated in parallel take a thread each, and the check bounds their memory.
set_option Elab.async false

open Config (Answer)

/-! ## Classification of a single error -/

theorem getLsbD_maskAllErrors {L : Config.SsrLayout} {p : Nat} (hp : p ∈ errorPositions L) (h32 : p < 32) :
    (maskAllErrors L).getLsbD p = true := by
  rw [maskAllErrors, BitVec.getLsbD_or, ssrErrorBits, getLsbD_bitsOf, decide_eq_true (And.intro h32 hp), Bool.or_true]

/-- A mask without one of the bits. -/
theorem getLsbD_without (m : Word) (p : Nat) : (m &&& ~~~(BitVec.twoPow 32 p)).getLsbD p = false := by
  by_cases h32 : p < 32 <;> simp [h32]

/-- A word with an error bit has an error. -/
theorem hasError_of_bit {L : Config.SsrLayout} {v : Word} {p : Nat} (hp : p ∈ errorPositions L)
    (h : v.getLsbD p = true) : hasError L v = true := by
  by_contra he
  rw [getLsbD_error (Bool.not_eq_true _ ▸ he) hp] at h
  exact Bool.false_ne_true h

/-- The error bits a single error shows under a mask, once the wait is over. -/
theorem classified_of_onlyError {L : Config.SsrLayout} {v mask : Word} {p : Nat} (hnd : (ssrPositions L).Nodup)
    (hw : waitOver L v = true) (h : onlyError L v p) :
    (∀ q ∈ errorPositions L, (classified L v mask).getLsbD q = (decide (q = p) && mask.getLsbD q))
      ∧ (classified L v mask).getLsbD L.busy = false := by
  refine ⟨fun q hq => ?_, ?_⟩
  · rw [getLsbD_classified, h q hq]
    rintro rfl
    exact (List.nodup_cons.1 hnd).1 (List.mem_append_right _ hq)
  · rw [getLsbD_classified_busy]
    simp only [waitOver, isBusy, respReady] at hw
    revert hw
    cases v.getLsbD L.respReady <;> cases v.getLsbD L.busy <;> simp

/-- A single error that the mask leaves out does not count. -/
theorem classify_masked {L : Config.SsrLayout} {v mask : Word} {p : Nat} (hnd : (ssrPositions L).Nodup)
    (hw : waitOver L v = true) (h : onlyError L v p) (hm : mask.getLsbD p = false) : classify L v mask = .ok := by
  obtain ⟨herr, hbusy⟩ := classified_of_onlyError (mask := mask) hnd hw h
  have hzero : ∀ q ∈ errorPositions L, (classified L v mask).getLsbD q = false := fun q hq => by
    rw [herr q hq]
    by_cases hqp : q = p
    · rw [hqp, hm, Bool.and_false]
    · rw [decide_eq_false hqp, Bool.false_and]
  simp only [errorPositions, List.mem_cons, List.not_mem_nil, or_false, forall_eq_or_imp, forall_eq] at hzero
  show firstError L (classified L v mask) = .ok
  simp [firstError, hzero, hbusy]

/-- A single integrity error under the mask of all errors. -/
theorem classify_intgErr {L : Config.SsrLayout} {v : Word} (hnd : (ssrPositions L).Nodup) (h32 : L.intgErr < 32)
    (hw : waitOver L v = true) (h : onlyError L v L.intgErr) : classify L v (maskAllErrors L) = .deviceIntegrityErr := by
  obtain ⟨herr, _⟩ := classified_of_onlyError (mask := maskAllErrors L) hnd hw h
  have hmem : L.intgErr ∈ errorPositions L := by simp [errorPositions]
  have hone : (classified L v (maskAllErrors L)).getLsbD L.intgErr = true := by
    rw [herr _ hmem, getLsbD_maskAllErrors hmem h32, decide_eq_true rfl]
    rfl
  have hses : (classified L v (maskAllErrors L)).getLsbD L.sesErr = false := by
    have hne : L.sesErr ≠ L.intgErr := by
      intro e
      simp [ssrPositions, errorPositions, e] at hnd
    rw [herr _ (by simp [errorPositions]), decide_eq_false hne, Bool.false_and]
  show firstError L (classified L v (maskAllErrors L)) = _
  simp [firstError, hone, hses]

/-- A single 'ignored' error under the mask of all errors. -/
theorem classify_ignoreErr {L : Config.SsrLayout} {v : Word} (hnd : (ssrPositions L).Nodup) (h32 : L.ignoreErr < 32)
    (hw : waitOver L v = true) (h : onlyError L v L.ignoreErr) : classify L v (maskAllErrors L) = .commandIgnored := by
  obtain ⟨herr, _⟩ := classified_of_onlyError (mask := maskAllErrors L) hnd hw h
  have hmem : L.ignoreErr ∈ errorPositions L := by simp [errorPositions]
  have hone : (classified L v (maskAllErrors L)).getLsbD L.ignoreErr = true := by
    rw [herr _ hmem, getLsbD_maskAllErrors hmem h32, decide_eq_true rfl]
    rfl
  have hzero : ∀ q ∈ [L.sesErr, L.intgErr, L.authErr, L.privErr],
      (classified L v (maskAllErrors L)).getLsbD q = false := by
    intro q hq
    have hq' : q ∈ errorPositions L := by
      simp only [List.mem_cons, List.not_mem_nil, or_false] at hq
      rcases hq with rfl | rfl | rfl | rfl <;> simp [errorPositions]
    have hne : q ≠ L.ignoreErr := fun e =>
      (List.nodup_cons.1 (List.nodup_middle (l₁ := [L.busy, L.respReady, L.sesReady, L.err]
        ++ [L.sesErr, L.intgErr, L.authErr, L.privErr]) (l₂ := [L.sysErr, L.flashErr, L.mcErr]) |>.1 hnd)).1
        (List.mem_append_left _ (List.mem_append_right _ (e ▸ hq)))
    rw [herr q hq', decide_eq_false hne, Bool.false_and]
  simp only [List.mem_cons, List.not_mem_nil, or_false, forall_eq_or_imp, forall_eq] at hzero
  show firstError L (classified L v (maskAllErrors L)) = _
  simp [firstError, hone, hzero]

/-- A word is classified `OK` when nothing is asked for. -/
theorem classify_maskNone (L : Config.SsrLayout) (v : Word) : classify L v maskNone = .ok := by
  have hzero : classified L v maskNone = 0 := by
    unfold classified maskNone
    split <;> simp
  show firstError L (classified L v maskNone) = .ok
  rw [hzero]
  simp [firstError]

/-! ## The sessions -/

/-- An open that the device answers with an error bit: the classification under its mask, then the readiness. -/
theorem exec_sessionOpen_error {s : State} {k : Byte} {hasKey iw is : Bool} {key : Bytes} {x y : Transaction}
    {tc dmc : Word} {rest : List Answer} (hb : s.busIsLocked = true) (hk : kidOk s k = true) (ht : canTick s = true)
    (hx : x.good s.cfg = true) (he : hasError s.cfg.ssr (x.final s.cfg) = true) (hkey : opensWith s k hasKey key)
    (ha : asksSession s k (modeFlags iw is) key iw x) (hready : sessionReady s.cfg.ssr (x.final s.cfg) k = true)
    (hy : readsCounter s y tc dmc) (hv : mcValid tc dmc = true)
    (h : s.env.answers = x.answers s.cfg ++ (y.answers s.cfg ++ rest)) :
    exec (.sessionOpen k hasKey iw is) s = .next
      (State.opened (({ s.begun.handshaken x (y.answers s.cfg ++ rest) with kid := k }).refetched y tc dmc rest)
        (if classify s.cfg.ssr (x.final s.cfg) (openMask s.cfg.ssr k) = .ok then .ok (sessionSecrets s key iw x.ctag).1
          else .error (classify s.cfg.ssr (x.final s.cfg) (openMask s.cfg.ssr k)))) := by
  have hh := run_handshake_sent (s := s.begun) hb ht hx ha h
  have hatt := run_openAttempt hh (run_checkSsrErrors_refetch
    (s := { s.begun.handshaken x (y.answers s.cfg ++ rest) with kid := k, seq := .wait }) hb he hy hv rfl _)
  by_cases hc : classify s.cfg.ssr (x.final s.cfg) (openMask s.cfg.ssr k) = .ok
  · rw [if_pos hc]
    exact (exec_sessionOpen_of_attempt hb hk hkey (attempt_ok (hatt.trans ((if_pos hc).trans (if_pos hready))))).trans rfl
  · rw [if_neg hc]
    exact (exec_sessionOpen_of_attempt hb hk hkey (attempt_raise (hatt.trans (if_neg hc)))).trans rfl

/-- A close that the device answers with an error bit tolerates it. -/
theorem exec_sessionClose_error {s : State} {k : Byte} {x y : Transaction} {tc dmc : Word} {rest : List Answer}
    (hb : s.busIsLocked = true) (hk : kidOk s k = true) (ht : canTick s = true) (hx : x.good s.cfg = true)
    (he : hasError s.cfg.ssr (x.final s.cfg) = true) (ha : asksSession s k 0 (List.replicate s.cfg.keyBytes 0) false x)
    (hready : sesReady s.cfg.ssr (x.final s.cfg) = false) (hy : readsCounter s y tc dmc) (hv : mcValid tc dmc = true)
    (h : s.env.answers = x.answers s.cfg ++ (y.answers s.cfg ++ rest)) :
    exec (.sessionClose k) s = .next
      (((s.begun.handshaken x (y.answers s.cfg ++ rest)).refetched y tc dmc rest).closed .ok) := by
  have hh := run_handshake_sent (s := s.begun) (iw := false) (is := false) hb ht hx ha h
  have hatt := run_closeHandshake (s := s.begun) hh (run_checkSsrErrors_refetch
    (s := { s.begun.handshaken x (y.answers s.cfg ++ rest) with kid := k, seq := .wait }) hb he hy hv rfl _)
  have hc : classify s.cfg.ssr (x.final s.cfg) maskNone = .ok := classify_maskNone _ _
  refine (exec_sessionClose_of_attempt hb hk (attempt_ok (hatt.trans ((if_pos hc).trans (if_neg ?_))))).trans rfl
  show ¬ sesReady s.cfg.ssr (x.final s.cfg) = true
  rw [hready]
  decide

/-! ## The named setters -/

/-- A named setter answers an ignored command with `OK` or `COMMAND_IGNORED`. -/
theorem namedSetters_status {s : State} {size : BitVec 16} {k sect : Byte} {initPa reset : Bool} {i : Instr}
    {opc param : Byte} {mode : BitVec 16} {st : Status}
    (hm : (i, opc, param, mode, st) ∈ namedSetters s size k sect initPa reset) (hst : st ≠ .ok) :
    st = .commandIgnored := by
  simp only [namedSetters, List.mem_cons, List.not_mem_nil, or_false, Prod.mk.injEq] at hm
  rcases hm with h | h | h | h | h | h | h | h <;> obtain ⟨_, _, _, _, rfl⟩ := h
  case inl => exact absurd rfl hst
  all_goals rfl

/-- Settles O39. -/
theorem toleratedErrorsPass : Obligations.ToleratedErrorsPass := by
  unfold Obligations.ToleratedErrorsPass
  intro s x y tc dmc rest v later hwf hb ht hx hy hv h
  obtain ⟨_, _, _, _, hnd, hpos, _⟩ := (paramsWf_iff s.cfg).1 hwf
  have hw : waitOver s.cfg.ssr v = true := waitOver_final hx
  refine ⟨fun k hasKey iw is key hk hkey ha honly hready hkid => ?_, fun k hk ha he hready => ?_,
    fun size k sect initPa reset i opc param mode st hm hsize hk hsect hs honly => ?_⟩
  · have hmem : s.cfg.ssr.intgErr ∈ errorPositions s.cfg.ssr := by simp [errorPositions]
    have he := hasError_of_bit hmem ((honly _ hmem).trans (decide_eq_true rfl))
    have hintg : classify s.cfg.ssr (x.final s.cfg) (maskAllErrors s.cfg.ssr) = .deviceIntegrityErr :=
      classify_intgErr hnd (hpos _ (List.mem_append_right _ hmem)).1 hw honly
    refine (exec_sessionOpen_error hb hk ht hx he hkey ha ((sessionReady_iff _ _ _).2 ⟨hready, hkid⟩) hy hv h).trans ?_
    by_cases hfull : k.toNat / 16 = 1
    · have hmask : openMask s.cfg.ssr k = maskIgnoreIntg s.cfg.ssr := by
        rw [openMask, kidIsFull_eq, beq_iff_eq.2 hfull, if_pos rfl]
      have hpass : classify s.cfg.ssr (x.final s.cfg) (maskIgnoreIntg s.cfg.ssr) = .ok :=
        classify_masked hnd hw honly (getLsbD_without _ _)
      rw [hmask, if_pos hpass, if_pos hfull]
      rfl
    · have hmask : openMask s.cfg.ssr k = maskAllErrors s.cfg.ssr := by
        rw [openMask, kidIsFull_eq, if_neg (by simpa using hfull)]
      rw [hmask, hintg, if_neg (by decide), if_neg hfull]
      rfl
  · exact exec_sessionClose_error hb hk ht hx he ha hready hy hv h
  · have hmem : s.cfg.ssr.ignoreErr ∈ errorPositions s.cfg.ssr := by simp [errorPositions]
    have he := hasError_of_bit hmem ((honly _ hmem).trans (decide_eq_true rfl))
    have hign := classify_ignoreErr hnd (hpos _ (List.mem_append_right _ hmem)).1 hw honly
    obtain ⟨hc, hok⟩ := setterCall_named (st := st) hm hsize hk hsect
    refine (exec_setter_error hc hok hb ht hs hx he hy hv h).trans ?_
    have hst : classify s.cfg.ssr v ((if st = .ok then maskIgnoreIgnore else maskAllErrors) s.cfg.ssr) = st := by
      by_cases hok : st = .ok
      · rw [if_pos hok, hok]
        exact classify_masked hnd hw honly (getLsbD_without _ _)
      · rw [if_neg hok, hign]
        exact (namedSetters_status hm hok).symm
    exact congrArg (fun e => Host.Outcome.next (complete e _)) hst

end Sys2Proof.Machine

/-! # Setters that the link or a chain disturbs, writes and erases (rules R224 to R230, R287, R295 to R297, R350) -/

namespace Sys2Proof.Machine

-- One proof at a time: proofs elaborated in parallel take a thread each, and the check bounds their memory.
set_option Elab.async false

open Config (Answer)

/-! ## A link failure in step 1 of a transaction -/

theorem run_op1_linkError {s : State} {ctag : Word} {w : Bytes} {rest : List Answer}
    (h : s.env.answers = .linkError :: rest) (ha : s.atomic ≠ 0) :
    ∃ es, (op1 ctag w).run s =
      .error (.raise .connectivityErr) { s with env := { s.env with answers := rest, trace := es } } :=
  ⟨_, (M.bind_get _ _).trans (bind_error (run_exchange_linkError h ha))⟩

/-- Step 1 of a transaction whose command the link does not carry, when its bus sub-mode stays. -/
theorem run_secureSend_linkError {s : State} {ctag : Word} {w : Bytes} {rest : List Answer}
    (hq : s.cfg.capQpiExitReenter = false) (h : s.env.answers = .linkError :: rest) (ha : s.atomic ≠ 0) :
    ∃ es, (secureSend ctag w).run s = .error (.raise .connectivityErr)
      { s with seq := .send, env := { s.env with answers := rest, trace := es } } := by
  have hflip : flips s.cfg ctag = false := by rw [flips, hq, Bool.false_and]
  obtain ⟨es, hes⟩ := run_op1_linkError (s := { s with seq := .send }) (ctag := ctag) (w := w) h ha
  refine ⟨es, ?_⟩
  simp only [secureSend, bind_phase, M.bind_get, hflip, onlyIf_false, M.bind_pure, bind_ok (attempt_raise hes)]
  rfl

/-- The transaction whose command the link does not carry, when its bus sub-mode stays (rules R282, R287). -/
theorem run_secureOrRaise_unsent {s : State} {ctag : Word} {w : Bytes} {n : Nat} {wantSsr : Bool} {rest : List Answer}
    (hb : s.busIsLocked = true) (hq : s.cfg.capQpiExitReenter = false) (hc : ctag ≠ 0)
    (h : s.env.answers = .linkError :: rest) :
    ∃ es, (secureOrRaise ctag w n wantSsr).run s = .error (.raise .connectivityErr) { s with
      seq := .send
      out := { s.out with ssrOut := s.ssr }
      mc := { s.mc with inSync := false }
      env := { s.env with answers := rest, trace := es } } := by
  obtain ⟨es, hes⟩ := run_secureSend_linkError (s := { s with atomic := s.atomic + 1 }) (ctag := ctag) (w := w) hq h
    (Nat.succ_ne_zero _)
  have hsteps : (secureSteps ctag w n wantSsr).run { s with atomic := s.atomic + 1 } = .error (.raise .connectivityErr)
      { s with seq := .send, atomic := s.atomic + 1, env := { s.env with answers := rest, trace := es } } := by
    rw [secureSteps, bne_iff_ne.mpr hc, onlyIf_true]
    exact bind_error hes
  refine ⟨es, (run_secureOrRaise_fails hb hsteps).trans ?_⟩
  simp

/-- Settles O19. -/
theorem setterLinkFailure : Obligations.SetterLinkFailure := by
  unfold Obligations.SetterLinkFailure
  intro s encData encAddr ctag mask size rest hb ht hsize hdata h hq hsent
  obtain ⟨hcfg, hlock, hans, hmc, hkid, hkey, hssr, hfly, _, _, _, hother, hatom⟩ :=
    prepared_frame s.begun.ticked ctag (dataOperand s size) encData encAddr
  have hrun := (exec_of_setterCall (i := .executeSignedSetter encData encAddr ctag size mask) rfl hb
    (executeSetter_ok hsize hdata)).trans ((runOp_eq _ _).trans
      (by rw [SetterCall.run, run_runSetter_prepared (run_useMc (s := s.begun) ht)]))
  generalize s.begun.ticked.prepared ctag (dataOperand s size) encData encAddr = v at *
  obtain ⟨es, hes⟩ := run_secureOrRaise_unsent (s := { v with seq := .derive }) (n := 0) (wantSsr := true)
    (hlock.trans hb) (by rw [show v.cfg = s.cfg from hcfg]; exact hq) hsent (hans.trans h)
  rw [bind_error hes] at hrun
  refine ⟨_, hrun, rfl, rfl, hatom, ?_, hssr, hssr, hfly, hkid, hkey, rfl, hother, rfl⟩
  show Mc.mk v.mc.tc v.mc.dmc false = _
  rw [hmc]
  rfl

/-! ## The chains of a section-config set -/

/-- A transaction that chains, as an operation of its own. -/
theorem runOp_transaction_chains {s : State} {x : Transaction} {v : Wait} {rest : List Answer}
    (hb : s.busIsLocked = true) (hx : x.sound s.cfg = true) (hch : x.chains s.cfg = true) (hv : v.good s.cfg.ssr = true)
    (h : s.env.answers = x.answers s.cfg ++ x.chainAnswers v ++ rest) :
    (runOp (do
      unspecifyResults
      let (r, _) ← secureOrRaise x.ctag x.payload x.response.length true
      deliver r) s) = .next { s.begun.transactedChain x v rest with
        out := { (s.begun.transactedChain x v rest).out with
          rbuf := if x.response = [] then s.begun.out.rbuf else x.response }
        status := .ok
        seq := .idle } := by
  obtain ⟨p, hp⟩ := run_secureOrRaise_chains (s := s.begun) hb hx hch hv h
  obtain ⟨_, _, hrbuf, _⟩ := transactedChain_frame s.begun x v rest
  refine runOp_begins.trans ((runOp_bind hp).trans ((runOp_ok (run_deliver _ _)).trans ?_))
  rw [← hrbuf]
  by_cases hr : x.response = []
  · simp only [if_pos hr]
    rfl
  · simp only [if_neg hr]
    rfl

/-- The last status word of a transaction that chains, when the chained wait ends without an error. -/
theorem chained_final {s : State} {x : Transaction} {v : Wait} {rest : List Answer} (hx : x.sound s.cfg = true)
    (hch : x.chains s.cfg = true) (hv : v.good s.cfg.ssr = true)
    (he : x.ctag.getLsbD 16 = true → hasError s.cfg.ssr v.last = false) :
    hasError s.cfg.ssr (s.transactedChain x v rest).ssr = false
      ∧ waitOver s.cfg.ssr (s.transactedChain x v rest).ssr = true := by
  obtain ⟨_, _, _, hssr⟩ := transactedChain_frame s x v rest
  rw [hssr]
  by_cases hpa : x.ctag.getLsbD 16 = true
  · rw [if_pos hpa]
    exact ⟨he hpa, (Bool.and_eq_true_iff.1 hv).2⟩
  · rw [if_neg hpa]
    exact ⟨Bool.not_eq_true' _ |>.mp (Bool.and_eq_true_iff.1 hch).2, waitOver_sound hx⟩

/-- The operation of a setter whose transaction chains (rules R295 to R297). -/
theorem exec_setter_chains {s : State} {i : Instr} {c : SetterCall} {x : Transaction} {v : Wait} {rest : List Answer}
    (hc : setterCall s i = some c) (hok : ¬ badOperands s i) (hb : s.busIsLocked = true) (ht : canTick s = true)
    (hs : sendsSetter s.begun.ticked c.ctag c.data c.encData c.encAddr x) (hx : x.sound s.cfg = true)
    (hch : x.chains s.cfg = true) (hv : v.good s.cfg.ssr = true)
    (he : x.ctag.getLsbD 16 = true → hasError s.cfg.ssr v.last = false)
    (h : s.env.answers = x.answers s.cfg ++ x.chainAnswers v ++ rest) :
    exec i s = .next (complete .ok
      ((s.begun.ticked.prepared c.ctag c.data c.encData c.encAddr).transactedChain x v rest)) := by
  obtain ⟨hcfg, hlock, hans, _⟩ := prepared_frame s.begun.ticked c.ctag c.data c.encData c.encAddr
  refine (exec_of_setterCall hc hb hok).trans ((runOp_eq _ _).trans ?_)
  rw [SetterCall.run, run_runSetter_of_useMc (run_useMc (s := s.begun) ht) hs, ← runOp_eq]
  generalize s.begun.ticked.prepared c.ctag c.data c.encData c.encAddr = w at hcfg hlock hans ⊢
  have hcfg' : s.cfg = w.cfg := hcfg.symm
  rw [hcfg'] at hx hch hv he h
  obtain ⟨p, hp⟩ := run_secureOrRaise_chains (s := { w with seq := .derive }) (hlock.trans hb) hx hch hv (hans.trans h)
  obtain ⟨hfc, _⟩ := transactedChain_frame w x v rest
  obtain ⟨hne, hover⟩ := chained_final (s := w) (rest := rest) hx hch hv he
  rw [transactedChain_seq] at hp
  rw [hs.2.2, if_pos rfl] at hp
  refine (runOp_bind hp).trans ?_
  rw [← hfc] at hne hover
  exact (runOp_ok (run_checkOrRaise (s := { w.transactedChain x v rest with seq := p }) hne hover c.mask)).trans rfl

/-- Settles O40. -/
theorem setScrChains : Obligations.SetScrChains := by
  unfold Obligations.SetScrChains
  intro s x v rest hb hx hch hv h raw
  have hraw := runOp_transaction_chains hb hx hch hv h
  refine ⟨fun size n hp hn => ?_, fun param mode hf => ?_, fun ht he ctag size encData encAddr hsize hdata hs => ?_⟩
  · rw [hp, hn] at hraw
    exact hraw
  · exact (exec_of_wireFrame hf).trans hraw
  · refine ⟨fun mask => ?_, fun initPa reset sect hsect hd ha hctag => ?_⟩
    · exact exec_setter_chains (i := .executeSignedSetter encData encAddr ctag size mask) rfl
        (executeSetter_ok hsize hdata) hb ht hs hx hch hv he h
    · subst hd ha hctag
      exact exec_setter_chains (i := .setScr initPa reset size sect) rfl
        (fun hbad => hbad.elim (Nat.not_le.2 hsect) (Nat.not_lt.2 hsize)) hb ht hs hx hch hv he h

/-! ## Writes and erases -/

/-- The operations that call the generic setter over a randomised address (rules R224 to R227), with the address and the
call over the address that is carried. -/
def addressCall (s : State) : Instr → Option (Word × (Word → SetterCall))
  | .sawr a size => some (a, fun ar =>
    ⟨mkCtagAddr s.cfg.wire.sawr (addr24 ar), dataOperand s size, true, true, maskAllErrors s.cfg.ssr⟩)
  | .serase4k a => some (a, fun ar => ⟨mkCtagAddr s.cfg.wire.erase4k (addr24 ar), [], false, true, maskAllErrors s.cfg.ssr⟩)
  | .serase32k a => some (a, fun ar => ⟨mkCtagAddr s.cfg.wire.erase32k (addr24 ar), [], false, true, maskAllErrors s.cfg.ssr⟩)
  | .serase64k a => some (a, fun ar => ⟨mkCtagAddr s.cfg.wire.erase64k (addr24 ar), [], false, true, maskAllErrors s.cfg.ssr⟩)
  | _ => none

/-- Past its boundary checks such an operation draws, then runs the generic setter. -/
theorem exec_of_addressCall {s : State} {i : Instr} {a : Word} {c : Word → SetterCall} (hc : addressCall s i = some (a, c))
    (hb : s.busIsLocked = true) (hok : ¬ badOperands s i) :
    exec i s = runOp (c (randomAddr s a)).run (s.begun.drawn .randomBits) := by
  have hpass := (operandsPass_iff s i).2 hok
  cases i <;> cases hc
  all_goals exact (runOp_passes hb).trans ((runOp_passes hpass).trans (runOp_begins.trans
    (runOp_bind (run_drawAddr s.begun a))))

/-- The operation of such a setter that meets no error. -/
theorem exec_addressSetter_done {s : State} {i : Instr} {a : Word} {c : Word → SetterCall} {x : Transaction}
    {rest : List Answer} (hc : addressCall s i = some (a, c)) (hok : ¬ badOperands s i) (hb : s.busIsLocked = true)
    (ht : canTick s = true)
    (hs : sendsSetter s.begun.ticked (c (randomAddr s a)).ctag (c (randomAddr s a)).data (c (randomAddr s a)).encData
      (c (randomAddr s a)).encAddr x)
    (hx : x.clean s.cfg = true) (h : s.env.answers = x.answers s.cfg ++ rest) :
    exec i s = .next ((s.begun.drawn .randomBits).setterDone (c (randomAddr s a)).ctag (c (randomAddr s a)).data
      (c (randomAddr s a)).encData (c (randomAddr s a)).encAddr x rest) := by
  refine (exec_of_addressCall hc hb hok).trans ?_
  exact (runOp_ok (run_runSetter_clean (run_useMc (s := s.begun.drawn .randomBits) ht) hb hx hs h)).trans rfl

theorem pageAddr_good {a : Word} (h24 : a.toNat < 2 ^ 24) (h32 : a.toNat % 32 = 0) : ¬ badAddr a :=
  fun h => h.elim (Nat.not_le.2 h24) (fun hne => hne h32)

/-- Settles O42. -/
theorem writesAndErasesRun : Obligations.WritesAndErasesRun := by
  unfold Obligations.WritesAndErasesRun
  intro s a size sect x rest hb ht hx h
  refine ⟨fun h24 h32 => ⟨fun hsize => ?_, fun i opc hm => ?_⟩, fun hsect hs => ?_, fun hs => ?_⟩
  · intro ctag hs
    exact exec_addressSetter_done (i := .sawr a size) rfl
      (fun hbad => hbad.elim (pageAddr_good h24 h32) (fun hne => hne hsize)) hb ht hs hx h
  · intro ctag hs
    have hok := pageAddr_good h24 h32
    simp only [List.mem_cons, List.not_mem_nil, or_false, Prod.mk.injEq] at hm
    rcases hm with hi | hi | hi <;> obtain ⟨rfl, rfl⟩ := hi
    · exact exec_addressSetter_done (i := .serase4k a) rfl hok hb ht hs hx h
    · exact exec_addressSetter_done (i := .serase32k a) rfl hok hb ht hs hx h
    · exact exec_addressSetter_done (i := .serase64k a) rfl hok hb ht hs hx h
  · exact exec_setter_done (i := .seraseSection sect) rfl (Nat.not_le.2 hsect) hb ht hs hx h
  · exact exec_setter_done (i := .seraseChip) rfl id hb ht hs hx h

end Sys2Proof.Machine

/-! # The signed getters that the device answers (rules R180 to R189) -/

namespace Sys2Proof.Machine

-- One proof at a time: proofs elaborated in parallel take a thread each, and the check bounds their memory.
set_option Elab.async false

open Config (Answer)

/-! ## The operations that are the signed getter -/

/-- The data type, section and size of the operations over `CALC_SIG` (rules R180 to R189). -/
def getterCall : Instr → Option (Byte × Byte × BitVec 16)
  | .getWid size => some (1, 0, size)
  | .getSuid size => some (2, 0, size)
  | .getSsrSigned size => some (3, 0, size)
  | .getGmc size => some (4, 0, size)
  | .getGmt size => some (5, 0, size)
  | .getAwdt size => some (6, 0, size)
  | .getScr size sect => some (7, sect, size)
  | .getHwVer size => some (8, 0, size)
  | .getMcSigned size => some (9, 0, size)
  | .calcSig size sect dtype => some (dtype, sect, size)
  | _ => none

/-- Such an operation is the signed getter of its data type. -/
theorem exec_of_getterCall {i : Instr} {dt sec : Byte} {size : BitVec 16} (hg : getterCall i = some (dt, sec, size))
    (s : State) : exec i s = signedGetter dt sec size s := by
  cases i <;> cases hg
  all_goals rfl

/-- Past its boundary checks a signed getter is `CALC_SIG`. -/
theorem signedGetter_passes {s : State} {dt sec : Byte} {size : BitVec 16} (hb : s.busIsLocked = true)
    (hsize : size.toNat ≤ 32) (hsec : sec.toNat < s.cfg.numSections) (hd : isDataType dt = true) :
    signedGetter dt sec size s = runOp (runCalcSig dt sec size.toNat) s.begun := by
  have hok : (dataFits size && isDataType dt && sectionOk s sec) = true := by
    rw [dataFits_of_le hsize, hd, (sectionOk_iff _ _).2 hsec]
    rfl
  exact (runOp_passes hb).trans ((runOp_passes hok).trans runOp_begins)

/-- The ten getters with their data type and section. -/
theorem getterCall_listed {size : BitVec 16} {sect dtype : Byte} {i : Instr} {dt sec : Byte}
    (hm : (i, dt, sec) ∈
      [(.getWid size, 1, 0), (.getSuid size, 2, 0), (.getSsrSigned size, 3, 0), (.getGmc size, 4, 0),
        (.getGmt size, 5, 0), (.getAwdt size, 6, 0), (.getScr size sect, 7, sect), (.getHwVer size, 8, 0),
        (.getMcSigned size, 9, 0), (.calcSig size sect dtype, dtype, sect)])
    (h1 : 1 ≤ dtype.toNat) (h9 : dtype.toNat ≤ 9) :
    getterCall i = some (dt, sec, size) ∧ isDataType dt = true := by
  simp only [List.mem_cons, List.not_mem_nil, or_false, Prod.mk.injEq] at hm
  rcases hm with h | h | h | h | h | h | h | h | h | h <;> obtain ⟨rfl, rfl, rfl⟩ := h
  case inr.inr.inr.inr.inr.inr.inr.inr.inr => exact ⟨rfl, decide_eq_true ⟨h1, h9⟩⟩
  all_goals exact ⟨rfl, by decide⟩

/-! ## The checks of the envelope -/

theorem signed_setSeq (s : State) (p : Phase) (ctag : Word) (data : Bytes) (refresh : Bool) :
    ({ s with seq := p } : State).signed ctag data refresh = { s.signed ctag data refresh with seq := p } := by
  rcases s with ⟨_, _, _, _, _, _, _, _, _, _, _, ctxIdx, _, _, _, _, _, _⟩
  cases ctxIdx <;> cases refresh <;> rfl

theorem signed_mc (s : State) (ctag : Word) (data : Bytes) (refresh : Bool) :
    (s.signed ctag data refresh).mc = s.mc := by
  simp [State.signed]

/-- What a signed getter does with the envelope it read: signature first, then freshness (rule R180). -/
theorem run_envelope {s : State} {r : Bytes} {ctag : Word} {size : Nat} :
    (do
      let sigExp ← signData ctag (envelopeData r size) true
      require (sigExp == r.drop 36) .securityErr
      let t ← get
      require (echoedTc r == t.mc.tc - 1) .systemInIncorrectState
      setRbuf (envelopeData r size)
      setSigOut (r.drop 36) : M Unit).run s =
      if r.drop 36 = signature s ctag (envelopeData r size) true then
        if rd32 r = s.mc.tc - 1 then
          .ok () { s.signed ctag (envelopeData r size) true with
            seq := .derive
            out := { s.out with rbuf := envelopeData r size, sigOut := r.drop 36 } }
        else .error (.raise .systemInIncorrectState)
          { s.signed ctag (envelopeData r size) true with seq := .derive }
      else .error (.raise .securityErr) { s.signed ctag (envelopeData r size) true with seq := .derive } := by
  have hmc := signed_mc s ctag (envelopeData r size) true
  have hout := signed_out s ctag (envelopeData r size) true
  refine (bind_ok (run_signData s ctag (envelopeData r size) true)).trans ?_
  by_cases hsig : r.drop 36 = signature s ctag (envelopeData r size) true
  · rw [if_pos hsig, beq_iff_eq.2 hsig.symm, require_true, M.bind_pure, M.bind_get]
    by_cases htc : rd32 r = s.mc.tc - 1
    · rw [if_pos htc, show (echoedTc r == (s.signed ctag (envelopeData r size) true).mc.tc - 1) = true from
        beq_iff_eq.2 (by rw [hmc]; exact htc), require_true, M.bind_pure, ← hout]
      rfl
    · rw [if_neg htc, show (echoedTc r == (s.signed ctag (envelopeData r size) true).mc.tc - 1) = false from
        beq_eq_false_iff_ne.2 (by rw [hmc]; exact htc), require_false]
      rfl
  · rw [if_neg hsig, beq_eq_false_iff_ne.2 (Ne.symm hsig), require_false]
    rfl

/-- What the answered envelope makes of a getter (rule R180). -/
def State.afterEnvelope (s : State) (x : Transaction) (size : Nat) (rest : List Answer) : State :=
  if x.response.drop 36 = signature s.begun.ticked x.ctag (envelopeData x.response size) true then
    if rd32 x.response = s.mc.tc then
      { getterState s x size rest with
        out := { s.begun.out with
          ssrOut := x.final s.cfg, rbuf := envelopeData x.response size, sigOut := x.response.drop 36 }
        status := .ok
        seq := .idle }
    else { getterState s x size rest with status := .systemInIncorrectState, seq := .idle }
  else { getterState s x size rest with status := .securityErr, seq := .idle }

theorem runOp_runCalcSig {s : State} {dt sec : Byte} {size : Nat} {x : Transaction} {rest : List Answer}
    (hb : s.busIsLocked = true) (ht : canTick s = true) (hx : asksSigned s dt sec x)
    (h : s.env.answers = x.answers s.cfg ++ rest) :
    runOp (runCalcSig dt sec size) s.begun = .next (s.afterEnvelope x size rest) := by
  obtain ⟨hc, hp, hlen, hcl⟩ := hx
  let u : State := { s.begun.ticked.transacted x rest with seq := .verify }
  have hrun := (run_runCalcSig (s := s.begun) (size := size) hb ht hc hp hlen hcl h).trans
    (run_envelope (s := u) (r := x.response) (ctag := x.ctag) (size := size))
  have hstate : u.signed x.ctag (envelopeData x.response size) true
      = { getterState s x size rest with seq := .verify } := signed_setSeq _ _ _ _ _
  have htc : u.mc.tc - 1 = s.mc.tc := BitVec.add_sub_cancel s.mc.tc 1
  rw [hstate, htc] at hrun
  rw [runOp_eq, hrun]
  unfold State.afterEnvelope
  by_cases hsig : x.response.drop 36 = signature s.begun.ticked x.ctag (envelopeData x.response size) true
  · rw [if_pos hsig, if_pos (show x.response.drop 36 = signature u x.ctag (envelopeData x.response size) true from hsig)]
    by_cases hfresh : rd32 x.response = s.mc.tc
    · rw [if_pos hfresh, if_pos hfresh]
      rfl
    · rw [if_neg hfresh, if_neg hfresh]
      rfl
  · rw [if_neg hsig,
      if_neg (show ¬ x.response.drop 36 = signature u x.ctag (envelopeData x.response size) true from hsig)]
    rfl

/-- Settles O43. -/
theorem signedGettersRun : Obligations.SignedGettersRun := by
  unfold Obligations.SignedGettersRun
  intro s size sect dtype x rest i dt sec hm hb ht hsize hsec h1 h9 hx h hsig hfresh
  obtain ⟨hg, hd⟩ := getterCall_listed hm h1 h9
  rw [exec_of_getterCall hg, signedGetter_passes hb hsize hsec hd, runOp_runCalcSig hb ht hx h]
  exact congrArg Host.Outcome.next ((if_pos hsig).trans (if_pos hfresh))

/-- Settles O44. -/
theorem getterRejectsBadEnvelope : Obligations.GetterRejectsBadEnvelope := by
  unfold Obligations.GetterRejectsBadEnvelope
  intro s size sect dtype x rest i dt sec hm hb ht hsize hsec h1 h9 hx h good
  obtain ⟨hg, hd⟩ := getterCall_listed hm h1 h9
  rw [exec_of_getterCall hg, signedGetter_passes hb hsize hsec hd, runOp_runCalcSig hb ht hx h]
  exact ⟨fun hbad => congrArg Host.Outcome.next (if_neg hbad),
    fun hgood hstale => congrArg Host.Outcome.next ((if_pos hgood).trans (if_neg hstale))⟩

end Sys2Proof.Machine

/-! # The consumers of a tick (rules R315 to R317) -/

namespace Sys2Proof.Machine

-- One proof at a time: proofs elaborated in parallel take a thread each, and the check bounds their memory.
set_option Elab.async false

open Config (Answer)

/-! ## What comes after the tick -/

/-- The generic setter past its tick (rule R164). -/
def SetterCall.afterTick (c : SetterCall) : M Unit := do
  let (ctag, sig, data) ← prepareSetter c.ctag c.data c.encData c.encAddr
  let (_, sv) ← secureOrRaise ctag (data ++ sig) 0 true
  checkOrRaise sv c.mask

/-- The signed getter past its tick (rule R180). -/
def getterAfterTick (ctag : Word) (size : Nat) : M Unit := do
  let (b, sv) ← secureOrRaise ctag [] 44 true
  checkAllOrRaise sv
  let r ← present b
  phase .verify
  let sigExp ← signData ctag (envelopeData r size) true
  require (sigExp == r.drop 36) .securityErr
  let t ← get
  require (echoedTc r == t.mc.tc - 1) .systemInIncorrectState
  setRbuf (envelopeData r size)
  setSigOut (r.drop 36)

/-- The revoking close past its tick (rules R146, R148). -/
def revokeAfterTick (kid : Byte) : M Unit := do
  (do
    let s ← get
    let (_, sv) ← secureOrRaise (mkCtag s.cfg.wire.initPa ((kidSection kid).setWidth 8) 0) [] 0 true
    checkAllOrRaise sv)
  clearPaEnabled (kidSection kid).toNat
  setKid Config.kidInvalid

/-- The KID of a revoking close. -/
def revokedKid : Instr → Option Byte
  | .sessionCloseRevoke kid => some kid
  | _ => none

/-- What a consumer that draws nothing first does past its tick. -/
def afterTick (s : State) (i : Instr) : M Unit :=
  match setterCall s i with
  | some c => c.afterTick
  | none =>
    match getterCall i with
    | some (dt, sec, size) => getterAfterTick (calcSigCtag s.cfg dt sec) size.toNat
    | none =>
      match revokedKid i with
      | some kid => revokeAfterTick kid
      | none => pure ()

theorem setterCall_congr {s u : State} (hcfg : u.cfg = s.cfg) (hlatch : u.latch = s.latch) (i : Instr) :
    setterCall u i = setterCall s i := by
  rcases s with ⟨cfg, _, latch, _, _, _, _, _, _, _, _, _, _, _, _, _, _, _⟩
  rcases u with ⟨cfg', _, latch', _, _, _, _, _, _, _, _, _, _, _, _, _, _, _⟩
  cases hcfg
  cases hlatch
  cases i <;> rfl

/-- It reads the parameters and the latched operands only. -/
theorem afterTick_congr {s u : State} (hcfg : u.cfg = s.cfg) (hlatch : u.latch = s.latch) (i : Instr) :
    afterTick u i = afterTick s i := by
  unfold afterTick
  rw [setterCall_congr hcfg hlatch, hcfg]

theorem afterTick_of_setterCall {s : State} {i : Instr} {c : SetterCall} (hc : setterCall s i = some c) :
    afterTick s i = c.afterTick := by
  unfold afterTick
  rw [hc]

theorem afterTick_of_getterCall {s : State} {i : Instr} {dt sec : Byte} {size : BitVec 16} (hc : setterCall s i = none)
    (hg : getterCall i = some (dt, sec, size)) :
    afterTick s i = getterAfterTick (calcSigCtag s.cfg dt sec) size.toNat := by
  unfold afterTick
  rw [hc, hg]

/-- `CALC_SIG` is its tick, then the rest. -/
theorem runOp_runCalcSig_ticks (s : State) (dt sec : Byte) (size : Nat) :
    runOp (runCalcSig dt sec size) s
      = runOp (useMc >>= fun _ => getterAfterTick (calcSigCtag s.cfg dt sec) size) s := by
  rw [runOp_eq, runOp_eq, runCalcSig, M.bind_get]
  rfl

/-- A signed getter past its boundary checks: the tick, then the rest. -/
theorem exec_of_getterCall_passes {s : State} {i : Instr} {dt sec : Byte} {size : BitVec 16}
    (hg : getterCall i = some (dt, sec, size)) (hb : s.busIsLocked = true) (hok : ¬ badOperands s i) :
    exec i s = runOp (useMc >>= fun _ => getterAfterTick (calcSigCtag s.cfg dt sec) size.toNat) s.begun := by
  have hpass : (dataFits size && isDataType dt && sectionOk s sec) = true := by
    have hpass := (operandsPass_iff s i).2 hok
    cases i <;> cases hg <;> exact hpass
  rw [exec_of_getterCall hg]
  refine (runOp_passes hb).trans ((runOp_passes hpass).trans (runOp_begins.trans ?_))
  exact runOp_runCalcSig_ticks s.begun dt sec size.toNat

/-- A consumer that draws nothing first is a setter, a getter or the revoking close. -/
theorem ticksFirst_cases (s : State) {i : Instr} (hi : ticksFirst i = true) :
    (∃ c, setterCall s i = some c) ∨ (setterCall s i = none ∧ ∃ dt sec size, getterCall i = some (dt, sec, size))
      ∨ ∃ kid, i = .sessionCloseRevoke kid := by
  cases i <;> cases hi
  case sessionCloseRevoke kid => exact .inr (.inr ⟨kid, rfl⟩)
  case getWid | getSuid | getSsrSigned | getGmc | getGmt | getAwdt | getScr | getHwVer | getMcSigned | calcSig =>
    exact .inr (.inl ⟨rfl, _, _, _, rfl⟩)
  all_goals exact .inl ⟨_, rfl⟩

/-- Such a consumer past its boundary checks: the tick, then the rest. -/
theorem exec_of_ticksFirst {s : State} {i : Instr} (hi : ticksFirst i = true) (hb : s.busIsLocked = true)
    (hok : ¬ badOperands s i) : exec i s = runOp (useMc >>= fun _ => afterTick s i) s.begun := by
  obtain ⟨c, hc⟩ | ⟨hc, dt, sec, size, hg⟩ | ⟨kid, rfl⟩ := ticksFirst_cases s hi
  · rw [afterTick_of_setterCall hc]
    exact exec_of_setterCall hc hb hok
  · rw [afterTick_of_getterCall hc hg]
    exact exec_of_getterCall_passes hg hb hok
  · refine (runOp_passes hb).trans ((runOp_passes ((operandsPass_iff _ _).2 hok)).trans (runOp_begins.trans ?_))
    exact congrArg (runOp · s.begun) (bind_assoc _ _ _)

/-! ## The end of the counter's range -/

/-- A tick at the end of the range is refused. -/
theorem runOp_useMc_end {s : State} {f : Word × Word → M Unit} (hm : s.mc.inSync = true)
    (ht : ¬ s.mc.tc.toNat + 1 < Config.tcLim) : runOp (useMc >>= f) s = .next (complete .deviceMcErr s) :=
  runOp_raise (bind_error (run_useMc_end hm ht))

/-- A page read that cannot tick stops before its command. -/
theorem run_prepRead_end {s : State} (hm : s.mc.inSync = true) (ht : ¬ s.mc.tc.toNat + 1 < Config.tcLim) (opc : Byte)
    (a : Word) (slot : Bool) : (prepRead opc a slot).run s =
      .error (.raise .deviceMcErr) (({ s with seq := .derive } : State).drawn .randomBits) := by
  simp only [prepRead, bind_phase]
  refine (bind_ok (run_drawAddr _ a)).trans (bind_error (run_useMc_end ?_ ?_))
  · exact hm
  · exact ht

theorem runOp_readMulti_end {s : State} (hm : s.mc.inSync = true) (ht : ¬ s.mc.tc.toNat + 1 < Config.tcLim) (m : MultiRead)
    (a : Word) :
    runOp (readMulti m a) s =
      .next (complete .deviceMcErr (({ s with seq := .derive } : State).drawn .randomBits)) := by
  rw [runOp_eq, readMulti, M.bind_get, bind_error (run_prepRead_end hm ht m.opc a s.ctxIdx)]

theorem exec_end_of_drawsAddress {s : State} {i : Instr} (hi : drawsAddress i = true) (hb : s.busIsLocked = true)
    (hok : ¬ badOperands s i) (hm : s.mc.inSync = true) (ht : ¬ s.mc.tc.toNat + 1 < Config.tcLim) :
    exec i s = .next (complete .deviceMcErr (s.begun.drawn .randomBits)) := by
  have hpass := (operandsPass_iff s i).2 hok
  cases i <;> cases hi
  case sawr | serase4k | serase32k | serase64k =>
    exact (exec_of_addressCall rfl hb hok).trans (runOp_useMc_end (s := s.begun.drawn .randomBits) hm ht)
  case srd a | sard a =>
    refine (runOp_passes hb).trans ((runOp_passes hpass).trans (runOp_begins.trans ?_))
    exact (runOp_bind_raise (bind_error (run_prepRead_end (s := s.begun) hm ht _ a s.ctxIdx))).trans rfl
  case srdMulti a size | sardMulti a size =>
    refine (runOp_passes hb).trans ((runOp_passes hpass).trans (runOp_begins.trans ?_))
    exact (runOp_readMulti_end (s := s.begun) hm ht _ a).trans rfl

/-- Past its checks a session operation whose tick is refused ends wiped. -/
theorem exec_end_of_drawsNonce {s : State} {i : Instr} (hi : drawsNonce i = true) (hb : s.busIsLocked = true)
    (hok : ¬ badOperands s i) (hm : s.mc.inSync = true) (ht : ¬ s.mc.tc.toNat + 1 < Config.tcLim) :
    exec i s = .next ((s.begun.drawn .nonce).closed .deviceMcErr) := by
  have hpass := (operandsPass_iff s i).2 hok
  have hu := run_useMc_end (s := State.drawn { s.begun with seq := .derive } .nonce) hm ht
  cases i <;> cases hi
  case sessionOpen kid hasKey iw is =>
    obtain ⟨hk, hkey⟩ := Bool.and_eq_true_iff.1 hpass
    obtain ⟨key, hkey⟩ := Option.isSome_iff_exists.1 hkey
    have hatt : (openAttempt kid key iw is).run s.begun = _ := bind_error (run_handshake_raise hu)
    exact (exec_sessionOpen_of_key hb hk hkey (attempt_raise hatt)).trans rfl
  case sessionClose kid =>
    have hatt : (closeHandshake kid).run s.begun = _ :=
      (M.bind_get _ _).trans (bind_error (run_handshake_raise hu))
    exact (exec_sessionClose_of_attempt hb hpass (attempt_raise hatt)).trans rfl

/-- Settles O41. -/
theorem counterEndRefused : Obligations.CounterEndRefused := by
  unfold Obligations.CounterEndRefused
  intro s i hok hb hm hend
  have ht : ¬ s.mc.tc.toNat + 1 < Config.tcLim := Nat.not_lt.2 hend
  refine ⟨fun hi => ?_, fun hi => ?_, fun hi => ?_⟩
  · exact (exec_of_ticksFirst hi hb hok).trans (runOp_useMc_end (s := s.begun) hm ht)
  · exact exec_end_of_drawsAddress hi hb hok hm ht
  · exact exec_end_of_drawsNonce hi hb hok hm ht

end Sys2Proof.Machine

/-! # The page reads that the device answers (rules R221 to R223) -/

namespace Sys2Proof.Machine

-- One proof at a time: proofs elaborated in parallel take a thread each, and the check bounds their memory.
set_option Elab.async false

open Config (Answer)

theorem addrOk_of_page {a : Word} (h24 : a.toNat < 2 ^ 24) (h32 : a.toNat % 32 = 0) : addrOk a = true :=
  (addrOk_iff a).2 (pageAddr_good h24 h32)

theorem exec_srd_passes {s : State} {a : Word} (hb : s.busIsLocked = true) (ha : addrOk a = true) :
    exec (.srd a) s = runOp (do
      let (_, p) ← readPage s.cfg.wire.srd a s.ctxIdx 36
      setRbuf p) s.begun :=
  (runOp_passes hb).trans ((runOp_passes ha).trans runOp_begins)

theorem exec_sard_passes {s : State} {a : Word} (hb : s.busIsLocked = true) (ha : addrOk a = true) :
    exec (.sard a) s = runOp (do
      let (r, p) ← readPage s.cfg.wire.sard a s.ctxIdx 44
      let good ← pageSigned s.cfg.wire.sard a s.ctxIdx p r
      if good then setRbuf p
      else do
        setRbuf (List.replicate Config.pageSize 0)
        raise .securityErr) s.begun :=
  (runOp_passes hb).trans ((runOp_passes ha).trans runOp_begins)

/-- A fresh page, read with a tick left. -/
theorem run_readPage_fresh {s : State} {opc : Byte} {a : Word} {len : Nat} {x : Transaction} {rest : List Answer}
    (hl : 0 < len) (hb : s.busIsLocked = true) (ht : canTick s = true) (hx : asksPage s opc a len x)
    (h : s.env.answers = x.answers s.cfg ++ rest) (hfresh : rd32 x.response = tickValue s - 1) :
    (readPage opc a s.ctxIdx len).run s = .ok (x.response, plaintext s s.ctxIdx x.response)
      { ((s.readPrepared opc a s.ctxIdx).transacted x rest).called [.cipher] with seq := .verify } := by
  obtain ⟨hc, hp, hlen, hcl⟩ := hx
  exact (run_readPage hl hb ht hc hp hlen hcl h).trans (if_pos hfresh)

/-- Settles O46. -/
theorem secureReadRuns : Obligations.SecureReadRuns := by
  unfold Obligations.SecureReadRuns
  intro s a x rest hb ht h24 h32 hx h hfresh
  have hread : (readPage s.cfg.wire.srd a s.ctxIdx 36).run s.begun = .ok (x.response, plaintext s s.ctxIdx x.response)
      { ((s.begun.readPrepared s.cfg.wire.srd a s.ctxIdx).transacted x rest).called [.cipher] with seq := .verify } :=
    run_readPage_fresh (s := s.begun) (by decide) hb ht hx h hfresh
  obtain ⟨hcfg, _, _, _, _, _, hout⟩ := readPrepared_frame s.begun s.cfg.wire.srd a s.ctxIdx
  refine (exec_srd_passes hb (addrOk_of_page h24 h32)).trans ((runOp_bind hread).trans ((runOp_ok (run_setRbuf _ _)).trans ?_))
  generalize s.begun.readPrepared s.cfg.wire.srd a s.ctxIdx = v at hcfg hout ⊢
  rw [← hout, show s.cfg = v.cfg from hcfg.symm]
  rfl

/-- The signature check of a page and what it delivers (rule R223). -/
theorem runOp_pageSigned {u : State} {opc : Byte} {a : Word} {slot : Bool} {p r sig : Bytes}
    (hsig : signatureOf (u.ctx slot).ssk u.kid (mkCtagAddr opc (a.setWidth 24)) p = sig) :
    runOp (do
      let good ← pageSigned opc a slot p r
      if good then setRbuf p
      else do
        setRbuf (List.replicate Config.pageSize 0)
        raise .securityErr) u =
      .next { (u.withCtx slot { u.ctx slot with sctag := mkCtagAddr opc (a.setWidth 24), sdata := p }).called
          [.calcAuthSignature] with
        out := { u.out with rbuf := if r.drop 36 = sig then p else List.replicate 32 0 }
        status := if r.drop 36 = sig then .ok else .securityErr
        seq := .idle } := by
  have hout : (u.withCtx slot { u.ctx slot with sctag := mkCtagAddr opc (a.setWidth 24), sdata := p }).out = u.out :=
    withCtx_out _ _ _
  refine (runOp_bind (run_pageSigned u opc a slot p r)).trans ?_
  rw [← hout, hsig]
  by_cases hg : r.drop 36 = sig
  · rw [if_pos hg, if_pos hg, beq_iff_eq.2 hg.symm]
    rfl
  · rw [if_neg hg, if_neg hg, beq_eq_false_iff_ne.2 (Ne.symm hg)]
    rfl

/-- Settles O47. -/
theorem authenticatedReadRuns : Obligations.AuthenticatedReadRuns := by
  unfold Obligations.AuthenticatedReadRuns
  intro s a x rest hb ht h24 h32 hx h hfresh
  have hread : (readPage s.cfg.wire.sard a s.ctxIdx 44).run s.begun = .ok (x.response, plaintext s s.ctxIdx x.response)
      { ((s.begun.readPrepared s.cfg.wire.sard a s.ctxIdx).transacted x rest).called [.cipher] with seq := .verify } :=
    run_readPage_fresh (s := s.begun) (by decide) hb ht hx h hfresh
  obtain ⟨hcfg, _, _, hctx, hkid, _, hout⟩ := readPrepared_frame s.begun s.cfg.wire.sard a s.ctxIdx
  refine (exec_sard_passes hb (addrOk_of_page h24 h32)).trans ((runOp_bind hread).trans ?_)
  generalize s.begun.readPrepared s.cfg.wire.sard a s.ctxIdx = v at hcfg hout hctx hkid ⊢
  have hsig : signatureOf (v.ctx s.ctxIdx).ssk v.kid (mkCtagAddr s.cfg.wire.sard (a.setWidth 24))
      (plaintext s s.ctxIdx x.response) = pageSignature s s.cfg.wire.sard a s.ctxIdx x.response := by
    rw [hctx, hkid]
    rfl
  refine (runOp_pageSigned (r := x.response)
    (u := { (v.transacted x rest).called [.cipher] with seq := .verify }) hsig).trans ?_
  rw [← hout, ← show x.final v.cfg = x.final s.cfg from congrArg x.final hcfg]
  generalize s.ctxIdx = slot
  cases slot <;> rfl

/-- Settles O48. -/
theorem stalePageRefused : Obligations.StalePageRefused := by
  unfold Obligations.StalePageRefused
  intro s a x rest i opc len hm hb ht h24 h32 hx h hstale
  have hlen : 0 < len := by
    simp only [List.mem_cons, List.not_mem_nil, or_false, Prod.mk.injEq] at hm
    omega
  obtain ⟨hc, hp, hl, hcl⟩ := hx
  have hread : (readPage opc a s.ctxIdx len).run s.begun = _ :=
    (run_readPage (s := s.begun) hlen hb ht hc hp hl hcl h).trans (if_neg hstale)
  have hok := addrOk_of_page h24 h32
  simp only [List.mem_cons, List.not_mem_nil, or_false, Prod.mk.injEq] at hm
  rcases hm with hi | hi <;> obtain ⟨rfl, rfl, rfl⟩ := hi
  · exact (exec_srd_passes hb hok).trans ((runOp_bind_raise hread).trans rfl)
  · exact (exec_sard_passes hb hok).trans ((runOp_bind_raise hread).trans rfl)

end Sys2Proof.Machine

/-! # The pipeline of the multi-block reads, page by page (rules R252 to R259) -/

namespace Sys2Proof.Machine

-- One proof at a time: proofs elaborated in parallel take a thread each, and the check bounds their memory.
set_option Elab.async false

open Config (Answer Event)

/-! ## What a multi-block read keeps -/

/-- The session, the configuration, the lock and the inputs are those of `s`. -/
structure SameSession (s t : State) : Prop where
  cfg : t.cfg = s.cfg
  busIsLocked : t.busIsLocked = s.busIsLocked
  kid : t.kid = s.kid
  sessionKey : t.sessionKey = s.sessionKey
  key0 : t.ctx0.key = s.ctx0.key
  key1 : t.ctx1.key = s.ctx1.key
  conf : t.conf = s.conf
  inp : t.inp = s.inp
  latch : t.latch = s.latch
  atomic : t.atomic = s.atomic

theorem SameSession.refl (s : State) : SameSession s s := ⟨rfl, rfl, rfl, rfl, rfl, rfl, rfl, rfl, rfl, rfl⟩

theorem SameSession.trans {s t u : State} (h : SameSession s t) (k : SameSession t u) : SameSession s u :=
  ⟨k.cfg.trans h.cfg, k.busIsLocked.trans h.busIsLocked, k.kid.trans h.kid, k.sessionKey.trans h.sessionKey,
    k.key0.trans h.key0, k.key1.trans h.key1, k.conf.trans h.conf, k.inp.trans h.inp, k.latch.trans h.latch,
    k.atomic.trans h.atomic⟩

theorem SameSession.key {s t : State} (h : SameSession s t) (slot : Bool) : (t.ctx slot).key = (s.ctx slot).key := by
  cases slot
  · exact h.key0
  · exact h.key1

/-- In the middle of a multi-block read from `s`: `n` pages are prepared, each with its tick and its draw; a command is in
flight as `fly` says. -/
structure Reading (s u : State) (n : Nat) (fly : Bool) : Prop where
  same : SameSession s u
  ctxIdx : u.ctxIdx = s.pageSlot (n - 1)
  mc : u.mc = { s.mc with tc := s.mc.tc + BitVec.ofNat 32 n }
  prng : u.env.prng = s.env.prng + n
  inFlight : u.inFlight = fly

/-- The context of page `n` holds what its preparation derived (rule R221). -/
structure HoldsPage (s u : State) (n : Nat) : Prop where
  tc : (u.ctx (s.pageSlot n)).tc = tickValue (s.tickedBy n)
  ssk : (u.ctx (s.pageSlot n)).ssk = readSsk (s.tickedBy n) (s.pageSlot n)
  cipherKey : (u.ctx (s.pageSlot n)).cipherKey = readKey (s.tickedBy n) (s.pageSlot n)

/-! ## Slots, ticks and addresses of successive pages -/

theorem pageSlot_zero (s : State) : s.pageSlot 0 = s.ctxIdx := by simp [State.pageSlot]

theorem pageSlot_succ (s : State) (n : Nat) : s.pageSlot (n + 1) = !s.pageSlot n := by
  have h : (n + 1) % 2 = 1 - n % 2 := by omega
  have h2 : n % 2 = 0 ∨ n % 2 = 1 := by omega
  unfold State.pageSlot
  rw [h]
  rcases h2 with h2 | h2 <;> rw [h2] <;> cases s.ctxIdx <;> rfl

theorem pageAddr_zero (a : Word) : pageAddr a 0 = a := by simp [pageAddr]

theorem pageAddr_succ (a : Word) (n : Nat) : pageAddr a n + 32 = pageAddr a (n + 1) := by
  unfold pageAddr
  rw [Nat.mul_succ, BitVec.ofNat_add, BitVec.add_assoc]
  rfl

theorem tickedBy_zero (s : State) : s.tickedBy 0 = s := by
  simp [State.tickedBy]

theorem tickedBy_succ (s : State) (n : Nat) : (s.tickedBy n).ticked = s.tickedBy (n + 1) := by
  simp only [State.tickedBy, State.ticked, BitVec.ofNat_add, BitVec.add_assoc]
  rfl

/-! ## Preparing a page -/

section
variable {s u : State} {n : Nat} {fly : Bool} (h : Reading s u n fly)
include h

theorem Reading.tickValue : Machine.tickValue u = Machine.tickValue (s.tickedBy n) := by
  unfold Machine.tickValue
  rw [h.same.cfg, h.mc]
  rfl

theorem Reading.readSsk (slot : Bool) : Machine.readSsk u slot = Machine.readSsk (s.tickedBy n) slot := by
  unfold Machine.readSsk
  rw [h.same.cfg, h.same.key, h.tickValue]
  rfl

theorem Reading.readKey (slot : Bool) : Machine.readKey u slot = Machine.readKey (s.tickedBy n) slot := by
  unfold Machine.readKey
  rw [h.same.cfg, h.same.kid, h.readSsk]
  rfl

theorem Reading.readCtag (opc : Byte) (a : Word) (slot : Bool) :
    Machine.readCtag u opc a slot = Machine.readCtag (s.preparedBy n) opc a slot := by
  have hkey : Machine.readKey (s.tickedBy n) slot = Machine.readKey (s.preparedBy n) slot := rfl
  unfold Machine.readCtag randomAddr
  rw [h.same.cfg, h.prng, h.readKey, hkey]
  rfl

/-- A tick is left for the next page. -/
theorem Reading.canTick (hs : s.mc.inSync = true) (hlim : s.mc.tc.toNat + n + 1 < Config.tcLim) :
    Machine.canTick u = true := by
  have hsum : (s.mc.tc + BitVec.ofNat 32 n).toNat = s.mc.tc.toNat + n := by
    have hlim' : s.mc.tc.toNat + n + 1 < 4294967295 := hlim
    rw [BitVec.toNat_add, BitVec.toNat_ofNat]
    omega
  unfold Machine.canTick
  rw [h.mc]
  show (s.mc.inSync && decide ((s.mc.tc + BitVec.ofNat 32 n).toNat + 1 < Config.tcLim)) = true
  rw [hs, hsum, decide_eq_true hlim]
  rfl

end

/-- The state of a multi-block read in which the next page's context is filled (step 2 of rule R253). -/
def State.pagePrepared (u : State) (opc : Byte) (a : Word) (slot : Bool) : State :=
  { ({ u with ctxIdx := slot } : State).readPrepared opc a slot with seq := .derive }

/-- The state that the preparation of page `n` leaves, `n` pages prepared before. -/
theorem Reading.prepared {s u : State} {n : Nat} {fly : Bool} (h : Reading s u n fly) (opc : Byte) (a : Word) :
    let t := u.pagePrepared opc (pageAddr a n) (s.pageSlot n)
    Reading s t (n + 1) fly ∧ HoldsPage s t n ∧ (t.ctx (s.pageSlot n)).ctagW = multiCtag s opc a n
      ∧ t.ctx (!s.pageSlot n) = u.ctx (!s.pageSlot n) ∧ t.env.answers = u.env.answers
      ∧ t.env.trace = prepEvents.reverse ++ u.env.trace ∧ t.out = u.out := by
  intro t
  obtain ⟨hcfg, hlock, hans, hctx, hkid, hidx, hout⟩ :=
    readPrepared_frame { u with ctxIdx := s.pageSlot n } opc (pageAddr a n) (s.pageSlot n)
  obtain ⟨hmc, hprng, htrace, hother, hkey0, hkey1, hsk, hconf, hinp, hlatch, hatom⟩ :=
    readPrepared_keeps { u with ctxIdx := s.pageSlot n } opc (pageAddr a n) (s.pageSlot n)
  have hfly : t.inFlight = u.inFlight := by
    show (State.readPrepared _ _ _ _).inFlight = _
    simp [State.readPrepared]
  refine ⟨⟨h.same.trans ⟨hcfg, hlock, hkid, hsk, hkey0, hkey1, hconf, hinp, hlatch, hatom⟩, hidx, ?_, ?_,
    hfly.trans h.inFlight⟩, ⟨?_, ?_, ?_⟩, ?_, hother, hans, htrace, hout⟩
  · refine hmc.trans ?_
    show Mc.mk (u.mc.tc + 1) u.mc.dmc u.mc.inSync = _
    rw [h.mc, BitVec.ofNat_add, ← BitVec.add_assoc]
    rfl
  · refine hprng.trans ?_
    show u.env.prng + 1 = _
    rw [h.prng]
    omega
  · exact (congrArg Ctx.tc hctx).trans h.tickValue
  · exact (congrArg Ctx.ssk hctx).trans (h.readSsk _)
  · exact (congrArg Ctx.cipherKey hctx).trans (h.readKey _)
  · exact (congrArg Ctx.ctagW hctx).trans (h.readCtag _ _ _)

/-- Preparing page `n` in the loop, while a tick is left for it. -/
theorem Reading.run_prepare {s u : State} {n : Nat} {fly : Bool} (h : Reading s u n fly) (hs : s.mc.inSync = true)
    (hlim : s.mc.tc.toNat + n + 1 < Config.tcLim) (opc : Byte) (a : Word) (done : Bytes) (size : Nat) :
    (do
      setCtxIdx (s.pageSlot n)
      orFailMulti (prepRead opc a (s.pageSlot n)) done size : M Unit).run u
      = .ok () (u.pagePrepared opc a (s.pageSlot n)) := by
  have ht := h.canTick hs hlim
  exact run_orFailMulti (run_prepRead (s := { u with ctxIdx := s.pageSlot n }) ht)

/-! ## Starting a page -/

/-- A command started without waiting, with `later` the answers still to come (rule R253). -/
def State.pageStarted (u : State) (ctag : Word) (later : List Answer) : State :=
  { u with
    seq := .send, inFlight := true, out := { u.out with ssrOut := u.ssr }
    env := { u.env with answers := later, trace := (startEvents u ctag).reverse ++ u.env.trace } }

theorem multiCtag_ne_zero {s : State} {opc : Byte} (ho : opc ≠ 0) (a : Word) (n : Nat) : multiCtag s opc a n ≠ 0 := by
  intro h
  have hopc : ctagOpc (multiCtag s opc a n) = opc := ctagOpc_mkCtagAddr _ _
  rw [h] at hopc
  exact ho (hopc.symm.trans (by decide))

theorem startEvents_congr {s u : State} (hcfg : u.cfg = s.cfg) (hconf : u.conf = s.conf) (ctag : Word) :
    startEvents u ctag = startEvents s ctag := by
  unfold startEvents op1Event request
  rw [hcfg, hconf]

/-- Starting a page whose context is prepared. -/
theorem run_startPage {s u : State} {n k : Nat} {fly : Bool} {opc : Byte} {a : Word} {later : List Answer}
    (h : Reading s u k fly) (hb : s.busIsLocked = true) (ho : opc ≠ 0)
    (hc : (u.ctx (s.pageSlot n)).ctagW = multiCtag s opc a n) (ha : u.env.answers = .bytes [] :: later) :
    (startRead (s.pageSlot n)).run u = .ok () (u.pageStarted (multiCtag s opc a n) later) := by
  have hne : (u.ctx (s.pageSlot n)).ctagW ≠ 0 := hc ▸ multiCtag_ne_zero ho a n
  rw [run_startRead (h.same.busIsLocked.trans hb) hne ha, hc]
  rfl

theorem Reading.started {s u : State} {n : Nat} {fly : Bool} (h : Reading s u n fly) (ctag : Word) (later : List Answer) :
    Reading s (u.pageStarted ctag later) n true :=
  ⟨{ h.same with }, h.ctxIdx, h.mc, h.prng, rfl⟩

/-! ## Reading a page -/

/-- The command in flight completed with status word `sv`, after the events `es`, with `later` the answers still to come. -/
def State.pageRead (u : State) (p : Phase) (sv : Word) (es : List Event) (later : List Answer) : State :=
  { u with
    seq := p, ssr := sv, inFlight := false, out := { u.out with ssrOut := sv }
    env := { u.env with answers := later, trace := es ++ u.env.trace } }

theorem Reading.read {s u : State} {n : Nat} {fly : Bool} (h : Reading s u n fly) (p : Phase) (sv : Word)
    (es : List Event) (later : List Answer) : Reading s (u.pageRead p sv es later) n false :=
  ⟨{ h.same with }, h.ctxIdx, h.mc, h.prng, rfl⟩

theorem readEvents_congr {s u : State} (hcfg : u.cfg = s.cfg) (hconf : u.conf = s.conf) (p : PageAnswer) :
    op2Event u p.response :: (p.wait.words.map (op0Event u)).reverse
      = op2Event s p.response :: (p.wait.words.map (op0Event s)).reverse := by
  have h0 : op0Event u = op0Event s := by
    funext v
    unfold op0Event request
    rw [hcfg, hconf]
  rw [h0]
  unfold op2Event request
  rw [hcfg, hconf]

/-- The read of a page that arrives (step 3 of rule R253). -/
theorem run_readArrived {u : State} {p : PageAnswer} {len : Nat} {later : List Answer} (hd : (0 : Byte) ∉ u.cfg.doubleWait)
    (hb : u.busIsLocked = true) (hw : p.wait.good u.cfg.ssr = true) (hr : respReady u.cfg.ssr p.wait.last = true)
    (hlen : p.response.length = len) (hl : len ≠ 0)
    (ha : u.env.answers = statusAnswers p.wait.words ++ .bytes p.response :: later) :
    (secureOrRaise 0 [] len true).run u = .ok (some p.response, p.wait.last)
      (u.pageRead .read p.wait.last (op2Event u p.response :: (p.wait.words.map (op0Event u)).reverse) later) := by
  subst hlen
  exact run_secure_nocmd hd hb hw hr (fun e => hl (by rw [e]; rfl)) ha

/-! ## One round of the loop -/

/-- A round of the loop past the start of the next page (rule R253): error check, verification, the rounds after it. -/
def pageTail (m : MultiRead) (rest : Nat) (a : Word) (old : Bool) (done : Bytes) (b : Option Bytes) (sv : Word) :
    M Bytes := do
  checkPage sv done m.size
  let r ← present b
  let p ← orFailMulti (verifyPage m a old r) done m.size
  pagesLoop m rest (a + BitVec.ofNat 32 Config.pageSize) (!old) (done ++ p)

/-- The state before page `n` is read: the next page is prepared, if there is one. -/
def State.nextPrepared (u s : State) (m : MultiRead) (a : Word) (n : Nat) (more : Bool) : State :=
  if more then u.pagePrepared m.opc (pageAddr a (n + 1)) (s.pageSlot (n + 1)) else u

/-- The state in which page `n` is checked: the next page prepared, page `n` read with status word `sv` and events `es`, the
next page started. -/
def State.pageFront (u s : State) (m : MultiRead) (a : Word) (n : Nat) (more : Bool) (p : Phase) (sv : Word)
    (es : List Event) (later : List Answer) : State :=
  let v := (u.nextPrepared s m a n more).pageRead p sv es ((if more then [.bytes []] else []) ++ later)
  if more then v.pageStarted (multiCtag s m.opc a (n + 1)) later else v

/-- A round of the loop up to the check of its page. -/
theorem run_pageFront {s u : State} {m : MultiRead} {a : Word} {n rest : Nat} {done : Bytes} {b : Option Bytes}
    {p : Phase} {sv : Word} {es : List Event} {later : List Answer} (h : Reading s u (n + 1) true)
    (hb : s.busIsLocked = true) (ho : m.opc ≠ 0) (hs : s.mc.inSync = true)
    (hlim : rest ≠ 0 → s.mc.tc.toNat + (n + 1) + 1 < Config.tcLim)
    (hread : (secureOrRaise 0 [] m.len true).run (u.nextPrepared s m a n (rest != 0)) = .ok (b, sv)
      ((u.nextPrepared s m a n (rest != 0)).pageRead p sv es ((if rest != 0 then [.bytes []] else []) ++ later))) :
    (pagesLoop m (rest + 1) (pageAddr a n) (s.pageSlot n) done).run u =
      (pageTail m rest (pageAddr a n) (s.pageSlot n) done b sv).run (u.pageFront s m a n (rest != 0) p sv es later) := by
  unfold State.pageFront
  rw [pagesLoop]
  cases hr : rest != 0
  · rw [hr] at hread
    rw [onlyIf_false, M.bind_pure]
    refine (bind_ok (run_orFailMulti hread)).trans ?_
    rfl
  · rw [hr] at hread
    have hnext : pageAddr a n + BitVec.ofNat 32 Config.pageSize = pageAddr a (n + 1) := pageAddr_succ a n
    rw [onlyIf_true, hnext, ← pageSlot_succ]
    refine (bind_ok (h.run_prepare hs (hlim (by simpa using hr)) m.opc (pageAddr a (n + 1)) done m.size)).trans ?_
    refine (bind_ok (run_orFailMulti hread)).trans ?_
    have hprep := h.prepared m.opc a
    have hstart := run_startPage (n := n + 1) (hprep.1.read p sv es ([.bytes []] ++ later)) hb ho hprep.2.2.1 rfl
    refine (bind_ok (run_orFailMulti hstart)).trans ?_
    rw [pageTail, hnext, ← pageSlot_succ]
    rfl

/-- The events of a round up to the start of the next page, newest first. -/
def frontTrace (s : State) (m : MultiRead) (a : Word) (n : Nat) (more : Bool) (es : List Event) : List Event :=
  (if more then (startEvents s (multiCtag s m.opc a (n + 1))).reverse else []) ++ es
    ++ (if more then prepEvents.reverse else [])

/-- What a round leaves up to the check of its page. -/
theorem pageFront_frame {s u : State} {n : Nat} (h : Reading s u (n + 1) true) (hp : HoldsPage s u n) (m : MultiRead)
    (a : Word) (more : Bool) (p : Phase) (sv : Word) (es : List Event) (later : List Answer) :
    let t := u.pageFront s m a n more p sv es later
    Reading s t (if more then n + 2 else n + 1) more ∧ HoldsPage s t n ∧ (more = true → HoldsPage s t (n + 1))
      ∧ t.env.answers = later ∧ t.env.trace = frontTrace s m a n more es ++ u.env.trace
      ∧ t.ssr = sv ∧ t.out = { u.out with ssrOut := sv } := by
  intro t
  cases more
  · exact ⟨h.read p sv es later, ⟨hp.tc, hp.ssk, hp.cipherKey⟩, nofun, rfl, by simp [t, frontTrace, State.pageFront,
      State.nextPrepared, State.pageRead], rfl, rfl⟩
  · obtain ⟨hread, hnext, _, hother, hans, htrace, hout⟩ := h.prepared m.opc a
    have hslot : (!s.pageSlot (n + 1)) = s.pageSlot n := by rw [pageSlot_succ, Bool.not_not]
    rw [hslot] at hother
    have hsame : SameSession s (u.pagePrepared m.opc (pageAddr a (n + 1)) (s.pageSlot (n + 1))) := hread.same
    refine ⟨(hread.read p sv es _).started _ later, ?_, fun _ => ⟨hnext.tc, hnext.ssk, hnext.cipherKey⟩, rfl, ?_, rfl, ?_⟩
    · exact ⟨(congrArg Ctx.tc hother).trans hp.tc, (congrArg Ctx.ssk hother).trans hp.ssk,
        (congrArg Ctx.cipherKey hother).trans hp.cipherKey⟩
    · have hev := startEvents_congr (u := (u.nextPrepared s m a n true).pageRead p sv es ([.bytes []] ++ later))
        hsame.cfg hsame.conf (multiCtag s m.opc a (n + 1))
      refine (congrArg₂ (fun es' tr => es'.reverse ++ (es ++ tr)) hev htrace).trans ?_
      simp [frontTrace]
    · exact congrArg (fun o : Results => { o with ssrOut := sv }) hout

/-! ## A page in order -/

/-- The rest of a round whose page has no error bit: the verification of what arrived. -/
theorem run_pageTail {t : State} {m : MultiRead} {rest : Nat} {a : Word} {old : Bool} {done r : Bytes} {sv : Word}
    (he : hasError t.cfg.ssr sv = false) :
    (pageTail m rest a old done (some r) sv).run t = (do
      let p ← orFailMulti (verifyPage m a old r) done m.size
      pagesLoop m rest (a + BitVec.ofNat 32 Config.pageSize) (!old) (done ++ p) : M Bytes).run t := by
  simp only [pageTail, checkPage, bind_assoc, M.bind_get, he, onlyIf_false, M.bind_pure, present_some]

/-- The verification of page `n` in order. -/
theorem Reading.run_verify {s t : State} {k n : Nat} {fly : Bool} {m : MultiRead} {a : Word} {p : PageAnswer}
    (h : Reading s t k fly) (hp : HoldsPage s t n) (hg : pageGood (s.tickedBy n) m (pageAddr a n) (s.pageSlot n) p)
    (done : Bytes) :
    (orFailMulti (verifyPage m (pageAddr a n) (s.pageSlot n) p.response) done m.size).run t =
      .ok (plaintext (s.tickedBy n) (s.pageSlot n) p.response)
        (t.pageVerified m (pageAddr a n) (s.pageSlot n) (plaintext (s.tickedBy n) (s.pageSlot n) p.response)) :=
  run_orFailMulti (run_verifyPage hp.tc hp.ssk hp.cipherKey h.same.kid hg)

/-- What verification leaves of a multi-block read. -/
theorem Reading.verified {s t : State} {k : Nat} {fly : Bool} (h : Reading s t k fly) (m : MultiRead) (a : Word)
    (slot : Bool) (b : Bytes) : Reading s (t.pageVerified m a slot b) k fly := by
  obtain ⟨hcfg, hlock, hmc, hkid, hkey0, hkey1, hsk, hconf, hinp, hlatch, hatom, hidx, _, _, hprng, hfly, _⟩ :=
    pageVerified_frame t m a slot b
  exact ⟨h.same.trans ⟨hcfg, hlock, hkid, hsk, hkey0, hkey1, hconf, hinp, hlatch, hatom⟩, hidx.trans h.ctxIdx,
    hmc.trans h.mc, hprng.trans h.prng, hfly.trans h.inFlight⟩

/-- The verification of a page leaves what the next page's preparation derived. -/
theorem HoldsPage.verified {s t : State} {n : Nat} (h : HoldsPage s t (n + 1)) (m : MultiRead) (a : Word) (b : Bytes) :
    HoldsPage s (t.pageVerified m a (s.pageSlot n) b) (n + 1) := by
  obtain ⟨_, _, _, _, _, _, _, _, _, _, _, _, hother, _⟩ := pageVerified_frame t m a (s.pageSlot n) b
  rw [← pageSlot_succ] at hother
  exact ⟨(congrArg Ctx.tc hother).trans h.tc, (congrArg Ctx.ssk hother).trans h.ssk,
    (congrArg Ctx.cipherKey hother).trans h.cipherKey⟩

/-- The state after a round whose page was in order. -/
def State.afterPage (u s : State) (m : MultiRead) (a : Word) (n : Nat) (more : Bool) (p : PageAnswer)
    (later : List Answer) : State :=
  (u.pageFront s m a n more .read p.wait.last (op2Event s p.response :: (p.wait.words.map (op0Event s)).reverse)
    later).pageVerified m (pageAddr a n) (s.pageSlot n) (plaintext (s.tickedBy n) (s.pageSlot n) p.response)

/-- The answers of one round: the polls and the response of its page, then the start of the next one. -/
def roundAnswers (p : PageAnswer) (more : Bool) : List Answer :=
  statusAnswers p.wait.words ++ [.bytes p.response] ++ (if more then [.bytes []] else [])

theorem Reading.nextPrepared {s u : State} {n : Nat} (h : Reading s u (n + 1) true) (m : MultiRead) (a : Word)
    (more : Bool) : SameSession s (u.nextPrepared s m a n more)
      ∧ (u.nextPrepared s m a n more).env.answers = u.env.answers := by
  cases more
  · exact ⟨h.same, rfl⟩
  · obtain ⟨hread, _, _, _, hans, _⟩ := h.prepared m.opc a
    exact ⟨hread.same, hans⟩

/-- The parameters of a multi-block read, its operands and its base state, as the rounds of its loop use them. -/
structure MultiSetup (s : State) (m : MultiRead) : Prop where
  locked : s.busIsLocked = true
  opcode : m.opc ≠ 0
  len : m.len ≠ 0
  inSync : s.mc.inSync = true
  singleWait : (0 : Byte) ∉ s.cfg.doubleWait

/-- A round up to the check of its page, when the page arrives. -/
theorem run_pageArrives {s u : State} {m : MultiRead} {a : Word} {n rest : Nat} {done : Bytes} {p : PageAnswer}
    {later : List Answer} (S : MultiSetup s m) (h : Reading s u (n + 1) true)
    (hlim : rest ≠ 0 → s.mc.tc.toNat + (n + 1) + 1 < Config.tcLim) (hp : pageArrives s m p)
    (ha : u.env.answers = roundAnswers p (rest != 0) ++ later) :
    (pagesLoop m (rest + 1) (pageAddr a n) (s.pageSlot n) done).run u =
      (pageTail m rest (pageAddr a n) (s.pageSlot n) done (some p.response) p.wait.last).run
        (u.pageFront s m a n (rest != 0) .read p.wait.last
          (op2Event s p.response :: (p.wait.words.map (op0Event s)).reverse) later) := by
  obtain ⟨hgood, hready, hlen⟩ := hp
  obtain ⟨hsame, hans⟩ := h.nextPrepared m a (rest != 0)
  refine run_pageFront h S.locked S.opcode S.inSync hlim ?_
  rw [← readEvents_congr hsame.cfg hsame.conf p]
  refine run_readArrived ?_ (hsame.busIsLocked.trans S.locked) ?_ ?_ hlen S.len ?_
  · rw [hsame.cfg]
    exact S.singleWait
  · rw [hsame.cfg]
    exact hgood
  · rw [hsame.cfg]
    exact hready
  · rw [hans, ha]
    simp [roundAnswers]

/-- A round whose page is in order: its plaintext is appended and the loop goes on. -/
theorem run_pageInOrder {s u : State} {m : MultiRead} {a : Word} {n rest : Nat} {done : Bytes} {p : PageAnswer}
    {later : List Answer} (S : MultiSetup s m) (h : Reading s u (n + 1) true) (hh : HoldsPage s u n)
    (hlim : rest ≠ 0 → s.mc.tc.toNat + (n + 1) + 1 < Config.tcLim)
    (hg : pageGood (s.tickedBy n) m (pageAddr a n) (s.pageSlot n) p)
    (ha : u.env.answers = roundAnswers p (rest != 0) ++ later) :
    (pagesLoop m (rest + 1) (pageAddr a n) (s.pageSlot n) done).run u =
      (pagesLoop m rest (pageAddr a (n + 1)) (s.pageSlot (n + 1))
        (done ++ plaintext (s.tickedBy n) (s.pageSlot n) p.response)).run (u.afterPage s m a n (rest != 0) p later) := by
  have ⟨hgood, hready, herr, hlen, _⟩ := hg
  refine (run_pageArrives S h hlim ⟨hgood, hready, hlen⟩ ha).trans ?_
  obtain ⟨hr, hhold, _⟩ := pageFront_frame h hh m a (rest != 0) .read p.wait.last
    (op2Event s p.response :: (p.wait.words.map (op0Event s)).reverse) later
  refine (run_pageTail (by rw [hr.same.cfg]; exact herr)).trans ((bind_ok (hr.run_verify hhold hg done)).trans ?_)
  rw [pageSlot_succ, ← pageAddr_succ]
  rfl

/-- What a round whose page was in order leaves. -/
theorem afterPage_frame {s u : State} {n : Nat} (h : Reading s u (n + 1) true) (hp : HoldsPage s u n) (m : MultiRead)
    (a : Word) (more : Bool) (p : PageAnswer) (later : List Answer) :
    let t := u.afterPage s m a n more p later
    Reading s t (if more then n + 2 else n + 1) more ∧ (more = true → HoldsPage s t (n + 1)) ∧ t.env.answers = later
      ∧ t.env.trace = (checkEvents m).reverse ++ (frontTrace s m a n more
        (op2Event s p.response :: (p.wait.words.map (op0Event s)).reverse) ++ u.env.trace)
      ∧ t.ssr = p.wait.last ∧ t.out = { u.out with ssrOut := p.wait.last } := by
  intro t
  obtain ⟨hr, _, hnext, hans, htrace, hssr, hout⟩ := pageFront_frame h hp m a more .read p.wait.last
    (op2Event s p.response :: (p.wait.words.map (op0Event s)).reverse) later
  obtain ⟨_, _, _, _, _, _, _, _, _, _, _, _, _, hans', _, _, hssr', hout', htrace'⟩ := pageVerified_frame
    (u.pageFront s m a n more .read p.wait.last (op2Event s p.response :: (p.wait.words.map (op0Event s)).reverse) later)
    m (pageAddr a n) (s.pageSlot n) (plaintext (s.tickedBy n) (s.pageSlot n) p.response)
  exact ⟨hr.verified m _ _ _, fun hm => (hnext hm).verified m _ _, hans'.trans hans, by rw [← htrace]; exact htrace',
    hssr'.trans hssr, hout'.trans hout⟩

/-! ## All pages in order -/

/-- The pages of a list and the values of their ticks, in terms of the first page's number. -/
theorem pagesGood_cons {s : State} {m : MultiRead} {a : Word} {n : Nat} {p : PageAnswer} {ps : List PageAnswer} :
    pagesGood (s.tickedBy n) m (pageAddr a n) (s.pageSlot n) (p :: ps)
      ↔ pageGood (s.tickedBy n) m (pageAddr a n) (s.pageSlot n) p
        ∧ pagesGood (s.tickedBy (n + 1)) m (pageAddr a (n + 1)) (s.pageSlot (n + 1)) ps := by
  rw [pagesGood, tickedBy_succ, pageAddr_succ, pageSlot_succ]

theorem pagesData_cons (s : State) (n : Nat) (p : PageAnswer) (ps : List PageAnswer) :
    pagesData (s.tickedBy n) (s.pageSlot n) (p :: ps) = plaintext (s.tickedBy n) (s.pageSlot n) p.response
      ++ pagesData (s.tickedBy (n + 1)) (s.pageSlot (n + 1)) ps := by
  rw [pagesData, tickedBy_succ, pageSlot_succ]

/-- The loop over pages that are all in order (rules R253 to R256). -/
theorem run_pagesLoop_inOrder {s : State} {m : MultiRead} {a : Word} {later : List Answer} (S : MultiSetup s m)
    (pages : List PageAnswer) (hne : pages ≠ []) {n : Nat} {u : State} {done : Bytes} (h : Reading s u (n + 1) true)
    (hh : HoldsPage s u n) (hlim : s.mc.tc.toNat + n + pages.length < Config.tcLim)
    (hg : pagesGood (s.tickedBy n) m (pageAddr a n) (s.pageSlot n) pages)
    (ha : u.env.answers = pageAnswers pages ++ later) :
    ∃ t, (pagesLoop m pages.length (pageAddr a n) (s.pageSlot n) done).run u =
        .ok (done ++ pagesData (s.tickedBy n) (s.pageSlot n) pages) t
      ∧ Reading s t (n + pages.length) false ∧ t.env.answers = later
      ∧ t.env.trace = (loopEvents s m a n pages).reverse ++ u.env.trace
      ∧ ∀ p ∈ pages.getLast?, t.ssr = p.wait.last ∧ t.out.ssrOut = p.wait.last := by
  induction pages generalizing n u done with
  | nil => exact absurd rfl hne
  | cons p ps ih =>
    obtain ⟨hgp, hgs⟩ := pagesGood_cons.1 hg
    rw [List.length_cons] at hlim
    have hmore : (ps.length != 0) = !ps.isEmpty := by cases ps <;> rfl
    have ha' : u.env.answers = roundAnswers p (ps.length != 0) ++ (pageAnswers ps ++ later) := by
      rw [ha, hmore]
      cases ps <;> simp [pageAnswers, roundAnswers]
    have hrun := run_pageInOrder (rest := ps.length) (done := done) S h hh (by omega) hgp ha'
    obtain ⟨hr, hnext, hans, htrace, hssr, hout⟩ :=
      afterPage_frame h hh m a (ps.length != 0) p (pageAnswers ps ++ later)
    cases ps with
    | nil =>
      refine ⟨_, hrun.trans ?_, hr, hans, ?_, ?_⟩
      · rw [pagesData_cons, pagesData, List.append_nil]
        rfl
      · rw [htrace]
        simp [frontTrace, loopEvents]
      · rintro q hq
        cases hq
        exact ⟨hssr, congrArg Results.ssrOut hout⟩
    | cons q qs =>
      obtain ⟨t, hloop, hread, hlast, hevents, hfin⟩ := ih (by simp)
        (done := done ++ plaintext (s.tickedBy n) (s.pageSlot n) p.response) hr (hnext rfl) (by omega) hgs hans
      refine ⟨t, hrun.trans (hloop.trans ?_), ?_, hlast, ?_, hfin⟩
      · rw [pagesData_cons s n, List.append_assoc]
      · have hlen : n + (p :: q :: qs).length = n + 1 + (q :: qs).length := by
          simp only [List.length_cons]
          omega
        rw [hlen]
        exact hread
      · rw [hevents, htrace, loopEvents.eq_2 s m a n]
        simp [frontTrace]

/-! ## The whole read -/

/-- The first page is prepared: the read from `s` has made one tick and one draw. -/
structure FirstPrepared (s v : State) (m : MultiRead) (a : Word) : Prop where
  reading : ∃ fly, Reading s v 1 fly
  holds : HoldsPage s v 0
  ctag : (v.ctx s.ctxIdx).ctagW = multiCtag s m.opc a 0

/-- The start of the first page, then the loop. -/
theorem run_readMulti_of_prepared {s x v : State} {m : MultiRead} {a : Word} {later : List Answer} (S : MultiSetup s m)
    (hx : x.ctxIdx = s.ctxIdx) (hv : (prepRead m.opc a s.ctxIdx).run x = .ok () v) (hf : FirstPrepared s v m a)
    (ha : v.env.answers = .bytes [] :: later) :
    (readMulti m a).run x = (do
      let out ← pagesLoop m (m.size / Config.pageSize) (pageAddr a 0) (s.pageSlot 0) []
      setRbuf out : M Unit).run (v.pageStarted (multiCtag s m.opc a 0) later)
      ∧ Reading s (v.pageStarted (multiCtag s m.opc a 0) later) 1 true
      ∧ HoldsPage s (v.pageStarted (multiCtag s m.opc a 0) later) 0 := by
  obtain ⟨fly, hr⟩ := hf.reading
  have hh := hf.holds
  have hstart := run_startPage (n := 0) hr S.locked S.opcode (by rw [pageSlot_zero]; exact hf.ctag) ha
  refine ⟨?_, hr.started _ _, ⟨hh.tc, hh.ssk, hh.cipherKey⟩⟩
  rw [pageSlot_zero] at hstart
  simp only [readMulti, M.bind_get, hx]
  refine (bind_ok hv).trans ((bind_ok (run_orFailMulti hstart)).trans ?_)
  rw [pageAddr_zero, pageSlot_zero]

theorem pageSlot_last (s : State) {k : Nat} (hk : k ≠ 0) : s.pageSlot (k - 1) = (s.ctxIdx ^^ (k % 2 == 0)) := by
  have h : ((k - 1) % 2 == 1) = (k % 2 == 0) := by
    rw [Bool.eq_iff_iff, beq_iff_eq, beq_iff_eq]
    omega
  rw [State.pageSlot, h]

/-- A multi-block read whose pages are all in order, from the state in which its first page is prepared. -/
theorem runOp_readMulti_inOrder {s x v : State} {m : MultiRead} {a : Word} {pages : List PageAnswer} {later : List Answer}
    (S : MultiSetup s m) (hx : x.ctxIdx = s.ctxIdx) (hv : (prepRead m.opc a s.ctxIdx).run x = .ok () v)
    (hf : FirstPrepared s v m a) (hsize : m.size = 32 * pages.length) (hne : pages ≠ [])
    (hlim : s.mc.tc.toNat + pages.length < Config.tcLim) (hg : pagesGood s m a s.ctxIdx pages)
    (ha : v.env.answers = .bytes [] :: (pageAnswers pages ++ later)) :
    ∃ t, runOp (readMulti m a) x = .next t ∧ multiDone s t pages later
      ∧ t.env.trace = (pipelineEvents s m a pages).reverse ++ v.env.trace := by
  obtain ⟨hrun, hr, hh⟩ := run_readMulti_of_prepared S hx hv hf ha
  obtain ⟨fly, hr0⟩ := hf.reading
  have hn : m.size / Config.pageSize = pages.length := by
    rw [hsize]
    exact Nat.mul_div_cancel_left _ (by decide)
  rw [hn] at hrun
  rw [← tickedBy_zero s, ← pageAddr_zero a, ← pageSlot_zero] at hg
  obtain ⟨t, hloop, hread, hans, htrace, hlast⟩ := run_pagesLoop_inOrder S pages hne (done := []) hr hh (by omega)
    hg rfl
  have hlen : pages.length ≠ 0 := fun e => hne (List.length_eq_zero_iff.1 e)
  refine ⟨complete .ok { t with out := { t.out with rbuf := [] ++ pagesData (s.tickedBy 0) (s.pageSlot 0) pages } },
    runOp_ok (hrun.trans ((bind_ok hloop).trans (run_setRbuf _ _))), ⟨rfl, rfl, ?_, ?_, ?_, ?_, hread.inFlight,
    hans, hlast, hread.same.kid, hread.same.sessionKey, hread.same.key0, hread.same.key1, hread.same.conf,
    hread.same.busIsLocked, hread.same.atomic, hread.same.cfg, hread.same.inp, hread.same.latch⟩, ?_⟩
  · rw [pageSlot_zero, tickedBy_zero]
    rfl
  · rw [← Nat.zero_add pages.length]
    exact hread.mc
  · rw [← pageSlot_last s hlen]
    have h := hread.ctxIdx
    rw [Nat.zero_add] at h
    exact h
  · rw [← Nat.zero_add pages.length]
    exact hread.prng
  · refine htrace.trans ?_
    show _ ++ ((startEvents v _).reverse ++ v.env.trace) = _
    rw [startEvents_congr hr0.same.cfg hr0.same.conf, pipelineEvents, List.reverse_append, List.append_assoc]

/-! ## The operations -/

/-- The operands of the multi-block reads (rules R255, R256). -/
def multiReads (s : State) (a size : Word) : List (Instr × MultiRead) :=
  [(.srdMulti a size, ⟨s.cfg.wire.srd, 36, false, size.toNat⟩), (.sardMulti a size, ⟨s.cfg.wire.sard, 44, true, size.toNat⟩)]

/-- Past its boundary checks such an operation is `readMulti`. -/
theorem exec_multi_passes {s : State} {a size : Word} {i : Instr} {m : MultiRead} (hm : (i, m) ∈ multiReads s a size)
    (hb : s.busIsLocked = true) (hok : multiOk a size = true) : exec i s = runOp (readMulti m a) s.begun := by
  simp only [multiReads, List.mem_cons, List.not_mem_nil, or_false, Prod.mk.injEq] at hm
  rcases hm with hi | hi <;> obtain ⟨rfl, rfl⟩ := hi
  all_goals exact (runOp_passes hb).trans ((runOp_passes hok).trans runOp_begins)

theorem multiReads_size {s : State} {a size : Word} {i : Instr} {m : MultiRead} (hm : (i, m) ∈ multiReads s a size) :
    m.size = size.toNat := by
  simp only [multiReads, List.mem_cons, List.not_mem_nil, or_false, Prod.mk.injEq] at hm
  rcases hm with hi | hi <;> obtain ⟨_, rfl⟩ := hi
  all_goals rfl

theorem multiSetup_of_wf {s : State} {a size : Word} {i : Instr} {m : MultiRead} (hm : (i, m) ∈ multiReads s a size)
    (hwf : paramsWf s.cfg = true) (hb : s.busIsLocked = true) (hs : s.mc.inSync = true) : MultiSetup s m := by
  obtain ⟨_, hzero, _, _, _, _, _, hdouble, _⟩ := (paramsWf_iff s.cfg).1 hwf
  have hsrd : s.cfg.wire.srd ≠ 0 := fun e => hzero (e ▸ by simp [wireCodes])
  have hsard : s.cfg.wire.sard ≠ 0 := fun e => hzero (e ▸ by simp [wireCodes])
  simp only [multiReads, List.mem_cons, List.not_mem_nil, or_false, Prod.mk.injEq] at hm
  rcases hm with hi | hi <;> obtain ⟨_, rfl⟩ := hi
  · exact ⟨hb, hsrd, Nat.succ_ne_zero 35, hs, hdouble⟩
  · exact ⟨hb, hsard, Nat.succ_ne_zero 43, hs, hdouble⟩

theorem multiOk_of_range {a size : Word} (ha : a.toNat % 32 = 0) (h0 : size.toNat ≠ 0) (h32 : size.toNat % 32 = 0)
    (hend : a.toNat + size.toNat ≤ 2 ^ 24) : multiOk a size = true := by
  have haddr : addrOk a = true := addrOk_of_page (by omega) ha
  rw [multiOk, haddr, Bool.true_and]
  exact decide_eq_true ⟨h0, h32, hend⟩

/-- A read that begins over a trusted counter with a tick left. -/
theorem firstPrepared {s : State} {m : MultiRead} (a : Word) :
    FirstPrepared s { s.begun.readPrepared m.opc a s.ctxIdx with seq := .derive } m a := by
  have h : Reading s s.begun 0 s.inFlight :=
    ⟨{ SameSession.refl s with }, (pageSlot_zero s).symm, by simp, rfl, rfl⟩
  obtain ⟨hr, hh, hc, _⟩ := h.prepared m.opc a
  have hstate : s.begun.pagePrepared m.opc (pageAddr a 0) (s.pageSlot 0)
      = { s.begun.readPrepared m.opc a s.ctxIdx with seq := .derive } := by
    rw [pageSlot_zero, pageAddr_zero]
    rfl
  rw [hstate] at hr hh hc
  rw [pageSlot_zero] at hc
  exact ⟨⟨_, hr⟩, hh, hc⟩

/-- Settles O50, by induction over the pages. -/
theorem multiBlockReadsRun : Obligations.MultiBlockReadsRun := by
  unfold Obligations.MultiBlockReadsRun
  intro s a size i m pages rest hm hb ha hsize hne hend hs hlim hwf hg h
  have hlen : pages.length ≠ 0 := fun e => hne (List.length_eq_zero_iff.1 e)
  have S := multiSetup_of_wf hm hwf hb hs
  have hok := multiOk_of_range (size := size) ha (by omega) (by omega) hend
  have htick : canTick s.begun = true := by
    have hlim' : s.mc.tc.toNat + 1 < Config.tcLim := by
      show _ < 4294967295
      omega
    exact Bool.and_eq_true_iff.2 ⟨hs, decide_eq_true hlim'⟩
  obtain ⟨_, _, hans, _⟩ := readPrepared_frame s.begun m.opc a s.ctxIdx
  obtain ⟨_, _, htrace, _⟩ := readPrepared_keeps s.begun m.opc a s.ctxIdx
  obtain ⟨t, hrun, hdone, hevents⟩ := runOp_readMulti_inOrder (x := s.begun) S rfl (run_prepRead htick) (firstPrepared a)
    ((multiReads_size hm).trans hsize) hne hlim hg (hans.trans h)
  refine ⟨t, (exec_multi_passes hm hb hok).trans hrun, hdone, ?_⟩
  rw [hevents, List.reverse_append, List.append_assoc]
  exact congrArg _ htrace

end Sys2Proof.Machine

/-! # The first consumer of an untrusted counter (rules R315 to R317) -/

namespace Sys2Proof.Machine

-- One proof at a time: proofs elaborated in parallel take a thread each, and the check bounds their memory.
set_option Elab.async false

open Config (Answer)

/-! ## A transaction forgets the phase and the status output it began with -/

/-- With a status wait a transaction sets the phase before it looks at it. -/
theorem run_secureSteps_setSeq (s : State) (p : Phase) (ctag : Word) (w : Bytes) (n : Nat) :
    (secureSteps ctag w n true).run { s with seq := p } = (secureSteps ctag w n true).run s := by
  have hwait : ∀ opc, (secureWait opc).run { s with seq := p } = (secureWait opc).run s := fun opc => by
    simp only [secureWait, busyWait, bind_assoc, bind_phase]
  have hsend : (secureSend ctag w).run { s with seq := p } = (secureSend ctag w).run s := by
    simp only [secureSend, bind_phase]
  rw [secureSteps]
  cases ctag != 0
  · rw [onlyIf_false, M.bind_pure, M.bind_pure, onlyIf_true, M.run_bind, M.run_bind, hwait]
  · rw [onlyIf_true, M.run_bind, M.run_bind, hsend]

theorem run_secureOrRaise_stops {s t : State} {ctag : Word} {w : Bytes} {n : Nat} {b : Bool} {e : Stop}
    (hb : s.busIsLocked = true) (he : ∀ st, e ≠ .raise st)
    (h : (secureSteps ctag w n b).run { s with atomic := s.atomic + 1 } = .error e t) :
    (secureOrRaise ctag w n b).run s = .error e t :=
  bind_error (run_secure_stops hb he h)

/-- The status output set to `v`. -/
def State.withSsrOut (s : State) (v : Word) : State := s.mapPort id fun o => { o with ssrOut := v }

/-- A transaction overwrites the status output, unless it never ends. -/
theorem run_secureOrRaise_forgets {s : State} (hb : s.busIsLocked = true) (p : Phase) (v : Word) (ctag : Word) (w : Bytes)
    (n : Nat) :
    (secureOrRaise ctag w n true).run { s.withSsrOut v with seq := p } = (secureOrRaise ctag w n true).run s
      ∨ ∃ e t, (∀ st, e ≠ .raise st) ∧ (secureOrRaise ctag w n true).run s = .error e t
        ∧ (secureOrRaise ctag w n true).run { s.withSsrOut v with seq := p } = .error e (t.withSsrOut v) := by
  have hsteps : (secureSteps ctag w n true).run { s.withSsrOut v with seq := p, atomic := s.atomic + 1 } =
      mapEnd (·.withSsrOut v) ((secureSteps ctag w n true).run { s with atomic := s.atomic + 1 }) :=
    (run_secureSteps_setSeq { s.withSsrOut v with atomic := s.atomic + 1 } p ctag w n).trans
      (Commutes.secureSteps (a := id) (b := fun o => { o with ssrOut := v }) ctag w n true
        { s with atomic := s.atomic + 1 })
  have hb' : ({ s.withSsrOut v with seq := p } : State).busIsLocked = true := hb
  cases hrun : (secureSteps ctag w n true).run { s with atomic := s.atomic + 1 } with
  | ok r t =>
    rw [hrun] at hsteps
    exact .inl ((run_secureOrRaise_ok hb' hsteps).trans (run_secureOrRaise_ok hb hrun).symm)
  | error e t =>
    rw [hrun] at hsteps
    by_cases he : ∃ st, e = .raise st
    · obtain ⟨st, rfl⟩ := he
      exact .inl ((run_secureOrRaise_fails hb' hsteps).trans (run_secureOrRaise_fails hb hrun).symm)
    · have he' : ∀ st, e ≠ .raise st := fun st h => he ⟨st, h⟩
      exact .inr ⟨e, t, he', run_secureOrRaise_stops hb he' hrun, run_secureOrRaise_stops hb' he' hsteps⟩

/-! ## The outcomes that leave the block idle -/

/-- The same outcomes, as far as the block is idle after them. -/
def SameIdle (o o' : Host.Outcome State Fault Refusal) : Prop := ∀ t, t.seq = .idle → (o = .next t ↔ o' = .next t)

theorem SameIdle.of_eq {o o' : Host.Outcome State Fault Refusal} (h : o = o') : SameIdle o o' := fun _ _ => by rw [h]

theorem SameIdle.trans {o o' o'' : Host.Outcome State Fault Refusal} (h : SameIdle o o') (k : SameIdle o' o'') :
    SameIdle o o'' := fun t ht => (h t ht).trans (k t ht)

/-- An endless poll does not leave the block idle. -/
theorem secureOrRaise_stuck {s t : State} {ctag : Word} {w : Bytes} {n : Nat} {b : Bool}
    (h : (secureOrRaise ctag w n b).run s = .error .stuck t) : t.seq ≠ .idle := by
  have hq : Quiet fun _ => True :=
    ⟨fun _ _ h => h, fun _ _ h => h, fun _ _ h => h, fun _ _ h => h, fun _ _ h => h, fun _ _ _ _ _ _ _ h _ => h,
      fun _ _ _ h => h, fun _ h => h, fun _ h => h⟩
  obtain ⟨_, _, hseq⟩ := (wp_error h).1 (hq.secureOrRaise (base := s.atomic) s trivial rfl)
  rcases hseq with hseq | hseq <;> rw [hseq] <;> decide

/-- What an operation does from a transaction on does not depend on the phase and the status output before it. -/
theorem sameIdle_secureOrRaise {s : State} (hb : s.busIsLocked = true) (p : Phase) (v : Word) (ctag : Word) (w : Bytes)
    (n : Nat) (f : Option Bytes × Word → M Unit) :
    SameIdle (runOp (secureOrRaise ctag w n true >>= f) { s.withSsrOut v with seq := p })
      (runOp (secureOrRaise ctag w n true >>= f) s) := by
  rcases run_secureOrRaise_forgets hb p v ctag w n with heq | ⟨e, t, he, hrun, hrun'⟩
  · exact .of_eq (by rw [runOp_eq, runOp_eq, M.run_bind, M.run_bind, heq])
  · rw [runOp_eq, runOp_eq, bind_error hrun, bind_error hrun']
    cases e with
    | raise st => exact absurd rfl (he st)
    | stuck =>
      have hseq := secureOrRaise_stuck hrun
      intro u hu
      constructor <;> intro h <;> cases h
      · exact absurd hu hseq
      · exact absurd hu hseq
    | reset => exact .of_eq rfl
    | fault f => exact .of_eq rfl

/-! ## Consumers that draw nothing first -/

theorem prepared_withSsrOut (s : State) (p : Phase) (v : Word) (ctag : Word) (data : Bytes) (encData encAddr : Bool) :
    ({ s.withSsrOut v with seq := p } : State).prepared ctag data encData encAddr
      = { (s.prepared ctag data encData encAddr).withSsrOut v with seq := p } := by
  rcases s with ⟨_, _, _, _, _, _, _, _, _, _, _, ctxIdx, _, _, _, _, _, _⟩
  cases ctxIdx <;> cases encData <;> cases encAddr <;> rfl

/-- A setter past its tick: the preparation, then the transaction. -/
theorem runOp_setter_afterTick (s : State) (c : SetterCall) :
    runOp c.afterTick s = runOp (secureOrRaise (sentCtag s c.encAddr c.ctag)
      (sentData s c.encData c.data ++ signature s c.ctag c.data true) 0 true >>= fun r => checkOrRaise r.2 c.mask)
      { s.prepared c.ctag c.data c.encData c.encAddr with seq := .derive } := by
  rw [runOp_eq, runOp_eq, SetterCall.afterTick, bind_ok (run_prepareSetter s c.ctag c.data c.encData c.encAddr)]

theorem sameIdle_setter {s : State} (hb : s.busIsLocked = true) (p : Phase) (v : Word) (c : SetterCall) :
    SameIdle (runOp c.afterTick { s.withSsrOut v with seq := p }) (runOp c.afterTick s) := by
  obtain ⟨_, hlock, _⟩ := prepared_frame s c.ctag c.data c.encData c.encAddr
  have h := runOp_setter_afterTick { s.withSsrOut v with seq := p } c
  rw [prepared_withSsrOut] at h
  exact (SameIdle.of_eq h).trans ((sameIdle_secureOrRaise
    (s := { s.prepared c.ctag c.data c.encData c.encAddr with seq := .derive }) (hlock.trans hb) .derive v _ _ 0 _).trans
    (SameIdle.of_eq (runOp_setter_afterTick s c).symm))

/-- The revoking close past its tick: the transaction first. -/
theorem runOp_revokeAfterTick (s : State) (kid : Byte) :
    runOp (revokeAfterTick kid) s =
      runOp (secureOrRaise (mkCtag s.cfg.wire.initPa ((kidSection kid).setWidth 8) 0) [] 0 true >>= fun r => do
        checkAllOrRaise r.2
        clearPaEnabled (kidSection kid).toNat
        setKid Config.kidInvalid) s := by
  rw [runOp_eq, runOp_eq, revokeAfterTick]
  simp only [bind_assoc, M.bind_get]

/-- Any consumer that draws nothing first, past its tick. -/
theorem sameIdle_afterTick {s u : State} (hb : u.busIsLocked = true) (p : Phase) (v : Word) {i : Instr}
    (hi : ticksFirst i = true) :
    SameIdle (runOp (afterTick s i) { u.withSsrOut v with seq := p }) (runOp (afterTick s i) u) := by
  obtain ⟨c, hc⟩ | ⟨hc, dt, sec, size, hg⟩ | ⟨kid, rfl⟩ := ticksFirst_cases s hi
  · rw [afterTick_of_setterCall hc]
    exact sameIdle_setter hb p v c
  · rw [afterTick_of_getterCall hc hg]
    exact sameIdle_secureOrRaise hb p v _ _ 44 _
  · show SameIdle (runOp (revokeAfterTick kid) _) (runOp (revokeAfterTick kid) u)
    rw [runOp_revokeAfterTick, runOp_revokeAfterTick]
    exact sameIdle_secureOrRaise hb p v _ _ 0 _

/-- The unsigned read of the first consumer, as `readsCounter` describes it. -/
theorem run_useMc_of_reads {s : State} {y : Transaction} {tc dmc : Word} {rest : List Answer} (hb : s.busIsLocked = true)
    (hs : s.mc.inSync = false) (hy : readsCounter s y tc dmc) (hv : mcValid tc dmc = true)
    (ht : tc.toNat + 1 < Config.tcLim) (h : s.env.answers = y.answers s.cfg ++ rest) :
    useMc.run s = .ok (tickValue (s.synced y tc dmc rest), dmc) { (s.synced y tc dmc rest).ticked with seq := .read } := by
  obtain ⟨hc, hp, hr, hcl⟩ := hy
  exact run_useMc_first hb hs hc hp hr hcl hv ht h

/-- A consumer that draws nothing first ends as it does after the synchronisation. -/
theorem exec_ticksFirst_synced {s : State} {y : Transaction} {tc dmc : Word} {rest : List Answer} {i : Instr}
    (hb : s.busIsLocked = true) (hs : s.mc.inSync = false) (hy : readsCounter s y tc dmc) (hv : mcValid tc dmc = true)
    (ht : tc.toNat + 1 < Config.tcLim) (h : s.env.answers = y.answers s.cfg ++ rest) (hi : ticksFirst i = true)
    (hok : ¬ badOperands s i) : SameIdle (exec i s) (exec i (s.synced y tc dmc rest)) := by
  have hok' : ¬ badOperands (s.synced y tc dmc rest) i := fun hbad => hok (by cases i <;> exact hbad)
  have htick : canTick (s.synced y tc dmc rest) = true := Bool.and_eq_true_iff.2 ⟨rfl, decide_eq_true ht⟩
  have h1 := (exec_of_ticksFirst hi hb hok).trans
    (runOp_bind (run_useMc_of_reads (s := s.begun) hb hs hy hv ht h))
  have h2 := (exec_of_ticksFirst (s := s.synced y tc dmc rest) hi hb hok').trans
    (runOp_bind (run_useMc (s := (s.synced y tc dmc rest).begun) htick))
  rw [afterTick_congr (u := s.synced y tc dmc rest) (s := s) rfl rfl] at h2
  exact (SameIdle.of_eq h1).trans ((sameIdle_afterTick (s := s) (u := (s.synced y tc dmc rest).begun.ticked) hb .read
    (y.final s.cfg) hi).trans (SameIdle.of_eq h2.symm))

/-! ## Consumers that draw first -/

theorem exec_sessionOpen_accepted {s t : State} {k : Byte} {hasKey iw is : Bool} {key sk : Bytes} {x : Transaction}
    (hb : s.busIsLocked = true) (hk : kidOk s k = true) (hkey : opensWith s k hasKey key) (hx : x.clean s.cfg = true)
    (hready : sessionReady s.cfg.ssr (x.final s.cfg) k = true) (hcfg : t.cfg = s.cfg)
    (hh : (handshake k key iw is).run s.begun = .ok (sk, x.final s.cfg) t) :
    exec (.sessionOpen k hasKey iw is) s = .next (complete .ok (t.withKeys sk)) := by
  rw [← hcfg] at hx hready hh
  have hrun := exec_sessionOpen_of_handshake hb hk hkey hx hh
  rw [if_pos hready] at hrun
  exact hrun

theorem exec_sessionClose_accepted {s t : State} {k : Byte} {sk : Bytes} {x : Transaction} (hb : s.busIsLocked = true)
    (hk : kidOk s k = true) (hx : x.clean s.cfg = true) (hready : sesReady s.cfg.ssr (x.final s.cfg) = false)
    (hcfg : t.cfg = s.cfg)
    (hh : (handshake k (List.replicate s.cfg.keyBytes 0) false false).run s.begun = .ok (sk, x.final s.cfg) t) :
    exec (.sessionClose k) s = .next (t.closed .ok) := by
  have hfin : x.final t.cfg = x.final s.cfg := congrArg x.final hcfg
  have hrun := exec_sessionClose_of_handshake (x := x) hb hk (hcfg ▸ hx) (hfin ▸ hh)
  rw [hfin, hready] at hrun
  exact hrun

section
variable {s : State} {y x : Transaction} {tc dmc : Word} {rest later : List Answer} (hb : s.busIsLocked = true)
  (hs : s.mc.inSync = false) (hy : readsCounter s y tc dmc) (hv : mcValid tc dmc = true)
  (ht : tc.toNat + 1 < Config.tcLim) (h : s.env.answers = y.answers s.cfg ++ rest)
  (hx : x.clean s.cfg = true) (hrest : rest = x.answers s.cfg ++ later)
include hb hs hy hv ht h hx hrest

/-- A handshake over an untrusted counter: the nonce, the unsigned read, the tick, the frame. -/
theorem run_handshake_first {k : Byte} {key : Bytes} {iw is : Bool}
    (ha : asksSession (s.synced y tc dmc rest) k (modeFlags iw is) key iw x) :
    (handshake k key iw is).run s.begun =
      .ok ((sessionSecrets (s.synced y tc dmc rest) key iw x.ctag).1, x.final s.cfg)
        { (((s.begun.drawn .nonce).synced y tc dmc rest).ticked.called [.deriveSession]).transacted x later with
          kid := k, seq := .wait } := by
  obtain ⟨hc, hp, hr⟩ := ha
  have hu := run_useMc_of_reads (s := State.drawn { s.begun with seq := .derive } .nonce) hb hs hy hv ht h
  exact run_handshake_of_useMc hu hb (good_of_clean hx) hc hp hr hrest

theorem exec_sessionOpen_first {k : Byte} {hasKey iw is : Bool} {key : Bytes} (hk : kidOk s k = true)
    (hkey : opensWith s k hasKey key) (ha : asksSession (s.synced y tc dmc rest) k (modeFlags iw is) key iw x)
    (hready : sesReady s.cfg.ssr (x.final s.cfg) = true) (hkid : ssrKid s.cfg.ssr (x.final s.cfg) = k) :
    exec (.sessionOpen k hasKey iw is) s = .next
      { ((((s.begun.drawn .nonce).synced y tc dmc rest).ticked.called [.deriveSession]).transacted x later).withKeys
          (sessionSecrets (s.synced y tc dmc rest) key iw x.ctag).1 with
        kid := k, status := .ok, seq := .idle } := by
  have hh := run_handshake_first hb hs hy hv ht h hx hrest ha
  exact (exec_sessionOpen_accepted (x := x) (t :=
      { (((s.begun.drawn .nonce).synced y tc dmc rest).ticked.called [.deriveSession]).transacted x later with
        kid := k, seq := .wait })
    hb hk hkey hx ((sessionReady_iff _ _ _).2 ⟨hready, hkid⟩) rfl hh).trans rfl

theorem exec_sessionClose_first {k : Byte} (hk : kidOk s k = true)
    (ha : asksSession (s.synced y tc dmc rest) k 0 (List.replicate s.cfg.keyBytes 0) false x)
    (hready : sesReady s.cfg.ssr (x.final s.cfg) = false) :
    exec (.sessionClose k) s = .next
      (((((s.begun.drawn .nonce).synced y tc dmc rest).ticked.called [.deriveSession]).transacted x later).closed .ok) := by
  have hh := run_handshake_first (iw := false) (is := false) hb hs hy hv ht h hx hrest ha
  exact (exec_sessionClose_accepted (x := x) (t :=
      { (((s.begun.drawn .nonce).synced y tc dmc rest).ticked.called [.deriveSession]).transacted x later with
        kid := k, seq := .wait })
    hb hk hx hready rfl hh).trans rfl

/-- A setter over a randomised address. -/
theorem exec_addressSetter_first {i : Instr} {a : Word} {c : Word → SetterCall} (hc : addressCall s i = some (a, c))
    (hok : ¬ badOperands s i)
    (hsend : sendsSetter (s.synced y tc dmc rest).ticked (c (randomAddr s a)).ctag (c (randomAddr s a)).data
      (c (randomAddr s a)).encData (c (randomAddr s a)).encAddr x) :
    exec i s = .next (((s.begun.drawn .randomBits).synced y tc dmc rest).setterDone (c (randomAddr s a)).ctag
      (c (randomAddr s a)).data (c (randomAddr s a)).encData (c (randomAddr s a)).encAddr x later) := by
  have hu := run_useMc_of_reads (s := s.begun.drawn .randomBits) hb hs hy hv ht h
  refine (exec_of_addressCall hc hb hok).trans ?_
  refine (runOp_ok (run_runSetter_clean hu hb hx hsend hrest)).trans ?_
  rw [prepared_setSeq]
  rfl

end

/-- A page read from the state in which its context is prepared, when the response is fresh. -/
theorem run_readPage_of_prepared {s v : State} {opc : Byte} {a : Word} {slot : Bool} {len : Nat} {x : Transaction}
    {rest : List Answer} (hv : (prepRead opc a slot).run s = .ok () v) (hb : v.busIsLocked = true)
    (hc : x.ctag = (v.ctx slot).ctagW) (hp : x.payload = []) (hlen : x.response.length = len) (hl : len ≠ 0)
    (hx : x.clean v.cfg = true) (h : v.env.answers = x.answers v.cfg ++ rest)
    (hfresh : rd32 x.response = (v.ctx slot).tc - 1) :
    (readPage opc a slot len).run s = .ok (x.response, cipherPage (v.ctx slot).cipherKey (pageOf x.response))
      { (v.transacted x rest).called [.cipher] with seq := .verify } := by
  have hne : x.response ≠ [] := fun e => hl (by rw [← hlen, e]; rfl)
  have hsec := run_secureOrRaise_good hb (good_of_clean hx) h
  rw [if_neg hne, if_neg hne, hc, hp, hlen] at hsec
  simp only [readPage]
  refine (bind_ok hv).trans ((M.bind_get _ _).trans ((bind_ok hsec).trans ?_))
  refine (bind_ok (run_checkAllOrRaise (s := { v.transacted x rest with seq := .read }) (noError_of_clean hx)
    (waitOver_final (good_of_clean hx)))).trans ?_
  simp only [present_some, M.bind_pure, bind_phase, M.bind_get, checkFresh]
  have hfresh' : (echoedTc x.response == (v.ctx slot).tc - 1) = true := beq_iff_eq.2 hfresh
  refine (bind_ok (a := ()) (t := { v.transacted x rest with seq := .verify }) ?_).trans ?_
  · show (require (echoedTc x.response == (v.ctx slot).tc - 1) _).run _ = _
    rw [hfresh']
    rfl
  · simp only [cipher, bind_cryptoCall, M.run_pure]
    rfl

/-! ## Page reads -/

section
variable {s : State} {y x : Transaction} {tc dmc : Word} {rest later : List Answer} (hb : s.busIsLocked = true)
  (hs : s.mc.inSync = false) (hy : readsCounter s y tc dmc) (hv : mcValid tc dmc = true)
  (ht : tc.toNat + 1 < Config.tcLim) (h : s.env.answers = y.answers s.cfg ++ rest)
include hb hs hy hv ht h

/-- The first preparation over an untrusted counter. -/
theorem run_prepRead_of_reads (opc : Byte) (a : Word) (slot : Bool) :
    (prepRead opc a slot).run s = .ok () { s.readPreparedFirst y tc dmc rest opc a slot with seq := .derive } := by
  obtain ⟨hc, hp, hr, hcl⟩ := hy
  exact run_prepRead_first hb hs hc hp hr hcl hv ht h

/-- A fresh page over an untrusted counter. -/
theorem run_readPage_first {opc : Byte} {a : Word} {len : Nat} (hl : len ≠ 0)
    (hx : asksPage (s.synced y tc dmc rest) opc a len x) (hrest : rest = x.answers s.cfg ++ later)
    (hfresh : rd32 x.response = tickValue (s.synced y tc dmc rest) - 1) :
    (readPage opc a s.ctxIdx len).run s =
      .ok (x.response, plaintext (s.synced y tc dmc rest) s.ctxIdx x.response)
        { ((s.readPreparedFirst y tc dmc rest opc a s.ctxIdx).transacted x later).called [.cipher] with
          seq := .verify } := by
  obtain ⟨hc, hp, hlen, hcl⟩ := hx
  obtain ⟨hcfg, hlock, hans, hctx, _⟩ := readPreparedFirst_frame s y tc dmc rest opc a s.ctxIdx
  have hprep := run_prepRead_of_reads hb hs hy hv ht h opc a s.ctxIdx
  generalize s.readPreparedFirst y tc dmc rest opc a s.ctxIdx = v at hcfg hlock hans hctx hprep ⊢
  have hcl' : x.clean v.cfg = true := by
    rw [hcfg]
    exact hcl
  have hans' : v.env.answers = x.answers v.cfg ++ later := by
    rw [hans, hcfg]
    exact hrest
  have hctag : x.ctag = (v.ctx s.ctxIdx).ctagW := hc.trans (congrArg Ctx.ctagW hctx).symm
  have htc : rd32 x.response = (v.ctx s.ctxIdx).tc - 1 := by
    rw [congrArg Ctx.tc hctx]
    exact hfresh
  have hkey : cipherPage (v.ctx s.ctxIdx).cipherKey (pageOf x.response)
      = plaintext (s.synced y tc dmc rest) s.ctxIdx x.response := by
    rw [congrArg Ctx.cipherKey hctx]
    rfl
  rw [← hkey]
  exact run_readPage_of_prepared (v := { v with seq := .derive }) hprep (hlock.trans hb) hctag hp hlen hl hcl' hans' htc

end

section
variable {s : State} {y x : Transaction} {tc dmc : Word} {rest later : List Answer} {a : Word}
  (hb : s.busIsLocked = true) (hs : s.mc.inSync = false) (hy : readsCounter s y tc dmc) (hv : mcValid tc dmc = true)
  (ht : tc.toNat + 1 < Config.tcLim) (h : s.env.answers = y.answers s.cfg ++ rest) (ha : addrOk a = true)
  (hrest : rest = x.answers s.cfg ++ later)
  (hfresh : rd32 x.response = tickValue (s.synced y tc dmc rest) - 1)
include hb hs hy hv ht h ha hrest hfresh

theorem exec_srd_first (hx : asksPage (s.synced y tc dmc rest) s.cfg.wire.srd a 36 x) :
    let v := (s.begun.readPreparedFirst y tc dmc rest s.cfg.wire.srd a s.ctxIdx).transacted x later
    exec (.srd a) s = .next { v.called [.cipher] with
      out := { v.out with rbuf := plaintext (s.synced y tc dmc rest) s.ctxIdx x.response }
      status := .ok
      seq := .idle } := by
  have hread := run_readPage_first (s := s.begun) hb hs hy hv ht h (Nat.succ_ne_zero 35) hx hrest hfresh
  exact (exec_srd_passes hb ha).trans ((runOp_bind hread).trans ((runOp_ok (run_setRbuf _ _)).trans rfl))

theorem exec_sard_first (hx : asksPage (s.synced y tc dmc rest) s.cfg.wire.sard a 44 x)
    (hsig : x.response.drop 36 = pageSignature (s.synced y tc dmc rest) s.cfg.wire.sard a s.ctxIdx x.response) :
    let v := (s.begun.readPreparedFirst y tc dmc rest s.cfg.wire.sard a s.ctxIdx).transacted x later
    exec (.sard a) s = .next
      { (v.withCtx s.ctxIdx { v.ctx s.ctxIdx with
          sctag := mkCtagAddr s.cfg.wire.sard (a.setWidth 24)
          sdata := plaintext (s.synced y tc dmc rest) s.ctxIdx x.response }).called [.cipher, .calcAuthSignature] with
        out := { v.out with rbuf := plaintext (s.synced y tc dmc rest) s.ctxIdx x.response }
        status := .ok
        seq := .idle } := by
  have hread : (readPage s.cfg.wire.sard a s.ctxIdx 44).run s.begun =
      .ok (x.response, plaintext (s.synced y tc dmc rest) s.ctxIdx x.response)
        { ((s.begun.readPreparedFirst y tc dmc rest s.cfg.wire.sard a s.ctxIdx).transacted x later).called [.cipher] with
          seq := .verify } :=
    run_readPage_first (s := s.begun) hb hs hy hv ht h (Nat.succ_ne_zero 43) hx hrest hfresh
  obtain ⟨_, _, _, hctx, hkid, _⟩ := readPreparedFirst_frame s.begun y tc dmc rest s.cfg.wire.sard a s.ctxIdx
  refine (exec_sard_passes hb ha).trans ((runOp_bind hread).trans ?_)
  generalize s.begun.readPreparedFirst y tc dmc rest s.cfg.wire.sard a s.ctxIdx = v at hctx hkid ⊢
  have hsig' : signatureOf (v.ctx s.ctxIdx).ssk v.kid (mkCtagAddr s.cfg.wire.sard (a.setWidth 24))
      (plaintext (s.synced y tc dmc rest) s.ctxIdx x.response)
      = pageSignature (s.synced y tc dmc rest) s.cfg.wire.sard a s.ctxIdx x.response := by
    rw [congrArg Ctx.ssk hctx, hkid]
    rfl
  refine (runOp_pageSigned (r := x.response)
    (u := { (v.transacted x later).called [.cipher] with seq := .verify }) hsig').trans ?_
  rw [if_pos hsig, if_pos hsig]
  generalize s.ctxIdx = slot
  cases slot <;> rfl

end

/-! ## Multi-block reads -/

theorem Reading.refl (s : State) : Reading s s 0 s.inFlight :=
  ⟨SameSession.refl s, (pageSlot_zero s).symm, by simp, rfl, rfl⟩

theorem multiCtag_zero (s : State) (opc : Byte) (a : Word) : multiCtag s opc a 0 = readCtag s opc a s.ctxIdx := by
  rw [multiCtag, pageAddr_zero, pageSlot_zero, (Reading.refl s).readCtag]

/-- A read that begins over an untrusted counter is, past its first preparation, one over the synchronised state. -/
theorem firstPrepared_first (s : State) (y : Transaction) (tc dmc : Word) (rest : List Answer) (m : MultiRead) (a : Word) :
    FirstPrepared (s.synced y tc dmc rest)
      { s.begun.readPreparedFirst y tc dmc rest m.opc a s.ctxIdx with seq := .derive } m a := by
  obtain ⟨hcfg, hlock, _, hctx, hkid, hidx, hmc, hprng, _, _, hkey0, hkey1, hsk, hconf, hinp, hlatch, hatom⟩ :=
    readPreparedFirst_frame s.begun y tc dmc rest m.opc a s.ctxIdx
  have hslot : (s.synced y tc dmc rest).pageSlot 0 = s.ctxIdx := pageSlot_zero _
  refine ⟨⟨_, ⟨hcfg, hlock, hkid, hsk, hkey0, hkey1, hconf, hinp, hlatch, hatom⟩, hidx.trans hslot.symm, hmc, hprng, rfl⟩,
    ⟨?_, ?_, ?_⟩, ?_⟩
  · rw [hslot, tickedBy_zero]
    exact congrArg Ctx.tc hctx
  · rw [hslot, tickedBy_zero]
    exact congrArg Ctx.ssk hctx
  · rw [hslot, tickedBy_zero]
    exact congrArg Ctx.cipherKey hctx
  · rw [multiCtag_zero]
    exact congrArg Ctx.ctagW hctx

/-- Settles O51. -/
theorem firstConsumerSynchronises : Obligations.FirstConsumerSynchronises := by
  unfold Obligations.FirstConsumerSynchronises
  intro s y tc dmc rest hb hs hy hv ht h u
  refine ⟨fun i t hi hok => exec_ticksFirst_synced hb hs hy hv ht h hi hok t, ?_, ?_⟩
  · intro x later hrest hx d n
    refine ⟨fun k hasKey iw is key hk hkey ha hready hkid =>
        exec_sessionOpen_first hb hs hy hv ht h hx hrest hk hkey ha hready hkid,
      fun k hk ha hready => exec_sessionClose_first hb hs hy hv ht h hx hrest hk ha hready, ?_⟩
    intro a h24 h32
    have hok := pageAddr_good h24 h32
    refine ⟨?_, ?_, ?_, ?_⟩
    · intro size hsize ctag hsend
      exact exec_addressSetter_first hb hs hy hv ht h hx hrest (i := .sawr a size) rfl
        (fun hbad => hbad.elim hok (fun hne => hne hsize)) hsend
    · intro i opc hm ctag hsend
      simp only [List.mem_cons, List.not_mem_nil, or_false, Prod.mk.injEq] at hm
      rcases hm with hi | hi | hi <;> obtain ⟨rfl, rfl⟩ := hi
      · exact exec_addressSetter_first hb hs hy hv ht h hx hrest (i := .serase4k a) rfl hok hsend
      · exact exec_addressSetter_first hb hs hy hv ht h hx hrest (i := .serase32k a) rfl hok hsend
      · exact exec_addressSetter_first hb hs hy hv ht h hx hrest (i := .serase64k a) rfl hok hsend
    · intro hask hfresh
      exact exec_srd_first hb hs hy hv ht h (addrOk_of_page h24 h32) hrest hfresh hask
    · intro hask hfresh hsig
      exact exec_sard_first hb hs hy hv ht h (addrOk_of_page h24 h32) hrest hfresh hask hsig
  · intro a size i m pages later hm ha hsize hne hend hlim hwf hg hrest
    have hlen : pages.length ≠ 0 := fun e => hne (List.length_eq_zero_iff.1 e)
    have hm' : (i, m) ∈ multiReads u a size := hm
    have S := multiSetup_of_wf hm' hwf hb (s := u) rfl
    have hok := multiOk_of_range (size := size) ha (by omega) (by omega) hend
    obtain ⟨_, _, hans, _, _, _, _, _, htrace, _⟩ := readPreparedFirst_frame s.begun y tc dmc rest m.opc a s.ctxIdx
    obtain ⟨t, hrun, hdone, hevents⟩ := runOp_readMulti_inOrder (x := s.begun) S rfl
      (run_prepRead_of_reads (s := s.begun) hb hs hy hv ht h m.opc a s.ctxIdx)
      (firstPrepared_first s y tc dmc rest m a) ((multiReads_size hm').trans hsize) hne hlim hg (hans.trans hrest)
    refine ⟨t, (exec_multi_passes hm hb hok).trans hrun, hdone, ?_⟩
    rw [hevents, List.reverse_append, List.append_assoc]
    exact congrArg _ htrace

end Sys2Proof.Machine

/-! # Multi-block reads that are aborted (rules R252, R257, R258) -/

namespace Sys2Proof.Machine

-- One proof at a time: proofs elaborated in parallel take a thread each, and the check bounds their memory.
set_option Elab.async false

open Config (Answer Event)

/-! ## Up to the page that ends the read -/

/-- The rounds of pages in order, up to a page after them. -/
theorem run_pagesLoop_passes {s : State} {m : MultiRead} {a : Word} {later : List Answer} (S : MultiSetup s m) (r : Nat)
    (pages : List PageAnswer) {n : Nat} {u : State} {done : Bytes} (h : Reading s u (n + 1) true) (hh : HoldsPage s u n)
    (hlim : s.mc.tc.toNat + n + pages.length + 1 < Config.tcLim)
    (hg : pagesGood (s.tickedBy n) m (pageAddr a n) (s.pageSlot n) pages)
    (ha : u.env.answers = passedAnswers pages ++ later) :
    ∃ t, (pagesLoop m (pages.length + (r + 1)) (pageAddr a n) (s.pageSlot n) done).run u =
        (pagesLoop m (r + 1) (pageAddr a (n + pages.length)) (s.pageSlot (n + pages.length))
          (done ++ pagesData (s.tickedBy n) (s.pageSlot n) pages)).run t
      ∧ Reading s t (n + pages.length + 1) true ∧ HoldsPage s t (n + pages.length) ∧ t.env.answers = later := by
  induction pages generalizing n u done with
  | nil =>
    refine ⟨u, ?_, h, hh, ha⟩
    simp only [pagesData, List.append_nil, List.length_nil, Nat.zero_add, Nat.add_zero]
  | cons p ps ih =>
    obtain ⟨hgp, hgs⟩ := pagesGood_cons.1 hg
    rw [List.length_cons] at hlim
    have hmore : (ps.length + (r + 1) != 0) = true := by simp
    have ha' : u.env.answers = roundAnswers p (ps.length + (r + 1) != 0) ++ (passedAnswers ps ++ later) := by
      rw [ha, hmore]
      simp [passedAnswers, roundAnswers]
    have hrun := run_pageInOrder (rest := ps.length + (r + 1)) (done := done) S h hh (fun _ => by omega) hgp ha'
    obtain ⟨hr, hnext, hans, _⟩ :=
      afterPage_frame h hh m a (ps.length + (r + 1) != 0) p (passedAnswers ps ++ later)
    rw [hmore] at hr hnext hans hrun
    obtain ⟨t, hloop, hread, hhold, hlast⟩ := ih
      (done := done ++ plaintext (s.tickedBy n) (s.pageSlot n) p.response) hr (hnext rfl) (by omega) hgs hans
    have hlen : n + (p :: ps).length = n + 1 + ps.length := by
      rw [List.length_cons]
      omega
    have hcount : (p :: ps).length + (r + 1) = ps.length + (r + 1) + 1 := by
      rw [List.length_cons]
      omega
    rw [hlen, hcount, pagesData_cons s n, ← List.append_assoc]
    exact ⟨t, hrun.trans hloop, hread, hhold, hlast⟩

/-- A multi-block read that reaches page `k`: from there on the loop decides how it ends. -/
theorem exec_multi_reaches {s : State} {a size : Word} {i : Instr} {m : MultiRead} {pages : List PageAnswer}
    {later : List Answer} (hm : (i, m) ∈ multiReads s a size) (hp : readsPages s a size pages.length)
    (hg : pagesGood s m a s.ctxIdx pages) (h : s.env.answers = .bytes [] :: (passedAnswers pages ++ later)) :
    ∃ u r, r + 1 = size.toNat / 32 - pages.length ∧ Reading s u (pages.length + 1) true ∧ HoldsPage s u pages.length
      ∧ u.env.answers = later
      ∧ ∀ st t, (pagesLoop m (r + 1) (pageAddr a pages.length) (s.pageSlot pages.length)
          (pagesData s s.ctxIdx pages)).run u = .error (.raise st) t → exec i s = .next (complete st t) := by
  obtain ⟨hwf, hb, ha, h32, hk, hend, hs, hlim⟩ := hp
  have S := multiSetup_of_wf hm hwf hb hs
  have hok := multiOk_of_range (size := size) ha (by omega) h32 hend
  have htick : canTick s.begun = true := by
    have hlim' : s.mc.tc.toNat + 1 < Config.tcLim := by
      show _ < 4294967295
      omega
    exact Bool.and_eq_true_iff.2 ⟨hs, decide_eq_true hlim'⟩
  obtain ⟨_, _, hans, _⟩ := readPrepared_frame s.begun m.opc a s.ctxIdx
  obtain ⟨hrun, hr, hh⟩ := run_readMulti_of_prepared (x := s.begun) S rfl (run_prepRead htick) (firstPrepared a)
    (hans.trans h)
  rw [← tickedBy_zero s, ← pageAddr_zero a, ← pageSlot_zero] at hg
  obtain ⟨r, hcount⟩ : ∃ r, size.toNat / 32 = pages.length + (r + 1) := ⟨size.toNat / 32 - pages.length - 1, by omega⟩
  have hlim' : s.mc.tc.toNat + 0 + pages.length + 1 < Config.tcLim := by
    show _ < 4294967295
    omega
  obtain ⟨u, hloop, hread, hhold, hlast⟩ := run_pagesLoop_passes S r pages (done := []) hr hh hlim' hg rfl
  rw [Nat.zero_add] at hread hhold hloop
  rw [pageSlot_zero, tickedBy_zero] at hloop
  refine ⟨u, r, by omega, hread, hhold, hlast, fun st t hfail => ?_⟩
  rw [multiReads_size hm, show Config.pageSize = 32 from rfl, hcount, pageSlot_zero] at hrun
  exact (exec_multi_passes hm hb hok).trans (runOp_raise (hrun.trans (bind_error (hloop.trans hfail))))

/-! ## The failing step -/

/-- Draining a command that may be in flight. -/
theorem Reading.run_drain {s t : State} {n : Nat} {fly : Bool} {w : Wait} {rest : List Answer} (h : Reading s t n fly)
    (hw : w.good s.cfg.ssr = true) (ha : t.env.answers = (if fly then statusAnswers w.words else []) ++ rest) :
    ∃ u, drain.run t = .ok () u ∧ Reading s u n false ∧ u.env.answers = rest ∧ u.out = t.out := by
  have hrun := Machine.run_drain (s := t) (w := w) (rest := rest) (by rw [h.same.cfg]; exact hw) (by rw [h.inFlight]; exact ha)
  rw [h.inFlight] at hrun
  cases fly
  · exact ⟨t, hrun, h, ha, rfl⟩
  · exact ⟨_, hrun, ⟨{ h.same with }, h.ctxIdx, h.mc, h.prng, rfl⟩, rfl, rfl⟩

/-- `Fail` while a command may be in flight (rule R257). -/
theorem Reading.run_fail {s t : State} {n : Nat} {fly : Bool} {w : Wait} {rest : List Answer} (h : Reading s t n fly)
    (hw : w.good s.cfg.ssr = true) (ha : t.env.answers = (if fly then statusAnswers w.words else []) ++ rest) (st : Status)
    (done : Bytes) (size : Nat) {α : Type} :
    ∃ u, (failMulti st done size : M α).run t = .error (.raise st) u ∧ Reading s u n false ∧ u.env.answers = rest
      ∧ u.out = if st = .securityErr then { t.out with rbuf := zeroedOutput s.cfg.multiZero done size } else t.out := by
  obtain ⟨u, hdrain, hread, hans, hout⟩ := h.run_drain hw ha
  have hrun := run_failMulti (α := α) (st := st) (done := done) (size := size) hdrain
  by_cases hst : st = .securityErr
  · rw [if_pos hst] at hrun ⊢
    refine ⟨_, hrun, ⟨{ hread.same with }, hread.ctxIdx, hread.mc, hread.prng, hread.inFlight⟩, hans, ?_⟩
    rw [hout, hread.same.cfg]
  · rw [if_neg hst] at hrun ⊢
    exact ⟨u, hrun, hread, hans, hout⟩

/-- A state with the session of `s` and no command in flight, as the aborted read leaves it. -/
theorem readAborted_of {s u : State} {n : Nat} {rest : List Answer} (h : SameSession s u) (hf : u.inFlight = false)
    (hi : u.ctxIdx = s.pageSlot (n - 1)) (hp : u.env.prng = s.env.prng + n) (ha : u.env.answers = rest) (st : Status) :
    readAborted s (complete st u) n rest :=
  ⟨rfl, hf, hi, hp, ha, h.kid, h.sessionKey, h.key0, h.key1, h.conf, h.busIsLocked, h.atomic⟩

/-- The pages left after page `k`. -/
theorem more_iff {size : Word} {k r : Nat} (hr : r + 1 = size.toNat / 32 - k) (h32 : size.toNat % 32 = 0) :
    (r != 0) = decide (32 * (k + 1) < size.toNat) := by
  rw [Bool.eq_iff_iff, bne_iff_ne, decide_eq_true_iff]
  omega

/-! ## A page that arrives and does not verify -/

/-- A page whose verification fails, in a round of the loop: `Fail` with the status of the check. -/
theorem run_pageRefused {s u : State} {m : MultiRead} {a : Word} {k r : Nat} {p : PageAnswer} {w : Wait} {done : Bytes}
    {rest : List Answer} {st : Status} (S : MultiSetup s m) (h : Reading s u (k + 1) true) (hh : HoldsPage s u k)
    (hlim : s.mc.tc.toNat + k + 2 < Config.tcLim) (hp : pageArrives s m p) (he : hasError s.cfg.ssr p.wait.last = false)
    (hw : w.good s.cfg.ssr = true)
    (ha : u.env.answers = roundAnswers p (r != 0) ++ ((if r != 0 then statusAnswers w.words else []) ++ rest))
    (hbad : ∀ t : State, t.kid = s.kid → HoldsPage s t k → ∃ v,
      (verifyPage m (pageAddr a k) (s.pageSlot k) p.response).run t = .error (.raise st) v
        ∧ v.env.answers = t.env.answers ∧ v.out = t.out ∧ ∀ n fly, Reading s t n fly → Reading s v n fly) :
    ∃ v, (pagesLoop m (r + 1) (pageAddr a k) (s.pageSlot k) done).run u = .error (.raise st) v
      ∧ Reading s v (if r != 0 then k + 2 else k + 1) false ∧ v.env.answers = rest
      ∧ v.out.ssrOut = p.wait.last
      ∧ (st = .securityErr → v.out.rbuf = zeroedOutput s.cfg.multiZero done m.size) := by
  have hrun := run_pageArrives (a := a) (done := done) S h (fun _ => hlim) hp ha
  obtain ⟨hr, hhold, _, hans, _, _, hout⟩ := pageFront_frame h hh m a (r != 0) .read p.wait.last
    (op2Event s p.response :: (p.wait.words.map (op0Event s)).reverse)
    ((if r != 0 then statusAnswers w.words else []) ++ rest)
  obtain ⟨v, hverify, hvans, hvout, hvread⟩ := hbad _ hr.same.kid hhold
  obtain ⟨x, hfail, hxread, hxans, hxout⟩ := (hvread _ _ hr).run_fail hw (hvans.trans hans) st done m.size (α := Bytes)
  refine ⟨x, hrun.trans ((run_pageTail (by rw [hr.same.cfg]; exact he)).trans
    (bind_error ((run_orFailMulti_raise hverify).trans hfail))), hxread, hxans, ?_, fun hst => ?_⟩
  · rw [hxout, hvout, hout]
    by_cases hst : st = .securityErr
    · rw [if_pos hst]
    · rw [if_neg hst]
  · rw [hxout, if_pos hst]

/-- The verification of a page that does not echo the counter below its tick. -/
theorem run_verifyPage_stale {t : State} {m : MultiRead} {a : Word} {old : Bool} {r : Bytes}
    (hf : echoedTc r ≠ (t.ctx old).tc - 1) :
    (verifyPage m a old r).run t = .error (.raise .systemInIncorrectState) { t with seq := .verify } := by
  have hstale : (echoedTc r == (t.ctx old).tc - 1) = false := beq_eq_false_iff_ne.2 hf
  simp only [verifyPage, bind_phase, M.bind_get, checkFresh]
  show (require (echoedTc r == (t.ctx old).tc - 1) _ >>= _).run _ = _
  rw [hstale, require_false]
  rfl

/-- The verification of a fresh page of an authenticated read: its signature decides. -/
theorem run_verifyPage_fresh {t : State} {m : MultiRead} {a : Word} {old : Bool} {r p : Bytes} (hm : m.signed = true)
    (hf : echoedTc r = (t.ctx old).tc - 1) (hp : p = cipherPage (t.ctx old).cipherKey (pageOf r)) :
    (verifyPage m a old r).run t =
      if (signatureOf (t.ctx old).ssk t.kid (mkCtagAddr m.opc (a.setWidth 24)) p == r.drop 36) = true then
        .ok p (t.pageVerified m a old p)
      else .error (.raise .securityErr) (t.pageVerified m a old p) := by
  subst hp
  have hfresh : (echoedTc r == (t.ctx old).tc - 1) = true := beq_iff_eq.2 hf
  simp only [verifyPage, bind_phase, M.bind_get, checkFresh]
  rw [show ({ t with seq := .verify } : State).ctx old = t.ctx old from rfl, hfresh, require_true, M.bind_pure]
  simp only [cipher, bind_cryptoCall, hm, onlyIf_true]
  let v : State := ({ t with seq := .verify } : State).called [.cipher]
  have hrun := run_pageSigned v m.opc a old (cipherPage (t.ctx old).cipherKey (pageOf r)) r
  rw [show (v.ctx old).ssk = (t.ctx old).ssk from rfl, show v.kid = t.kid from rfl] at hrun
  cases hgood : (signatureOf (t.ctx old).ssk t.kid (mkCtagAddr m.opc (a.setWidth 24))
    (cipherPage (t.ctx old).cipherKey (pageOf r)) == r.drop 36)
  · rw [hgood] at hrun
    rw [if_neg Bool.false_ne_true]
    refine (bind_error ((bind_ok hrun).trans rfl)).trans ?_
    simp only [State.pageVerified, checkEvents, hm, if_true]
    cases old <;> rfl
  · rw [hgood] at hrun
    rw [if_pos rfl]
    refine Eq.trans (bind_ok (bind_ok hrun)) ?_
    simp only [State.pageVerified, checkEvents, hm, if_true]
    cases old <;> rfl

theorem length_pagesData (m : MultiRead) (hm : 36 ≤ m.len) (pages : List PageAnswer) (s : State) (a : Word)
    (slot : Bool) (hg : pagesGood s m a slot pages) : (pagesData s slot pages).length = 32 * pages.length := by
  induction pages generalizing s a slot with
  | nil => rfl
  | cons p ps ih =>
    obtain ⟨⟨_, _, _, hlen, _⟩, hgs⟩ := hg
    have hp : (plaintext s slot p.response).length = 32 :=
      length_cipherPage (length_pageOf (hlen ▸ hm))
    rw [pagesData, List.length_append, hp, ih _ _ _ hgs, List.length_cons]
    omega

/-- A multi-block read ended by a page that arrives without an error bit and is not what it must be. -/
theorem exec_multi_refused {s : State} {a size : Word} {i : Instr} {m : MultiRead} {pages : List PageAnswer}
    {p : PageAnswer} {w : Wait} {rest : List Answer} {st : Status} {more : Bool} (hm : (i, m) ∈ multiReads s a size)
    (hmore : more = decide (32 * (pages.length + 1) < size.toNat)) (hp : readsPages s a size pages.length)
    (hg : pagesGood s m a s.ctxIdx pages) (hpage : pageArrives s m p) (he : hasError s.cfg.ssr p.wait.last = false)
    (hw : w.good s.cfg.ssr = true)
    (ha : s.env.answers = .bytes [] :: passedAnswers pages ++ statusAnswers p.wait.words ++ [.bytes p.response]
      ++ (if more then .bytes [] :: statusAnswers w.words else []) ++ rest)
    (hbad : ∀ t : State, t.kid = s.kid → HoldsPage s t pages.length → ∃ v,
      (verifyPage m (pageAddr a pages.length) (s.pageSlot pages.length) p.response).run t = .error (.raise st) v
        ∧ v.env.answers = t.env.answers ∧ v.out = t.out ∧ ∀ n fly, Reading s t n fly → Reading s v n fly) :
    ∃ t, exec i s = .next t ∧ t.status = st
      ∧ readAborted s t (if more then pages.length + 2 else pages.length + 1) rest
      ∧ t.mc = { s.mc with tc := s.mc.tc + BitVec.ofNat 32 (if more then pages.length + 2 else pages.length + 1) }
      ∧ t.out.ssrOut = p.wait.last
      ∧ (st = .securityErr → t.out.rbuf = zeroedOutput s.cfg.multiZero (pagesData s s.ctxIdx pages) m.size) := by
  have ⟨hwf, hb, _, h32, _, _, hs, hlim⟩ := hp
  obtain ⟨u, r, hr, hread, hhold, hans, hends⟩ := exec_multi_reaches (later := roundAnswers p more
    ++ ((if more then statusAnswers w.words else []) ++ rest)) hm hp hg (by
      rw [ha]
      cases more <;> simp [roundAnswers])
  have hcount : (r != 0) = more := (more_iff hr h32).trans hmore.symm
  rw [← hcount] at hans
  obtain ⟨v, hloop, hv, hvans, hvout, hvbuf⟩ := run_pageRefused (multiSetup_of_wf hm hwf hb hs) hread hhold hlim hpage he hw
    hans hbad (done := pagesData s s.ctxIdx pages)
  rw [hcount] at hv
  exact ⟨_, hends st v hloop, rfl, readAborted_of hv.same hv.inFlight hv.ctxIdx hv.prng hvans st, hv.mc, hvout, hvbuf⟩

/-! ## A page with an error bit, and a page whose wait fails -/

/-- The read of a page without a response (rule R286): the synthetic error, and nothing read. -/
theorem run_readMissing {u : State} {w : Wait} {len : Nat} {later : List Answer}
    (hd : u.cfg.doubleWait.contains 0 = false) (hp : u.cfg.pollForReady.contains 0 = false)
    (hs : u.cfg.ssr.err ≠ u.cfg.ssr.respReady) (hb : u.busIsLocked = true) (hw : w.good u.cfg.ssr = true)
    (hr : respReady u.cfg.ssr w.last = false) (hl : len ≠ 0) (ha : u.env.answers = statusAnswers w.words ++ later) :
    (secureOrRaise 0 [] len true).run u = .ok (none, withSyntheticError u.cfg.ssr w.last)
      (u.pageRead .wait (withSyntheticError u.cfg.ssr w.last) (w.words.map (op0Event u)).reverse later) := by
  have hsteps := run_secureSteps_waitOnly (p := u.seq) (payload := []) hw hd ha
    (run_secureRead_synthetic (s := { u.polled w.words w.last later with inFlight := false }.inside .wait) hl hr hp hs)
  exact run_secureOrRaise_ok hb hsteps

/-- The read of a page, ready or not: the status word that is checked. -/
theorem run_readEither {s u : State} {m : MultiRead} {p : PageAnswer} {later : List Answer} (S : MultiSetup s m)
    (hwf : paramsWf s.cfg = true) (h : SameSession s u) (hw : p.wait.good s.cfg.ssr = true)
    (hlen : p.response.length = m.len)
    (ha : u.env.answers = statusAnswers p.wait.words
      ++ ((if respReady s.cfg.ssr p.wait.last then [.bytes p.response] else []) ++ later)) :
    let v := if respReady s.cfg.ssr p.wait.last then p.wait.last else withSyntheticError s.cfg.ssr p.wait.last
    ∃ b q es, (secureOrRaise 0 [] m.len true).run u = .ok (b, v) (u.pageRead q v es later) := by
  intro v
  have hb : u.busIsLocked = true := h.busIsLocked.trans S.locked
  obtain ⟨_, _, _, _, hnodup, _, _, _, hpoll, _⟩ := (paramsWf_iff s.cfg).1 hwf
  cases hr : respReady s.cfg.ssr p.wait.last
  · have hv : v = withSyntheticError s.cfg.ssr p.wait.last := if_neg (Bool.eq_false_iff.1 hr)
    rw [hv]
    have herr : s.cfg.ssr.err ≠ s.cfg.ssr.respReady := fun e => by
      simp [ssrPositions, errorPositions, e] at hnodup
    rw [hr] at ha
    rw [← h.cfg] at hw hr herr hpoll ⊢
    exact ⟨_, _, _, run_readMissing (by simpa [h.cfg] using S.singleWait) (by simpa using hpoll) herr hb hw hr S.len ha⟩
  · have hv : v = p.wait.last := if_pos hr
    rw [hv]
    rw [hr] at ha
    rw [← h.cfg] at hw hr
    exact ⟨_, _, _, run_readArrived (by simpa [h.cfg] using S.singleWait) hb hw hr hlen S.len ha⟩

/-- The check of a page whose status word has an error bit: drained, classified over the fetched counter, `Fail`. -/
theorem run_pageTail_error {s t : State} {n : Nat} {fly : Bool} {w : Wait} {y : Transaction} {tc dmc v : Word}
    {rest : List Answer} (h : Reading s t n fly) (hw : w.good s.cfg.ssr = true) (hb : s.busIsLocked = true)
    (he : hasError s.cfg.ssr v = true) (hy : readsCounter s y tc dmc) (hv : mcValid tc dmc = true)
    (ha : t.env.answers = (if fly then statusAnswers w.words else []) ++ (y.answers s.cfg ++ rest))
    (m : MultiRead) (left : Nat) (a : Word) (old : Bool) (done : Bytes) (b : Option Bytes) :
    ∃ u, (pageTail m left a old done b v).run t = .error (.raise (classify s.cfg.ssr v (maskAllErrors s.cfg.ssr))) u
      ∧ SameSession s u ∧ u.inFlight = false ∧ u.ctxIdx = s.pageSlot (n - 1) ∧ u.env.prng = s.env.prng + n
      ∧ u.env.answers = rest
      ∧ u.mc = { tc := tc, dmc := dmc, inSync := s.mc.inSync && !s.cfg.errorClearsInSync } ∧ u.out = t.out := by
  obtain ⟨x, hdrain, hx, hxans, hxout⟩ := h.run_drain hw ha
  have hcfg := hx.same.cfg
  have hy' : readsCounter x y tc dmc := by
    unfold readsCounter
    rw [hcfg]
    exact hy
  have hcheck := run_checkSsrErrors_refetch (s := x) (rest := rest) (hx.same.busIsLocked.trans hb) (by rw [hcfg]; exact he)
    hy' hv (by rw [hcfg]; exact hxans) (maskAllErrors s.cfg.ssr)
  rw [hcfg] at hcheck
  let z : State := { x.refetched y tc dmc rest with seq := .classify }
  have hidle : drain.run z = .ok () z := by
    have hz : z.inFlight = false := rfl
    simp only [drain, M.bind_get, hz, onlyIf_false, M.run_pure]
  have hne : classify s.cfg.ssr v (maskAllErrors s.cfg.ssr) ≠ .securityErr := fun e => by
    have hdev := ofDevice_classify s.cfg.ssr v (maskAllErrors s.cfg.ssr)
    rw [e] at hdev
    exact absurd hdev (by decide)
  have hfail := run_failMulti (α := Unit) (st := classify s.cfg.ssr v (maskAllErrors s.cfg.ssr)) (done := done)
    (size := m.size) hidle
  rw [if_neg hne] at hfail
  refine ⟨z, bind_error ?_, { hx.same with }, rfl, hx.ctxIdx, hx.prng, rfl, ?_, hxout⟩
  · simp only [checkPage, M.bind_get]
    rw [h.same.cfg, he, onlyIf_true]
    exact (bind_ok hdrain).trans ((bind_ok hcheck).trans hfail)
  · show Mc.mk tc dmc (x.mc.inSync && !x.cfg.errorClearsInSync) = _
    rw [hx.mc, hcfg]

/-- A poll loop that the link cuts off. -/
theorem run_pollUntil_linkError {stop : Config.SsrLayout → Word → Bool} {rest : List Answer} (polls : List Word) :
    ∀ {s : State} {fuel : Nat}, s.env.answers = statusAnswers polls ++ .linkError :: rest →
      (∀ p ∈ polls, deadLink p = false ∧ stop s.cfg.ssr p = false) → s.atomic ≠ 0 → polls.length < fuel →
      ∃ v es, (pollUntil stop fuel).run s = .error (.raise .connectivityErr)
        { s with ssr := v, env := { s.env with answers := rest, trace := es } } := by
  induction polls with
  | nil =>
    intro s fuel h _ ha hf
    obtain ⟨fuel, rfl⟩ : ∃ k, fuel = k + 1 := ⟨fuel - 1, by simp at hf; omega⟩
    exact ⟨s.ssr, _, bind_error ((M.bind_get _ _).trans (bind_error (run_exchange_linkError h ha)))⟩
  | cons p ps ih =>
    intro s fuel h hp ha hf
    obtain ⟨fuel, rfl⟩ : ∃ k, fuel = k + 1 := ⟨fuel - 1, by simp at hf; omega⟩
    obtain ⟨hdead, hgo⟩ := hp p (by simp)
    have hword := run_op0_word (rest := statusAnswers ps ++ .linkError :: rest) (by simpa [statusAnswers] using h) hdead ha
    obtain ⟨v, es, htail⟩ := ih (s := { s with
        ssr := p
        env := { s.env with answers := statusAnswers ps ++ .linkError :: rest, trace := op0Event s p :: s.env.trace } })
      (fuel := fuel) rfl (fun q hq => hp q (by simp [hq])) ha (by simp at hf; omega)
    refine ⟨v, es, ?_⟩
    rw [pollUntil]
    refine (bind_ok hword).trans ?_
    simp only [M.bind_get, hgo]
    exact htail

/-- The read of a page whose wait the link cuts off. -/
theorem run_readLost {u : State} {polls : List Word} {len : Nat} {later : List Answer} (hb : u.busIsLocked = true)
    (hq : ∀ q ∈ polls, deadLink q = false ∧ waitOver u.cfg.ssr q = false)
    (ha : u.env.answers = statusAnswers polls ++ .linkError :: later) :
    ∃ v es, (secureOrRaise 0 [] len true).run u = .error (.raise .connectivityErr)
      { u with
        seq := .wait, ssr := v, mc := { u.mc with inSync := false }, out := { u.out with ssrOut := v }
        env := { u.env with answers := later, trace := es } } := by
  have hfuel : u.env.answers.length = polls.length + 1 + later.length := by
    simp [ha, statusAnswers]
    omega
  obtain ⟨v, es, hpoll⟩ := run_pollUntil_linkError (stop := waitOver) (rest := later) polls (s := u.inside .wait)
    (fuel := (u.inside .wait).pollFuel) ha hq (inside_atomic u _) (by
      show _ < Config.pollBound + (u.env.answers.length + 1)
      omega)
  have hwait : (secureSteps 0 [] len true).run (u.inside u.seq) = .error (.raise .connectivityErr)
      { u.inside .wait with ssr := v, env := { u.env with answers := later, trace := es } } :=
    (M.bind_pure _ _ _).trans (bind_error (bind_error hpoll))
  refine ⟨v, es, (run_secureOrRaise_fails hb hwait).trans ?_⟩
  simp [State.inside]

/-- A round whose page has an error bit (rule R258): the next page is started, drained, and the read ends. -/
theorem run_pageError {s u : State} {m : MultiRead} {a : Word} {k r : Nat} {p : PageAnswer} {w : Wait} {done : Bytes}
    {y : Transaction} {tc dmc v : Word} {rest : List Answer} (S : MultiSetup s m) (hwf : paramsWf s.cfg = true)
    (h : Reading s u (k + 1) true) (hh : HoldsPage s u k) (hlim : s.mc.tc.toNat + k + 2 < Config.tcLim)
    (hp : p.wait.good s.cfg.ssr = true) (hlen : p.response.length = m.len)
    (hword : v = if respReady s.cfg.ssr p.wait.last then p.wait.last else withSyntheticError s.cfg.ssr p.wait.last)
    (he : hasError s.cfg.ssr v = true) (hw : w.good s.cfg.ssr = true) (hy : readsCounter s y tc dmc)
    (hv : mcValid tc dmc = true)
    (ha : u.env.answers = statusAnswers p.wait.words
      ++ ((if respReady s.cfg.ssr p.wait.last then [.bytes p.response] else [])
      ++ ((if r != 0 then [.bytes []] else [])
      ++ ((if r != 0 then statusAnswers w.words else []) ++ (y.answers s.cfg ++ rest))))) :
    ∃ x, (pagesLoop m (r + 1) (pageAddr a k) (s.pageSlot k) done).run u =
        .error (.raise (classify s.cfg.ssr v (maskAllErrors s.cfg.ssr))) x
      ∧ SameSession s x ∧ x.inFlight = false ∧ x.ctxIdx = s.pageSlot ((if r != 0 then k + 2 else k + 1) - 1)
      ∧ x.env.prng = s.env.prng + (if r != 0 then k + 2 else k + 1) ∧ x.env.answers = rest
      ∧ x.mc = { tc := tc, dmc := dmc, inSync := s.mc.inSync && !s.cfg.errorClearsInSync } ∧ x.out.ssrOut = v := by
  obtain ⟨hsame, hans⟩ := h.nextPrepared m a (r != 0)
  obtain ⟨b, q, es, hread⟩ := run_readEither S hwf hsame hp hlen (hans.trans ha)
  rw [← hword] at hread
  have hfront := run_pageFront (done := done) h S.locked S.opcode S.inSync (fun _ => hlim) hread
  obtain ⟨hr, _, _, hfans, _, _, hout⟩ := pageFront_frame h hh m a (r != 0) q v es
    ((if r != 0 then statusAnswers w.words else []) ++ (y.answers s.cfg ++ rest))
  obtain ⟨x, htail, hx, hfly, hidx, hprng, hxans, hmc, hxout⟩ := run_pageTail_error hr hw S.locked he hy hv hfans m r
    (pageAddr a k) (s.pageSlot k) done b
  exact ⟨x, hfront.trans htail, hx, hfly, hidx, hprng, hxans, hmc, by rw [hxout, hout]⟩

/-- A round whose wait the link cuts off (rules R252, R287): the command in flight is drained, and the read ends. -/
theorem run_pageLost {s u : State} {m : MultiRead} {a : Word} {k r : Nat} {polls : List Word} {w : Wait} {done : Bytes}
    {rest : List Answer} (S : MultiSetup s m) (h : Reading s u (k + 1) true)
    (hlim : s.mc.tc.toNat + k + 2 < Config.tcLim)
    (hq : ∀ q ∈ polls, deadLink q = false ∧ waitOver s.cfg.ssr q = false) (hw : w.good s.cfg.ssr = true)
    (ha : u.env.answers = statusAnswers polls ++ .linkError :: (statusAnswers w.words ++ rest)) :
    ∃ x, (pagesLoop m (r + 1) (pageAddr a k) (s.pageSlot k) done).run u = .error (.raise .connectivityErr) x
      ∧ Reading s { x with mc := { x.mc with inSync := true } } (if r != 0 then k + 2 else k + 1) false
      ∧ x.env.answers = rest ∧ x.mc.inSync = false := by
  have hnext : Reading s (u.nextPrepared s m a k (r != 0)) (if r != 0 then k + 2 else k + 1) true := by
    cases r != 0
    · exact h
    · exact (h.prepared m.opc a).1
  have hans := (h.nextPrepared m a (r != 0)).2
  have hround : (pagesLoop m (r + 1) (pageAddr a k) (s.pageSlot k) done).run u = (do
      let (b, sv) ← orFailMulti (secureOrRaise 0 [] m.len true) done m.size
      onlyIf (r != 0) (orFailMulti (startRead (!s.pageSlot k)) done m.size)
      pageTail m r (pageAddr a k) (s.pageSlot k) done b sv : M Bytes).run (u.nextPrepared s m a k (r != 0)) := by
    rw [pagesLoop]
    cases hr : r != 0
    · rw [onlyIf_false, M.bind_pure]
      rfl
    · have haddr : pageAddr a k + BitVec.ofNat 32 Config.pageSize = pageAddr a (k + 1) := pageAddr_succ a k
      rw [onlyIf_true, haddr, ← pageSlot_succ]
      refine (bind_ok (h.run_prepare S.inSync hlim m.opc (pageAddr a (k + 1)) done m.size)).trans ?_
      simp only [pageTail, haddr, pageSlot_succ, State.nextPrepared, if_true]
  generalize u.nextPrepared s m a k (r != 0) = t at hnext hans hround
  obtain ⟨v, es, hlost⟩ := run_readLost (len := m.len) (later := statusAnswers w.words ++ rest)
    (hnext.same.busIsLocked.trans S.locked) (by rw [hnext.same.cfg]; exact hq) (hans.trans ha)
  have hdrain := run_drain (s := { t with
      seq := .wait, ssr := v, mc := { t.mc with inSync := false }, out := { t.out with ssrOut := v }
      env := { t.env with answers := statusAnswers w.words ++ rest, trace := es } })
    (w := w) (rest := rest) (by show w.good t.cfg.ssr = true; rw [hnext.same.cfg]; exact hw) (by
      show _ = (if t.inFlight then _ else _) ++ _
      rw [hnext.inFlight]
      rfl)
  have hfail := run_failMulti (α := Option Bytes × Word) (st := .connectivityErr) (done := done) (size := m.size) hdrain
  rw [if_neg (by decide)] at hfail
  refine ⟨_, hround.trans (bind_error ((run_orFailMulti_raise hlost).trans hfail)), ?_⟩
  simp only [hnext.inFlight, if_true]
  refine ⟨⟨{ hnext.same with }, hnext.ctxIdx, ?_, hnext.prng, rfl⟩, trivial, trivial⟩
  show Mc.mk t.mc.tc t.mc.dmc true = _
  rw [hnext.mc]
  exact congrArg (Mc.mk _ _) S.inSync.symm

/-! ## What ends the read -/

/-- A SARD_MULTI refused for a forged page: the other half of O52. -/
theorem exec_sardMulti_forged {s : State} {a size : Word} {pages : List PageAnswer} {p : PageAnswer} {w : Wait}
    {rest : List Answer} {more : Bool} (hmore : more = decide (32 * (pages.length + 1) < size.toNat))
    (hp : readsPages s a size pages.length)
    (hg : pagesGood s ⟨s.cfg.wire.sard, 44, true, size.toNat⟩ a s.ctxIdx pages)
    (hpage : pageArrives s ⟨s.cfg.wire.sard, 44, true, size.toNat⟩ p) (he : hasError s.cfg.ssr p.wait.last = false)
    (hfresh : echoedTc p.response = tickValue (s.tickedBy pages.length) - 1)
    (hsig : p.response.drop 36 ≠ pageSignature (s.tickedBy pages.length) s.cfg.wire.sard (pageAddr a pages.length)
      (s.pageSlot pages.length) p.response)
    (hw : w.good s.cfg.ssr = true)
    (ha : s.env.answers = .bytes [] :: passedAnswers pages ++ statusAnswers p.wait.words ++ [.bytes p.response]
      ++ (if more then .bytes [] :: statusAnswers w.words else []) ++ rest) :
    ∃ t, exec (.sardMulti a size) s = .next t ∧ t.status = .securityErr
      ∧ readAborted s t (if more then pages.length + 2 else pages.length + 1) rest
      ∧ t.mc = { s.mc with tc := s.mc.tc + BitVec.ofNat 32 (if more then pages.length + 2 else pages.length + 1) }
      ∧ t.out.ssrOut = p.wait.last
      ∧ t.out.rbuf = zeroedOutput s.cfg.multiZero (pagesData s s.ctxIdx pages) size.toNat := by
  obtain ⟨t, hrun, hst, hab, hmc, hout, hbuf⟩ := exec_multi_refused (i := .sardMulti a size) (by simp [multiReads]) hmore hp hg
    hpage he hw ha fun t hkid hhold => by
      have hforged := run_verifyPage_fresh (t := t) (m := ⟨s.cfg.wire.sard, 44, true, size.toNat⟩)
        (a := pageAddr a pages.length) (old := s.pageSlot pages.length) (r := p.response) rfl
        (by rw [hhold.tc]; exact hfresh) rfl
      rw [hhold.ssk, hhold.cipherKey, hkid, if_neg (by rw [beq_iff_eq]; exact Ne.symm hsig)] at hforged
      obtain ⟨_, _, _, _, _, _, _, _, _, _, _, _, _, hans, _, _, _, hout, _⟩ := pageVerified_frame t
        ⟨s.cfg.wire.sard, 44, true, size.toNat⟩ (pageAddr a pages.length) (s.pageSlot pages.length)
        (plaintext (s.tickedBy pages.length) (s.pageSlot pages.length) p.response)
      exact ⟨_, hforged, hans, hout, fun n fly hr => hr.verified _ _ _ _⟩
  exact ⟨t, hrun, hst, hab, hmc, hout, hbuf rfl⟩

/-- A multi-block read refused for a stale page. -/
theorem exec_multi_stale {s : State} {a size : Word} {i : Instr} {m : MultiRead} {pages : List PageAnswer}
    {p : PageAnswer} {w : Wait} {rest : List Answer} {more : Bool} (hm : (i, m) ∈ multiReads s a size)
    (hmore : more = decide (32 * (pages.length + 1) < size.toNat)) (hp : readsPages s a size pages.length)
    (hg : pagesGood s m a s.ctxIdx pages) (hpage : pageArrives s m p) (he : hasError s.cfg.ssr p.wait.last = false)
    (hstale : echoedTc p.response ≠ tickValue (s.tickedBy pages.length) - 1) (hw : w.good s.cfg.ssr = true)
    (ha : s.env.answers = .bytes [] :: passedAnswers pages ++ statusAnswers p.wait.words ++ [.bytes p.response]
      ++ (if more then .bytes [] :: statusAnswers w.words else []) ++ rest) :
    ∃ t, exec i s = .next t ∧ t.status = .systemInIncorrectState
      ∧ readAborted s t (if more then pages.length + 2 else pages.length + 1) rest
      ∧ t.mc = { s.mc with tc := s.mc.tc + BitVec.ofNat 32 (if more then pages.length + 2 else pages.length + 1) }
      ∧ t.out.ssrOut = p.wait.last := by
  obtain ⟨t, hrun, hst, hab, hmc, hout, _⟩ := exec_multi_refused hm hmore hp hg hpage he hw ha fun t _ hhold =>
    ⟨_, run_verifyPage_stale (by rw [hhold.tc]; exact hstale), rfl, rfl,
      fun n fly hr => ⟨{ hr.same with }, hr.ctxIdx, hr.mc, hr.prng, hr.inFlight⟩⟩
  exact ⟨t, hrun, hst, hab, hmc, hout⟩

/-- A multi-block read ended by an error bit of the device. -/
theorem exec_multi_deviceError {s : State} {a size : Word} {i : Instr} {m : MultiRead} {pages : List PageAnswer}
    {p : PageAnswer} {w : Wait} {rest : List Answer} {more : Bool} {y : Transaction} {tc dmc v : Word}
    (hm : (i, m) ∈ multiReads s a size) (hmore : more = decide (32 * (pages.length + 1) < size.toNat))
    (hword : v = if respReady s.cfg.ssr p.wait.last then p.wait.last else withSyntheticError s.cfg.ssr p.wait.last)
    (hp : readsPages s a size pages.length) (hg : pagesGood s m a s.ctxIdx pages) (hw : w.good s.cfg.ssr = true)
    (hpw : p.wait.good s.cfg.ssr = true) (hlen : p.response.length = m.len) (he : hasError s.cfg.ssr v = true)
    (hy : readsCounter s y tc dmc) (hv : mcValid tc dmc = true)
    (ha : s.env.answers = .bytes [] :: passedAnswers pages ++ statusAnswers p.wait.words
      ++ (if respReady s.cfg.ssr p.wait.last then [.bytes p.response] else [])
      ++ (if more then .bytes [] :: statusAnswers w.words else []) ++ y.answers s.cfg ++ rest) :
    ∃ t, exec i s = .next t ∧ t.status = classify s.cfg.ssr v (maskAllErrors s.cfg.ssr) ∧ t.status ≠ .ok
      ∧ readAborted s t (if more then pages.length + 2 else pages.length + 1) rest
      ∧ t.mc = { tc := tc, dmc := dmc, inSync := !s.cfg.errorClearsInSync } ∧ t.out.ssrOut = v := by
  have ⟨hwf, hb, _, h32, _, _, hs, hlim⟩ := hp
  obtain ⟨u, r, hr, hread, hhold, hans, hends⟩ := exec_multi_reaches (later := statusAnswers p.wait.words
      ++ ((if respReady s.cfg.ssr p.wait.last then [.bytes p.response] else []) ++ ((if more then [.bytes []] else [])
      ++ ((if more then statusAnswers w.words else []) ++ (y.answers s.cfg ++ rest))))) hm hp hg (by
    rw [ha]
    cases more <;> simp)
  have hcount : (r != 0) = more := (more_iff hr h32).trans hmore.symm
  rw [← hcount] at hans
  obtain ⟨x, hloop, hx, hfly, hidx, hprng, hxans, hmc, hout⟩ := run_pageError (done := pagesData s s.ctxIdx pages)
    (multiSetup_of_wf hm hwf hb hs) hwf hread hhold hlim hpw hlen hword he hw hy hv hans
  rw [hcount] at hidx hprng
  rw [hs, Bool.true_and] at hmc
  exact ⟨_, hends _ x hloop, rfl, classify_all_ne_ok hwf he, readAborted_of hx hfly hidx hprng hxans _, hmc, hout⟩

/-- A multi-block read whose wait the link cuts off. -/
theorem exec_multi_lost {s : State} {a size : Word} {i : Instr} {m : MultiRead} {pages : List PageAnswer}
    {polls : List Word} {w : Wait} {rest : List Answer} {more : Bool} (hm : (i, m) ∈ multiReads s a size)
    (hmore : more = decide (32 * (pages.length + 1) < size.toNat)) (hp : readsPages s a size pages.length)
    (hg : pagesGood s m a s.ctxIdx pages) (hw : w.good s.cfg.ssr = true)
    (hq : ∀ q ∈ polls, deadLink q = false ∧ waitOver s.cfg.ssr q = false)
    (ha : s.env.answers = .bytes [] :: passedAnswers pages ++ statusAnswers polls ++ [.linkError]
      ++ statusAnswers w.words ++ rest) :
    ∃ t, exec i s = .next t ∧ t.status = .connectivityErr
      ∧ readAborted s t (if more then pages.length + 2 else pages.length + 1) rest
      ∧ t.mc = { s.mc with
          tc := s.mc.tc + BitVec.ofNat 32 (if more then pages.length + 2 else pages.length + 1), inSync := false } := by
  have ⟨hwf, hb, _, h32, _, _, hs, hlim⟩ := hp
  obtain ⟨u, r, hr, hread, _, hans, hends⟩ := exec_multi_reaches
    (later := statusAnswers polls ++ .linkError :: (statusAnswers w.words ++ rest)) hm hp hg (by rw [ha]; simp)
  have hcount : (r != 0) = more := (more_iff hr h32).trans hmore.symm
  obtain ⟨x, hloop, hx, hxans, hsync⟩ := run_pageLost (done := pagesData s s.ctxIdx pages)
    (multiSetup_of_wf hm hwf hb hs) hread hlim hq hw hans
  rw [hcount] at hx
  obtain ⟨htc, hdmc, _⟩ := Mc.mk.inj hx.mc
  refine ⟨_, hends _ x hloop, rfl, readAborted_of { hx.same with } hx.inFlight hx.ctxIdx hx.prng hxans .connectivityErr, ?_⟩
  show x.mc = Mc.mk _ s.mc.dmc false
  rw [← htc, ← hdmc, ← hsync]

end Sys2Proof.Machine

/-! # What an operation reads from the bus, whatever the device does

`Ledger s t counters pages sigs`: between `s` and `t` these counter and page responses were read and so many signatures
computed. A step that is `Silent` adds nothing to it. -/

namespace Sys2Proof.Machine

-- One proof at a time: proofs elaborated in parallel take a thread each, and the check bounds their memory.
set_option Elab.async false

open Config (Answer Event)

variable {α β : Type}

/-! ## Stops with a status -/

/-- A stop with a status is as `R` says; how else an operation stops does not matter. -/
def Raised (R : Status → State → Prop) : Stop → State → Prop
  | .raise st, t => R st t
  | _, _ => True

theorem Raised.mono {R R' : Status → State → Prop} {e : Stop} {t : State} (h : Raised R e t)
    (hR : ∀ st, R st t → R' st t) : Raised R' e t := by
  cases e with
  | raise st => exact hR st h
  | _ => trivial

/-- Every stop is with some status, or does not matter. -/
theorem wp_anyStop {x : M α} {s : State} : wp x (fun _ _ => True) (Raised fun _ _ => True) s := by
  unfold wp
  split
  · trivial
  · rename_i e _ _
    cases e <;> trivial

theorem wp_and {x : M α} {Q Q' : α → State → Prop} {R R' : Status → State → Prop} {s : State} (h : wp x Q (Raised R) s)
    (h' : wp x Q' (Raised R') s) :
    wp x (fun a t => Q a t ∧ Q' a t) (Raised fun st t => R st t ∧ R' st t) s := by
  unfold wp at *
  cases hx : x.run s with
  | ok a t =>
    rw [hx] at h h'
    exact ⟨h, h'⟩
  | error e t =>
    rw [hx] at h h'
    cases e with
    | raise st => exact ⟨h, h'⟩
    | _ => trivial

/-- What a procedure raises wherever it starts, it raises here. -/
theorem Raises.raised {A : Status → Prop} {x : M α} (h : Raises A x) (s : State) :
    wp x (fun _ _ => True) (Raised fun st _ => A st) s :=
  wp_mono (h s) (fun _ _ _ => trivial) fun e _ h => by
    cases e with
    | raise st => exact h
    | _ => trivial

/-- How an operation that ends in the idle phase has ended. -/
theorem runOp_idle {x : M Unit} {Q : Unit → State → Prop} {R : Status → State → Prop} {P : State → Prop} {s t : State}
    (h : wp x Q (Raised R) s) (hk : Keeps P s.atomic s.atomic x) (hs : P s) (hx : runOp x s = .next t)
    (ht : t.seq = .idle) :
    (∃ u, Q () u ∧ t = complete .ok u) ∨ (∃ st u, R st u ∧ t = complete st u) ∨ ∃ u : State, t = u.blockReset := by
  have hk := hk s hs rfl
  unfold wp at h hk
  rw [runOp_eq] at hx
  cases hrun : x.run s with
  | ok a u =>
    rw [hrun] at h hx
    cases hx
    exact .inl ⟨u, h, rfl⟩
  | error e u =>
    rw [hrun] at h hk hx
    cases e with
    | raise st =>
      cases hx
      exact .inr (.inl ⟨st, u, h, rfl⟩)
    | stuck =>
      cases hx
      obtain ⟨_, _, hq⟩ := hk
      rcases hq with hq | hq <;> cases hq.symm.trans ht
    | reset =>
      cases hx
      exact .inr (.inr ⟨u, rfl⟩)
    | fault f => cases hx

/-! ## The ledger -/

/-- What was read and signed between `s` and `t`. -/
structure Ledger (s t : State) (counters pages : List Bytes) (sigs : Nat) : Prop where
  cfg : t.cfg = s.cfg
  events : ∃ new, t.env.trace = new ++ s.env.trace ∧ responses s.cfg 8 new = counters ∧ responses s.cfg 44 new = pages
    ∧ signaturesMade new = sigs

theorem responses_append (cfg : Config.Params) (n : Nat) (es fs : List Event) :
    responses cfg n (es ++ fs) = responses cfg n fs ++ responses cfg n es := by
  simp [responses, List.filterMap_append]

theorem signaturesMade_append (es fs : List Event) : signaturesMade (es ++ fs) = signaturesMade es + signaturesMade fs :=
  List.count_append

theorem Ledger.refl (s : State) : Ledger s s [] [] 0 := ⟨rfl, [], rfl, rfl, rfl, rfl⟩

theorem Ledger.trans {s t u : State} {cs cs' ps ps' : List Bytes} {n n' : Nat} (h : Ledger s t cs ps n)
    (k : Ledger t u cs' ps' n') : Ledger s u (cs ++ cs') (ps ++ ps') (n + n') := by
  obtain ⟨hcfg, new, htrace, hc, hp, hn⟩ := h
  obtain ⟨hcfg', new', htrace', hc', hp', hn'⟩ := k
  rw [hcfg] at hc' hp'
  refine ⟨hcfg'.trans hcfg, new' ++ new, ?_, ?_, ?_, ?_⟩
  · rw [htrace', htrace, List.append_assoc]
  · rw [responses_append, hc, hc']
  · rw [responses_append, hp, hp']
  · rw [signaturesMade_append, hn, hn', Nat.add_comm]

/-- An exchange that reads another number of bytes is not one of these responses. -/
theorem responses_of_length_ne {cfg : Config.Params} {k : Nat} {x : Config.Exchange} {a : Answer} (h : x.readLen ≠ k) :
    responses cfg k [.exchange x a] = [] := by
  cases a with
  | bytes b => simp [responses, h]
  | _ => rfl

theorem responses_op2 {cfg : Config.Params} {x : Config.Exchange} {b : Bytes} (h : x.opcode = cfg.op2Code) :
    responses cfg x.readLen [.exchange x (.bytes b)] = [b] := by
  simp [responses, h]

/-! ## Silent steps -/

/-- What the bus steps of an operation leave: these responses were read, and session, contexts and counter are as before. -/
structure Reads (s t : State) (counters pages : List Bytes) : Prop where
  ledger : Ledger s t counters pages 0
  kid : t.kid = s.kid
  ctx0 : t.ctx0 = s.ctx0
  ctx1 : t.ctx1 = s.ctx1
  mc : t.mc = s.mc

theorem Reads.refl (s : State) : Reads s s [] [] := ⟨.refl s, rfl, rfl, rfl, rfl⟩

theorem Reads.trans {s t u : State} {cs cs' ps ps' : List Bytes} (h : Reads s t cs ps) (k : Reads t u cs' ps') :
    Reads s u (cs ++ cs') (ps ++ ps') :=
  ⟨h.ledger.trans k.ledger, k.kid.trans h.kid, k.ctx0.trans h.ctx0, k.ctx1.trans h.ctx1, k.mc.trans h.mc⟩

theorem Reads.ctx {s t : State} {cs ps : List Bytes} (h : Reads s t cs ps) (slot : Bool) : t.ctx slot = s.ctx slot := by
  cases slot
  · exact h.ctx0
  · exact h.ctx1

/-- Nothing read, nothing signed, no register of session or counter written; the command in flight is as before. -/
def Still (s t : State) : Prop := Reads s t [] [] ∧ t.inFlight = s.inFlight

theorem Still.refl (s : State) : Still s s := ⟨.refl s, rfl⟩

theorem Still.trans {s t u : State} (h : Still s t) (k : Still t u) : Still s u := ⟨h.1.trans k.1, k.2.trans h.2⟩

/-- Whether it returns or raises a status, `x` leaves everything as `Still` says. -/
def Silent (x : M α) : Prop := ∀ s, wp x (fun _ t => Still s t) (Raised fun _ t => Still s t) s

namespace Silent

theorem bind {x : M α} {f : α → M β} (hx : Silent x) (hf : ∀ a, Silent (f a)) : Silent (x >>= f) := fun s =>
  wp_bind.2 (wp_mono (hx s) (fun a t h => wp_mono (hf a t) (fun _ _ k => h.trans k) fun _ _ k => k.mono fun _ => h.trans)
    fun _ _ h => h)

theorem look {f : State → M α} (hf : ∀ u, Silent (f u)) : Silent (get >>= f) := fun s => wp_bind.2 (hf s s)

theorem pure (a : α) : Silent (pure a : M α) := fun s => Still.refl s

theorem raise (st : Status) : Silent (raise st : M α) := fun s => Still.refl s

theorem modify {f : State → State} (h : ∀ s, Still s (f s)) : Silent (modify f) := h

theorem require {c : Bool} {st : Status} : Silent (require c st) := by
  cases c
  · exact raise st
  · exact pure ()

theorem onlyIf {c : Bool} {x : M Unit} (h : Silent x) : Silent (onlyIf c x) := by
  cases c
  · exact pure ()
  · exact h

theorem orRaise (r : Except Status α) : Silent (orRaise r) := by
  cases r
  · exact raise _
  · exact pure _

theorem attempt {x : M α} (h : Silent x) : Silent (attempt x) := fun s =>
  wp_attempt.2 (wp_mono (h s) (fun _ _ k => k) fun e t k => by cases e <;> exact k)

theorem phase (p : Phase) : Silent (phase p) := modify fun _ => ⟨⟨⟨rfl, [], rfl, rfl, rfl, rfl⟩, rfl, rfl, rfl, rfl⟩, rfl⟩

theorem setSsr (v : Word) : Silent (setSsr v) := modify fun _ => ⟨⟨⟨rfl, [], rfl, rfl, rfl, rfl⟩, rfl, rfl, rfl, rfl⟩, rfl⟩

theorem busMode {e : Event} (h : e = .busModeExit ∨ e = .busModeReenter) : Silent (logEvent e) := by
  rcases h with rfl | rfl <;> exact modify fun _ => ⟨⟨⟨rfl, [_], rfl, rfl, rfl, rfl⟩, rfl, rfl, rfl, rfl⟩, rfl⟩

/-- An exchange that reads neither a counter nor a page. -/
theorem exchange {op : Byte} {addr : Option Word} {sz : Byte} {w : Bytes} {d : Byte} {n : Nat} (h8 : n ≠ 8)
    (h44 : n ≠ 44) : Silent (exchange op addr sz w d n) := fun s => by
  have hstill : Still s (s.exchanged (s.exchangeRequest op addr sz w d n)) := by
    refine ⟨⟨⟨rfl, [_], rfl, responses_of_length_ne h8, responses_of_length_ne h44, rfl⟩, rfl, rfl, rfl, rfl⟩, rfl⟩
  unfold wp
  rw [run_exchange]
  cases s.nextAnswer
  · exact hstill
  · exact hstill
  · trivial

theorem op0 : Silent op0 :=
  look fun _ => bind (exchange (by decide) (by decide)) fun _ => bind (setSsr _) fun _ => require

theorem op1 {ctag : Word} {w : Bytes} : Silent (op1 ctag w) :=
  look fun _ => bind (exchange (by decide) (by decide)) fun _ => pure _

theorem pollUntil (stop : Config.SsrLayout → Word → Bool) (fuel : Nat) : Silent (pollUntil stop fuel) := by
  induction fuel with
  | zero => exact fun _ => trivial
  | succ fuel ih =>
    refine bind op0 fun _ => look fun u => ?_
    split
    · exact pure _
    · exact ih

theorem busyWait : Silent busyWait := bind (phase _) fun _ => look fun _ => pollUntil _ _

theorem notReady (opc : Byte) : Silent (notReady opc) := by
  refine look fun u => ?_
  split
  · refine bind (phase _) fun _ => look fun _ => ?_
    split
    · exact pure _
    · exact pollUntil _ _
  · exact setSsr _

end Silent

/-! ## `Secure` -/

/-- The responses of `k` bytes among one of `n` bytes, if any was read. -/
def got (k n : Nat) (r : Option Bytes) : List Bytes := if n = k then r.toList else []

theorem wp_op2 (n : Nat) (s : State) :
    wp (op2 n) (fun b t => (Reads s t (got 8 n (some b)) (got 44 n (some b)) ∧ t.inFlight = s.inFlight) ∧ b.length = n)
      (Raised fun _ _ => True) s := by
  refine wp_bind.2 ?_
  show wp (exchange s.cfg.op2Code none 0 [] s.cfg.op2Dummy n) _ _ s
  unfold wp
  rw [run_exchange]
  have hgot : ∀ k b, responses s.cfg k [.exchange (s.exchangeRequest s.cfg.op2Code none 0 [] s.cfg.op2Dummy n)
      (.bytes b)] = got k n (some b) := fun k b => by
    by_cases hk : n = k
    · subst hk
      rw [got, if_pos rfl]
      exact responses_op2 rfl
    · rw [got, if_neg hk]
      exact responses_of_length_ne hk
  cases hn : s.nextAnswer with
  | bytes b =>
    refine ⟨⟨⟨⟨rfl, [_], rfl, ?_, ?_, rfl⟩, rfl, rfl, rfl, rfl⟩, rfl⟩, length_fit _ _⟩
    · rw [hn]
      exact hgot 8 _
    · rw [hn]
      exact hgot 44 _
  | _ => trivial

theorem wp_secureRead (opc : Byte) (n : Nat) (s : State) :
    wp (secureRead opc n) (fun r t => (Reads s t (got 8 n r) (got 44 n r) ∧ t.inFlight = s.inFlight)
      ∧ ∀ b, r = some b → b.length = n) (Raised fun _ _ => True) s := by
  have hnone : ∀ k, got k n none = [] := fun k => ite_self _
  unfold secureRead
  split
  · refine ⟨?_, nofun⟩
    rw [hnone, hnone]
    exact Still.refl s
  · refine wp_bind.2 (wp_get.2 (wp_bind.2 (wp_mono (Silent.onlyIf (Silent.notReady opc) s) ?_ fun _ _ h => h.mono fun _ _ => trivial)))
    intro _ t ht
    refine wp_bind.2 (wp_get.2 ?_)
    split
    · refine wp_bind.2 (wp_mono (Silent.phase _ t) ?_ fun _ _ h => h.mono fun _ _ => trivial)
      intro _ u hu
      refine wp_bind.2 (wp_mono (wp_op2 n u) ?_ fun _ _ h => h)
      rintro b v ⟨⟨hv, hfly⟩, hlen⟩
      obtain ⟨hsu, hflyu⟩ := ht.trans hu
      refine ⟨⟨hsu.trans hv, hfly.trans hflyu⟩, fun c hc => ?_⟩
      cases hc
      exact hlen
    · refine ⟨?_, nofun⟩
      rw [hnone, hnone]
      exact ht

/-- A transaction after which nothing is chained (rule R295). -/
def Unchained (c : Config.Params) (ctag : Word) (b : Bool) : Prop :=
  ctag = 0 ∨ b = false ∨ ctagOpc ctag ≠ c.wire.setScr ∨ ctag.getLsbD 16 = false ∧ ctag.getLsbD 17 = false

theorem run_secureChain_unchained {ctag : Word} {b : Bool} {s : State} (h : Unchained s.cfg ctag b) :
    (secureChain ctag b).run s = .ok () s := by
  rcases h with rfl | rfl | h | ⟨h16, h17⟩
  · exact run_secureChain_zero b s
  · exact run_secureChain_nowait ctag s
  · have hother : (ctagOpc ctag == s.cfg.wire.setScr) = false := beq_eq_false_iff_ne.2 h
    simp only [secureChain, M.bind_get, hother, Bool.and_false, Bool.false_and, onlyIf_false, M.run_pure]
  · simp only [secureChain, M.bind_get, h16, h17, onlyIf_false]
    cases ctag != 0 && ctagOpc ctag == s.cfg.wire.setScr && b && !hasError s.cfg.ssr s.ssr <;> rfl

/-- The command of a transaction reads nothing. -/
theorem wp_secureSend (ctag : Word) (w : Bytes) (s : State) :
    wp (secureSend ctag w) (fun _ t => Reads s t [] []) (Raised fun _ _ => True) s := by
  have hsilent : ∀ c : Config.Params, Silent (do
      onlyIf (flips c ctag) (logEvent .busModeExit)
      let r ← attempt (op1 ctag w)
      onlyIf (flips c ctag) (logEvent .busModeReenter)
      orRaise r : M Unit) := fun c =>
    .bind (.onlyIf (.busMode (.inl rfl))) fun _ => .bind (.attempt .op1) fun _ =>
      .bind (.onlyIf (.busMode (.inr rfl))) fun _ => .orRaise _
  have hsend : secureSend ctag w = (do
      phase .send
      let c ← get
      (do
        onlyIf (flips c.cfg ctag) (logEvent .busModeExit)
        let r ← attempt (op1 ctag w)
        onlyIf (flips c.cfg ctag) (logEvent .busModeReenter)
        orRaise r : M Unit)
      setInFlight true : M Unit) := by
    simp only [secureSend, bind_assoc]
  rw [hsend]
  refine wp_bind.2 (wp_mono (Silent.phase _ s) (fun _ t ht => wp_bind.2 (wp_bind.2 ?_)) fun _ _ h => h.mono fun _ _ => trivial)
  refine wp_mono (hsilent t.cfg t) (fun _ u hu => ?_) fun _ _ h => h.mono fun _ _ => trivial
  obtain ⟨h, _⟩ := ht.trans hu
  exact ⟨⟨h.ledger.cfg, h.ledger.events⟩, h.kid, h.ctx0, h.ctx1, h.mc⟩

/-- The wait of a transaction reads nothing, and no command is in flight after it. -/
theorem wp_secureWait (opc : Byte) (s : State) :
    wp (secureWait opc) (fun _ t => Reads s t [] [] ∧ t.inFlight = false) (Raised fun _ _ => True) s := by
  refine wp_bind.2 (wp_mono (Silent.busyWait s) (fun _ t ht => wp_bind.2 (wp_bind.2 ?_)) fun _ _ h => h.mono fun _ _ => trivial)
  refine wp_mono (Silent.onlyIf Silent.busyWait t) (fun _ u hu => ?_) fun _ _ h => h.mono fun _ _ => trivial
  obtain ⟨h, _⟩ := ht.trans hu
  exact ⟨⟨⟨h.ledger.cfg, h.ledger.events⟩, h.kid, h.ctx0, h.ctx1, h.mc⟩, rfl⟩

theorem wp_secureSteps {ctag : Word} {b : Bool} {s : State} (w : Bytes) (n : Nat) (hc : Unchained s.cfg ctag b) :
    wp (secureSteps ctag w n b) (fun r t => Reads s t (got 8 n r) (got 44 n r) ∧ (b = true → t.inFlight = false)
      ∧ ∀ bs, r = some bs → bs.length = n) (Raised fun _ _ => True) s := by
  have hsend : wp (onlyIf (ctag != 0) (secureSend ctag w)) (fun _ t => Reads s t [] []) (Raised fun _ _ => True) s :=
    wp_onlyIf (fun _ => wp_secureSend ctag w s) fun _ => .refl s
  refine wp_bind.2 (wp_mono hsend (fun _ t ht => ?_) fun _ _ h => h)
  have hwait : wp (onlyIf b (secureWait (ctagOpc ctag))) (fun _ u => Reads t u [] [] ∧ (b = true → u.inFlight = false))
      (Raised fun _ _ => True) t :=
    wp_onlyIf (fun _ => wp_mono (wp_secureWait _ t) (fun _ _ h => ⟨h.1, fun _ => h.2⟩) fun _ _ h => h)
      fun hb => ⟨.refl t, fun h => absurd (hb.symm.trans h) Bool.false_ne_true⟩
  refine wp_bind.2 (wp_mono hwait (fun _ u hu => ?_) fun _ _ h => h)
  refine wp_bind.2 (wp_mono (wp_secureRead (ctagOpc ctag) n u) (fun r v hv => ?_) fun _ _ h => h)
  obtain ⟨⟨hread, hfly⟩, hlen⟩ := hv
  have h := (ht.trans hu.1).trans hread
  refine wp_bind.2 ((wp_ok (run_secureChain_unchained ?_)).2 ⟨h, fun hb => hfly.trans (hu.2 hb), hlen⟩)
  rw [h.ledger.cfg]
  exact hc

/-- `Secure` that succeeds, without a chain: what was read is what is returned. -/
theorem wp_secureOrRaise {ctag : Word} {b : Bool} {s : State} (w : Bytes) (n : Nat) (hc : Unchained s.cfg ctag b) :
    wp (secureOrRaise ctag w n b) (fun r t => Reads s t (got 8 n r.1) (got 44 n r.1) ∧ (b = true → t.inFlight = false)
      ∧ ∀ bs, r.1 = some bs → bs.length = n) (Raised fun st _ => st = .connectivityErr ∨ st = .notConnected) s := by
  have hraise := (raises_secureOrRaise (A := fun st => st = .connectivityErr ∨ st = .notConnected) (.inl rfl) (.inr rfl)
    (ctag := ctag) (w := w) (n := n) (b := b)).raised s
  refine wp_mono (wp_and hraise (R' := fun _ _ => True) ?_) (fun _ _ h => h.2) fun _ _ h => h.mono fun _ k => k.1
  cases hb : s.busIsLocked
  · unfold wp
    rw [run_secureOrRaise_disconnected ctag w n b hb]
    trivial
  · have hsteps := wp_secureSteps (s := { s with atomic := s.atomic + 1 }) w n hc
    unfold wp at hsteps ⊢
    cases hrun : (secureSteps ctag w n b).run { s with atomic := s.atomic + 1 } with
    | ok r t =>
      rw [hrun] at hsteps
      rw [run_secureOrRaise_ok hb hrun]
      obtain ⟨h, hfly, hlen⟩ := hsteps
      exact ⟨⟨⟨h.ledger.cfg, h.ledger.events⟩, h.kid, h.ctx0, h.ctx1, h.mc⟩, hfly, hlen⟩
    | error e t =>
      cases e with
      | raise st =>
        rw [run_secureOrRaise_fails hb hrun]
        trivial
      | _ =>
        rw [run_secureOrRaise_stops hb (by simp) hrun]
        trivial

/-! ## Failures -/

/-- A failure that is neither a success nor a refused signature. -/
def Plain (c : Config.Params) (st : Status) : Prop := st ≠ .securityErr ∧ (paramsWf c = true → st ≠ .ok)

theorem plain_of_secure {c : Config.Params} {st : Status} (h : st = .connectivityErr ∨ st = .notConnected) : Plain c st := by
  rcases h with rfl | rfl <;> exact ⟨by decide, fun _ => by decide⟩

theorem plain_deviceMcErr (c : Config.Params) : Plain c .deviceMcErr := ⟨by decide, fun _ => by decide⟩

theorem classify_ne_securityErr (L : Config.SsrLayout) (v mask : Word) : classify L v mask ≠ .securityErr := fun e => by
  have hdev := ofDevice_classify L v mask
  rw [e] at hdev
  exact absurd hdev (by decide)

/-- The classification of a word with an error bit. -/
theorem plain_classify {c : Config.Params} {v : Word} (h : hasError c.ssr v = true) :
    Plain c (classify c.ssr v (maskAllErrors c.ssr)) :=
  ⟨classify_ne_securityErr _ _ _, fun hwf => classify_all_ne_ok hwf h⟩

/-- The classification gives the status of the word it was asked about. -/
theorem wp_checkSsrErrors (raw mask : Word) (s : State) :
    wp (checkSsrErrors raw mask) (fun st _ => st = classify s.cfg.ssr raw mask) (Raised fun _ _ => False) s := by
  have hfetch : Raises (fun _ => False) (onlyIf (hasError s.cfg.ssr raw) forcedFetch) :=
    .onlyIf (.look fun _ => .bind .attempt fun _ => .bind (.modify _) fun _ => .bind (.modify _) fun _ => .onlyIf (.modify _))
  refine wp_bind.2 (wp_bind.2 ?_)
  refine wp_bind.2 (wp_mono (hfetch.raised _) (fun _ _ _ => rfl) fun _ _ h => h)

/-- The classification of a status word under which every error is fatal goes on only without an error. -/
theorem wp_checkAllOrRaise {sv : Word} {s : State} (hwf : paramsWf s.cfg = true) :
    wp (checkAllOrRaise sv) (fun _ t => Still s t) (Raised fun st _ => Plain s.cfg st) s := by
  refine wp_bind.2 (wp_bind.2 ?_)
  cases he : hasError s.cfg.ssr sv
  · have hclean : (checkSsrErrors sv (maskAllErrors s.cfg.ssr)).run s =
        .ok (classify s.cfg.ssr sv (maskAllErrors s.cfg.ssr)) { s with seq := .classify } := by
      simp only [checkSsrErrors, bind_phase, M.bind_get, he, onlyIf_false, M.bind_pure, M.run_pure]
    refine (wp_ok hclean).2 ?_
    unfold okOrRaise
    split
    · exact ⟨⟨⟨rfl, [], rfl, rfl, rfl, rfl⟩, rfl, rfl, rfl, rfl⟩, rfl⟩
    · rename_i hne
      exact ⟨classify_ne_securityErr _ _ _, fun _ => hne⟩
  · refine wp_mono (wp_checkSsrErrors sv _ s) (fun st t hst => ?_) fun _ _ h => h.mono fun _ => False.elim
    subst hst
    have hplain := plain_classify he
    unfold okOrRaise
    rw [if_neg (hplain.2 hwf)]
    exact hplain

/-! ## The counter -/

/-- The first tick over the counter responses read: `firstTick`, of the list of them. -/
def FirstRead (s : State) (counters : List Bytes) (base : Word) : Prop :=
  (s.mc.inSync = true → counters = [] ∧ base = tickValue s)
    ∧ (s.mc.inSync = false →
      ∃ r, counters = [r] ∧ base = tickValue { s with mc := { s.mc with tc := rd32 r } })

theorem unchained_getMc (c : Config.Params) : Unchained c (mkCtag c.wire.getMc 0 0) true := by
  have hbit : ∀ i, 8 ≤ i → (mkCtag c.wire.getMc 0 0).getLsbD i = false := fun i hi => by
    rw [mkCtag, BitVec.getLsbD_append, if_neg (by omega)]
    simp
  exact .inr (.inr (.inr ⟨hbit 16 (by decide), hbit 17 (by decide)⟩))

/-- The unsigned read of the counter: one response. -/
theorem wp_getMc (s : State) :
    wp getMc (fun p t => ∃ r, Reads s t [r] [] ∧ p.1 = rd32 r) (Raised fun st _ => Plain s.cfg st) s := by
  refine wp_bind.2 (wp_bind.2 ?_)
  refine wp_mono (wp_secureOrRaise [] 8 (unchained_getMc s.cfg)) ?_ fun _ _ h => h.mono fun _ => plain_of_secure
  rintro ⟨r, sv⟩ t ⟨h, _, _⟩
  dsimp only
  split
  · rename_i he
    exact plain_classify he
  · cases r with
    | some b => exact ⟨b, h, rfl⟩
    | none => trivial

/-- The tick of the counter: the value it returns, the counter it leaves. -/
theorem wp_useMc (s : State) :
    wp useMc (fun p t => ∃ cs, FirstRead s cs p.1 ∧ Ledger s t cs [] 0 ∧ t.kid = s.kid ∧ t.ctx0 = s.ctx0
        ∧ t.ctx1 = s.ctx1 ∧ t.mc.inSync = true ∧ tickValue t = p.1 + 1)
      (Raised fun st _ => Plain s.cfg st) s := by
  have hsync : wp synchMc (fun _ u => ∃ cs, FirstRead s cs (tickValue u) ∧ Ledger s u cs [] 0 ∧ u.kid = s.kid
      ∧ u.ctx0 = s.ctx0 ∧ u.ctx1 = s.ctx1 ∧ u.mc.inSync = true) (Raised fun st _ => Plain s.cfg st) s := by
    refine wp_bind.2 (wp_get.2 ?_)
    split
    · rename_i hs
      exact ⟨[], ⟨fun _ => ⟨rfl, rfl⟩, fun h => absurd (hs.symm.trans h) (by decide)⟩, .refl s, rfl, rfl, rfl, hs⟩
    · rename_i hs
      refine wp_bind.2 (wp_bind.2 ?_)
      refine wp_mono (wp_getMc _) ?_ fun _ _ h => h
      rintro ⟨tc, dmc⟩ t ⟨r, h, htc⟩
      refine wp_bind.2 (wp_require (fun _ => ?_) fun _ => plain_deviceMcErr _)
      have hread : Reads s t [r] [] := ⟨⟨h.ledger.cfg, h.ledger.events⟩, h.kid, h.ctx0, h.ctx1, h.mc⟩
      refine ⟨[r], ⟨fun h' => absurd h' hs, fun _ => ⟨r, rfl, ?_⟩⟩, ⟨hread.ledger.cfg, hread.ledger.events⟩, hread.kid,
        hread.ctx0, hread.ctx1, rfl⟩
      show tickValue _ = _
      unfold tickValue
      rw [← show tc = rd32 r from htc, hread.ledger.cfg]
  refine wp_bind.2 (wp_mono hsync ?_ fun _ _ h => h)
  rintro _ u ⟨cs, hfirst, hl, hkid, hctx0, hctx1, hu⟩
  refine wp_bind.2 (wp_get.2 (wp_bind.2 (wp_require (fun _ => ?_) fun _ => plain_deviceMcErr _)))
  refine wp_bind.2 (wp_set.2 ?_)
  cases ho : u.cfg.mcUseOrder
  · refine ⟨cs, ?_, ⟨hl.cfg, hl.events⟩, hkid, hctx0, hctx1, hu, ?_⟩
    · rwa [show tickValue u = u.mc.tc + 1 by unfold tickValue; rw [ho]] at hfirst
    · unfold tickValue
      rw [show _ = Config.McUseOrder.incrementThenFetch from ho]
  · refine ⟨cs, ?_, ⟨hl.cfg, hl.events⟩, hkid, hctx0, hctx1, hu, ?_⟩
    · rwa [show tickValue u = u.mc.tc by unfold tickValue; rw [ho]] at hfirst
    · unfold tickValue
      rw [show _ = Config.McUseOrder.fetchThenIncrement from ho]

/-! ## The steps of a page read -/

/-- The context `c` holds what a page read derives from the tick `base` and the key of the context (rule R221). -/
def DerivedFrom (s : State) (c : Ctx) (key : Bytes) (base : Word) : Prop :=
  c.tc = base ∧ c.ssk = sskOf s.cfg key base ∧ c.cipherKey = cipherKeyOf s.cfg (sskOf s.cfg key base) s.kid .decrypt

/-- The preparation of a page: a draw, a tick, and the derivations over the tick. -/
theorem wp_prepRead (opc : Byte) (a : Word) (slot : Bool) (s : State) :
    wp (prepRead opc a slot) (fun _ t => ∃ cs base, FirstRead s cs base ∧ Ledger s t cs [] 0 ∧ t.kid = s.kid
        ∧ t.mc.inSync = true ∧ tickValue t = base + 1 ∧ DerivedFrom s (t.ctx slot) (s.ctx slot).key base
        ∧ t.ctx (!slot) = s.ctx (!slot) ∧ (t.ctx slot).key = (s.ctx slot).key ∧ ctagOpc (t.ctx slot).ctagW = opc)
      (Raised fun st _ => Plain s.cfg st) s := by
  refine wp_bind.2 (wp_bind.2 ?_)
  let v : State := ({ s with seq := .derive } : State).drawn .randomBits
  refine (wp_ok (run_drawAddr { s with seq := .derive } a)).2 (wp_bind.2 (wp_mono (wp_useMc v) ?_ fun _ _ h => h))
  rintro ⟨base, dmc⟩ t ⟨cs, hfirst, hl, hkid, hctx0, hctx1, hsync, htick⟩
  have hlv : Ledger s v [] [] 0 := ⟨rfl, [_], rfl, rfl, rfl, rfl⟩
  have hlt := hlv.trans hl
  have hctx : ∀ b, t.ctx b = s.ctx b := fun b => by
    cases b
    · exact hctx0
    · exact hctx1
  have hkid' : t.kid = s.kid := hkid
  have hcfg : t.cfg = s.cfg := hlt.cfg
  have hfirst' : FirstRead s cs base := hfirst
  have hlend : ∀ u : State, u.cfg = t.cfg →
      u.env.trace = [.crypto .addressKey, .crypto .buildCipherKey, .crypto .refreshSsk] ++ t.env.trace →
      Ledger s u cs [] 0 := fun u hc htr => by
    have hl' : Ledger t u [] [] 0 := ⟨hc, _, htr, rfl, rfl, rfl⟩
    simpa using hlt.trans hl'
  simp only [refreshSsk, buildCipherKey, encryptAddress, cryptoCall]
  have hkey : ∀ b, (t.ctx b).key = (s.ctx b).key := fun b => congrArg Ctx.key (hctx b)
  have hssk : ∀ b, sskOf t.cfg (t.ctx b).key base = sskOf s.cfg (s.ctx b).key base := fun b => by rw [hctx, hcfg]
  have hck : ∀ b, cipherKeyOf t.cfg (sskOf t.cfg (t.ctx b).key base) t.kid .decrypt
      = cipherKeyOf s.cfg (sskOf s.cfg (s.ctx b).key base) s.kid .decrypt := fun b => by rw [hssk, hcfg, hkid']
  cases slot
  · exact ⟨cs, base, hfirst', hlend _ rfl rfl, hkid', hsync, htick, ⟨rfl, hssk false, hck false⟩, hctx true, hkey false,
      ctagOpc_mkCtagAddr _ _⟩
  · exact ⟨cs, base, hfirst', hlend _ rfl rfl, hkid', hsync, htick, ⟨rfl, hssk true, hck true⟩, hctx false, hkey true,
      ctagOpc_mkCtagAddr _ _⟩

/-- Starting a page reads nothing. -/
theorem wp_startRead (slot : Bool) (s : State) :
    wp (startRead slot) (fun _ t => Reads s t [] []) (Raised fun st _ => Plain s.cfg st) s := by
  refine wp_bind.2 (wp_bind.2 ?_)
  refine wp_mono (wp_secureOrRaise [] 0 (.inr (.inl rfl))) (fun r t h => ?_) fun _ _ h => h.mono fun _ => plain_of_secure
  exact h.1

/-- `Drain` reads nothing, and no command is in flight after it. -/
theorem wp_drain (s : State) :
    wp drain (fun _ t => Reads s t [] [] ∧ t.inFlight = false) (Raised fun _ _ => False) s := by
  refine wp_bind.2 (wp_onlyIf (fun _ => ?_) fun h => ⟨.refl s, h⟩)
  refine wp_bind.2 (wp_bind.2 (wp_attempt.2 (wp_mono (Silent.busyWait { s with atomic := s.atomic + 1 }) ?_ ?_)))
  · rintro _ t ⟨h, _⟩
    exact ⟨⟨⟨h.ledger.cfg, h.ledger.events⟩, h.kid, h.ctx0, h.ctx1, h.mc⟩, rfl⟩
  · intro e t h
    cases e with
    | raise st =>
      obtain ⟨h, _⟩ := h
      exact ⟨⟨⟨h.ledger.cfg, h.ledger.events⟩, h.kid, h.ctx0, h.ctx1, h.mc⟩, rfl⟩
    | _ => trivial

/-- `Fail`: drained, and for a refused signature the pages after `done` are zero. -/
theorem wp_failMulti {Q : α → State → Prop} (st : Status) (done : Bytes) (size : Nat) (s : State) :
    wp (failMulti st done size : M α) Q (Raised fun st' t => st' = st ∧ Reads s t [] [] ∧ t.inFlight = false
      ∧ (st = .securityErr → t.out.rbuf = zeroedOutput s.cfg.multiZero done size)) s := by
  refine wp_bind.2 (wp_mono (wp_drain s) (fun _ t ht => ?_) fun _ _ h => h.mono fun _ => False.elim)
  obtain ⟨h, hfly⟩ := ht
  refine wp_bind.2 (wp_get.2 (wp_bind.2 (wp_onlyIf (fun _ => ?_) fun hst => ?_)))
  · refine ⟨rfl, ⟨⟨h.ledger.cfg, h.ledger.events⟩, h.kid, h.ctx0, h.ctx1, h.mc⟩, hfly, fun _ => ?_⟩
    show zeroedOutput t.cfg.multiZero done size = _
    rw [h.ledger.cfg]
  · exact ⟨rfl, h, hfly, fun hs => absurd hs (by simpa using hst)⟩

/-- A step of the pipeline: what it raises, `Fail` raises. -/
theorem wp_orFailMulti {x : M α} {Q : α → State → Prop} {R R' : Status → State → Prop} {done : Bytes} {size : Nat}
    {s : State} (h : wp x Q (Raised R) s)
    (hR : ∀ st u t, R st u → Reads u t [] [] → t.inFlight = false →
      (st = .securityErr → t.out.rbuf = zeroedOutput u.cfg.multiZero done size) → R' st t) :
    wp (orFailMulti x done size) Q (Raised R') s := by
  refine wp_bind.2 (wp_attempt.2 (wp_mono h (fun _ _ k => k) fun e u k => ?_))
  cases e with
  | raise st =>
    refine wp_mono (wp_failMulti st done size u) (fun _ _ k' => k') fun _ _ k' => k'.mono fun st' hst => ?_
    obtain ⟨rfl, hread, hfly, hbuf⟩ := hst
    exact hR _ _ _ k hread hfly hbuf
  | _ => trivial

/-- The error check of a page goes on only without an error bit, and then does nothing. -/
theorem wp_checkPage (sv : Word) (done : Bytes) (size : Nat) (s : State) :
    wp (checkPage sv done size) (fun _ t => t = s) (Raised fun st t => Plain s.cfg st ∧ t.inFlight = false) s := by
  refine wp_bind.2 (wp_get.2 (wp_onlyIf (fun he => ?_) fun _ => rfl))
  refine wp_bind.2 (wp_mono (wp_drain s) (fun _ t ht => ?_) fun _ _ h => h.mono fun _ => False.elim)
  refine wp_bind.2 (wp_mono (wp_checkSsrErrors sv _ t) (fun st u hst => ?_) fun _ _ h => h.mono fun _ => False.elim)
  rw [ht.1.ledger.cfg] at hst
  subst hst
  refine wp_mono (wp_failMulti _ done size u) (fun _ _ k => k) fun _ _ k => k.mono fun st' hst' => ?_
  obtain ⟨rfl, _, hfly, _⟩ := hst'
  exact ⟨plain_classify he, hfly⟩

end Sys2Proof.Machine

/-! # No command is left in flight (rules R252, R257) -/

namespace Sys2Proof.Machine

-- One proof at a time: proofs elaborated in parallel take a thread each, and the check bounds their memory.
set_option Elab.async false

open Config (Answer Event)

variable {α : Type}

/-! ## A multi-block read leaves none -/

/-- A step of the pipeline that fails leaves no command in flight. -/
theorem orFailMulti_drains {x : M α} {Q : α → State → Prop} {s : State} (done : Bytes) (size : Nat)
    (h : wp x Q (Raised fun _ _ => True) s) :
    wp (orFailMulti x done size) Q (Raised fun _ t => t.inFlight = false) s :=
  wp_orFailMulti h fun _ _ _ _ _ hfly _ => hfly

/-- The verification of a page starts nothing. -/
theorem wp_verifyPage_inFlight (m : MultiRead) (a : Word) (old : Bool) (r : Bytes) (s : State) :
    wp (verifyPage m a old r) (fun _ t => t.inFlight = s.inFlight) (Raised fun _ _ => True) s := by
  refine wp_bind.2 (wp_bind.2 (wp_bind.2 (wp_require (fun _ => ?_) fun _ => trivial)))
  have hcipher : ∀ u : State, (cipher (s.ctx old).cipherKey (pageOf r)).run u
      = .ok (cipherPage (s.ctx old).cipherKey (pageOf r)) (u.called [.cipher]) := fun _ => rfl
  refine wp_bind.2 ((wp_ok (hcipher _)).2 (wp_bind.2 (wp_onlyIf (fun _ => ?_) fun _ => rfl)))
  refine wp_bind.2 ((wp_ok (run_pageSigned _ m.opc a old _ r)).2 (wp_require (fun _ => ?_) fun _ => trivial))
  cases old <;> rfl

/-- The loop: each page's read clears the command in flight, and only a page that has a successor starts one. -/
theorem wp_pagesLoop_inFlight (m : MultiRead) (rest : Nat) (a : Word) (old : Bool) (done : Bytes) (s : State)
    (h : rest = 0 → s.inFlight = false) :
    wp (pagesLoop m rest a old done) (fun _ t => t.inFlight = false) (Raised fun _ t => t.inFlight = false) s := by
  induction rest generalizing a old done s with
  | zero => exact h rfl
  | succ rest ih =>
    have hprep : wp (onlyIf (rest != 0) (do
          setCtxIdx (!old)
          orFailMulti (prepRead m.opc (a + BitVec.ofNat 32 Config.pageSize) (!old)) done m.size))
        (fun _ _ => True) (Raised fun _ t => t.inFlight = false) s :=
      wp_onlyIf (fun _ => wp_bind.2 (orFailMulti_drains done m.size wp_anyStop)) fun _ => trivial
    refine wp_bind.2 (wp_mono hprep (fun _ u _ => ?_) fun _ _ h => h)
    have hread := orFailMulti_drains done m.size (wp_mono (wp_secureOrRaise (s := u) (b := true) [] m.len (.inl rfl))
      (fun _ _ h => h.2.1 rfl) fun _ _ h => h.mono fun _ _ => trivial)
    refine wp_bind.2 (wp_mono hread ?_ fun _ _ h => h)
    rintro ⟨b, sv⟩ u hu
    have hstart : wp (onlyIf (rest != 0) (orFailMulti (startRead (!old)) done m.size))
        (fun _ t => rest = 0 → t.inFlight = false) (Raised fun _ t => t.inFlight = false) u :=
      wp_onlyIf (fun hr => wp_mono (orFailMulti_drains done m.size wp_anyStop)
        (fun _ _ _ h0 => absurd h0 (by simpa using hr)) fun _ _ h => h) fun _ _ => hu
    refine wp_bind.2 (wp_mono hstart (fun _ v hv => ?_) fun _ _ h => h)
    refine wp_bind.2 (wp_mono (wp_checkPage sv done m.size v) (fun _ x hx => ?_) fun _ _ h => h.mono fun _ k => k.2)
    subst hx
    cases b with
    | none => exact trivial
    | some r =>
      refine wp_bind.2 (wp_bind.2 (wp_mono (orFailMulti_drains done m.size (wp_verifyPage_inFlight m a old r x)) (fun p y hy => ?_)
        fun _ _ h => h))
      exact ih _ _ _ y fun h0 => hy.trans (hv h0)

/-- Over a trusted counter the preparation of a page sends nothing. -/
theorem wp_prepRead_inFlight (opc : Byte) (a : Word) (slot : Bool) {s : State} (hs : s.mc.inSync = true) :
    wp (prepRead opc a slot) (fun _ t => t.inFlight = s.inFlight) (Raised fun _ t => t.inFlight = s.inFlight) s := by
  refine wp_bind.2 (wp_bind.2 ?_)
  refine (wp_ok (run_drawAddr { s with seq := .derive } a)).2 ?_
  have htick : wp useMc (fun _ t => t.inFlight = s.inFlight) (Raised fun _ t => t.inFlight = s.inFlight)
      (({ s with seq := .derive } : State).drawn .randomBits) := by
    have hsync : synchMc.run (({ s with seq := .derive } : State).drawn .randomBits)
        = .ok () (({ s with seq := .derive } : State).drawn .randomBits) := by
      simp only [synchMc, M.bind_get]
      show (if s.mc.inSync = true then _ else _ : M Unit).run _ = _
      rw [if_pos hs]
      rfl
    refine wp_bind.2 ((wp_ok hsync).2 (wp_bind.2 (wp_bind.2 (wp_require (fun _ => ?_) fun _ => rfl))))
    refine wp_bind.2 (wp_set.2 ?_)
    split <;> rfl
  refine wp_bind.2 (wp_mono htick (fun _ t ht => ?_) fun _ _ h => h)
  cases slot <;> exact ht

/-- A multi-block read over a trusted counter leaves no command in flight, if there was none. -/
theorem wp_readMulti_inFlight (m : MultiRead) (a : Word) {s : State} (hs : s.mc.inSync = true) (hf : s.inFlight = false)
    (hsize : m.size / Config.pageSize ≠ 0) :
    wp (readMulti m a) (fun _ t => t.inFlight = false) (Raised fun _ t => t.inFlight = false) s := by
  refine wp_bind.2 (wp_bind.2 ?_)
  refine wp_mono (wp_prepRead_inFlight m.opc a s.ctxIdx hs) (fun _ t _ => ?_) fun _ _ h => h.mono fun _ k => k.trans hf
  refine wp_bind.2 (wp_mono (orFailMulti_drains [] m.size wp_anyStop) (fun _ u _ => ?_) fun _ _ h => h)
  refine wp_bind.2 (wp_mono (wp_pagesLoop_inFlight m _ a s.ctxIdx [] u fun h => absurd h hsize) (fun out v hv => ?_)
    fun _ _ h => h)
  exact hv

/-- A multi-block read that ends in the idle phase: refused at its boundary, or as the procedure ends. -/
theorem exec_multi_idle {s t : State} {a size : Word} {i : Instr} {m : MultiRead} {Q : Unit → State → Prop}
    {R : Status → State → Prop} (hm : (i, m) ∈ multiReads s a size) (hrun : exec i s = .next t) (ht : t.seq = .idle)
    (h : s.busIsLocked = true → multiOk a size = true → wp (readMulti m a) Q (Raised R) s.begun) :
    (∃ st, (st = .notConnected ∨ st = .parameterErr) ∧ t = { s with status := st, seq := .idle })
      ∨ (∃ u, Q () u ∧ t = complete .ok u) ∨ (∃ st u, R st u ∧ t = complete st u) ∨ ∃ u : State, t = u.blockReset := by
  have hi : 36 ≤ m.len ∧ exec i s = multiRead m a size s := by
    simp only [multiReads, List.mem_cons, List.not_mem_nil, or_false, Prod.mk.injEq] at hm
    rcases hm with ⟨rfl, rfl⟩ | ⟨rfl, rfl⟩
    · exact ⟨Nat.le_refl 36, rfl⟩
    · exact ⟨Nat.le_add_left 36 8, rfl⟩
  obtain ⟨hlen, hexec⟩ := hi
  rcases Bool.eq_false_or_eq_true s.busIsLocked with hb | hb
  · rcases Bool.eq_false_or_eq_true (multiOk a size) with hok | hok
    · rw [exec_multi_passes hm hb hok] at hrun
      exact .inr (runOp_idle (h hb hok) ((cfg_stableAll s).stable.readMulti hlen) rfl hrun ht)
    · rw [hexec, multiRead, runOp_passes hb, runOp_refused hok] at hrun
      cases hrun
      exact .inl ⟨.parameterErr, .inr rfl, rfl⟩
  · rw [hexec, multiRead, runOp_refused hb] at hrun
    cases hrun
    exact .inl ⟨.notConnected, .inl rfl, rfl⟩

/-- Settles O53: an induction over the pages for what is in flight; then the three aborts after `k` pages in order. -/
theorem multiBlockAbortsDrain : Obligations.MultiBlockAbortsDrain := by
  unfold Obligations.MultiBlockAbortsDrain
  refine ⟨fun s t a size i hi hs hf hrun ht => ?_, fun s a size i m pages p w rest hm => ?_⟩
  · obtain ⟨m, hm⟩ : ∃ m, (i, m) ∈ multiReads s a size := by
      simp only [List.mem_cons, List.not_mem_nil, or_false] at hi
      rcases hi with rfl | rfl
      · exact ⟨_, List.mem_cons_self⟩
      · exact ⟨_, List.mem_cons_of_mem _ List.mem_cons_self⟩
    rcases exec_multi_idle hm hrun ht (fun _ hok => wp_readMulti_inFlight m a (s := s.begun) hs hf (by
        rw [multiReads_size hm]
        obtain ⟨_, hsize⟩ := Bool.and_eq_true_iff.1 hok
        obtain ⟨h0, h32, _⟩ := of_decide_eq_true hsize
        rw [Config.pageSize] at *
        omega)) with ⟨st, _, rfl⟩ | ⟨u, hu, rfl⟩ | ⟨st, u, hu, rfl⟩ | ⟨u, rfl⟩
    · exact hf
    · exact hu
    · exact hu
    · rfl
  · intro k more ticks v sent drained hp hg hw
    refine ⟨fun hpage he hstale ha => ?_, fun y tc dmc hpw hlen he hy hv ha => ?_, fun polls hq ha => ?_⟩
    · obtain ⟨t, hrun, hst, hab, hmc, hout⟩ := exec_multi_stale hm rfl hp hg hpage he hstale hw ha
      exact ⟨t, hrun, hst, hab, hmc, hout.trans (if_pos hpage.2.1).symm⟩
    · exact exec_multi_deviceError hm rfl rfl hp hg hw hpw hlen he hy hv ha
    · exact exec_multi_lost hm rfl hp hg hw hq ha

end Sys2Proof.Machine

/-! # What the authenticated reads deliver, whatever the device does (rules R223, R253, R257) -/

namespace Sys2Proof.Machine

-- One proof at a time: proofs elaborated in parallel take a thread each, and the check bounds their memory.
set_option Elab.async false

open Config (Answer Event)

/-! ## The check of one page -/

/-- `pageChecked`, of the list of the page responses. -/
def CheckedBy (s : State) (opc : Byte) (a : Word) (pages : List Bytes) (base : Word) (n : Nat) (p : Bytes) (good : Bool) :
    Prop :=
  ∃ r, pages[n]? = some r ∧ r.length = 44 ∧
    let tick := base + BitVec.ofNat 32 n
    let ssk := sskOf s.cfg (s.ctx (s.pageSlot n)).key tick
    echoedTc r = tick - 1
      ∧ p = cipherPage (cipherKeyOf s.cfg ssk s.kid .decrypt) (pageOf r)
      ∧ good = (r.drop 36 == signatureOf ssk s.kid (mkCtagAddr opc ((pageAddr a n).setWidth 24)) p)

theorem pageChecked_iff {s : State} {opc : Byte} {a : Word} {es : List Event} {base : Word} {n : Nat} {p : Bytes}
    {good : Bool} : pageChecked s opc a es base n p good ↔ CheckedBy s opc a (responses s.cfg 44 es) base n p good :=
  Iff.rfl

theorem CheckedBy.append {s : State} {opc : Byte} {a : Word} {pages more : List Bytes} {base : Word} {n : Nat} {p : Bytes}
    {good : Bool} (h : CheckedBy s opc a pages base n p good) : CheckedBy s opc a (pages ++ more) base n p good := by
  obtain ⟨r, hr, hrest⟩ := h
  obtain ⟨hlt, _⟩ := List.getElem?_eq_some_iff.1 hr
  exact ⟨r, (List.getElem?_append_left hlt).trans hr, hrest⟩

theorem CheckedBy.length {s : State} {opc : Byte} {a : Word} {pages : List Bytes} {base : Word} {n : Nat} {p : Bytes}
    {good : Bool} (h : CheckedBy s opc a pages base n p good) : p.length = 32 := by
  obtain ⟨r, _, hr, _, rfl, _⟩ := h
  exact length_cipherPage (length_pageOf (by omega))

/-- What the check of the response `r` finds in the context `old`. -/
structure Verdict (s : State) (opc : Byte) (a : Word) (old : Bool) (r p : Bytes) (good : Bool) : Prop where
  fresh : echoedTc r = (s.ctx old).tc - 1
  plain : p = cipherPage (s.ctx old).cipherKey (pageOf r)
  signed : good = (r.drop 36 == signatureOf (s.ctx old).ssk s.kid (mkCtagAddr opc (a.setWidth 24)) p)

/-- The verification of a page of an authenticated read. -/
theorem wp_verifyPage_signed {m : MultiRead} (a : Word) (old : Bool) (r : Bytes) (s : State) (hm : m.signed = true) :
    wp (verifyPage m a old r) (fun p t => t = s.pageVerified m a old p ∧ Verdict s m.opc a old r p true)
      (Raised fun st t => st = .systemInIncorrectState
        ∨ st = .securityErr ∧ ∃ p, t = s.pageVerified m a old p ∧ Verdict s m.opc a old r p false) s := by
  by_cases hf : echoedTc r = (s.ctx old).tc - 1
  · have hrun := run_verifyPage_fresh (a := a) hm hf rfl
    unfold wp
    rw [hrun, BEq.comm]
    cases hgood : (r.drop 36 == signatureOf (s.ctx old).ssk s.kid (mkCtagAddr m.opc (a.setWidth 24))
      (cipherPage (s.ctx old).cipherKey (pageOf r)))
    · exact .inr ⟨rfl, _, rfl, hf, rfl, hgood.symm⟩
    · exact ⟨rfl, hf, rfl, hgood.symm⟩
  · exact (wp_error (run_verifyPage_stale hf)).2 (.inl rfl)

/-- The check of a page computes one signature and reads nothing. -/
theorem ledger_pageVerified {m : MultiRead} (s : State) (a : Word) (old : Bool) (p : Bytes) (hm : m.signed = true) :
    Ledger s (s.pageVerified m a old p) [] [] 1 := by
  obtain ⟨hcfg, _, _, _, _, _, _, _, _, _, _, _, _, _, _, _, _, _, htrace⟩ := pageVerified_frame s m a old p
  refine ⟨hcfg, _, htrace, ?_⟩
  rw [checkEvents, if_pos hm]
  exact ⟨rfl, rfl, rfl⟩

/-- The verdict on a page whose context was derived from the tick of page `n`. -/
theorem Verdict.checked {s u : State} {opc : Byte} {a base : Word} {n : Nat} {pages : List Bytes} {r p : Bytes}
    {good : Bool} (h : Verdict u opc (pageAddr a n) (s.pageSlot n) r p good) (hkid : u.kid = s.kid)
    (hd : DerivedFrom s (u.ctx (s.pageSlot n)) (s.ctx (s.pageSlot n)).key (base + BitVec.ofNat 32 n))
    (hr : pages[n]? = some r) (hlen : r.length = 44) : CheckedBy s opc a pages base n p good := by
  obtain ⟨htc, hssk, hkey⟩ := hd
  obtain ⟨hfresh, hplain, hsigned⟩ := h
  rw [htc] at hfresh
  rw [hkey] at hplain
  rw [hssk, hkid] at hsigned
  exact ⟨r, hr, hlen, hfresh, hplain, hsigned⟩

/-! ## The loop -/

theorem tickValue_congr {s t : State} (hcfg : t.cfg = s.cfg) (hmc : t.mc = s.mc) : tickValue t = tickValue s := by
  unfold tickValue
  rw [hcfg, hmc]

/-- `n` pages have been read, and each of them was in order; `done` is their plaintext. -/
structure PagesRead (s u : State) (opc : Byte) (a base : Word) (counters pages : List Bytes) (n : Nat) (done : Bytes) :
    Prop where
  ledger : Ledger s u counters pages n
  count : pages.length = n
  kid : u.kid = s.kid
  keys : ∀ b, (u.ctx b).key = (s.ctx b).key
  inSync : u.mc.inSync = true
  data : done.length = 32 * n
  checked : ∀ i < n, CheckedBy s opc a pages base i (pageOfBuffer done i) true

/-- The context of page `n` is prepared. -/
def PreparedFor (s u : State) (base : Word) (n : Nat) : Prop :=
  DerivedFrom s (u.ctx (s.pageSlot n)) (s.ctx (s.pageSlot n)).key (base + BitVec.ofNat 32 n)

/-- Page `k` was refused for its signature, after pages that were in order. -/
def Refused (s t : State) (m : MultiRead) (a base : Word) (counters : List Bytes) (count : Nat) : Prop :=
  ∃ k pages done, k < count ∧ Ledger s t counters pages (k + 1) ∧ pages.length = k + 1
    ∧ (∃ p, CheckedBy s m.opc a pages base k p false) ∧ done.length = 32 * k
    ∧ (∀ i < k, CheckedBy s m.opc a pages base i (pageOfBuffer done i) true)
    ∧ t.out.rbuf = zeroedOutput s.cfg.multiZero done m.size

theorem pageOfBuffer_append_left {b c : Bytes} {n k : Nat} (hb : b.length = 32 * k) (h : n < k) :
    pageOfBuffer (b ++ c) n = pageOfBuffer b n := by
  have hle : 32 * n + 32 ≤ b.length := by omega
  unfold pageOfBuffer
  rw [List.drop_append_of_le_length (by omega), List.take_append_of_le_length (by rw [List.length_drop]; omega)]

theorem pageOfBuffer_append_right {b c : Bytes} {k : Nat} (hb : b.length = 32 * k) (hc : c.length = 32) :
    pageOfBuffer (b ++ c) k = c := by
  unfold pageOfBuffer
  rw [← hb, List.drop_left, ← hc, List.take_length]

/-- One more page in order. -/
theorem PagesRead.snoc {s u : State} {opc : Byte} {a base : Word} {counters pages : List Bytes} {n : Nat}
    {done r p : Bytes} (h : PagesRead s u opc a base counters pages n done) {t : State} (hl : Ledger u t [] [r] 1)
    (hkid : t.kid = u.kid) (hkeys : ∀ b, (t.ctx b).key = (u.ctx b).key) (hsync : t.mc.inSync = true)
    (hp : CheckedBy s opc a (pages ++ [r]) base n p true) :
    PagesRead s t opc a base counters (pages ++ [r]) (n + 1) (done ++ p) where
  ledger := by simpa using h.ledger.trans hl
  count := by simp [h.count]
  kid := hkid.trans h.kid
  keys b := (hkeys b).trans (h.keys b)
  inSync := hsync
  data := by
    rw [List.length_append, h.data, hp.length]
    omega
  checked i hi := by
    by_cases hin : i < n
    · rw [pageOfBuffer_append_left h.data hin]
      exact (h.checked i hin).append
    · obtain rfl : i = n := by omega
      rw [pageOfBuffer_append_right h.data hp.length]
      exact hp

/-- The next page is prepared over the tick that follows. -/
theorem wp_prepareNext {s u : State} {m : MultiRead} {a base : Word} {counters pages : List Bytes} {n rest : Nat}
    {done : Bytes} (h : PagesRead s u m.opc a base counters pages n done) (hp : PreparedFor s u base n)
    (htick : tickValue u = base + BitVec.ofNat 32 (n + 1)) :
    wp (onlyIf (rest != 0) (do
        setCtxIdx (!s.pageSlot n)
        orFailMulti (prepRead m.opc (pageAddr a n + BitVec.ofNat 32 Config.pageSize) (!s.pageSlot n)) done m.size))
      (fun _ v => PagesRead s v m.opc a base counters pages n done ∧ PreparedFor s v base n
        ∧ (rest ≠ 0 → PreparedFor s v base (n + 1) ∧ tickValue v = base + BitVec.ofNat 32 (n + 2)))
      (Raised fun st _ => Plain s.cfg st) u := by
  refine wp_onlyIf (fun _ => ?_) fun hr => ⟨h, hp, fun h0 => absurd hr (by simpa using h0)⟩
  rw [← pageSlot_succ]
  let x : State := { u with ctxIdx := s.pageSlot (n + 1) }
  have hcfg : u.cfg = s.cfg := h.ledger.cfg
  have hprep : wp (prepRead m.opc (pageAddr a n + BitVec.ofNat 32 Config.pageSize) (s.pageSlot (n + 1)))
      (fun _ v => PagesRead s v m.opc a base counters pages n done ∧ PreparedFor s v base n
        ∧ (rest ≠ 0 → PreparedFor s v base (n + 1) ∧ tickValue v = base + BitVec.ofNat 32 (n + 2)))
      (Raised fun st _ => Plain s.cfg st) x := by
    refine wp_mono (wp_prepRead m.opc _ (s.pageSlot (n + 1)) x) ?_ fun _ _ k => k.mono fun st k => by rwa [← hcfg]
    rintro _ v ⟨cs, b, ⟨hfirst, _⟩, hl, hkid, hsync, hnext, hder, hother, hkey, _⟩
    obtain ⟨rfl, hb⟩ := hfirst h.inSync
    have hb' : b = base + BitVec.ofNat 32 (n + 1) := hb.trans htick
    subst hb'
    have hslot : s.pageSlot n = !s.pageSlot (n + 1) := by rw [pageSlot_succ, Bool.not_not]
    have hkeys : ∀ c, (v.ctx c).key = (s.ctx c).key := fun c => by
      by_cases hc : c = s.pageSlot (n + 1)
      · subst hc
        exact hkey.trans (h.keys _)
      · rw [show c = !s.pageSlot (n + 1) from (Bool.eq_not_of_ne hc)]
        exact (congrArg Ctx.key hother).trans (h.keys _)
    refine ⟨⟨?_, h.count, hkid.trans h.kid, hkeys, hsync, h.data, h.checked⟩, ?_, fun _ => ⟨?_, ?_⟩⟩
    · have hlx : Ledger u v [] [] 0 := ⟨hl.cfg, hl.events⟩
      simpa using h.ledger.trans hlx
    · unfold PreparedFor at hp ⊢
      rw [hslot] at hp ⊢
      rw [hother]
      exact hp
    · obtain ⟨htc, hssk, hck⟩ := hder
      rw [show x.cfg = s.cfg from hcfg, show (x.ctx (s.pageSlot (n + 1))).key = _ from h.keys _] at hssk hck
      rw [show x.kid = s.kid from h.kid] at hck
      exact ⟨htc, hssk, hck⟩
    · rw [hnext, BitVec.add_assoc]
      exact congrArg (base + ·) (BitVec.ofNat_add (n + 1) 1).symm
  exact wp_bind.2 (wp_orFailMulti hprep fun st _ _ hst _ _ _ => hst)

/-- Reading nothing, the session and the counter as before: the pages read so far stay. -/
theorem PagesRead.still {s u t : State} {opc : Byte} {a base : Word} {counters pages : List Bytes} {n : Nat}
    {done : Bytes} (h : PagesRead s u opc a base counters pages n done) (k : Reads u t [] []) :
    PagesRead s t opc a base counters pages n done :=
  ⟨by simpa using h.ledger.trans k.ledger, h.count, k.kid.trans h.kid, fun b => (congrArg Ctx.key (k.ctx b)).trans (h.keys b),
    by rw [k.mc]; exact h.inSync, h.data, h.checked⟩

/-- What the check of page `n` makes of the loop's state: one more page, or the read is refused. -/
theorem wp_verifyNext {s v x : State} {m : MultiRead} {a base : Word} {counters pages : List Bytes} {n rest : Nat}
    {done b : Bytes} (hm : m.signed = true) (h : PagesRead s v m.opc a base counters pages n done)
    (hp : PreparedFor s v base n)
    (hnext : rest ≠ 0 → PreparedFor s v base (n + 1) ∧ tickValue v = base + BitVec.ofNat 32 (n + 2))
    (hx : Reads v x [] [b]) (hb : b.length = 44) :
    wp (orFailMulti (verifyPage m (pageAddr a n) (s.pageSlot n) b) done m.size)
      (fun p t => PagesRead s t m.opc a base counters (pages ++ [b]) (n + 1) (done ++ p)
        ∧ (rest ≠ 0 → PreparedFor s t base (n + 1) ∧ tickValue t = base + BitVec.ofNat 32 (n + 2)))
      (Raised fun st t => Plain s.cfg st ∨ st = .securityErr ∧ Refused s t m a base counters (n + (rest + 1))) x := by
  have hr : (pages ++ [b])[n]? = some b := by
    rw [← h.count]
    exact List.getElem?_concat_length
  have hkid : x.kid = s.kid := hx.kid.trans h.kid
  have hder : DerivedFrom s (x.ctx (s.pageSlot n)) (s.ctx (s.pageSlot n)).key (base + BitVec.ofNat 32 n) := by
    rw [hx.ctx]
    exact hp
  have hl : ∀ p, Ledger v (x.pageVerified m (pageAddr a n) (s.pageSlot n) p) [] [b] 1 := fun p => by
    simpa using hx.ledger.trans (ledger_pageVerified x (pageAddr a n) (s.pageSlot n) p hm)
  refine wp_mono (wp_orFailMulti (wp_verifyPage_signed (pageAddr a n) (s.pageSlot n) b x hm) (R' := fun st t =>
    Plain s.cfg st ∨ st = .securityErr ∧ Refused s t m a base counters (n + (rest + 1))) ?_) ?_ fun _ _ h => h
  · rintro st u t (rfl | ⟨rfl, p, rfl, hv⟩) hread _ hbuf
    · exact .inl ⟨by decide, fun _ => by decide⟩
    · have hcheck := hv.checked hkid hder hr hb
      refine .inr ⟨rfl, n, pages ++ [b], done, by omega, ?_, by simp [h.count], ⟨p, hcheck⟩, h.data,
        fun i hi => (h.checked i hi).append, ?_⟩
      · simpa using (h.ledger.trans (hl p)).trans hread.ledger
      · rw [hbuf rfl, (h.ledger.trans (hl p)).cfg]
  · rintro p t ⟨rfl, hv⟩
    obtain ⟨hcfg, _, hmc, hkid', hkey0, hkey1, _, _, _, _, _, _, hother, _⟩ :=
      pageVerified_frame x m (pageAddr a n) (s.pageSlot n) p
    have hkeys : ∀ c, ((x.pageVerified m (pageAddr a n) (s.pageSlot n) p).ctx c).key = (v.ctx c).key := fun c => by
      cases c
      · exact hkey0.trans (congrArg Ctx.key hx.ctx0)
      · exact hkey1.trans (congrArg Ctx.key hx.ctx1)
    refine ⟨h.snoc (hl p) (hkid'.trans hx.kid) hkeys ?_ (hv.checked hkid hder hr hb), fun hrest => ⟨?_, ?_⟩⟩
    · rw [hmc, hx.mc]
      exact h.inSync
    · unfold PreparedFor
      rw [pageSlot_succ, hother, hx.ctx, ← pageSlot_succ]
      exact (hnext hrest).1
    · rw [tickValue_congr hcfg hmc, tickValue_congr hx.ledger.cfg hx.mc]
      exact (hnext hrest).2

/-- The loop of an authenticated read: it ends with every page in order, or at the first one that is refused. -/
theorem wp_pagesLoop_checked {s : State} {m : MultiRead} {a base : Word} {counters : List Bytes} (hm : m.signed = true)
    (hlen : m.len = 44) (rest : Nat) {u : State} {n : Nat} {pages : List Bytes} {done : Bytes}
    (h : PagesRead s u m.opc a base counters pages n done)
    (hn : rest ≠ 0 → PreparedFor s u base n ∧ tickValue u = base + BitVec.ofNat 32 (n + 1)) :
    wp (pagesLoop m rest (pageAddr a n) (s.pageSlot n) done)
      (fun out t => ∃ pages', PagesRead s t m.opc a base counters pages' (n + rest) out)
      (Raised fun st t => Plain s.cfg st ∨ st = .securityErr ∧ Refused s t m a base counters (n + rest)) u := by
  induction rest generalizing u n pages done with
  | zero => exact ⟨pages, h⟩
  | succ rest ih =>
    obtain ⟨hp, htick⟩ := hn (Nat.succ_ne_zero rest)
    refine wp_bind.2 (wp_mono (wp_prepareNext (rest := rest) h hp htick) ?_ fun _ _ k => k.mono fun _ => .inl)
    rintro _ v ⟨hv, hpv, hnext⟩
    have hcfg : v.cfg = s.cfg := hv.ledger.cfg
    refine wp_bind.2 (wp_mono (wp_orFailMulti (wp_secureOrRaise (s := v) (b := true) [] m.len (.inl rfl))
      fun st _ _ hst _ _ _ => Or.inl (plain_of_secure hst)) ?_ fun _ _ k => k)
    rintro ⟨r, sv⟩ w ⟨hw, _, hlenr⟩
    have hstart : wp (onlyIf (rest != 0) (orFailMulti (startRead (!s.pageSlot n)) done m.size))
        (fun _ x => Reads w x [] [])
        (Raised fun st t => Plain s.cfg st ∨ st = .securityErr ∧ Refused s t m a base counters (n + (rest + 1))) w :=
      wp_onlyIf (fun _ => wp_orFailMulti (wp_startRead _ w) fun st _ _ hst _ _ _ =>
        .inl (by rwa [hw.ledger.cfg, hcfg] at hst)) fun _ => .refl w
    refine wp_bind.2 (wp_mono hstart (fun _ x hx => ?_) fun _ _ k => k)
    refine wp_bind.2 (wp_mono (wp_checkPage sv done m.size x) (fun _ y hy => ?_) fun _ _ k => k.mono fun st k => ?_)
    · subst hy
      cases r with
      | none => exact trivial
      | some b =>
        have hread : Reads v y [] [b] := by
          have hgot := hw.trans hx
          rw [hlen] at hgot
          exact hgot
        refine wp_bind.2 (wp_bind.2 (wp_mono (wp_verifyNext (rest := rest) hm hv hpv hnext hread
          ((hlenr b rfl).trans hlen)) ?_ fun _ _ k => k))
        rintro p t ⟨ht, htn⟩
        have hloop := ih ht htn
        rw [Nat.add_right_comm n 1 rest, ← pageAddr_succ, pageSlot_succ] at hloop
        exact hloop
    · rw [hx.ledger.cfg, hw.ledger.cfg, hcfg] at k
      exact .inl k.1

end Sys2Proof.Machine

/-! # What SARD and SARD_MULTI end with, whatever the device does -/

namespace Sys2Proof.Machine

-- One proof at a time: proofs elaborated in parallel take a thread each, and the check bounds their memory.
set_option Elab.async false

open Config (Answer Event)

/-! ## SARD_MULTI -/

theorem firstTick_of {s : State} {counters : List Bytes} {base : Word} {new : List Event} (h : FirstRead s counters base)
    (hnew : responses s.cfg 8 new = counters) : firstTick s new base := by
  obtain ⟨hsync, hread⟩ := h
  refine ⟨fun hs => (hsync hs).2, fun hs => ?_⟩
  obtain ⟨r, hr, hb⟩ := hread hs
  exact ⟨r, hnew.trans hr, hb⟩

/-- An authenticated multi-block read ends with every page in order, or at the first one that is refused. -/
theorem wp_readMulti_checked {s : State} {m : MultiRead} (a : Word) (hm : m.signed = true) (hlen : m.len = 44) :
    wp (readMulti m a) (fun _ t => ∃ counters base pages,
        FirstRead s counters base ∧ PagesRead s t m.opc a base counters pages (m.size / 32) t.out.rbuf)
      (Raised fun st t => Plain s.cfg st ∨ st = .securityErr ∧ ∃ counters base,
        FirstRead s counters base ∧ Refused s t m a base counters (m.size / 32)) s.begun := by
  refine wp_bind.2 (wp_bind.2 (wp_mono (wp_prepRead m.opc a s.ctxIdx s.begun) ?_ fun _ _ k => k.mono fun _ => .inl))
  rintro _ u ⟨cs, base, hfirst, hl, hkid, hsync, htick, hder, hother, hkey, _⟩
  have hfirst' : FirstRead s cs base := hfirst
  have hkeys : ∀ c, (u.ctx c).key = (s.ctx c).key := fun c => by
    by_cases hc : c = s.ctxIdx
    · subst hc
      exact hkey
    · rw [show c = !s.ctxIdx from Bool.eq_not_of_ne hc]
      exact congrArg Ctx.key hother
  have hu : PagesRead s u m.opc a base cs [] 0 [] :=
    ⟨⟨hl.cfg, hl.events⟩, rfl, hkid, hkeys, hsync, rfl, nofun⟩
  have hcfg : u.cfg = s.cfg := hl.cfg
  refine wp_bind.2 (wp_mono (wp_orFailMulti (wp_startRead s.ctxIdx u) fun st _ _ hst _ _ _ => .inl (by rwa [hcfg] at hst))
    (fun _ v hv => ?_) fun _ _ k => k)
  have hready : PreparedFor s v base 0 ∧ tickValue v = base + BitVec.ofNat 32 (0 + 1) := by
    refine ⟨?_, ?_⟩
    · unfold PreparedFor
      rw [pageSlot_zero, hv.ctx, BitVec.add_zero]
      exact hder
    · rw [tickValue_congr hv.ledger.cfg hv.mc]
      exact htick
  have hloop := wp_pagesLoop_checked hm hlen (m.size / 32) (hu.still hv) fun _ => hready
  rw [pageAddr_zero, pageSlot_zero, Nat.zero_add] at hloop
  refine wp_bind.2 (wp_mono hloop ?_ fun _ _ k => k.mono fun st hst => ?_)
  · rintro out t ⟨pages, ht⟩
    exact ⟨cs, base, pages, hfirst', ⟨⟨ht.ledger.cfg, ht.ledger.events⟩, ht.count, ht.kid, ht.keys, ht.inSync, ht.data,
      ht.checked⟩⟩
  · exact hst.imp_right fun ⟨he, hr⟩ => ⟨he, cs, base, hfirst', hr⟩

/-- How an authenticated multi-block read that ends in the idle phase has ended. -/
theorem exec_sardMulti_idle {s t : State} {a size : Word} (hrun : exec (.sardMulti a size) s = .next t) (ht : t.seq = .idle) :
    (∃ st, (st = .notConnected ∨ st = .parameterErr) ∧ t = { s with status := st, seq := .idle })
      ∨ (∃ u counters base pages, multiOk a size = true ∧ FirstRead s counters base
        ∧ PagesRead s u s.cfg.wire.sard a base counters pages (size.toNat / 32) u.out.rbuf ∧ t = complete .ok u)
      ∨ (∃ st u, Plain s.cfg st ∧ t = complete st u)
      ∨ (∃ u counters base, FirstRead s counters base
        ∧ Refused s u ⟨s.cfg.wire.sard, 44, true, size.toNat⟩ a base counters (size.toNat / 32)
        ∧ t = complete .securityErr u)
      ∨ ∃ u : State, t = u.blockReset := by
  have hm : (Instr.sardMulti a size, (⟨s.cfg.wire.sard, 44, true, size.toNat⟩ : MultiRead)) ∈ multiReads s a size :=
    List.mem_cons_of_mem _ List.mem_cons_self
  rcases exec_multi_idle hm hrun ht (fun _ hok => wp_mono (wp_readMulti_checked (s := s) a rfl rfl)
    (fun _ _ h => And.intro hok h) fun _ _ h => h) with hst | ⟨u, ⟨hok, cs, base, pages, hf, hp⟩, rfl⟩ | ⟨st, u, hst, rfl⟩ | hr
  · exact .inl hst
  · exact .inr (.inl ⟨u, cs, base, pages, hok, hf, hp, rfl⟩)
  · rcases hst with hst | ⟨rfl, cs, base, hf, hr⟩
    · exact .inr (.inr (.inl ⟨st, u, hst, rfl⟩))
    · exact .inr (.inr (.inr (.inl ⟨u, cs, base, hf, hr, rfl⟩)))
  · exact .inr (.inr (.inr (.inr hr)))

/-- Settles O52: an induction over the pages, whatever the device does; then the read refused after `k` pages in order. -/
theorem forgedPagesZeroed : Obligations.ForgedPagesZeroed := by
  unfold Obligations.ForgedPagesZeroed
  refine ⟨fun s t a size hrun ht hst => ?_, ?_⟩
  · rcases exec_sardMulti_idle hrun ht with ⟨st, hst', rfl⟩ | ⟨u, _, _, _, _, _, _, rfl⟩ | ⟨st, u, hplain, rfl⟩
      | ⟨u, cs, base, hfirst, hr, rfl⟩ | ⟨u, rfl⟩
    · rcases hst' with rfl | rfl <;> exact Status.noConfusion hst
    · exact Status.noConfusion hst
    · exact absurd hst hplain.1
    · obtain ⟨k, pages, done, hk, ⟨_, new, htrace, hcs, hps, hsigs⟩, hcount, hbad, hdone, hgood, hbuf⟩ := hr
      subst hps
      have hbuf' : (complete .securityErr u).out.rbuf = zeroedOutput s.cfg.multiZero done size.toNat := hbuf
      have hk' : 32 * k < size.toNat := by omega
      refine ⟨k, new, base, htrace, hk', firstTick_of hfirst hcs, hcount, hsigs, hbad, ?_, fun hz => ?_, fun hz => ?_⟩
      · rw [hbuf']
        unfold zeroedOutput
        split
        · rw [List.length_append, List.length_replicate, hdone]
          omega
        · exact List.length_replicate
      · rw [hbuf', hz]
        rfl
      · have hrem : (complete .securityErr u).out.rbuf = done ++ List.replicate (size.toNat - 32 * k) 0 := by
          rw [hbuf', hz, ← hdone]
          rfl
        rw [hrem]
        refine ⟨by rw [← hdone, List.drop_left], fun n hn => ?_⟩
        rw [pageOfBuffer_append_left hdone hn]
        exact hgood n hn
    · exact Status.noConfusion hst
  · intro s a size pages p w rest m k more hp hg hpage he hfresh hsig hw ha
    obtain ⟨t, hrun, hst, hab, hmc, hout, hbuf⟩ := exec_sardMulti_forged rfl hp hg hpage he hfresh hsig hw ha
    have hlen := length_pagesData m (Nat.le_add_left 36 8) pages s a s.ctxIdx hg
    refine ⟨t, hrun, hst, hab, hmc, hout, hbuf.trans ?_⟩
    cases s.cfg.multiZero
    case remaining => exact congrArg (fun n => pagesData s s.ctxIdx pages ++ List.replicate (size.toNat - n) 0) hlen
    case all => rfl

/-! ## SARD -/

/-- `SARD` past its boundary checks (rule R223). -/
def sardRead (opc : Byte) (a : Word) (slot : Bool) : M Unit := do
  let (r, p) ← readPage opc a slot 44
  let good ← pageSigned opc a slot p r
  if good then setRbuf p
  else do
    setRbuf (List.replicate Config.pageSize 0)
    raise .securityErr

theorem keeps_sardRead (s : State) (a : Word) :
    Keeps (fun t => t.cfg = s.cfg) s.begun.atomic s.begun.atomic (sardRead s.cfg.wire.sard a s.ctxIdx) := by
  have S := (cfg_stableAll s).stable
  refine .bind_val (V := fun r => r.2.length = 32) (fun u hu ha => S.readPage_val (by decide) (fun hwf => ?_) hu ha)
    fun r hr => .bind (S.pageSigned hr) fun good => ?_
  · rw [show u.cfg = s.cfg from hu] at hwf ⊢
    exact (wire_ne_setScr hwf).2.2.2
  · split
    · exact S.setRbuf _
    · exact .bind (S.setRbuf _) fun _ => .raise _

/-- A SARD that ends in the idle phase: refused at its boundary, or as the procedure ends. -/
theorem exec_sard_idle {s t : State} {a : Word} {Q : Unit → State → Prop} {R : Status → State → Prop}
    (hrun : exec (.sard a) s = .next t) (ht : t.seq = .idle)
    (h : wp (sardRead s.cfg.wire.sard a s.ctxIdx) Q (Raised R) s.begun) :
    (∃ st, (st = .notConnected ∨ st = .parameterErr) ∧ t = { s with status := st, seq := .idle })
      ∨ (∃ u, Q () u ∧ t = complete .ok u) ∨ (∃ st u, R st u ∧ t = complete st u) ∨ ∃ u : State, t = u.blockReset := by
  have hexec : exec (.sard a) s = execSard a s := rfl
  rcases Bool.eq_false_or_eq_true s.busIsLocked with hb | hb
  · rcases Bool.eq_false_or_eq_true (addrOk a) with hok | hok
    · rw [exec_sard_passes hb hok] at hrun
      exact .inr (runOp_idle h (keeps_sardRead s a) rfl hrun ht)
    · rw [hexec, execSard, runOp_passes hb, runOp_refused hok] at hrun
      cases hrun
      exact .inl ⟨.parameterErr, .inr rfl, rfl⟩
  · rw [hexec, execSard, runOp_refused hb] at hrun
    cases hrun
    exact .inl ⟨.notConnected, .inl rfl, rfl⟩

theorem wp_pageSigned {Q : Bool → State → Prop} {E : Stop → State → Prop} (opc : Byte) (a : Word) (slot : Bool) (p r : Bytes)
    {s : State} (h : ∀ t, t = (s.withCtx slot { s.ctx slot with sctag := mkCtagAddr opc (a.setWidth 24), sdata := p }).called
      [.calcAuthSignature] →
      Q (signatureOf (s.ctx slot).ssk s.kid (mkCtagAddr opc (a.setWidth 24)) p == r.drop 36) t) :
    wp (pageSigned opc a slot p r) Q E s :=
  (wp_ok (run_pageSigned s opc a slot p r)).2 (h _ rfl)

/-- A page read raises no `SECURITY_ERR`. -/
theorem raises_readPage (opc : Byte) (a : Word) (slot : Bool) (len : Nat) :
    Raises (· ≠ .securityErr) (readPage opc a slot len) := by
  have hdevice : ∀ st : Status, st.ofDevice = true → st ≠ .securityErr := fun st h e => by
    subst e
    exact absurd h (by decide)
  have hprep : Raises (· ≠ .securityErr) (prepRead opc a slot) :=
    .bind (.modify _) fun _ => .bind (fun s => (wp_ok (run_drawAddr s a)).2 trivial) fun _ =>
      .bind (raises_useMc (by decide) (by decide) hdevice) fun _ _ => trivial
  refine .bind hprep fun _ => .look fun _ => .bind (raises_secureOrRaise (by decide) (by decide)) fun _ =>
    .bind (raises_checkAllOrRaise hdevice) fun _ => .bind .present fun _ => .bind (.modify _) fun _ =>
      .look fun _ => .bind (.require (by decide)) fun _ _ => trivial

/-- A SARD that raises `SECURITY_ERR` has zeroed its output. -/
theorem wp_sardRead_zeroed (opc : Byte) (a : Word) (slot : Bool) (s : State) :
    wp (sardRead opc a slot) (fun _ _ => True)
      (Raised fun st t => st = .securityErr → t.out.rbuf = List.replicate 32 0) s := by
  refine wp_bind.2 (wp_mono ((raises_readPage opc a slot 44).raised s) ?_ fun _ _ h => h.mono fun _ k e => absurd e k)
  rintro ⟨r, p⟩ t _
  refine wp_bind.2 (wp_pageSigned opc a slot p r fun u _ => ?_)
  split
  · trivial
  · exact fun _ => rfl

/-- The page read of a SARD: one response, fresh and decrypted with the key of the tick. -/
theorem wp_readPage_checked {s : State} (hwf : paramsWf s.cfg = true) (a : Word) :
    wp (readPage s.cfg.wire.sard a s.ctxIdx 44) (fun x t => ∃ counters base, FirstRead s counters base
        ∧ Ledger s t counters [x.1] 0 ∧ x.1.length = 44 ∧ t.kid = s.kid
        ∧ DerivedFrom s (t.ctx s.ctxIdx) (s.ctx s.ctxIdx).key base ∧ echoedTc x.1 = (t.ctx s.ctxIdx).tc - 1
        ∧ x.2 = cipherPage (t.ctx s.ctxIdx).cipherKey (pageOf x.1))
      (Raised fun st _ => Plain s.cfg st) s.begun := by
  refine wp_bind.2 (wp_mono (wp_prepRead s.cfg.wire.sard a s.ctxIdx s.begun) ?_ fun _ _ k => k)
  rintro _ t ⟨cs, base, hfirst, hl, hkid, _, _, hder, _, _, hopc⟩
  have hcfg : t.cfg = s.cfg := hl.cfg
  have hchain : Unchained t.cfg (t.ctx s.ctxIdx).ctagW true := by
    refine .inr (.inr (.inl ?_))
    rw [hopc, hcfg]
    exact (wire_ne_setScr hwf).2.2.2
  refine wp_bind.2 (wp_bind.2 (wp_mono (wp_secureOrRaise [] 44 hchain) ?_ fun _ _ k => k.mono fun _ => plain_of_secure))
  rintro ⟨r, sv⟩ u ⟨hu, _, hlen⟩
  have hcfgu : u.cfg = s.cfg := hu.ledger.cfg.trans hcfg
  refine wp_bind.2 (wp_mono (wp_checkAllOrRaise (sv := sv) (s := u) (by rw [hcfgu]; exact hwf)) ?_
    fun _ _ k => k.mono fun st k => by rwa [hcfgu] at k)
  rintro _ v ⟨hv, _⟩
  cases r with
  | none => exact trivial
  | some b =>
    have hread : Reads t v [] [b] := hu.trans hv
    have hctx : v.ctx s.ctxIdx = t.ctx s.ctxIdx := hread.ctx _
    have hledger : Ledger s v cs [b] 0 := by
      have hl' := hl.trans hread.ledger
      exact ⟨hl'.cfg, by simpa using hl'.events⟩
    refine wp_bind.2 (wp_bind.2 (wp_bind.2 (wp_bind.2 (wp_require (fun hf => ?_) fun _ => ?_))))
    · have hfresh : echoedTc b = (v.ctx s.ctxIdx).tc - 1 := beq_iff_eq.1 hf
      refine ⟨cs, base, hfirst, ?_, hlen b rfl, hread.kid.trans hkid, ?_, hfresh, rfl⟩
      · have hcipher : Ledger v (({ v with seq := .verify } : State).called [.cipher]) [] [] 0 :=
          ⟨rfl, [_], rfl, rfl, rfl, rfl⟩
        have hlast := hledger.trans hcipher
        exact ⟨hlast.cfg, by simpa using hlast.events⟩
      · show DerivedFrom s (v.ctx s.ctxIdx) _ _
        rw [hctx]
        exact hder
    · exact ⟨by decide, fun _ => by decide⟩

/-- What a SARD has checked when it returns, or refuses the page. -/
def SardChecked (s t : State) (a : Word) (good : Bool) : Prop :=
  ∃ counters base r p, FirstRead s counters base ∧ Ledger s t counters [r] 1
    ∧ CheckedBy s s.cfg.wire.sard a [r] base 0 p good ∧ t.out.rbuf = if good then p else List.replicate 32 0

theorem wp_sardRead_checked {s : State} (hwf : paramsWf s.cfg = true) (a : Word) :
    wp (sardRead s.cfg.wire.sard a s.ctxIdx) (fun _ t => SardChecked s t a true)
      (Raised fun st t => Plain s.cfg st ∨ st = .securityErr ∧ SardChecked s t a false) s.begun := by
  refine wp_bind.2 (wp_mono (wp_readPage_checked hwf a) ?_ fun _ _ k => k.mono fun _ => .inl)
  rintro ⟨r, p⟩ t ⟨cs, base, hfirst, hl, hlen, hkid, hder, hfresh, hp⟩
  refine wp_bind.2 (wp_pageSigned s.cfg.wire.sard a s.ctxIdx p r fun u hu => ?_)
  have hlu : Ledger s u cs [r] 1 := by
    have hsig : Ledger t u [] [] 1 := by
      subst hu
      generalize s.ctxIdx = slot
      cases slot <;> exact ⟨rfl, [_], rfl, rfl, rfl, rfl⟩
    simpa using hl.trans hsig
  have hcheck : ∀ good, (signatureOf (t.ctx s.ctxIdx).ssk t.kid (mkCtagAddr s.cfg.wire.sard (a.setWidth 24)) p
      == r.drop 36) = good → CheckedBy s s.cfg.wire.sard a [r] base 0 p good := fun good hgood => by
    have hv : Verdict t s.cfg.wire.sard (pageAddr a 0) (s.pageSlot 0) r p good := by
      rw [pageAddr_zero, pageSlot_zero]
      exact ⟨hfresh, hp, by rw [BEq.comm]; exact hgood.symm⟩
    refine hv.checked hkid ?_ rfl hlen
    rw [pageSlot_zero, BitVec.add_zero]
    exact hder
  cases hgood : (signatureOf (t.ctx s.ctxIdx).ssk t.kid (mkCtagAddr s.cfg.wire.sard (a.setWidth 24)) p == r.drop 36)
  · exact .inr ⟨rfl, cs, base, r, p, hfirst, ⟨hlu.cfg, hlu.events⟩, hcheck false hgood, rfl⟩
  · exact ⟨cs, base, r, p, hfirst, ⟨hlu.cfg, hlu.events⟩, hcheck true hgood, rfl⟩

/-- Settles O49, by what each run of the two reads has on record when it ends. -/
theorem forgedPageNeverDelivered : Obligations.ForgedPageNeverDelivered := by
  unfold Obligations.ForgedPageNeverDelivered
  refine ⟨fun s t a hrun ht hst => ?_, fun s t a hwf hrun ht hst => ?_, fun s t a size hwf hrun ht hst hlock => ?_⟩
  · rcases exec_sard_idle hrun ht (wp_sardRead_zeroed s.cfg.wire.sard a s.ctxIdx s.begun) with ⟨st, hst', rfl⟩ | ⟨u, _, rfl⟩
      | ⟨st, u, hu, rfl⟩ | ⟨u, rfl⟩
    · rcases hst' with rfl | rfl <;> exact Status.noConfusion hst
    · exact Status.noConfusion hst
    · exact hu hst
    · exact Status.noConfusion hst
  · have hend : ∀ u st good, SardChecked s u a good → good = (st == .ok) →
        ∃ new base p, (complete st u).env.trace = new ++ s.env.trace ∧ firstTick s new base
          ∧ (responses s.cfg 44 new).length = 1 ∧ signaturesMade new = 1
          ∧ pageChecked s s.cfg.wire.sard a new base 0 p ((complete st u).status == .ok)
          ∧ (complete st u).out.rbuf = if (complete st u).status = .ok then p else List.replicate 32 0 := by
      rintro u st good ⟨cs, base, r, p, hfirst, ⟨_, new, htrace, hcs, hps, hsigs⟩, hcheck, hbuf⟩ rfl
      rw [← hps, ← pageChecked_iff] at hcheck
      refine ⟨new, base, p, htrace, firstTick_of hfirst hcs, by rw [hps]; rfl, hsigs, hcheck, hbuf.trans ?_⟩
      simp only [beq_iff_eq]
      rfl
    rcases exec_sard_idle hrun ht (wp_sardRead_checked hwf a) with ⟨st, hst', rfl⟩ | ⟨u, hu, rfl⟩
      | ⟨st, u, hu, rfl⟩ | ⟨u, rfl⟩
    · rcases hst' with rfl | rfl <;> rcases hst with ⟨h, _⟩ | h <;> exact Status.noConfusion h
    · exact hend u .ok true hu rfl
    · rcases hu with hplain | ⟨rfl, hu⟩
      · rcases hst with ⟨h, _⟩ | h
        · exact absurd h (hplain.2 hwf)
        · exact absurd h hplain.1
      · exact hend u .securityErr false hu rfl
    · rcases hst with ⟨_, h⟩ | h
      · exact Bool.noConfusion h
      · exact Status.noConfusion h
  · rcases exec_sardMulti_idle hrun ht with ⟨st, hst', rfl⟩ | ⟨u, cs, base, pages, hok, hfirst, hp, rfl⟩
      | ⟨st, u, hplain, rfl⟩ | ⟨u, _, _, _, _, rfl⟩ | ⟨u, rfl⟩
    · rcases hst' with rfl | rfl <;> exact Status.noConfusion hst
    · obtain ⟨⟨_, new, htrace, hcs, hps, hsigs⟩, hcount, _, _, _, hdata, hchecked⟩ := hp
      subst hps
      have h32 : size.toNat % 32 = 0 := (of_decide_eq_true (Bool.and_eq_true_iff.1 hok).2).2.1
      refine ⟨new, base, htrace, firstTick_of hfirst hcs, hcount, hsigs, ?_, hchecked⟩
      show u.out.rbuf.length = size.toNat
      omega
    · exact absurd hst (hplain.2 hwf)
    · exact Status.noConfusion hst
    · exact Bool.noConfusion hlock

end Sys2Proof.Machine

/-! # What CALC_SIG delivers is signed, whatever the device does (rule R180) -/

namespace Sys2Proof.Machine

-- One proof at a time: proofs elaborated in parallel take a thread each, and the check bounds their memory.
set_option Elab.async false

open Config (Answer Event)

/-- `sign_data` with a fresh key: the signature is the one over what the current context holds afterwards. -/
theorem signature_eq_of_signed (s : State) (ctag : Word) (data : Bytes) :
    let t := s.signed ctag data true
    signature s ctag data true = signatureOf (t.ctx t.ctxIdx).ssk t.kid ctag (padPage data) := by
  rcases s with ⟨_, _, _, _, _, _, _, _, _, _, _, slot, _, _, _, _, _, _⟩
  cases slot <;> rfl

/-- A CALC_SIG that returns has delivered data with the signature it computed over them. -/
theorem wp_runCalcSig {s : State} (hwf : paramsWf s.cfg = true) (dtype sect : Byte) (size : Nat) :
    wp (runCalcSig dtype sect size) (fun _ t => t.out.sigOut =
        signatureOf (t.ctx t.ctxIdx).ssk t.kid (calcSigCtag s.cfg dtype sect) (padPage t.out.rbuf))
      (Raised fun st _ => st ≠ .ok) s := by
  refine wp_bind.2 (wp_bind.2 (wp_mono (wp_useMc s) ?_ fun _ _ k => k.mono fun _ k => k.2 hwf))
  rintro _ t ⟨_, _, hl, _⟩
  have hcfg : t.cfg = s.cfg := hl.cfg
  have hchain : Unchained t.cfg (calcSigCtag s.cfg dtype sect) true := by
    refine .inr (.inr (.inl ?_))
    rw [ctagOpc_calcSigCtag, hcfg]
    exact (wire_ne_setScr hwf).2.1
  refine wp_bind.2 (wp_mono (wp_secureOrRaise [] 44 hchain) ?_ fun _ _ k => k.mono fun _ k => (plain_of_secure k).2 hwf)
  rintro ⟨r, sv⟩ u ⟨hu, _, _⟩
  have hcfgu : u.cfg = s.cfg := hu.ledger.cfg.trans hcfg
  refine wp_bind.2 (wp_mono (wp_checkAllOrRaise (sv := sv) (s := u) (by rw [hcfgu]; exact hwf)) ?_
    fun _ _ k => k.mono fun _ k => k.2 (by rw [hcfgu]; exact hwf))
  rintro _ v -
  cases r with
  | none => exact trivial
  | some b =>
    refine wp_bind.2 (wp_bind.2 (wp_bind.2 ?_))
    refine (wp_ok (run_signData { v with seq := .verify } _ _ true)).2 ?_
    refine wp_bind.2 (wp_require (fun hsig => ?_) fun _ => (nofun : Status.securityErr ≠ .ok))
    refine wp_bind.2 (wp_bind.2 (wp_require (fun _ => ?_) fun _ => (nofun : Status.systemInIncorrectState ≠ .ok)))
    exact (beq_iff_eq.1 hsig).symm.trans (signature_eq_of_signed _ _ _)

/-- Settles O45, by what CALC_SIG has done when it returns; every status it raises is another than `OK`. -/
theorem getterOnlyDeliversSigned : Obligations.GetterOnlyDeliversSigned := by
  unfold Obligations.GetterOnlyDeliversSigned
  intro s t size sect dtype hwf hrun ht hst hlock
  have hexec : exec (.calcSig size sect dtype) s = signedGetter dtype sect size s := rfl
  rcases Bool.eq_false_or_eq_true s.busIsLocked with hb | hb
  · rcases Bool.eq_false_or_eq_true (dataFits size && isDataType dtype && sectionOk s sect) with hok | hok
    · rw [hexec, signedGetter, runOp_passes hb, runOp_passes hok, runOp_begins] at hrun
      rcases runOp_idle (wp_runCalcSig (s := s.begun) hwf dtype sect size.toNat) ((cfg_stableAll s).stable.runCalcSig) rfl hrun
        ht with ⟨u, hu, rfl⟩ | ⟨st, u, hne, rfl⟩ | ⟨u, rfl⟩
      · exact hu
      · exact absurd hst hne
      · exact Bool.noConfusion hlock
    · rw [hexec, signedGetter, runOp_passes hb, runOp_refused hok] at hrun
      cases hrun
      exact Status.noConfusion hst
  · rw [hexec, signedGetter, runOp_refused hb] at hrun
    cases hrun
    exact Status.noConfusion hst

end Sys2Proof.Machine
